-- ==== Sys2Proof/Word.lean ====
section
/-! DEFINITION. The word types: a register of the block (R14) and a byte of a buffer (R40). -/

namespace Sys2Proof

/-- A 32-bit register or command word (R14, R60). -/
abbrev Word := BitVec 32

/-- A byte of IBUF, OBUF or WIN (R34, R41, R42). -/
abbrev Byte := BitVec 8

end Sys2Proof
end

