-- ==== Sys2Proof/Config.lean ====
section
/-! DEFINITION. What an implementation fixes (00_scope.md R8; 93 I9–I11) and the free values (93 I4,
I15). The constants below have no body: nothing can be proved of their values. -/

namespace Sys2Proof

/-- The three implementation parameters of R8. State holds a copy that no step changes, so every
statement over all states takes them as arguments. -/
structure Params where
  /-- IBUF_SIZE, the capacity of the input buffer in bytes. -/
  ibufSize : Nat
  /-- OBUF_SIZE, the capacity of the output buffer in bytes. -/
  obufSize : Nat
  /-- BASE, the host address of the block's window. -/
  base : Nat
deriving DecidableEq, Repr

/-- The constraints of R8, all a model may assume of the parameters. -/
abbrev Params.ok (p : Params) : Prop :=
  1 ≤ p.ibufSize ∧ p.ibufSize ≤ 2 ^ 24 ∧ 1 ≤ p.obufSize ∧ p.obufSize ≤ 2 ^ 24 ∧ p.base % 2 ^ 26 = 0

/-- Any natural number; it picks IBUF_SIZE (log entry 3). -/
opaque Config.ibufDraw : Nat

/-- Any natural number; it picks OBUF_SIZE (log entry 3). -/
opaque Config.obufDraw : Nat

/-- Any natural number; it picks BASE (log entry 3). -/
opaque Config.baseDraw : Nat

/-- The parameters of the machine after reset. As the draws range over the naturals, these range over
exactly the values R8 allows. -/
def Config.params : Params where
  ibufSize := Config.ibufDraw % 2 ^ 24 + 1
  obufSize := Config.obufDraw % 2 ^ 24 + 1
  base := Config.baseDraw * 2 ^ 26

/-- FREE VALUE (log entry 5): what the n-th read of an unspecified register or buffer byte during a
command returns (R246, 93 I4). -/
opaque Config.busyRead : Nat → Word

end Sys2Proof
end

