-- ==== Sys2Proof/Machine/Constants.lean ====
section
/-! DEFINITION. The architectural constants of 00_scope.md R6 and R7. -/

namespace Sys2Proof.Machine

/-- `W` (R6): the window size, and the modulus of tree slots. -/
def windowSize : Nat := 65536

/-- `F` (R6): the lookahead length, the longest match the finder reports. -/
def lookahead : Nat := 256

/-- `THRESH` (R6): BREAK_EVEN, the shortest match. -/
def thresh : Nat := 3

/-- `NEAR` (R6): a length-3 match is accepted only up to this distance. -/
def near : Nat := 4096

/-- `RAWD` (R6): the width of the raw distance field of a length-3 match. -/
def rawDistBits : Nat := 12

/-- `EOS` (R6): the end-of-stream symbol of the literal/length alphabet. -/
def eosSymbol : Nat := 256

/-- `LSYM0` (R7): the symbol of length slot 0; slot `k` is symbol `257 + k` (R79). -/
def lenSymbol0 : Nat := 257

/-- `MAXCL_ENC` (R6): the longest code length the serialiser writes. -/
def maxCodeLenEnc : Nat := 19

/-- `MAXCL_DEC` (R6): the longest code length the deserialiser can produce. -/
def maxCodeLenDec : Nat := 21

/-- `ROOT` (R7): the sentinel root index of the tree arrays. -/
def rootIndex : Nat := 65536

/-- `NIL` (R7): the link value that means "no node". -/
def nilLink : BitVec 17 := 0x1FFFF

/-- `ID_VALUE` (R7, R15): the value of the ID register, ASCII "LZSS". -/
def idValue : Word := 0x4C5A5353

end Sys2Proof.Machine
end

