-- ==== Sys2Proof/Machine/Alphabet.lean ====
section
/-! DEFINITION. The length and distance tables of 41_alphabet.md (R110–R114). They are constant: no
command writes them and reset does not touch them. -/

namespace Sys2Proof.Machine

/-- One row of a slot table: the slot's bounds and its number of extra bits. -/
structure SlotRow where
  lo : Nat
  hi : Nat
  nb : Nat
deriving DecidableEq, Repr

/-- R110: the 24 rows of the length table, slot 0 first. -/
def lenRows : List SlotRow :=
  [⟨3, 3, 0⟩, ⟨4, 4, 0⟩, ⟨5, 5, 0⟩, ⟨6, 6, 0⟩, ⟨7, 7, 0⟩, ⟨8, 8, 0⟩, ⟨9, 9, 0⟩, ⟨10, 10, 0⟩,
   ⟨11, 12, 1⟩, ⟨13, 14, 1⟩, ⟨15, 16, 1⟩, ⟨17, 18, 1⟩] ++
  [⟨19, 22, 2⟩, ⟨23, 26, 2⟩, ⟨27, 30, 2⟩, ⟨31, 34, 2⟩,
   ⟨35, 42, 3⟩, ⟨43, 50, 3⟩, ⟨51, 58, 3⟩, ⟨59, 66, 3⟩,
   ⟨67, 98, 5⟩, ⟨99, 130, 5⟩, ⟨131, 257, 7⟩, ⟨258, 258, 0⟩]

/-- R111: one row of the distance table, by the rule's formula.
PRESUMED (log entry 15): the spec itself takes these rows from general knowledge (93 G1). -/
def distRow (j : Nat) : SlotRow :=
  if j < 4 then ⟨j + 1, j + 1, 0⟩
  else
    let nb := j / 2 - 1
    let lo := (2 + j % 2) * 2 ^ nb + 1
    ⟨lo, lo + 2 ^ nb - 1, nb⟩

/-- R111: the 32 rows of the distance table, slot 0 first. -/
def distRows : List SlotRow := (List.range 32).map distRow

/-- R114 `RangeLen(k)`: the row of length slot `k`, for `k ≤ 23`. -/
def rangeLen (k : Nat) : Option SlotRow := lenRows[k]?

/-- R114 `RangeDist(j)`: the row of distance slot `j`, for `j ≤ 31`. -/
def rangeDist (j : Nat) : Option SlotRow := distRows[j]?

/-- The number of the first row of a table whose range holds the value. -/
def slotIn (rows : List SlotRow) (v : Nat) : Option Nat :=
  rows.findIdx? fun r => r.lo ≤ v && v ≤ r.hi

/-- R112 `LenSlot(L)`: `none` is the internal error LEN_RANGE. -/
def lenSlot (l : Nat) : Option Nat := slotIn lenRows l

/-- R113 `DistSlot(d)`: `none` is the internal error DIST_RANGE. -/
def distSlot (d : Nat) : Option Nat := slotIn distRows d

/-- `LO_len(k)` (R110); 0 where there is no slot `k`. -/
def loLen (k : Nat) : Nat := ((rangeLen k).map SlotRow.lo).getD 0

/-- `NB_len(k)` (R110); 0 where there is no slot `k`. -/
def nbLen (k : Nat) : Nat := ((rangeLen k).map SlotRow.nb).getD 0

/-- `LO_dist(j)` (R111); 0 where there is no slot `j`. -/
def loDist (j : Nat) : Nat := ((rangeDist j).map SlotRow.lo).getD 0

/-- `NB_dist(j)` (R111); 0 where there is no slot `j`. -/
def nbDist (j : Nat) : Nat := ((rangeDist j).map SlotRow.nb).getD 0

end Sys2Proof.Machine
end

