-- ==== Sys2Proof/Syntax.lean ====
section
/-! DEFINITION. The instructions: one constructor per row of spec/opcode_table.json, the 35 command
words of 30_encoding.md R63 and the nine stream elements of R70–R75. -/

namespace Sys2Proof

/-- The alphabet select `A` (R60, R61): `ll` is `A = 0`, literal/length; `ds` is `A = 1`, distance. -/
inductive Alphabet where
  | ll
  | ds
deriving DecidableEq, Repr

/-- One instruction. Commands carry only the alphabet bit: their operands are registers (R60, R64).
A stream element carries the numeric fields its row gives it. -/
inductive Instr where
  /-- 0x01 COMPRESS (R190). -/
  | compress
  /-- 0x02 EXPAND (R199). -/
  | expand
  /-- 0x10 BW_RESET (R95). -/
  | bwReset
  /-- 0x11 BW_WRITE_BITS (R96). -/
  | bwWriteBits
  /-- 0x12 BW_WRITE_BYTE (R97). -/
  | bwWriteByte
  /-- 0x13 BW_WRITE_EOF (R98). -/
  | bwWriteEof
  /-- 0x18 BR_RESET (R99). -/
  | brReset
  /-- 0x19 BR_READ_BITS (R100). -/
  | brReadBits
  /-- 0x1A BR_READ_BYTE (R101). -/
  | brReadByte
  /-- 0x20 LEN_SLOT (R115). -/
  | lenSlot
  /-- 0x21 DIST_SLOT (R116). -/
  | distSlot
  /-- 0x22 LEN_RANGE (R117). -/
  | lenRange
  /-- 0x23 DIST_RANGE (R118). -/
  | distRange
  /-- 0x30 MF_INIT (R170). -/
  | mfInit
  /-- 0x31 MF_INSERT (R171). -/
  | mfInsert
  /-- 0x32 MF_PROBE (R172). -/
  | mfProbe
  /-- 0x33 MF_DELETE (R173). -/
  | mfDelete
  /-- 0x34 MF_LONGEST (R174). -/
  | mfLongest
  /-- 0x35 TREE_READ (R175). -/
  | treeRead
  /-- 0x40 FREQ_CLEAR (R131). -/
  | freqClear (a : Alphabet)
  /-- 0x41 FREQ_INC (R132). -/
  | freqInc (a : Alphabet)
  /-- 0x42 FREQ_READ (R133). -/
  | freqRead (a : Alphabet)
  /-- 0x43 HUF_BUILD (R137). -/
  | hufBuild (a : Alphabet)
  /-- 0x44 HUF_CANON (R141). -/
  | hufCanon (a : Alphabet)
  /-- 0x45 HUF_SERIALIZE (R143). -/
  | hufSerialize (a : Alphabet)
  /-- 0x46 HUF_DESERIALIZE (R145). -/
  | hufDeserialize (a : Alphabet)
  /-- 0x47 HUF_TRIE (R147). -/
  | hufTrie (a : Alphabet)
  /-- 0x48 HUF_DECODE (R149). -/
  | hufDecode (a : Alphabet)
  /-- 0x49 HUF_ENCODE (R151). -/
  | hufEncode (a : Alphabet)
  /-- 0x4A CL_READ (R152). -/
  | clRead (a : Alphabet)
  /-- 0x4B CL_WRITE (R153). -/
  | clWrite (a : Alphabet)
  /-- 0x50 WIN_RESET (R195). -/
  | winReset
  /-- 0x51 WIN_PUT (R196). -/
  | winPut
  /-- 0x52 WIN_COPY (R197). -/
  | winCopy
  /-- 0x53 WIN_READ (R198). -/
  | winRead
  /-- CLE_SHORT (R70): a code length 1–14 in 4 bits. -/
  | cleShort (l : BitVec 4)
  /-- CLE_EXT1 (R70): a code length `15 + x`, `x` in 0–2. -/
  | cleExt1 (x : BitVec 2)
  /-- CLE_EXT2 (R70): a code length `18 + y`. -/
  | cleExt2 (y : BitVec 2)
  /-- CLE_ZRUN_LL (R71): `c + 1` literal/length symbols without a code. -/
  | cleZrunLl (c : BitVec 8)
  /-- CLE_ZRUN_D (R71): `c + 1` distance symbols without a code. -/
  | cleZrunD (c : BitVec 5)
  /-- LIT (R73): the literal byte `b`. -/
  | lit (b : Byte)
  /-- EOS (R73): the end of the stream. -/
  | eos
  /-- MATCH3 (R73, R75): a match of length 3 at distance `d + 1`. -/
  | match3 (d : BitVec 12)
  /-- MATCH (R73): length slot `k` with extra value `e`, distance slot `j` with extra value `x`. -/
  | matchSlot (k : BitVec 5) (e : BitVec 7) (j : BitVec 5) (x : BitVec 14)
deriving DecidableEq, Repr

end Sys2Proof
end

