-- ==== Sys2Proof/WellFormed.lean ====
section
/-! DEFINITION. Which instructions the encoding can express. Every command is well formed (R60); a
stream element is when its fields are in the ranges of R70, R73 and R74. -/

namespace Sys2Proof

/-- The check, constructor by constructor. CLE_SHORT: `1 ≤ L ≤ 14`; CLE_EXT1: `x ≤ 2` (R70). MATCH:
`1 ≤ k ≤ 23`, and each extra value fits its slot's field (R73, R74). -/
def wellFormed : Instr → Bool
  | .compress | .expand | .bwReset | .bwWriteBits | .bwWriteByte | .bwWriteEof => true
  | .brReset | .brReadBits | .brReadByte => true
  | .lenSlot | .distSlot | .lenRange | .distRange => true
  | .mfInit | .mfInsert | .mfProbe | .mfDelete | .mfLongest | .treeRead => true
  | .freqClear _ | .freqInc _ | .freqRead _ | .hufBuild _ | .hufCanon _ | .hufSerialize _ => true
  | .hufDeserialize _ | .hufTrie _ | .hufDecode _ | .hufEncode _ | .clRead _ | .clWrite _ => true
  | .winReset | .winPut | .winCopy | .winRead => true
  | .cleShort l => 1 ≤ l.toNat && l.toNat ≤ 14
  | .cleExt1 x => x.toNat ≤ 2
  | .cleExt2 _ => true
  | .cleZrunLl _ => true
  | .cleZrunD _ => true
  | .lit _ => true
  | .eos => true
  | .match3 _ => true
  | .matchSlot k e j x =>
    1 ≤ k.toNat && k.toNat ≤ 23 && e.toNat < 2 ^ Machine.nbLen k.toNat &&
      x.toNat < 2 ^ Machine.nbDist j.toNat

end Sys2Proof
end

