-- ==== Sys2Proof/Decode.lean ====
section
/-! DEFINITION. The decoder and, after it, the encoder. A command word is decoded by the opcode map
of R63 in the order of R66. A stream element is decoded by a `Parse`, the list of fields a reader
takes one after another (R72, R73, R148); the machine runs the same `Parse` over its bit reader. -/

namespace Sys2Proof

open Sys2Proof.Machine (loLen nbLen loDist nbDist eosSymbol lenSymbol0 rawDistBits)

/-! ## Alphabets -/

/-- `n_A` (R61): 281 literal/length symbols, 32 distance symbols. -/
def Alphabet.size : Alphabet → Nat
  | .ll => 281
  | .ds => 32

/-- `ZB[A]` (R6, R61): the width of the zero-run field. -/
def Alphabet.zb : Alphabet → Nat
  | .ll => 8
  | .ds => 5

/-! ## Command words -/

/-- The outcome of decoding a command word; the two rejections are the ones R62 names. -/
inductive Decoded where
  | ok (i : Instr)
  | reservedOpcode
  | reservedBits
deriving DecidableEq, Repr

/-- The opcode map of R63: whether the command takes an alphabet, and the command. -/
def commandOf (opc : Nat) (a : Alphabet) : Option (Bool × Instr) :=
  match opc with
  | 0x01 => some (false, .compress)
  | 0x02 => some (false, .expand)
  | 0x10 => some (false, .bwReset)
  | 0x11 => some (false, .bwWriteBits)
  | 0x12 => some (false, .bwWriteByte)
  | 0x13 => some (false, .bwWriteEof)
  | 0x18 => some (false, .brReset)
  | 0x19 => some (false, .brReadBits)
  | 0x1A => some (false, .brReadByte)
  | 0x20 => some (false, .lenSlot)
  | 0x21 => some (false, .distSlot)
  | 0x22 => some (false, .lenRange)
  | 0x23 => some (false, .distRange)
  | 0x30 => some (false, .mfInit)
  | 0x31 => some (false, .mfInsert)
  | 0x32 => some (false, .mfProbe)
  | 0x33 => some (false, .mfDelete)
  | 0x34 => some (false, .mfLongest)
  | 0x35 => some (false, .treeRead)
  | 0x40 => some (true, .freqClear a)
  | 0x41 => some (true, .freqInc a)
  | 0x42 => some (true, .freqRead a)
  | 0x43 => some (true, .hufBuild a)
  | 0x44 => some (true, .hufCanon a)
  | 0x45 => some (true, .hufSerialize a)
  | 0x46 => some (true, .hufDeserialize a)
  | 0x47 => some (true, .hufTrie a)
  | 0x48 => some (true, .hufDecode a)
  | 0x49 => some (true, .hufEncode a)
  | 0x4A => some (true, .clRead a)
  | 0x4B => some (true, .clWrite a)
  | 0x50 => some (false, .winReset)
  | 0x51 => some (false, .winPut)
  | 0x52 => some (false, .winCopy)
  | 0x53 => some (false, .winRead)
  | _ => none

/-- OPC, bits [7:0] of a command word (R60). -/
def opcOf (w : Word) : Nat := w.toNat % 256

/-- The alphabet bit A, bit 8 of a command word (R60). -/
def alphabetOf (w : Word) : Alphabet := if w.getLsbD 8 then .ds else .ll

/-- The reserved bits [31:9] of a command word (R60). -/
def reservedOf (w : Word) : Nat := w.toNat / 512

/-- R66 `Decode(word)`: total on every word, the opcode check before the reserved bits. -/
def decodeWord (w : Word) : Decoded :=
  match commandOf (opcOf w) (alphabetOf w) with
  | none => .reservedOpcode
  | some (usesA, i) =>
    if reservedOf w ≠ 0 || (w.getLsbD 8 && !usesA) then .reservedBits else .ok i

/-! ## Stream elements: what a reader reads -/

/-- One entry of a code-length table (R70, R71). -/
inductive TableEntry where
  | short (l : BitVec 4)
  | ext1 (x : BitVec 2)
  | ext2 (y : BitVec 2)
  /-- A zero run of `c + 1` symbols; `c` is below `2 ^ ZB[A]`. -/
  | zrun (c : Nat)
deriving DecidableEq, Repr

/-- One event of the coded symbol stream (R73). -/
inductive StreamEvent where
  | lit (b : Byte)
  | eos
  | match3 (d : BitVec 12)
  | matchSlot (k : BitVec 5) (e : BitVec 7) (j : BitVec 5) (x : BitVec 14)
deriving DecidableEq, Repr

/-- The instruction a table entry of alphabet `a` is. -/
def TableEntry.toInstr (a : Alphabet) : TableEntry → Instr
  | .short l => .cleShort l
  | .ext1 x => .cleExt1 x
  | .ext2 y => .cleExt2 y
  | .zrun c =>
    match a with
    | .ll => .cleZrunLl (BitVec.ofNat 8 c)
    | .ds => .cleZrunD (BitVec.ofNat 5 c)

/-- The instruction a symbol event is. -/
def StreamEvent.toInstr : StreamEvent → Instr
  | .lit b => .lit b
  | .eos => .eos
  | .match3 d => .match3 d
  | .matchSlot k e j x => .matchSlot k e j x

/-- Below the root, the decode trie (R31): an unpopulated slot, a leaf with its symbol, or an internal
node with its children for a 0 bit and a 1 bit. -/
inductive Trie where
  | empty
  | leaf (sym : Nat)
  | node (zero one : Trie)
deriving DecidableEq, Repr

/-- TRIE[A] (R31). The root is always an internal node, so only its two children are held. -/
structure DecodeTrie where
  zero : Trie
  one : Trie
deriving DecidableEq, Repr

/-- R31, R240: the trie with the root only. -/
def DecodeTrie.rootOnly : DecodeTrie := ⟨.empty, .empty⟩

/-- Where the input ended, for the details EOS_IN_TABLE, EOS_IN_SYMBOL and EOS_IN_FIELD (R211). -/
inductive Place where
  | inTable
  | inSymbol
  | inField
deriving DecidableEq, Repr

/-- A reader's plan: what it takes from the bit stream, one field after another, and what it makes of
it. `field p n k` reads `n` bits LSB first (R48) and goes on with `k` of their value. -/
inductive Parse (α : Type) where
  | done (a : α)
  | unpopulated
  | field (place : Place) (n : Nat) (k : Nat → Parse α)

/-- First one plan, then another that may depend on its result. -/
def Parse.bind {α β : Type} : Parse α → (α → Parse β) → Parse β
  | .done a, f => f a
  | .unpopulated, _ => .unpopulated
  | .field p n k, f => .field p n fun v => (k v).bind f

/-- The descent below the root (R148): one bit, then left on 0 and right on 1. -/
def Trie.parse : Trie → Parse Nat
  | .empty => .unpopulated
  | .leaf s => .done s
  | .node z o => .field .inSymbol 1 fun b => if b = 0 then z.parse else o.parse

/-- R148 `DecodeSymbol`: the descent from the root. -/
def DecodeTrie.parse (t : DecodeTrie) : Parse Nat :=
  .field .inSymbol 1 fun b => if b = 0 then t.zero.parse else t.one.parse

/-- R72: how a reader tells a table entry's form. -/
def entryParse (a : Alphabet) : Parse TableEntry :=
  .field .inTable 4 fun v =>
    if v = 0 then .field .inTable a.zb fun c => .done (.zrun c)
    else if v < 15 then .done (.short (BitVec.ofNat 4 v))
    else .field .inTable 2 fun x =>
      if x < 3 then .done (.ext1 (BitVec.ofNat 2 x))
      else .field .inTable 2 fun y => .done (.ext2 (BitVec.ofNat 2 y))

/-- R199: a field that is absent when its width is 0, and then reads as 0 (R74). -/
def fieldParse (n : Nat) : Parse Nat :=
  if n = 0 then .done 0 else .field .inField n fun v => .done v

/-- R73, R199, R200: how a reader tells the events apart, by the decoded literal/length symbol. -/
def eventParse (ll ds : DecodeTrie) : Parse StreamEvent :=
  ll.parse.bind fun s =>
    if s < eosSymbol then .done (.lit (BitVec.ofNat 8 s))
    else if s = eosSymbol then .done .eos
    else
      let k := s - lenSymbol0
      (fieldParse (nbLen k)).bind fun e =>
        if k = 0 then
          (fieldParse rawDistBits).bind fun d => .done (.match3 (BitVec.ofNat 12 d))
        else
          ds.parse.bind fun j =>
            (fieldParse (nbDist j)).bind fun x =>
              .done (.matchSlot (BitVec.ofNat 5 k) (BitVec.ofNat 7 e) (BitVec.ofNat 5 j)
                (BitVec.ofNat 14 x))

/-- The value of a field whose bits come least significant first (R48). -/
def ofBits : List Bool → Nat
  | [] => 0
  | b :: bs => (if b then 1 else 0) + 2 * ofBits bs

/-- A plan run on a list of bits, the first of them first on the wire: the value and the bits left. -/
def Parse.onBits {α : Type} : Parse α → List Bool → Option (α × List Bool)
  | .done a, bs => some (a, bs)
  | .unpopulated, _ => none
  | .field _ n k, bs => if bs.length < n then none else (k (ofBits (bs.take n))).onBits (bs.drop n)

/-! ## The encoder -/

/-- A field a writer writes: `n` bits of a value (R48), or a symbol's Huffman code (R76). -/
inductive Field where
  | bits (v n : Nat)
  | code (a : Alphabet) (sym : Nat)
deriving DecidableEq, Repr

/-- R70, R71: the fields of a table entry, in stream order. -/
def TableEntry.fields (a : Alphabet) : TableEntry → List Field
  | .short l => [.bits l.toNat 4]
  | .ext1 x => [.bits 15 4, .bits x.toNat 2]
  | .ext2 y => [.bits 15 4, .bits 3 2, .bits y.toNat 2]
  | .zrun c => [.bits 0 4, .bits c a.zb]

/-- A field that is left out when its width is 0 (R74). -/
def optField (v n : Nat) : List Field := if n = 0 then [] else [.bits v n]

/-- R73: the fields of a symbol event, in stream order. -/
def StreamEvent.fields : StreamEvent → List Field
  | .lit b => [.code .ll b.toNat]
  | .eos => [.code .ll eosSymbol]
  | .match3 d => [.code .ll lenSymbol0, .bits d.toNat rawDistBits]
  | .matchSlot k e j x =>
    .code .ll (lenSymbol0 + k.toNat) :: optField e.toNat (nbLen k.toNat) ++
      .code .ds j.toNat :: optField x.toNat (nbDist j.toNat)

/-- A command word of R60: the opcode, and the alphabet bit. -/
def wordOf (opc : Nat) (a : Alphabet) : Word :=
  BitVec.ofNat 32 (opc + match a with | .ll => 0 | .ds => 256)

/-- What an instruction is encoded as: a command word, or the fields of a stream element. -/
inductive Encoded where
  | word (w : Word)
  | stream (fs : List Field)
deriving DecidableEq, Repr

/-- The encoder, from the tables of R60, R63, R70, R71 and R73. -/
def encode : Instr → Encoded
  | .compress => .word (wordOf 0x01 .ll)
  | .expand => .word (wordOf 0x02 .ll)
  | .bwReset => .word (wordOf 0x10 .ll)
  | .bwWriteBits => .word (wordOf 0x11 .ll)
  | .bwWriteByte => .word (wordOf 0x12 .ll)
  | .bwWriteEof => .word (wordOf 0x13 .ll)
  | .brReset => .word (wordOf 0x18 .ll)
  | .brReadBits => .word (wordOf 0x19 .ll)
  | .brReadByte => .word (wordOf 0x1A .ll)
  | .lenSlot => .word (wordOf 0x20 .ll)
  | .distSlot => .word (wordOf 0x21 .ll)
  | .lenRange => .word (wordOf 0x22 .ll)
  | .distRange => .word (wordOf 0x23 .ll)
  | .mfInit => .word (wordOf 0x30 .ll)
  | .mfInsert => .word (wordOf 0x31 .ll)
  | .mfProbe => .word (wordOf 0x32 .ll)
  | .mfDelete => .word (wordOf 0x33 .ll)
  | .mfLongest => .word (wordOf 0x34 .ll)
  | .treeRead => .word (wordOf 0x35 .ll)
  | .freqClear a => .word (wordOf 0x40 a)
  | .freqInc a => .word (wordOf 0x41 a)
  | .freqRead a => .word (wordOf 0x42 a)
  | .hufBuild a => .word (wordOf 0x43 a)
  | .hufCanon a => .word (wordOf 0x44 a)
  | .hufSerialize a => .word (wordOf 0x45 a)
  | .hufDeserialize a => .word (wordOf 0x46 a)
  | .hufTrie a => .word (wordOf 0x47 a)
  | .hufDecode a => .word (wordOf 0x48 a)
  | .hufEncode a => .word (wordOf 0x49 a)
  | .clRead a => .word (wordOf 0x4A a)
  | .clWrite a => .word (wordOf 0x4B a)
  | .winReset => .word (wordOf 0x50 .ll)
  | .winPut => .word (wordOf 0x51 .ll)
  | .winCopy => .word (wordOf 0x52 .ll)
  | .winRead => .word (wordOf 0x53 .ll)
  | .cleShort l => .stream ((TableEntry.short l).fields .ll)
  | .cleExt1 x => .stream ((TableEntry.ext1 x).fields .ll)
  | .cleExt2 y => .stream ((TableEntry.ext2 y).fields .ll)
  | .cleZrunLl c => .stream ((TableEntry.zrun c.toNat).fields .ll)
  | .cleZrunD c => .stream ((TableEntry.zrun c.toNat).fields .ds)
  | .lit b => .stream (StreamEvent.lit b).fields
  | .eos => .stream StreamEvent.eos.fields
  | .match3 d => .stream (StreamEvent.match3 d).fields
  | .matchSlot k e j x => .stream (StreamEvent.matchSlot k e j x).fields

/-- The command word of an instruction, or 0 (a reserved word) for a stream element. -/
def encodeWord (i : Instr) : Word :=
  match encode i with
  | .word w => w
  | .stream _ => 0

/-- The low `n` bits of a value, least significant first (R48). -/
def toBits (v : Nat) : Nat → List Bool
  | 0 => []
  | n + 1 => v.testBit 0 :: toBits (v / 2) n

/-- R140 `rev_L(c)`: the low `L` bits of `c` in the opposite order. -/
def revBits (c : Nat) : Nat → Nat
  | 0 => 0
  | n + 1 => (c % 2) * 2 ^ n + revBits (c / 2) n

/-- The bits of one field. `code a s` gives the code length and the canonical code of a symbol; a code
is written as the field `rev_L(c)` of `L` bits (R76). -/
def Field.toBits (code : Alphabet → Nat → Nat × Nat) : Field → List Bool
  | .bits v n => Sys2Proof.toBits v n
  | .code a s => Sys2Proof.toBits (revBits (code a s).2 (code a s).1) (code a s).1

/-- The bits of a list of fields, with no gaps (R69). -/
def fieldsToBits (code : Alphabet → Nat → Nat × Nat) (fs : List Field) : List Bool :=
  fs.flatMap (Field.toBits code)

/-! ## The table's numbering of bits -/

/-- spec/opcode_table.json writes a stream element's fields in stream order from its top bit down, each
as a number; on the wire each field comes least significant bit first (R48). For the one row the
table numbers, CLE_EXT2 with fields of 4, 2 and 2 bits, these are the wire's bits (log entry 11). -/
def tableBits (w : Nat) : List Bool :=
  toBits (w / 16 % 16) 4 ++ toBits (w / 4 % 4) 2 ++ toBits (w % 4) 2

/-- The instruction the decoder reads from a word of the opcode table: 32 bits are a command word, 8
bits a table entry that fills them, read at the start of a literal/length table. -/
def decodeTableWord (nbits w : Nat) : Option Instr :=
  if nbits = 32 then
    match decodeWord (BitVec.ofNat 32 w) with
    | .ok i => some i
    | .reservedOpcode => none
    | .reservedBits => none
  else if nbits = 8 then
    match (entryParse .ll).onBits (tableBits w) with
    | some (e, []) => some (e.toInstr .ll)
    | _ => none
  else none

end Sys2Proof
end

