-- ==== Sys2Proof/Machine/State.lean ====
section
/-! DEFINITION. The state of the machine: everything 10_state.md and 20_memory.md give it, as plain data;
the reasons a step can stop; and the state after reset (R37, R240). -/

namespace Sys2Proof.Machine

/-! ## Errors of commands (60_exceptions.md) -/

/-- The details of CAUSE = CORRUPT (R211). -/
inductive Corrupt where
  | unpopulated
  | eosInSymbol
  | eosInTable
  | eosInField
  | tableOverrun
  | oversubscribed
  | distBeforeStart
deriving DecidableEq, Repr

/-- The details of CAUSE = INTERNAL (R212). -/
inductive Internal where
  | lenRange
  | distRange
  | codelenOverflow
  | noCode
  | slotOccupied
  | treePos
  | freqOverflow
deriving DecidableEq, Repr

/-- The details of CAUSE = ILLEGAL (R213). -/
inductive Illegal where
  | reservedOpcode
  | reservedBits
  | operandRange
deriving DecidableEq, Repr

/-- An error of a command (R210): a defined completion, never a stop of the machine (R229). -/
inductive Err where
  | endOfInput
  | align
  | corrupt (d : Corrupt)
  | internal (d : Internal)
  | outputFull
  | illegal (d : Illegal)
deriving DecidableEq, Repr

/-! ## Reasons to stop -/

/-- The faults. All are SAFE: the model stops where nothing is known of the hardware. -/
inductive Fault where
  /-- The engine or the host read a byte of IBUF that nothing has written since reset (R242, 93 I2). Raised by
  every command that reads the input and by a host read. SAFE (log entry 4). -/
  | unwrittenInput
  /-- The host read a byte of OBUF that nothing has written since reset (R242, 93 I3). Raised by host reads
  only. SAFE (log entry 4). -/
  | unwrittenOutput
  /-- A read of a slot of WIN that no command has written since reset (R198, R242, 93 I1). Raised by WIN_READ;
  a copy never raises it where WIN_FILL counts written bytes. SAFE (log entry 4). -/
  | unwrittenWindow
  /-- A walk or a deletion followed more tree links than there are slots. The links then form a cycle, which
  no run reaches (R176 c). Raised by MF_INSERT, MF_PROBE, MF_DELETE and COMPRESS. SAFE (log entry 13). -/
  | treeCycle
deriving DecidableEq, Repr

/-- The refusals: there is no step. -/
inductive Refusal where
  /-- An instruction without a meaning yet, by its mnemonic. Raised by exec's arms only. SAFE. -/
  | notModelled (mnemonic : String)
  /-- A host access the block does not answer (R46, 93 I6). Raised by host accesses. SAFE (log entry 7). -/
  | busError
  /-- A host access while the hardware reset input is asserted (R240, 93 I7). Raised by host accesses. SAFE
  (log entry 8). -/
  | resetAsserted
  /-- A stream element where the stream's layout (R69) has none of its kind: the engine is not at that place of a
  stream. Raised by the nine stream elements; no run reaches it. SAFE (log entry 10). -/
  | elementOutOfPlace
deriving DecidableEq, Repr

/-! ## Memories and links -/

/-- Bytes by index, indexes strictly rising. An index that is not listed holds no value yet (R242). IBUF, OBUF
and WIN each are one. -/
abbrev Memory := List Host.Cell

/-- One of the arrays parent, smaller and larger (R32): the entries that are not NIL, indexes strictly
rising. -/
abbrev Links := List (Nat × BitVec 17)

/-! ## The parts of the state -/

/-- CTRL, STATUS, CMD, the operand and result registers, IN_LEN (R16–R21). STATUS and CTRL are held by field;
their words are computed (Machine/Flags.lean). -/
structure Ctl where
  /-- CTRL.IE (R16). -/
  ie : Bool
  /-- STATUS.BUSY (R17). -/
  busy : Bool
  /-- STATUS.DONE (R17). -/
  done : Bool
  /-- STATUS.WOVR (R17). -/
  wovr : Bool
  /-- STATUS.CAUSE (R17, R210). -/
  cause : BitVec 8
  /-- STATUS.DETAIL (R17, R211–R213). -/
  detail : BitVec 8
  /-- CMD (R18). -/
  cmd : Word
  /-- ARG0 (R19). -/
  arg0 : Word
  /-- ARG1 (R19). -/
  arg1 : Word
  /-- ARG2 (R19). -/
  arg2 : Word
  /-- RES0 (R20). -/
  res0 : Word
  /-- RES1 (R20). -/
  res1 : Word
  /-- RES2 (R20). -/
  res2 : Word
  /-- IN_LEN (R21). -/
  inLen : Word
deriving DecidableEq, Repr

/-- The bit reader (R23). -/
structure Reader where
  /-- RPOS: the byte that holds the next unread bit. -/
  rpos : BitVec 25
  /-- RBIT: the next unread bit within that byte. -/
  rbit : BitVec 3
  /-- BITS_R: bits consumed, modulo 2^32. -/
  bitsR : Word
deriving DecidableEq, Repr

/-- The bit writer (R22, R24). -/
structure Writer where
  /-- OUT_LEN: bytes appended to OBUF. -/
  outLen : BitVec 25
  /-- WACC: the pending partial byte. -/
  wacc : Byte
  /-- WCNT: the number of pending bits. -/
  wcnt : BitVec 3
  /-- BITS_W: bits appended, modulo 2^32. -/
  bitsW : Word
deriving DecidableEq, Repr

/-- The decoder window (R25, R34). -/
structure Window where
  /-- WIN_POS: the index the next byte is written to. -/
  pos : BitVec 16
  /-- WIN_FILL: the bytes written since the window was reset, at most 65536. -/
  fill : BitVec 17
  /-- WIN. -/
  bytes : Memory
deriving DecidableEq, Repr

/-- The tables of one alphabet with `n` symbols (R28–R31). -/
structure Tables (n : Nat) where
  /-- FREQ[A] (R28). -/
  freq : Vector Word n
  /-- CL[A] (R29). -/
  cl : Vector (BitVec 5) n
  /-- CODE[A] (R30). -/
  code : Vector (BitVec 21) n
  /-- TRIE[A] (R31). -/
  trie : DecodeTrie
deriving DecidableEq, Repr

/-- A match candidate: a length and a distance (R33). -/
structure Best where
  len : BitVec 9
  dist : BitVec 17
deriving DecidableEq, Repr

/-- The match finder: the tree arrays (R32) and MF_BEST (R33). -/
structure Finder where
  parent : Links
  smaller : Links
  larger : Links
  best : Best
deriving DecidableEq, Repr

/-- An event of the encoder (R185): `Lit(b)` or `Match(L, d)`. -/
inductive Event where
  | lit (b : Byte)
  | copy (len : BitVec 9) (dist : BitVec 17)
deriving DecidableEq, Repr

/-- Where a command in progress stands inside a compressed stream (R27, R36): at no stream, at entry `i` of the
table of alphabet `a` with BITS_R having been `b0` when the table began, or in the symbol stream after `nl`
literals and `nm` matches. -/
inductive StreamPos where
  | idle
  | table (a : Alphabet) (i : Nat) (b0 : Word)
  | events (nl nm : Nat)
deriving DecidableEq, Repr

/-- The hidden state of a command in progress (R35, R36). It does not outlive the command (log entry 9). -/
structure Progress where
  /-- EVQ (R35). -/
  evq : List Event
  /-- The COMPRESS lookahead candidate (R36). -/
  cand : Best
  /-- The position inside a compressed stream (R27, R36). -/
  pos : StreamPos
deriving DecidableEq, Repr

/-- The width of a host access in bits (R44, R45). -/
inductive Width where
  | w8
  | w16
  | w32
deriving DecidableEq, Repr

/-- What the host and the platform can do (R13, R44, R45, R240). Addresses are host addresses. `wait` is a moment
at which the host makes no access: the engine's turn (log entry 1). -/
inductive HostAct where
  | read (addr : Nat) (w : Width)
  | write (addr : Nat) (w : Width) (v : Word)
  | wait
  | assertReset
  | releaseReset
deriving DecidableEq, Repr

/-- The host's side of the model, the model's own state (log entries 1, 5, 17). -/
structure HostSide where
  /-- The acts still to come, the next first. -/
  todo : List HostAct
  /-- What the last read returned. -/
  rdata : Word
  /-- How many free values have been drawn. -/
  draws : Nat
deriving DecidableEq, Repr

/-- The state of the machine. -/
structure State where
  /-- IBUF_SIZE, OBUF_SIZE (R26) and BASE (R8). No step changes them. -/
  params : Params
  ctl : Ctl
  rd : Reader
  wr : Writer
  win : Window
  /-- The tables of the literal/length alphabet, `A = 0`. -/
  ll : Tables 281
  /-- The tables of the distance alphabet, `A = 1`. -/
  ds : Tables 32
  mf : Finder
  /-- IBUF (R41). -/
  ibuf : Memory
  /-- OBUF (R42). -/
  obuf : Memory
  prog : Progress
  /-- The hardware reset input (R240). -/
  rstAsserted : Bool
  host : HostSide
deriving DecidableEq, Repr

/-! ## Reset -/

/-- The registers of R16–R21 after reset (R14, R240). -/
def Ctl.reset : Ctl where
  ie := false
  busy := false
  done := false
  wovr := false
  cause := 0
  detail := 0
  cmd := 0
  arg0 := 0
  arg1 := 0
  arg2 := 0
  res0 := 0
  res1 := 0
  res2 := 0
  inLen := 0

/-- The tables of one alphabet after reset (R28–R31, R240). -/
def Tables.reset (n : Nat) : Tables n where
  freq := Vector.replicate n 0
  cl := Vector.replicate n 0
  code := Vector.replicate n 0
  trie := DecodeTrie.rootOnly

/-- The empty tree and no candidate (R32, R33, R240). -/
def Finder.reset : Finder := ⟨[], [], [], ⟨0, 0⟩⟩

/-- No command in progress (R240). -/
def Progress.none : Progress := ⟨[], ⟨0, 0⟩, .idle⟩

/-- R240: the state after a reset of a block with parameters `p`. The host's side is not the block's, so it is
an argument. -/
def State.resetWith (p : Params) (h : HostSide) : State where
  params := p
  ctl := Ctl.reset
  rd := ⟨0, 0, 0⟩
  wr := ⟨0, 0, 0, 0⟩
  win := ⟨0, 0, []⟩
  ll := Tables.reset 281
  ds := Tables.reset 32
  mf := Finder.reset
  ibuf := []
  obuf := []
  prog := Progress.none
  rstAsserted := false
  host := h

/-- The machine right after reset (R37, R240), for the parameters of Config and with a host that has nothing
to do yet. -/
def State.reset : State := State.resetWith Config.params ⟨[], 0, 0⟩

end Sys2Proof.Machine
end

