-- ==== Sys2Proof/Machine/Flags.lean ====
section
/-! DEFINITION. The computed views of the state: the STATUS and CTRL words, CAUSE and DETAIL codes, WSTATE and
the interrupt output (10_state.md R16, R17, R24; 60_exceptions.md R210–R213, R221). -/

namespace Sys2Proof.Machine

/-- R210: the CAUSE code of an error. -/
def Err.cause : Err → BitVec 8
  | .endOfInput => 1
  | .align => 2
  | .corrupt _ => 3
  | .internal _ => 4
  | .outputFull => 5
  | .illegal _ => 6

/-- R211: the DETAIL code of a CORRUPT error. -/
def Corrupt.code : Corrupt → BitVec 8
  | .unpopulated => 1
  | .eosInSymbol => 2
  | .eosInTable => 3
  | .eosInField => 4
  | .tableOverrun => 5
  | .oversubscribed => 6
  | .distBeforeStart => 7

/-- R212: the DETAIL code of an INTERNAL error. -/
def Internal.code : Internal → BitVec 8
  | .lenRange => 1
  | .distRange => 2
  | .codelenOverflow => 3
  | .noCode => 4
  | .slotOccupied => 5
  | .treePos => 6
  | .freqOverflow => 7

/-- R213: the DETAIL code of an ILLEGAL error. -/
def Illegal.code : Illegal → BitVec 8
  | .reservedOpcode => 1
  | .reservedBits => 2
  | .operandRange => 3

/-- R211–R213: the DETAIL code of an error; 0 for the causes that have no details. -/
def Err.detail : Err → BitVec 8
  | .endOfInput => 0
  | .align => 0
  | .corrupt d => d.code
  | .internal d => d.code
  | .outputFull => 0
  | .illegal d => d.code

/-- A flag as a one-bit number. -/
def flagBit (b : Bool) (i : Nat) : Word := if b then BitVec.ofNat 32 (2 ^ i) else 0

/-- STATUS.ERR (R17): CAUSE is not 0. -/
def State.errFlag (s : State) : Bool := s.ctl.cause != 0

/-- STATUS.BW_ALIGNED (R17): the bit writer is byte-aligned. -/
def State.bwAligned (s : State) : Bool := s.wr.wcnt == 0

/-- STATUS.BR_ALIGNED (R17): the bit reader is byte-aligned. -/
def State.brAligned (s : State) : Bool := s.rd.rbit == 0

/-- The STATUS word (R17); its reserved bits read 0. -/
def State.statusWord (s : State) : Word :=
  flagBit s.ctl.busy 0 ||| flagBit s.ctl.done 1 ||| flagBit s.errFlag 2 ||| flagBit s.ctl.wovr 3 |||
    flagBit s.bwAligned 4 ||| flagBit s.brAligned 5 |||
    (s.ctl.cause.setWidth 32 <<< 8) ||| (s.ctl.detail.setWidth 32 <<< 16)

/-- The CTRL word (R16): SRST and the reserved bits read 0. -/
def State.ctrlWord (s : State) : Word := flagBit s.ctl.ie 0

/-- The WSTATE word (R24): WACC in [7:0], WCNT in [10:8]. -/
def State.wstateWord (s : State) : Word :=
  s.wr.wacc.setWidth 32 ||| (s.wr.wcnt.setWidth 32 <<< 8)

/-- The interrupt output (R221): the level DONE ∧ IE. -/
def State.irq (s : State) : Bool := s.ctl.done && s.ctl.ie

end Sys2Proof.Machine
end

