-- ==== Sys2Proof/Machine/Ops.lean ====
section
/-! DEFINITION. The named operations over the state: the result of a primitive, the command lifecycle
(Start, Complete, Fail: 60_exceptions.md R214–R216), memories and tree links, and the engine's access
primitives (20_memory.md R52). -/

namespace Sys2Proof.Machine

/-! ## Results of primitives -/

/-- What a primitive ends in: a value and the state it leaves; an error of the command and the state it leaves,
whose changes stand (R216, R217); or a fault of the model. -/
inductive Res (α : Type) where
  | ok (a : α) (s : State)
  | err (e : Err) (s : State)
  | fault (f : Fault)

/-- One primitive after another: the first error or fault ends the sequence (R216, R218). -/
def Res.bind {α β : Type} : Res α → (α → State → Res β) → Res β
  | .ok a s, k => k a s
  | .err e s, _ => .err e s
  | .fault f, _ => .fault f

/-- `raise Error` unless the check holds (R10). -/
def require {α : Type} (c : Bool) (e : Err) (s : State) (k : Unit → Res α) : Res α :=
  if c then k () else .err e s

/-- The error OPERAND_RANGE (R213). -/
def operandRange : Err := .illegal .operandRange

/-! ## The command lifecycle -/

/-- R214 `Start(w)`: CMD holds the word, BUSY is set, DONE, CAUSE and DETAIL are cleared. The operands are the
registers themselves, which cannot change while BUSY = 1 (R246, R247). -/
def State.start (s : State) (w : Word) : State :=
  { s with
    ctl := { s.ctl with cmd := w, busy := true, done := false, cause := 0, detail := 0 }
    prog := Progress.none }

/-- R215 `Complete()`: the results are written, CAUSE and DETAIL are 0, BUSY is cleared and DONE set. -/
def State.complete (s : State) (r0 r1 r2 : Word) : State :=
  { s with
    ctl := { s.ctl with res0 := r0, res1 := r1, res2 := r2, cause := 0, detail := 0,
                        busy := false, done := true }
    prog := Progress.none }

/-- R216 `Fail(c, d)`: taking an error. CAUSE and DETAIL are set, RES0–RES2 keep their values, BUSY is cleared and
DONE set. There is no vector and no mode: nothing else changes. -/
def State.fail (s : State) (e : Err) : State :=
  { s with
    ctl := { s.ctl with cause := e.cause, detail := e.detail, busy := false, done := true }
    prog := Progress.none }

/-- R219: the host's acknowledgement, a STATUS write. DONE and WOVR are cleared where the written bit is 1 (R17). -/
def State.ackStatus (s : State) (v : Word) : State :=
  { s with
    ctl := { s.ctl with done := s.ctl.done && !v.getLsbD 1, wovr := s.ctl.wovr && !v.getLsbD 3 } }

/-- R240, R241: every piece of the block's state at its reset value. The parameters stay (R26); the host's side is
not the block's. -/
def State.blockReset (s : State) : State := State.resetWith s.params s.host

/-- The results of a command, RES0, RES1 and RES2 (R65). -/
structure Results where
  r0 : Word
  r1 : Word
  r2 : Word
deriving DecidableEq, Repr

/-- R65: a command that names no result writes 0 to all three. -/
def Results.zero : Results := ⟨0, 0, 0⟩

/-- Results given as naturals; each fits 32 bits (R65). -/
def Results.nat (r0 r1 r2 : Nat) : Results := ⟨BitVec.ofNat 32 r0, BitVec.ofNat 32 r1, BitVec.ofNat 32 r2⟩

/-- The end of a command: R215 on success, R216 on an error. -/
def finish : Res Results → Host.Outcome State Fault Refusal
  | .ok r s => .next (s.complete r.r0 r.r1 r.r2)
  | .err e s => .next (s.fail e)
  | .fault f => .fault f

/-! ## Memories -/

/-- The byte at an index, if one has been written. -/
def Memory.read? : Memory → Nat → Option Byte
  | [], _ => none
  | (j, b) :: rest, i => if i = j then some b else if i < j then none else Memory.read? rest i

/-- Writing a byte; the indexes stay strictly rising. -/
def Memory.write : Memory → Nat → Byte → Memory
  | [], i, b => [(i, b)]
  | (j, c) :: rest, i, b =>
    if i = j then (i, b) :: rest
    else if i < j then (i, b) :: (j, c) :: rest
    else (j, c) :: Memory.write rest i b

/-- Every index listed is at least `k`, and they rise strictly. -/
def Memory.risingFrom : Nat → Memory → Bool
  | _, [] => true
  | k, (j, _) :: rest => k ≤ j && Memory.risingFrom (j + 1) rest

/-- The canonical form: indexes strictly rising. -/
def Memory.wf (m : Memory) : Bool := Memory.risingFrom 0 m

/-! ## Tree links -/

/-- The entry of a tree array at an index; NIL where none is listed (R32). -/
def Links.get : Links → Nat → BitVec 17
  | [], _ => nilLink
  | (j, v) :: rest, i => if i = j then v else if i < j then nilLink else Links.get rest i

/-- An entry put before the rest of a list, left out when it is NIL. -/
def Links.cons (i : Nat) (v : BitVec 17) (rest : Links) : Links :=
  if v = nilLink then rest else (i, v) :: rest

/-- Writing an entry of a tree array; writing NIL removes it. -/
def Links.set : Links → Nat → BitVec 17 → Links
  | [], i, v => Links.cons i v []
  | (j, u) :: rest, i, v =>
    if i = j then Links.cons i v rest
    else if i < j then Links.cons i v ((j, u) :: rest)
    else (j, u) :: Links.set rest i v

/-- Every index listed is at least `k`, they rise strictly, and no entry is NIL. -/
def Links.risingFrom : Nat → Links → Bool
  | _, [] => true
  | k, (j, v) :: rest => k ≤ j && v != nilLink && Links.risingFrom (j + 1) rest

/-- The canonical form: indexes strictly rising, no entry NIL. -/
def Links.wf (m : Links) : Bool := Links.risingFrom 0 m

/-! ## Tables -/

/-- Entry `i` of a table, or the default past its end. -/
def tableGet {α : Type} {n : Nat} (v : Vector α n) (i : Nat) (d : α) : α := v.toList.getD i d

/-- Writing entry `i` of a table; nothing happens past its end. -/
def tableSet {α : Type} {n : Nat} (v : Vector α n) (i : Nat) (x : α) : Vector α n := v.setIfInBounds i x

/-- A table of `n` entries from a list: the list's first `n`, filled up with the default. -/
def tableOf {α : Type} (n : Nat) (d : α) (l : List α) : Vector α n :=
  ⟨(l.take n ++ List.replicate (n - l.length) d).toArray, by simp; omega⟩

/-- The tables of an alphabet (R130). -/
def State.tab (s : State) : (a : Alphabet) → Tables a.size
  | .ll => s.ll
  | .ds => s.ds

/-- The state with other tables for an alphabet; those of the other alphabet stay (R130). -/
def State.setTab (s : State) : (a : Alphabet) → Tables a.size → State
  | .ll, t => { s with ll := t }
  | .ds, t => { s with ds := t }

/-! ## The engine's access primitives (R52) -/

/-- `InByte(p)` (R52): byte `p` of the input. Reading one that nothing has written faults (R242). -/
def inByte (p : Nat) (s : State) : Res Byte :=
  match Memory.read? s.ibuf p with
  | some b => .ok b s
  | none => .fault .unwrittenInput

/-- `OutAppend(b)` (R52). The caller has checked the capacity. -/
def outAppend (b : Byte) (s : State) : State :=
  { s with
    obuf := Memory.write s.obuf s.wr.outLen.toNat b
    wr := { s.wr with outLen := s.wr.outLen + 1 } }

/-- `OUT_LEN + k ≤ OBUF_SIZE`, the check before every append (R22). -/
def State.outFits (s : State) (k : Nat) : Bool := s.wr.outLen.toNat + k ≤ s.params.obufSize

/-- `IN_LEN ≤ IBUF_SIZE`, the check of every command that reads the input (R21). -/
def State.inputOk (s : State) : Bool := s.ctl.inLen.toNat ≤ s.params.ibufSize

end Sys2Proof.Machine
end

