-- ==== Sys2Proof/Machine/Operands.lean ====
section
/-! DEFINITION. The operand forms: ARG registers as unsigned integers with the legal ranges of 30_encoding.md
R64. A value outside its range is the error OPERAND_RANGE. -/

namespace Sys2Proof.Machine

/-- ARG0 as an unsigned integer (R64). -/
def State.a0 (s : State) : Nat := s.ctl.arg0.toNat

/-- ARG1 as an unsigned integer (R64). -/
def State.a1 (s : State) : Nat := s.ctl.arg1.toNat

/-- Bit counts: `n ≤ 32`. -/
def bitCountOk (n : Nat) : Bool := n ≤ 32

/-- Bytes: at most 255. -/
def byteOk (b : Nat) : Bool := b ≤ 255

/-- Symbols of alphabet `a`: below `n_A`. -/
def symbolOk (a : Alphabet) (sym : Nat) : Bool := sym < a.size

/-- Code lengths: at most 21. -/
def codeLenOk (l : Nat) : Bool := l ≤ maxCodeLenDec

/-- Match lengths: 3–258 (R110). -/
def matchLenOk (l : Nat) : Bool := 3 ≤ l && l ≤ 258

/-- Match distances: 1–65536 (R111). -/
def matchDistOk (d : Nat) : Bool := 1 ≤ d && d ≤ 65536

/-- Length-slot numbers: at most 23. -/
def lenSlotOk (k : Nat) : Bool := k ≤ 23

/-- Distance-slot numbers: at most 31. -/
def distSlotOk (j : Nat) : Bool := j ≤ 31

/-- Positions: below IN_LEN. -/
def State.positionOk (s : State) (p : Nat) : Bool := p < s.ctl.inLen.toNat

/-- Tree indices: at most 65536, ROOT included. -/
def treeIndexOk (i : Nat) : Bool := i ≤ rootIndex

/-- Window indices: below 65536. -/
def windowIndexOk (j : Nat) : Bool := j < windowSize

end Sys2Proof.Machine
end

