-- ==== Sys2Proof/Machine/Bus.lean ====
section
/-! DEFINITION. The host bus (20_memory.md R40–R46; 70_reset_and_hazards.md R240, R241, R246): register and buffer
accesses, the soft reset, the hardware reset input. -/

namespace Sys2Proof.Machine

/-! ## The address map (R40) -/

/-- Where an access goes. -/
inductive Target where
  | reg (off : Nat)
  | ibuf (i : Nat)
  | obuf (i : Nat)
deriving DecidableEq, Repr

/-- The number of bytes of an access. -/
def Width.bytes : Width → Nat
  | .w8 => 1
  | .w16 => 2
  | .w32 => 4

/-- R45: a buffer access is 8 bits anywhere or 32 bits aligned, inside the buffer. -/
def bufferOk (size i : Nat) (w : Width) : Bool :=
  match w with
  | .w8 => i < size
  | .w16 => false
  | .w32 => i % 4 == 0 && i + 4 ≤ size

/-- R44: a register access is 32 bits aligned. -/
def registerOk (off : Nat) (w : Width) : Bool :=
  match w with
  | .w8 => false
  | .w16 => false
  | .w32 => off % 4 == 0

/-- The target of an access at a block offset (R40); `none` is a bus error (R46). -/
def targetAt (p : Params) (off : Nat) (w : Width) : Option Target :=
  if off < 0x10000 then (if registerOk off w then some (.reg off) else none)
  else if off < 0x1000000 then none
  else if off < 0x2000000 then
    (if bufferOk p.ibufSize (off - 0x1000000) w then some (.ibuf (off - 0x1000000)) else none)
  else if off < 0x3000000 then
    (if bufferOk p.obufSize (off - 0x2000000) w then some (.obuf (off - 0x2000000)) else none)
  else none

/-- The target of an access at a host address (R40). -/
def targetOf (p : Params) (addr : Nat) (w : Width) : Option Target :=
  if p.base ≤ addr then targetAt p (addr - p.base) w else none

/-! ## Reads -/

/-- The value of the register at an offset (R14–R26); reserved offsets read 0. -/
def regValue (s : State) (off : Nat) : Word :=
  match off with
  | 0x000 => idValue
  | 0x004 => s.ctrlWord
  | 0x008 => s.statusWord
  | 0x00C => s.ctl.cmd
  | 0x010 => s.ctl.arg0
  | 0x014 => s.ctl.arg1
  | 0x018 => s.ctl.arg2
  | 0x01C => s.ctl.res0
  | 0x020 => s.ctl.res1
  | 0x024 => s.ctl.res2
  | 0x028 => s.ctl.inLen
  | 0x02C => s.wr.outLen.setWidth 32
  | 0x030 => s.rd.rpos.setWidth 32
  | 0x034 => s.rd.rbit.setWidth 32
  | 0x038 => s.wstateWord
  | 0x03C => s.wr.bitsW
  | 0x040 => s.rd.bitsR
  | 0x044 => s.win.pos.setWidth 32
  | 0x048 => s.win.fill.setWidth 32
  | 0x04C => BitVec.ofNat 32 s.params.ibufSize
  | 0x050 => BitVec.ofNat 32 s.params.obufSize
  | _ => 0

/-- `n` bytes of a memory from index `i`, little-endian (R45); `none` where one is unwritten. -/
def bytesAt (m : Memory) (i : Nat) : Nat → Option Nat
  | 0 => some 0
  | n + 1 =>
    match Memory.read? m i, bytesAt m (i + 1) n with
    | some b, some v => some (b.toNat + 256 * v)
    | _, _ => none

/-- R246: the reads that stay normal while BUSY = 1, those of ID, CTRL and STATUS. -/
def readStaysNormal : Target → Bool
  | .reg off => off == 0x000 || off == 0x004 || off == 0x008
  | .ibuf _ => false
  | .obuf _ => false

/-- A read returns a value to the host. -/
def readReturns (v : Word) (s : State) : State := { s with host := { s.host with rdata := v } }

/-- R246, 93 I4: an unspecified value, one draw per read (log entry 5). An 8-bit read returns 8 bits. -/
def readDraws (w : Width) (s : State) : State :=
  let v := Config.busyRead s.host.draws
  { s with host := { s.host with rdata := BitVec.ofNat 32 (v.toNat % 2 ^ (8 * w.bytes)), draws := s.host.draws + 1 } }

/-- A read of a buffer (R45); an unwritten byte faults (R242). -/
def readBuffer (m : Memory) (i : Nat) (w : Width) (f : Fault) (s : State) : Host.Outcome State Fault Refusal :=
  match bytesAt m i w.bytes with
  | some v => .next (readReturns (BitVec.ofNat 32 v) s)
  | none => .fault f

/-- A host read (R44, R45, R246). It has no side effect in the block (R51). -/
def hostRead (addr : Nat) (w : Width) (s : State) : Host.Outcome State Fault Refusal :=
  match targetOf s.params addr w with
  | none => .refused .busError
  | some t =>
    if s.ctl.busy && !readStaysNormal t then .next (readDraws w s)
    else
      match t with
      | .reg off => .next (readReturns (regValue s off) s)
      | .ibuf i => readBuffer s.ibuf i w .unwrittenInput s
      | .obuf i => readBuffer s.obuf i w .unwrittenOutput s

/-! ## Writes -/

/-- `n` bytes of a value written from index `i` on, little-endian (R45). -/
def writeBytes (m : Memory) (i v : Nat) : Nat → Memory
  | 0 => m
  | n + 1 => writeBytes (Memory.write m i (BitVec.ofNat 8 v)) (i + 1) (v / 256) n

/-- A host write lost because BUSY = 1: WOVR is set (R246). -/
def lostWrite (s : State) : State := { s with ctl := { s.ctl with wovr := true } }

/-- A CTRL write (R16, R241): SRST resets the block and discards IE; otherwise IE is stored. -/
def writeCtrl (v : Word) (s : State) : State :=
  if v.getLsbD 1 then s.blockReset else { s with ctl := { s.ctl with ie := v.getLsbD 0 } }

/-- A write of a register that is writable only while BUSY = 0 (R246). -/
def whenIdle (s t : State) : State := if s.ctl.busy then lostWrite s else t

/-- The offsets of the read-only registers (R14). -/
def readOnlyOffsets : List Nat :=
  [0x000, 0x01C, 0x020, 0x024, 0x02C, 0x030, 0x034, 0x038, 0x03C, 0x040, 0x044, 0x048, 0x04C, 0x050]

/-- A write to a register that no write changes (R14). While BUSY = 1 one to a read-only register sets WOVR, by the
rulings 93 I5 and 92 D31, which settle R246's own row (log entry 6); one to a reserved register does not (R246). -/
def writeIgnored (off : Nat) (s : State) : State := if readOnlyOffsets.contains off then whenIdle s s else s

/-- A register write (R14–R26, R246). -/
def writeReg (off : Nat) (v : Word) (s : State) : State :=
  match off with
  | 0x004 => writeCtrl v s
  | 0x008 => s.ackStatus v
  | 0x00C => whenIdle s (s.start v)
  | 0x010 => whenIdle s { s with ctl := { s.ctl with arg0 := v } }
  | 0x014 => whenIdle s { s with ctl := { s.ctl with arg1 := v } }
  | 0x018 => whenIdle s { s with ctl := { s.ctl with arg2 := v } }
  | 0x028 => whenIdle s { s with ctl := { s.ctl with inLen := v } }
  | _ => writeIgnored off s

/-- A host write (R44, R45, R246). -/
def hostWrite (addr : Nat) (w : Width) (v : Word) (s : State) : Host.Outcome State Fault Refusal :=
  match targetOf s.params addr w with
  | none => .refused .busError
  | some (.reg off) => .next (writeReg off v s)
  | some (.ibuf i) => .next (whenIdle s { s with ibuf := writeBytes s.ibuf i v.toNat w.bytes })
  | some (.obuf i) => .next (whenIdle s { s with obuf := writeBytes s.obuf i v.toNat w.bytes })

/-! ## The script -/

/-- One act of the host or the platform. While the reset input is asserted, accesses are refused (R240); asserting it
abandons a command in progress. `wait` is not an access: `step` gives the engine its turn there. -/
def hostAct (a : HostAct) (s : State) : Host.Outcome State Fault Refusal :=
  match a with
  | .read addr w => if s.rstAsserted then .refused .resetAsserted else hostRead addr w s
  | .write addr w v => if s.rstAsserted then .refused .resetAsserted else hostWrite addr w v s
  | .wait => .next s
  | .assertReset => .next { s.blockReset with rstAsserted := true }
  | .releaseReset => .next (if s.rstAsserted then s.blockReset else s)

end Sys2Proof.Machine
end

