-- ==== Sys2Proof/Machine/Lookup.lean ====
section
/-! DEFINITION. The four lookup commands over the alphabet tables (41_alphabet.md R115–R118). They touch no
state but RES0–RES2. -/

namespace Sys2Proof.Machine

/-- The results of a slot lookup (R115, R116): the slot, the value less the slot's lower bound, the number of extra
bits. `e` is the internal error for a value outside every row (R112, R113), which the operand check before it
excludes. -/
def slotResults (rows : List SlotRow) (v : Nat) (e : Err) (s : State) : Res Results :=
  match slotIn rows v with
  | some k =>
    match rows[k]? with
    | some r => .ok (Results.nat k (v - r.lo) r.nb) s
    | none => .err e s
  | none => .err e s

/-- The results of a range lookup (R117, R118): the slot's bounds and its number of extra bits. -/
def rangeResults (row : Option SlotRow) (s : State) : Res Results :=
  match row with
  | some r => .ok (Results.nat r.lo r.hi r.nb) s
  | none => .err operandRange s

/-- LEN_SLOT (R115): ARG0 is a match length. -/
def execLenSlot (s : State) : Host.Outcome State Fault Refusal :=
  finish (require (matchLenOk s.a0) operandRange s fun _ =>
    slotResults lenRows s.a0 (.internal .lenRange) s)

/-- DIST_SLOT (R116): ARG0 is a match distance. -/
def execDistSlot (s : State) : Host.Outcome State Fault Refusal :=
  finish (require (matchDistOk s.a0) operandRange s fun _ =>
    slotResults distRows s.a0 (.internal .distRange) s)

/-- LEN_RANGE (R117): ARG0 is a length slot. -/
def execLenRange (s : State) : Host.Outcome State Fault Refusal :=
  finish (require (lenSlotOk s.a0) operandRange s fun _ => rangeResults (rangeLen s.a0) s)

/-- DIST_RANGE (R118): ARG0 is a distance slot. -/
def execDistRange (s : State) : Host.Outcome State Fault Refusal :=
  finish (require (distSlotOk s.a0) operandRange s fun _ => rangeResults (rangeDist s.a0) s)

end Sys2Proof.Machine
end

