-- ==== Sys2Proof/Machine/BitStream.lean ====
section
/-! DEFINITION. Bit stream I/O (40_bitstream.md): the five primitives R90–R94, and the seven commands R95–R101.
Stream bit `k` is bit `k mod 8` of byte `k >> 3` (R11, R47). -/

namespace Sys2Proof.Machine

/-! ## The writer -/

/-- Bit `i` of a byte made equal to `b` (R90: `WACC[WCNT] <- v[i]`). -/
def setBit (x : Byte) (i : Nat) (b : Bool) : Byte :=
  (x &&& ~~~(1#8 <<< i)) ||| (if b then 1#8 <<< i else 0#8)

/-- One round of R90's loop: a bit goes to WACC[WCNT], and a full byte goes out. -/
def appendBit (b : Bool) (s : State) : State :=
  let acc := setBit s.wr.wacc s.wr.wcnt.toNat b
  if s.wr.wcnt = 7 then
    let t := outAppend acc s
    { t with wr := { t.wr with wacc := 0, wcnt := 0 } }
  else { s with wr := { s.wr with wacc := acc, wcnt := s.wr.wcnt + 1 } }

/-- R90's loop: the bits `v[0]`, …, `v[n-1]`. -/
def appendBits (v : Nat) : Nat → State → State
  | 0, s => s
  | n + 1, s => appendBits (v / 2) n (appendBit (v.testBit 0) s)

/-- BITS_W rises by `n`, modulo 2^32 (R102). -/
def countWritten (n : Nat) (s : State) : State :=
  { s with wr := { s.wr with bitsW := s.wr.bitsW + BitVec.ofNat 32 n } }

/-- R90 `WriteBits(v, n)`: the capacity for every byte the call completes is checked before any bit moves. -/
def writeBits (v n : Nat) (s : State) : Res Unit :=
  require (bitCountOk n) operandRange s fun _ =>
    require (s.outFits ((s.wr.wcnt.toNat + n) / 8)) .outputFull s fun _ =>
      .ok () (countWritten n (appendBits v n s))

/-- R91 `WriteByte(b)`: ALIGN is checked before OUTPUT_FULL (R218). -/
def writeByte (b : Nat) (s : State) : Res Unit :=
  require (byteOk b) operandRange s fun _ =>
    require s.bwAligned .align s fun _ =>
      require (s.outFits 1) .outputFull s fun _ =>
        .ok () (countWritten 8 (outAppend (BitVec.ofNat 8 b) s))

/-- R92 `WriteEOF()`: the partial byte goes out; BITS_W does not count the padding. -/
def writeEof (s : State) : Res Unit :=
  if s.bwAligned then .ok () s
  else
    require (s.outFits 1) .outputFull s fun _ =>
      let t := outAppend s.wr.wacc s
      .ok () { t with wr := { t.wr with wacc := 0, wcnt := 0 } }

/-- The writer at the start of a stream (R95): OBUF's bytes stay, a pending partial byte is dropped. -/
def resetWriter (s : State) : State := { s with wr := ⟨0, 0, 0, 0⟩ }

/-! ## The reader -/

/-- One bit on (R93): RBIT, and RPOS at the end of a byte. -/
def nextBit (s : State) : State :=
  if s.rd.rbit = 7 then { s with rd := { s.rd with rbit := 0, rpos := s.rd.rpos + 1 } }
  else { s with rd := { s.rd with rbit := s.rd.rbit + 1 } }

/-- R93's loop: `n` more bits, the first of them bit 0 of the result. -/
def takeBits : Nat → State → Res Nat
  | 0, s => .ok 0 s
  | n + 1, s =>
    (inByte s.rd.rpos.toNat s).bind fun b s =>
      (takeBits n (nextBit s)).bind fun v t =>
        .ok ((if b.getLsbD s.rd.rbit.toNat then 1 else 0) + 2 * v) t

/-- The next unread stream bit (R23). -/
def State.readPos (s : State) : Nat := 8 * s.rd.rpos.toNat + s.rd.rbit.toNat

/-- `avail` of R93: the unread bits of the input, 0 when the cursor is past its end. -/
def State.avail (s : State) : Nat := 8 * s.ctl.inLen.toNat - s.readPos

/-- BITS_R rises by `n`, modulo 2^32 (R102). -/
def countRead (n : Nat) (s : State) : State :=
  { s with rd := { s.rd with bitsR := s.rd.bitsR + BitVec.ofNat 32 n } }

/-- R93 `ReadBits(n)`: a read that would pass the end of the input consumes nothing. -/
def readBits (n : Nat) (s : State) : Res Nat :=
  require (bitCountOk n) operandRange s fun _ =>
    require s.inputOk operandRange s fun _ =>
      require (n ≤ s.avail) .endOfInput s fun _ =>
        (takeBits n s).bind fun v t => .ok v (countRead n t)

/-- R94 `ReadByte()`: ALIGN is checked before END_OF_INPUT (R218). -/
def readByte (s : State) : Res Nat :=
  require s.inputOk operandRange s fun _ =>
    require s.brAligned .align s fun _ =>
      require (s.rd.rpos.toNat < s.ctl.inLen.toNat) .endOfInput s fun _ =>
        (inByte s.rd.rpos.toNat s).bind fun b t =>
          .ok b.toNat (countRead 8 { t with rd := { t.rd with rpos := t.rd.rpos + 1 } })

/-- The reader at the start of a stream (R99). -/
def resetReader (s : State) : State := { s with rd := ⟨0, 0, 0⟩ }

/-- The error a plan reports where the input ends (R144 TRead, R148, R199 FRead). -/
def Place.eosErr : Place → Err
  | .inTable => .corrupt .eosInTable
  | .inSymbol => .corrupt .eosInSymbol
  | .inField => .corrupt .eosInField

/-- END_OF_INPUT becomes the place's CORRUPT error; every other error passes through (R144, R148, R199). -/
def eosBecomes {α : Type} (p : Place) : Res α → Res α
  | .ok a s => .ok a s
  | .err .endOfInput s => .err (Place.eosErr p) s
  | .err .align s => .err .align s
  | .err (.corrupt d) s => .err (.corrupt d) s
  | .err (.internal d) s => .err (.internal d) s
  | .err .outputFull s => .err .outputFull s
  | .err (.illegal d) s => .err (.illegal d) s
  | .fault f => .fault f

/-- A reader's plan run over the bit reader: each field is one ReadBits, so what was read before an error stays
consumed (R144, R148). An unpopulated trie slot is the error UNPOPULATED (R148). -/
def runParse {α : Type} : Parse α → State → Res α
  | .done a, s => .ok a s
  | .unpopulated, s => .err (.corrupt .unpopulated) s
  | .field p n k, s =>
    match eosBecomes p (readBits n s) with
    | .ok v t => runParse (k v) t
    | .err e t => .err e t
    | .fault f => .fault f

/-! ## Commands -/

/-- BW_RESET (R95). -/
def execBwReset (s : State) : Host.Outcome State Fault Refusal :=
  finish (.ok Results.zero (resetWriter s))

/-- BW_WRITE_BITS (R96): ARG0 is the value, ARG1 the count. -/
def execBwWriteBits (s : State) : Host.Outcome State Fault Refusal :=
  finish ((writeBits s.a0 s.a1 s).bind fun _ t => .ok Results.zero t)

/-- BW_WRITE_BYTE (R97): ARG0 is the byte. -/
def execBwWriteByte (s : State) : Host.Outcome State Fault Refusal :=
  finish ((writeByte s.a0 s).bind fun _ t => .ok Results.zero t)

/-- BW_WRITE_EOF (R98). -/
def execBwWriteEof (s : State) : Host.Outcome State Fault Refusal :=
  finish ((writeEof s).bind fun _ t => .ok Results.zero t)

/-- BR_RESET (R99). -/
def execBrReset (s : State) : Host.Outcome State Fault Refusal :=
  finish (.ok Results.zero (resetReader s))

/-- BR_READ_BITS (R100): ARG1 is the count, RES0 the value. -/
def execBrReadBits (s : State) : Host.Outcome State Fault Refusal :=
  finish ((readBits s.a1 s).bind fun v t => .ok (Results.nat v 0 0) t)

/-- BR_READ_BYTE (R101): RES0 is the byte. -/
def execBrReadByte (s : State) : Host.Outcome State Fault Refusal :=
  finish ((readByte s).bind fun b t => .ok (Results.nat b 0 0) t)

end Sys2Proof.Machine
end

