-- ==== Sys2Proof/Machine/Huffman.lean ====
section
/-! DEFINITION. The canonical Huffman builder and codec (42_huffman.md): frequencies, code lengths, canonical
codes, the code-length table, the decode trie, symbol coding; commands R131–R153. -/

namespace Sys2Proof.Machine

/-! ## Frequencies -/

/-- FREQ_CLEAR's effect (R131). -/
def clearFreq (a : Alphabet) (s : State) : State :=
  s.setTab a { s.tab a with freq := Vector.replicate a.size 0 }

/-- FREQ[A][sym] (R28). -/
def freqOf (a : Alphabet) (sym : Nat) (s : State) : Word := tableGet (s.tab a).freq sym 0

/-- FREQ[A][sym] rises by one (R132, R189). -/
def bumpFreq (a : Alphabet) (sym : Nat) (s : State) : State :=
  s.setTab a { s.tab a with freq := tableSet (s.tab a).freq sym (freqOf a sym s + 1) }

/-! ## Build -/

/-- A merge tree of R134. -/
inductive MergeTree where
  | leaf (sym : Nat)
  | node (x y : MergeTree)
deriving DecidableEq, Repr

/-- The depth of every leaf, counted from `d` at the top (R134). -/
def MergeTree.depths : MergeTree → Nat → List (Nat × Nat)
  | .leaf sym, d => [(sym, d)]
  | .node x y, d => x.depths (d + 1) ++ y.depths (d + 1)

/-- R134, R135: into a list sorted by weight, after every element of equal or lower weight. -/
def insertNode (z : Nat × MergeTree) : List (Nat × MergeTree) → List (Nat × MergeTree)
  | [] => [z]
  | q :: rest => if z.1 < q.1 then z :: q :: rest else q :: insertNode z rest

/-- The leaves of the symbols of nonzero frequency, ascending from symbol `i` (R134). -/
def leavesFrom : Nat → List Nat → List (Nat × MergeTree)
  | _, [] => []
  | i, f :: rest => if f = 0 then leavesFrom (i + 1) rest else (f, .leaf i) :: leavesFrom (i + 1) rest

/-- R135: the stable sort by weight; equal weights keep ascending symbols. -/
def sortLeaves (q : List (Nat × MergeTree)) : List (Nat × MergeTree) :=
  q.foldl (fun acc z => insertNode z acc) []

/-- R134's loop: the two first elements are merged until one is left. Each round shortens the list by one. -/
def mergeAll : Nat → List (Nat × MergeTree) → List (Nat × MergeTree)
  | 0, q => q
  | n + 1, x :: y :: rest => mergeAll n (insertNode (x.1 + y.1, .node x.2 y.2) rest)
  | _ + 1, q => q

/-- The depth of each coded symbol; a single symbol gets length 1 (R136). -/
def leafDepths (freq : List Nat) : List (Nat × Nat) :=
  match sortLeaves (leavesFrom 0 freq) with
  | [] => []
  | [z] => z.2.depths 1
  | q =>
    match mergeAll q.length q with
    | z :: _ => z.2.depths 0
    | [] => []

/-- R134 `BuildLengths`: the code length of every symbol, 0 for a symbol of frequency 0. -/
def buildLengths (freq : List Nat) : List Nat :=
  let ds := leafDepths freq
  (List.range freq.length).map fun sym => (ds.lookup sym).getD 0

/-- HUF_BUILD's effect (R137): the longest length and the number of coded symbols; CL is unchanged on
CODELEN_OVERFLOW. -/
def hufBuild (a : Alphabet) (s : State) : Res (Nat × Nat) :=
  let depth := buildLengths ((s.tab a).freq.toList.map BitVec.toNat)
  let longest := depth.foldl max 0
  require (longest ≤ maxCodeLenEnc) (.internal .codelenOverflow) s fun _ =>
    .ok (longest, (depth.filter (0 < ·)).length)
      (s.setTab a { s.tab a with cl := tableOf a.size 0 (depth.map (BitVec.ofNat 5)) })

/-! ## Canonical codes -/

/-- R138's recurrence over `k` lengths from `l` on, `c` being the first code of length `l`: the first code of each
length. PRESUMED (log entry 15): the spec takes the recurrence from general knowledge (93 G2). -/
def firstCodes (cl : List Nat) : Nat → Nat → Nat → List Nat
  | 0, _, _ => []
  | k + 1, l, c => c :: firstCodes cl k (l + 1) ((c + if l = 0 then 0 else cl.count l) * 2)

/-- R138's assignment in symbol order; `none` is OVERSUBSCRIBED (R139). -/
def assignCodes : List Nat → List Nat → Option (List Nat)
  | [], _ => some []
  | l :: rest, next =>
    if l = 0 then (assignCodes rest next).map (0 :: ·)
    else
      let c := next.getD l 0
      if 2 ^ l ≤ c then none
      else (assignCodes rest (next.set l (c + 1))).map (c :: ·)

/-- R138 `Canon`: the canonical code of every symbol. The lengths of R29 are at most 21; the recurrence is given
for every length 5 bits can hold (log entry 16). -/
def canon (cl : List Nat) : Option (List Nat) := assignCodes cl (firstCodes cl 32 0 0)

/-- CL[A] as naturals. -/
def codeLens (a : Alphabet) (s : State) : List Nat := (s.tab a).cl.toList.map BitVec.toNat

/-- CODE[A] written (R141, R147). -/
def setCodes (a : Alphabet) (codes : List Nat) (s : State) : State :=
  s.setTab a { s.tab a with code := tableOf a.size 0 (codes.map (BitVec.ofNat 21)) }

/-- HUF_CANON's effect (R141): CODE is unchanged on OVERSUBSCRIBED. -/
def hufCanon (a : Alphabet) (s : State) : Res Unit :=
  match canon (codeLens a s) with
  | none => .err (.corrupt .oversubscribed) s
  | some codes => .ok () (setCodes a codes s)

/-! ## The decode trie -/

/-- The low `l` bits of a code, most significant first (R146). -/
def codePath (c : Nat) : Nat → List Bool
  | 0 => []
  | l + 1 => c.testBit l :: codePath c l

/-- R146: internal nodes on demand along a path, the symbol at its end. -/
def trieInsert (sym : Nat) : List Bool → Trie → Trie
  | [], _ => .leaf sym
  | b :: bs, .node z o => if b then .node z (trieInsert sym bs o) else .node (trieInsert sym bs z) o
  | b :: bs, .empty =>
    if b then .node .empty (trieInsert sym bs .empty) else .node (trieInsert sym bs .empty) .empty
  | b :: bs, .leaf _ =>
    if b then .node .empty (trieInsert sym bs .empty) else .node (trieInsert sym bs .empty) .empty

/-- R146 below the root, which is always internal. A symbol without a code has no path. -/
def rootInsert (sym : Nat) (path : List Bool) (t : DecodeTrie) : DecodeTrie :=
  match path with
  | [] => t
  | b :: bs => if b then { t with one := trieInsert sym bs t.one } else { t with zero := trieInsert sym bs t.zero }

/-- R146's loop from symbol `i` on. -/
def trieFrom : Nat → List Nat → List Nat → DecodeTrie → DecodeTrie
  | i, l :: ls, c :: cs, t => trieFrom (i + 1) ls cs (rootInsert i (codePath c l) t)
  | _, _, _, t => t

/-- R146 `BuildTrie`. -/
def buildTrie (cl codes : List Nat) : DecodeTrie := trieFrom 0 cl codes DecodeTrie.rootOnly

/-- HUF_TRIE's effect (R147): TRIE and CODE are unchanged on OVERSUBSCRIBED. -/
def hufTrie (a : Alphabet) (s : State) : Res Unit :=
  match canon (codeLens a s) with
  | none => .err (.corrupt .oversubscribed) s
  | some codes =>
    let t := setCodes a codes s
    .ok () (t.setTab a { t.tab a with trie := buildTrie (codeLens a s) codes })

/-! ## Symbol coding -/

/-- CL[A][sym]. -/
def clOf (a : Alphabet) (sym : Nat) (s : State) : Nat := (tableGet (s.tab a).cl sym 0).toNat

/-- CODE[A][sym]. -/
def codeOf (a : Alphabet) (sym : Nat) (s : State) : Nat := (tableGet (s.tab a).code sym 0).toNat

/-- CL[A][sym] written. -/
def setCl (a : Alphabet) (sym l : Nat) (s : State) : State :=
  s.setTab a { s.tab a with cl := tableSet (s.tab a).cl sym (BitVec.ofNat 5 l) }

/-- R148 `DecodeSymbol(A)`. -/
def decodeSymbol (a : Alphabet) (s : State) : Res Nat := runParse (s.tab a).trie.parse s

/-- R150 `EncodeSymbol(A, sym)`: the reversed code, so that the wire carries it most significant bit first. -/
def encodeSymbol (a : Alphabet) (sym : Nat) (s : State) : Res Unit :=
  require (clOf a sym s ≠ 0) (.internal .noCode) s fun _ =>
    writeBits (revBits (codeOf a sym s) (clOf a sym s)) (clOf a sym s) s

/-- One field written (R48, R76). -/
def writeField : Field → State → Res Unit
  | .bits v n, s => writeBits v n s
  | .code a sym, s => encodeSymbol a sym s

/-- Fields written one after another (R69). -/
def writeFields : List Field → State → Res Unit
  | [], s => .ok () s
  | f :: fs, s => (writeField f s).bind fun _ t => writeFields fs t

/-! ## The code-length table -/

/-- The length of the zero run at the head of a list, up to `cap` (R142). -/
def zeroRun : Nat → List Nat → Nat
  | 0, _ => 0
  | _ + 1, [] => 0
  | cap + 1, l :: rest => if l = 0 then zeroRun cap rest + 1 else 0

/-- R70: the entry of a nonzero code length. -/
def lengthEntry (l : Nat) : TableEntry :=
  if l < 15 then .short (BitVec.ofNat 4 l)
  else if l < 18 then .ext1 (BitVec.ofNat 2 (l - 15))
  else .ext2 (BitVec.ofNat 2 (l - 18))

/-- R142: the entries of a table, each zero run split at `cap = 2^ZB[A]`. Every round takes a symbol off the list. -/
def tableEntries (cap : Nat) : Nat → List Nat → List TableEntry
  | 0, _ => []
  | _ + 1, [] => []
  | n + 1, l :: rest =>
    if l = 0 then
      let r := zeroRun cap (l :: rest)
      .zrun (r - 1) :: tableEntries cap n ((l :: rest).drop r)
    else lengthEntry l :: tableEntries cap n rest

/-- R142 `Serialize(A)`: the check for lengths above 19 comes before any bit. -/
def serialize (a : Alphabet) (s : State) : Res Unit :=
  let cl := codeLens a s
  require (cl.all (· ≤ maxCodeLenEnc)) (.internal .codelenOverflow) s fun _ =>
    writeFields ((tableEntries (2 ^ a.zb) cl.length cl).flatMap (TableEntry.fields a)) s

/-- CL[A][i] … CL[A][i + r - 1] cleared (R144). -/
def clearCls (a : Alphabet) (i : Nat) : Nat → State → State
  | 0, s => s
  | r + 1, s => clearCls a (i + 1) r (setCl a i 0 s)

/-- R144: the effect of one table entry at symbol `i`; the result is the next symbol. -/
def applyEntry (a : Alphabet) (i : Nat) (e : TableEntry) (s : State) : Res Nat :=
  match e with
  | .short l => .ok (i + 1) (setCl a i l.toNat s)
  | .ext1 x => .ok (i + 1) (setCl a i (15 + x.toNat) s)
  | .ext2 y => .ok (i + 1) (setCl a i (18 + y.toNat) s)
  | .zrun c =>
    require (i + (c + 1) ≤ a.size) (.corrupt .tableOverrun) s fun _ =>
      .ok (i + (c + 1)) (clearCls a i (c + 1) s)

/-- R144's loop from symbol `i` on. Each round takes at least one symbol, so `n_A` rounds are enough. -/
def deserializeFrom (a : Alphabet) : Nat → Nat → State → Res Unit
  | 0, _, s => .ok () s
  | n + 1, i, s =>
    if a.size ≤ i then .ok () s
    else
      (runParse (entryParse a) s).bind fun e t =>
        (applyEntry a i e t).bind fun j u => deserializeFrom a n j u

/-- R144 `Deserialize(A)`. -/
def deserialize (a : Alphabet) (s : State) : Res Unit := deserializeFrom a a.size 0 s

/-! ## Commands -/

/-- FREQ_CLEAR (R131). -/
def execFreqClear (a : Alphabet) (s : State) : Host.Outcome State Fault Refusal :=
  finish (.ok Results.zero (clearFreq a s))

/-- FREQ_INC (R132): ARG0 is the symbol, RES0 its new count. A counter never wraps. -/
def execFreqInc (a : Alphabet) (s : State) : Host.Outcome State Fault Refusal :=
  finish (require (symbolOk a s.a0) operandRange s fun _ =>
    require (freqOf a s.a0 s ≠ 0xFFFFFFFF) (.internal .freqOverflow) s fun _ =>
      let t := bumpFreq a s.a0 s
      .ok ⟨freqOf a s.a0 t, 0, 0⟩ t)

/-- FREQ_READ (R133). -/
def execFreqRead (a : Alphabet) (s : State) : Host.Outcome State Fault Refusal :=
  finish (require (symbolOk a s.a0) operandRange s fun _ => .ok ⟨freqOf a s.a0 s, 0, 0⟩ s)

/-- HUF_BUILD (R137): RES0 is the longest length, RES1 the number of coded symbols. -/
def execHufBuild (a : Alphabet) (s : State) : Host.Outcome State Fault Refusal :=
  finish ((hufBuild a s).bind fun r t => .ok (Results.nat r.1 r.2 0) t)

/-- HUF_CANON (R141). -/
def execHufCanon (a : Alphabet) (s : State) : Host.Outcome State Fault Refusal :=
  finish ((hufCanon a s).bind fun _ t => .ok Results.zero t)

/-- HUF_SERIALIZE (R143): RES0 is the number of bits written. -/
def execHufSerialize (a : Alphabet) (s : State) : Host.Outcome State Fault Refusal :=
  finish ((serialize a s).bind fun _ t => .ok ⟨t.wr.bitsW - s.wr.bitsW, 0, 0⟩ t)

/-- HUF_DESERIALIZE (R145): RES0 is the number of bits read. -/
def execHufDeserialize (a : Alphabet) (s : State) : Host.Outcome State Fault Refusal :=
  finish ((deserialize a s).bind fun _ t => .ok ⟨t.rd.bitsR - s.rd.bitsR, 0, 0⟩ t)

/-- HUF_TRIE (R147). -/
def execHufTrie (a : Alphabet) (s : State) : Host.Outcome State Fault Refusal :=
  finish ((hufTrie a s).bind fun _ t => .ok Results.zero t)

/-- HUF_DECODE (R149): RES0 is the symbol. -/
def execHufDecode (a : Alphabet) (s : State) : Host.Outcome State Fault Refusal :=
  finish ((decodeSymbol a s).bind fun sym t => .ok (Results.nat sym 0 0) t)

/-- HUF_ENCODE (R151): RES0 is the code length, RES1 the reversed code. -/
def execHufEncode (a : Alphabet) (s : State) : Host.Outcome State Fault Refusal :=
  finish (require (symbolOk a s.a0) operandRange s fun _ =>
    (encodeSymbol a s.a0 s).bind fun _ t =>
      .ok (Results.nat (clOf a s.a0 s) (revBits (codeOf a s.a0 s) (clOf a s.a0 s)) 0) t)

/-- CL_READ (R152): RES0 is the code length, RES1 the code, RES2 the reversed code. -/
def execClRead (a : Alphabet) (s : State) : Host.Outcome State Fault Refusal :=
  finish (require (symbolOk a s.a0) operandRange s fun _ =>
    .ok (Results.nat (clOf a s.a0 s) (codeOf a s.a0 s) (revBits (codeOf a s.a0 s) (clOf a s.a0 s))) s)

/-- CL_WRITE (R153): ARG0 is the symbol, ARG1 the length. -/
def execClWrite (a : Alphabet) (s : State) : Host.Outcome State Fault Refusal :=
  finish (require (symbolOk a s.a0 && codeLenOk s.a1) operandRange s fun _ =>
    .ok Results.zero (setCl a s.a0 s.a1 s))

end Sys2Proof.Machine
end

