-- ==== Sys2Proof/Machine/MatchFinder.lean ====
section
/-! DEFINITION. The sliding-window match finder (43_match_finder.md): distances, the walk, tree surgery, and the six
commands R170–R175. A node is a slot `p mod 65536` (R160). -/

namespace Sys2Proof.Machine

/-! ## Positions, slots and distances -/

/-- The slot of a position (R160). -/
def slotOf (p : Nat) : Nat := p % windowSize

/-- R160 `Dist(p, t)`: the distance from position `p` back to the position slot `t` stands for. -/
def slotDist (p t : Nat) : Nat := (((p : Int) - 1 - (t : Int)) % (windowSize : Int)).toNat + 1

/-- R161: the compare limit of a walk at position `p`. -/
def compareLimit (p : Nat) (s : State) : Nat := min lookahead (s.ctl.inLen.toNat - p)

/-! ## Links of the finder -/

/-- parent[i] (R32). -/
def Finder.par (f : Finder) (i : Nat) : BitVec 17 := Links.get f.parent i

/-- smaller[i] (R32). -/
def Finder.sm (f : Finder) (i : Nat) : BitVec 17 := Links.get f.smaller i

/-- larger[i] (R32). -/
def Finder.la (f : Finder) (i : Nat) : BitVec 17 := Links.get f.larger i

/-- parent[i] written. -/
def Finder.setPar (f : Finder) (i : Nat) (v : BitVec 17) : Finder := { f with parent := Links.set f.parent i v }

/-- smaller[i] written. -/
def Finder.setSm (f : Finder) (i : Nat) (v : BitVec 17) : Finder := { f with smaller := Links.set f.smaller i v }

/-- larger[i] written. -/
def Finder.setLa (f : Finder) (i : Nat) (v : BitVec 17) : Finder := { f with larger := Links.set f.larger i v }

/-- A slot is in the tree exactly when its parent is not NIL (R32). -/
def Finder.inTree (f : Finder) (i : Nat) : Bool := f.par i != nilLink

/-- The link value of an index. -/
def link (i : Nat) : BitVec 17 := BitVec.ofNat 17 i

/-- Which child (R163). -/
inductive Side where
  | smaller
  | larger
deriving DecidableEq, Repr

/-- A node's child on a side. -/
def Finder.child (f : Finder) (i : Nat) : Side → BitVec 17
  | .smaller => f.sm i
  | .larger => f.la i

/-- A node's child on a side written. -/
def Finder.setChild (f : Finder) (i : Nat) (v : BitVec 17) : Side → Finder
  | .smaller => f.setSm i v
  | .larger => f.setLa i v

/-! ## Tree surgery -/

/-- R163 `Attach(t, side, s)`. -/
def attach (f : Finder) (t : Nat) (side : Side) (s : Nat) : Finder :=
  ((((f.setChild t (link s) side).setPar s (link t)).setSm s nilLink).setLa s nilLink)

/-- All three links of a slot cleared (R167, R168). -/
def clearSlot (f : Finder) (s : Nat) : Finder := ((f.setPar s nilLink).setSm s nilLink).setLa s nilLink

/-- The parent `p`'s link to `old` made to hold `v` (R167, R168): its larger link if that is `old`, else its smaller
one. -/
def relink (f : Finder) (p old : Nat) (v : BitVec 17) : Finder :=
  if f.la p = link old then f.setLa p v else f.setSm p v

/-- The parent link of a child, where there is one (R167, R168). -/
def adopt (f : Finder) (child : BitVec 17) (p : BitVec 17) : Finder :=
  if child = nilLink then f else f.setPar child.toNat p

/-- R167 `Replace(old, new)`. -/
def replaceNode (f : Finder) (old new : Nat) : Finder :=
  let f := ((f.setPar new (f.par old)).setSm new (f.sm old)).setLa new (f.la old)
  let f := adopt f (f.sm new) (link new)
  let f := adopt f (f.la new) (link new)
  let f := relink f (f.par old).toNat old (link new)
  clearSlot f old

/-- R168 `Contract(old, child)`. -/
def contract (f : Finder) (old : Nat) (child : BitVec 17) : Finder :=
  let f := adopt f child (f.par old)
  let f := relink f (f.par old).toNat old child
  clearSlot f old

/-- R169: the rightmost node from `r` on; `none` where the links form a cycle (log entry 13). -/
def rightmost (f : Finder) : Nat → Nat → Option Nat
  | 0, _ => none
  | n + 1, r => if f.la r = nilLink then some r else rightmost f n (f.la r).toNat

/-- More links than a tree has slots (R32). -/
def treeFuel : Nat := 65538

/-- R169's DeleteSlot of a predecessor, which has no larger child: one Contract, or nothing when it is not in the
tree. -/
def deletePredecessor (f : Finder) (r : Nat) : Finder :=
  if f.inTree r then contract f r (f.sm r) else f

/-- R169 `DeleteSlot(s)`: a slot not in the tree is left alone. -/
def deleteSlot (f : Finder) (s : Nat) : Option Finder :=
  if !f.inTree s then some f
  else if f.la s = nilLink then some (contract f s (f.sm s))
  else if f.sm s = nilLink then some (contract f s (f.la s))
  else
    (rightmost f treeFuel (f.sm s).toNat).map fun r => replaceNode (deletePredecessor f r) s r

/-! ## The walk -/

/-- R162's loop over at most `n` more bytes from offset `i`: the common prefix length, and whether the suffix at `p`
compares ≥ the suffix at `q`. -/
def compareFrom (p q : Nat) : Nat → Nat → State → Res (Nat × Bool)
  | 0, i, s => .ok (i, true) s
  | n + 1, i, s =>
    (inByte (p + i) s).bind fun b s =>
      (inByte (q + i) s).bind fun c s =>
        if b = c then compareFrom p q n (i + 1) s else .ok (i, c.toNat < b.toNat) s

/-- How a walk ends: where a new leaf would go, or which node it would replace (R163, R166). -/
inductive WalkEnd where
  | leaf (t : Nat) (side : Side)
  | full (t : Nat)
deriving DecidableEq, Repr

/-- A walk's best candidate so far and its end. -/
structure WalkResult where
  len : Nat
  dist : Nat
  stop : WalkEnd
deriving DecidableEq, Repr

/-- R164: a common prefix of exactly 3 at a distance above 4096 counts as 0. -/
def effectiveLen (i d : Nat) : Nat := if i = thresh ∧ near < d then 0 else i

/-- R163's loop from node `t` on, with compare limit `m` and best candidate `(bl, bd)`. It writes nothing. -/
def walkFrom (p m : Nat) : Nat → Nat → Nat → Nat → State → Res WalkResult
  | 0, _, _, _, _ => .fault .treeCycle
  | n + 1, t, bl, bd, s =>
    let d := slotDist p t
    require (d ≤ p) (.internal .treePos) s fun _ =>
      (compareFrom p (p - d) m 0 s).bind fun r s =>
        let ie := effectiveLen r.1 d
        let bl' := if bl ≤ ie then ie else bl
        let bd' := if bl ≤ ie then d else bd
        if r.1 = lookahead then .ok ⟨bl', bd', .full t⟩ s
        else
          let side := if r.2 then Side.larger else Side.smaller
          if s.mf.child t side = nilLink then .ok ⟨bl', bd', .leaf t side⟩ s
          else walkFrom p m n (s.mf.child t side).toNat bl' bd' s

/-- The walk from the root (R163): an empty tree gives no candidate, and the new leaf would be the top node. -/
def walkRoot (p : Nat) (s : State) : Res WalkResult :=
  if s.mf.la rootIndex = nilLink then .ok ⟨0, 0, .leaf rootIndex .larger⟩ s
  else walkFrom p (compareLimit p s) treeFuel (s.mf.la rootIndex).toNat 0 0 s

/-- What an insert does to the tree at the end of its walk (R163, R166). -/
def linkIn (f : Finder) (stop : WalkEnd) (s : Nat) : Finder :=
  match stop with
  | .leaf t side => attach f t side s
  | .full t => replaceNode f t s

/-- MF_BEST written (R165). -/
def setBest (len dist : Nat) (s : State) : State :=
  { s with mf := { s.mf with best := ⟨BitVec.ofNat 9 len, BitVec.ofNat 17 dist⟩ } }

/-- R163 `Walk(p, mutate)`. Its checks come first, its writes last: a walk that raises has changed nothing. -/
def walk (p : Nat) (mutate : Bool) (s : State) : Res Unit :=
  require s.inputOk operandRange s fun _ =>
    require (s.positionOk p) operandRange s fun _ =>
      require (!(mutate && s.mf.inTree (slotOf p))) (.internal .slotOccupied) s fun _ =>
        (walkRoot p s).bind fun r s =>
          let t := if mutate then { s with mf := linkIn s.mf r.stop (slotOf p) } else s
          .ok () (setBest r.len r.dist t)

/-- R169 over the state. -/
def deleteAt (slot : Nat) (s : State) : Res Unit :=
  match deleteSlot s.mf slot with
  | some f => .ok () { s with mf := f }
  | none => .fault .treeCycle

/-- MF_INIT's effect (R170): the tree is empty and there is no candidate. -/
def initFinder (s : State) : State := { s with mf := Finder.reset }

/-! ## Commands -/

/-- The results BEST_LEN, BEST_DIST, 0 (R171, R172, R174). -/
def bestResults (s : State) : Results := Results.nat s.mf.best.len.toNat s.mf.best.dist.toNat 0

/-- MF_INIT (R170). -/
def execMfInit (s : State) : Host.Outcome State Fault Refusal := finish (.ok Results.zero (initFinder s))

/-- MF_INSERT (R171): ARG0 is the position. -/
def execMfInsert (s : State) : Host.Outcome State Fault Refusal :=
  finish ((walk s.a0 true s).bind fun _ t => .ok (bestResults t) t)

/-- MF_PROBE (R172): it changes only MF_BEST. -/
def execMfProbe (s : State) : Host.Outcome State Fault Refusal :=
  finish ((walk s.a0 false s).bind fun _ t => .ok (bestResults t) t)

/-- MF_DELETE (R173): ARG0 modulo 65536 is the slot. -/
def execMfDelete (s : State) : Host.Outcome State Fault Refusal :=
  finish ((deleteAt (slotOf s.a0) s).bind fun _ t => .ok Results.zero t)

/-- MF_LONGEST (R174). -/
def execMfLongest (s : State) : Host.Outcome State Fault Refusal := finish (.ok (bestResults s) s)

/-- TREE_READ (R175): ARG0 is the index; RES0 parent, RES1 smaller, RES2 larger. -/
def execTreeRead (s : State) : Host.Outcome State Fault Refusal :=
  finish (require (treeIndexOk s.a0) operandRange s fun _ =>
    .ok (Results.nat (s.mf.par s.a0).toNat (s.mf.sm s.a0).toNat (s.mf.la s.a0).toNat) s)

end Sys2Proof.Machine
end

