-- ==== Sys2Proof/Machine/Pipeline.lean ====
section
/-! DEFINITION. The encoder and decoder pipelines and the decoder window (44_pipelines.md): lazy matching, tally,
emission, COMPRESS, EXPAND, and the four window commands R195–R198. -/

namespace Sys2Proof.Machine

/-! ## The decoder window -/

/-- A byte into the window and to the output (R193, R194). The caller has checked the capacity. -/
def windowPush (b : Byte) (s : State) : State :=
  let t := outAppend b { s with win := { s.win with bytes := Memory.write s.win.bytes s.win.pos.toNat b } }
  { t with win := { t.win with pos := t.win.pos + 1
                               fill := if t.win.fill.toNat < windowSize then t.win.fill + 1 else BitVec.ofNat 17 windowSize } }

/-- R193 `WinPut(b)`. -/
def winPut (b : Byte) (s : State) : Res Unit :=
  require (s.outFits 1) .outputFull s fun _ => .ok () (windowPush b s)

/-- The window index `d` back from the current one (R194). -/
def windowBack (s : State) (d : Nat) : Nat := (s.win.pos.toNat + windowSize - d % windowSize) % windowSize

/-- WIN[j]; reading a slot nothing has written faults (R198, R242). -/
def windowRead (j : Nat) (s : State) : Res Byte :=
  match Memory.read? s.win.bytes j with
  | some b => .ok b s
  | none => .fault .unwrittenWindow

/-- R194's loop: each byte is read after the one before it is written. -/
def copyLoop (d : Nat) : Nat → State → Res Unit
  | 0, s => .ok () s
  | n + 1, s => (windowRead (windowBack s d) s).bind fun b s => copyLoop d n (windowPush b s)

/-- R194 `WinCopy(L, d)`: all checks come before the first byte. -/
def winCopy (l d : Nat) (s : State) : Res Unit :=
  require (matchLenOk l && matchDistOk d) operandRange s fun _ =>
    require (d ≤ s.win.fill.toNat) (.corrupt .distBeforeStart) s fun _ =>
      require (s.outFits l) .outputFull s fun _ => copyLoop d l s

/-- A new decoder window (R195): WIN's bytes stay. -/
def resetWindow (s : State) : State := { s with win := { s.win with pos := 0, fill := 0 } }

/-! ## Events and the lazy-matching loop -/

/-- An event at the end of EVQ (R185, R186). -/
def pushEvent (e : Event) (s : State) : State := { s with prog := { s.prog with evq := s.prog.evq ++ [e] } }

/-- `cand <- MF_BEST` (R186). -/
def takeCandidate (s : State) : State := { s with prog := { s.prog with cand := s.mf.best } }

/-- One position of a slide (R186, R187): the position leaving the window is deleted, then the new one inserted and
its result becomes the candidate. -/
def slideTo (p : Nat) (s : State) : Res Unit :=
  if p < s.ctl.inLen.toNat then
    (if windowSize ≤ p then deleteAt (slotOf (p - windowSize)) s else .ok () s).bind fun _ s =>
      (walk p true s).bind fun _ s => .ok () (takeCandidate s)
  else .ok () s

/-- The slide over the positions `p`, `p + 1`, …, `k` of them (R186). -/
def slide : Nat → Nat → State → Res Unit
  | 0, _, s => .ok () s
  | k + 1, p, s => (slideTo p s).bind fun _ s => slide k (p + 1) s

/-- The probe one position ahead (R186): its length, 0 at the last position. -/
def lookAhead (cur : Nat) (s : State) : Res Nat :=
  if cur + 1 < s.ctl.inLen.toNat then
    (walk (cur + 1) false s).bind fun _ s => .ok s.mf.best.len.toNat s
  else .ok 0 s

/-- The choice of R186 at position `cur`: the candidate is committed, or a literal is; the result is the number of
positions to slide (R188). -/
def chooseEvent (cur look : Nat) (s : State) : Res Nat :=
  if look ≤ s.prog.cand.len.toNat ∧ thresh ≤ s.prog.cand.len.toNat then
    .ok s.prog.cand.len.toNat (pushEvent (.copy s.prog.cand.len s.prog.cand.dist) s)
  else (inByte cur s).bind fun b s => .ok 1 (pushEvent (.lit b) s)

/-- R186's loop from position `cur`. Each round moves on by at least one position, so IN_LEN rounds are enough. -/
def eventLoop : Nat → Nat → State → Res Unit
  | 0, _, s => .ok () s
  | n + 1, cur, s =>
    if s.ctl.inLen.toNat ≤ cur then .ok () s
    else
      (lookAhead cur s).bind fun look s =>
        (chooseEvent cur look s).bind fun k s =>
          (slide k (cur + 1) s).bind fun _ s => eventLoop n (cur + k) s

/-- R186 `GenerateEvents()`. -/
def generateEvents (s : State) : Res Unit :=
  let s := initFinder { s with prog := { s.prog with evq := [] } }
  if s.ctl.inLen.toNat = 0 then .ok () s
  else
    (walk 0 true s).bind fun _ s => eventLoop s.ctl.inLen.toNat 0 (takeCandidate s)

/-! ## Tally and emission -/

/-- R189 `Tally(e)`. A length-3 match tallies no distance symbol. -/
def tally (e : Event) (s : State) : Res Unit :=
  match e with
  | .lit b => .ok () (bumpFreq .ll b.toNat s)
  | .copy l d =>
    match lenSlot l.toNat with
    | none => .err (.internal .lenRange) s
    | some k =>
      let t := bumpFreq .ll (lenSymbol0 + k) s
      if l.toNat = thresh then .ok () t
      else
        match distSlot d.toNat with
        | none => .err (.internal .distRange) t
        | some j => .ok () (bumpFreq .ds j t)

/-- R191 `Emit(e)`, in the format of R73. -/
def emit (e : Event) (s : State) : Res Unit :=
  match e with
  | .lit b => writeFields (StreamEvent.lit b).fields s
  | .copy l d =>
    match lenSlot l.toNat with
    | none => .err (.internal .lenRange) s
    | some k =>
      (writeFields (.code .ll (lenSymbol0 + k) :: optField (l.toNat - loLen k) (nbLen k)) s).bind fun _ s =>
        if l.toNat = thresh then writeBits (d.toNat - 1) rawDistBits s
        else
          match distSlot d.toNat with
          | none => .err (.internal .distRange) s
          | some j => writeFields (.code .ds j :: optField (d.toNat - loDist j) (nbDist j)) s

/-- A step of a pipeline for each event of a list, in order (R190). -/
def forEvents (f : Event → State → Res Unit) : List Event → State → Res Unit
  | [], s => .ok () s
  | e :: es, s => (f e s).bind fun _ s => forEvents f es s

/-- The number of literal events (R190). -/
def litCount (es : List Event) : Nat := (es.filter fun e => match e with | .lit _ => true | .copy _ _ => false).length

/-- The number of match events (R190). -/
def copyCount (es : List Event) : Nat := (es.filter fun e => match e with | .lit _ => false | .copy _ _ => true).length

/-- COMPRESS up to the end of pass 1: the writer and the frequencies are reset, the events generated and tallied, the
end of stream tallied once (R190). -/
def compressPass1 (s : State) : Res Unit :=
  (generateEvents (clearFreq .ds (clearFreq .ll (resetWriter s)))).bind fun _ s =>
    (forEvents tally s.prog.evq s).bind fun _ s => .ok () (bumpFreq .ll eosSymbol s)

/-- COMPRESS's tables (R190): built, canonical codes assigned, both tables written. -/
def compressTables (s : State) : Res Unit :=
  (hufBuild .ll s).bind fun _ s =>
    (hufBuild .ds s).bind fun _ s =>
      (hufCanon .ll s).bind fun _ s =>
        (hufCanon .ds s).bind fun _ s =>
          (serialize .ll s).bind fun _ s => serialize .ds s

/-- COMPRESS's pass 2 (R190, R191): the events, the end of stream, the padding. -/
def compressPass2 (s : State) : Res Results :=
  (forEvents emit s.prog.evq s).bind fun _ s =>
    (encodeSymbol .ll eosSymbol s).bind fun _ s =>
      (writeEof s).bind fun _ s =>
        .ok (Results.nat (litCount s.prog.evq) (copyCount s.prog.evq) s.wr.outLen.toNat) s

/-- R190, the Encoder Pipeline. -/
def compress (s : State) : Res Results :=
  require s.inputOk operandRange s fun _ =>
    (compressPass1 s).bind fun _ s => (compressTables s).bind fun _ s => compressPass2 s

/-! ## The decoder pipeline -/

/-- R199, R200: the length of a match event. -/
def eventLen (k : BitVec 5) (e : BitVec 7) : Nat := loLen k.toNat + e.toNat

/-- R199, R200: the distance of a match event. -/
def eventDist (j : BitVec 5) (x : BitVec 14) : Nat := loDist j.toNat + x.toNat

/-- R199's loop body after the event has been read, with the counts of literals and matches: the new counts, or `none`
at the end of the stream. -/
def applyEvent (e : StreamEvent) (nl nm : Nat) (s : State) : Res (Option (Nat × Nat)) :=
  match e with
  | .lit b => (winPut b s).bind fun _ s => .ok (some (nl + 1, nm)) s
  | .eos => .ok none s
  | .match3 d => (winCopy thresh (d.toNat + 1) s).bind fun _ s => .ok (some (nl, nm + 1)) s
  | .matchSlot k e j x => (winCopy (eventLen k e) (eventDist j x) s).bind fun _ s => .ok (some (nl, nm + 1)) s

/-- EXPAND's results (R199). -/
def expandResults (nl nm : Nat) (s : State) : Results := Results.nat nl nm s.wr.outLen.toNat

/-- The next event of the symbol stream, by the tries of both alphabets (R199). -/
def readEvent (s : State) : Res StreamEvent := runParse (eventParse s.ll.trie s.ds.trie) s

/-- R199's loop. Each round consumes at least one bit, so after as many rounds as the input has bits nothing is left,
and the next symbol ends in EOS_IN_SYMBOL. -/
def expandLoop : Nat → Nat → Nat → State → Res Results
  | 0, _, _, s => .err (.corrupt .eosInSymbol) s
  | n + 1, nl, nm, s =>
    (readEvent s).bind fun e s =>
      (applyEvent e nl nm s).bind fun r s =>
        match r with
        | none => .ok (expandResults nl nm s) s
        | some (nl', nm') => expandLoop n nl' nm' s

/-- The decode tables of both alphabets (R199). -/
def expandTries (s : State) : Res Unit := (hufTrie .ll s).bind fun _ s => hufTrie .ds s

/-- The reader, the writer and the window at the start of EXPAND (R199). -/
def expandReset (s : State) : State := resetWindow (resetWriter (resetReader s))

/-- R199, the Decoder Pipeline. -/
def expand (s : State) : Res Results :=
  require s.inputOk operandRange s fun _ =>
    (deserialize .ll (expandReset s)).bind fun _ s =>
      (deserialize .ds s).bind fun _ s =>
        (expandTries s).bind fun _ s => expandLoop (8 * s.ctl.inLen.toNat) 0 0 s

/-! ## Commands -/

/-- COMPRESS (R190). -/
def execCompress (s : State) : Host.Outcome State Fault Refusal := finish (compress s)

/-- EXPAND (R199). -/
def execExpand (s : State) : Host.Outcome State Fault Refusal := finish (expand s)

/-- WIN_RESET (R195). -/
def execWinReset (s : State) : Host.Outcome State Fault Refusal := finish (.ok Results.zero (resetWindow s))

/-- WIN_PUT (R196): ARG0 is the byte. -/
def execWinPut (s : State) : Host.Outcome State Fault Refusal :=
  finish (require (byteOk s.a0) operandRange s fun _ =>
    (winPut (BitVec.ofNat 8 s.a0) s).bind fun _ t => .ok Results.zero t)

/-- WIN_COPY (R197): ARG0 is the length, ARG1 the distance. -/
def execWinCopy (s : State) : Host.Outcome State Fault Refusal :=
  finish ((winCopy s.a0 s.a1 s).bind fun _ t => .ok Results.zero t)

/-- WIN_READ (R198): ARG0 is the absolute index, RES0 the byte. -/
def execWinRead (s : State) : Host.Outcome State Fault Refusal :=
  finish (require (windowIndexOk s.a0) operandRange s fun _ =>
    (windowRead s.a0 s).bind fun b t => .ok (Results.nat b.toNat 0 0) t)

end Sys2Proof.Machine
end

