-- ==== Sys2Proof/Machine/StreamElements.lean ====
section
/-! DEFINITION. The nine stream elements as instructions (30_encoding.md R70–R75): what the engine does with an element
once it has read it, at the place of the stream where it stands (log entry 10). HUF_DESERIALIZE and EXPAND do the
same with every element of a stream, by the same operations `applyEntry` (R144) and `applyEvent` (R199). -/

namespace Sys2Proof.Machine

/-- The position of the command in progress (R27, R36). -/
def State.setPos (s : State) (p : StreamPos) : State := { s with prog := { s.prog with pos := p } }

/-- A table entry at the table the engine stands in (R144). `fits` says of which alphabets the entry can be: a zero
run's field width tells them apart (R71). An error ends the command (R216). -/
def entryStep (fits : Alphabet → Bool) (e : TableEntry) (s : State) : Host.Outcome State Fault Refusal :=
  match s.prog.pos with
  | .table a i b0 =>
    if fits a && i < a.size then
      match applyEntry a i e s with
      | .ok j t => .next (t.setPos (.table a j b0))
      | .err e t => .next (t.fail e)
      | .fault f => .fault f
    else .refused .elementOutOfPlace
  | .idle => .refused .elementOutOfPlace
  | .events _ _ => .refused .elementOutOfPlace

/-- An event at the symbol stream the engine stands in (R199). The end of the stream completes the command; an error
ends it (R216). -/
def eventStep (e : StreamEvent) (s : State) : Host.Outcome State Fault Refusal :=
  match s.prog.pos with
  | .events nl nm =>
    match applyEvent e nl nm s with
    | .ok none t => finish (.ok (expandResults nl nm t) t)
    | .ok (some (nl', nm')) t => .next (t.setPos (.events nl' nm'))
    | .err e t => .next (t.fail e)
    | .fault f => .fault f
  | .idle => .refused .elementOutOfPlace
  | .table _ _ _ => .refused .elementOutOfPlace

/-- CLE_SHORT (R70): the next symbol gets code length `l`. -/
def execCleShort (l : BitVec 4) (s : State) : Host.Outcome State Fault Refusal :=
  entryStep (fun _ => true) (.short l) s

/-- CLE_EXT1 (R70): the next symbol gets code length `15 + x`. -/
def execCleExt1 (x : BitVec 2) (s : State) : Host.Outcome State Fault Refusal :=
  entryStep (fun _ => true) (.ext1 x) s

/-- CLE_EXT2 (R70): the next symbol gets code length `18 + y`. -/
def execCleExt2 (y : BitVec 2) (s : State) : Host.Outcome State Fault Refusal :=
  entryStep (fun _ => true) (.ext2 y) s

/-- CLE_ZRUN_LL (R71): the next `c + 1` literal/length symbols get no code; TABLE_OVERRUN past the last one. -/
def execCleZrunLl (c : BitVec 8) (s : State) : Host.Outcome State Fault Refusal :=
  entryStep (fun a => a == .ll) (.zrun c.toNat) s

/-- CLE_ZRUN_D (R71): the next `c + 1` distance symbols get no code; TABLE_OVERRUN past the last one. -/
def execCleZrunD (c : BitVec 5) (s : State) : Host.Outcome State Fault Refusal :=
  entryStep (fun a => a == .ds) (.zrun c.toNat) s

/-- LIT (R73, R199): the byte goes to the window and to the output. -/
def execLit (b : Byte) (s : State) : Host.Outcome State Fault Refusal := eventStep (.lit b) s

/-- EOS (R73, R199): the stream ends and the command completes. -/
def execEos (s : State) : Host.Outcome State Fault Refusal := eventStep .eos s

/-- MATCH3 (R75, R199): a copy of length 3 at distance `d + 1`. -/
def execMatch3 (d : BitVec 12) (s : State) : Host.Outcome State Fault Refusal := eventStep (.match3 d) s

/-- MATCH (R73, R199, R200): a copy whose length and distance are their slots' lower bounds plus the extra values. -/
def execMatchSlot (k : BitVec 5) (e : BitVec 7) (j : BitVec 5) (x : BitVec 14) (s : State) :
    Host.Outcome State Fault Refusal :=
  eventStep (.matchSlot k e j x) s

end Sys2Proof.Machine
end

