-- ==== Sys2Proof/Machine/Dispatch.lean ====
section
/-! DEFINITION. One arm per instruction: the call of its meaning. -/

namespace Sys2Proof.Machine

def exec (i : Instr) (s : State) : Host.Outcome State Fault Refusal :=
  match i with
  | .compress => Sys2Proof.Machine.execCompress s
  | .expand => Sys2Proof.Machine.execExpand s
  | .bwReset => Sys2Proof.Machine.execBwReset s
  | .bwWriteBits => Sys2Proof.Machine.execBwWriteBits s
  | .bwWriteByte => Sys2Proof.Machine.execBwWriteByte s
  | .bwWriteEof => Sys2Proof.Machine.execBwWriteEof s
  | .brReset => Sys2Proof.Machine.execBrReset s
  | .brReadBits => Sys2Proof.Machine.execBrReadBits s
  | .brReadByte => Sys2Proof.Machine.execBrReadByte s
  | .lenSlot => Sys2Proof.Machine.execLenSlot s
  | .distSlot => Sys2Proof.Machine.execDistSlot s
  | .lenRange => Sys2Proof.Machine.execLenRange s
  | .distRange => Sys2Proof.Machine.execDistRange s
  | .mfInit => Sys2Proof.Machine.execMfInit s
  | .mfInsert => Sys2Proof.Machine.execMfInsert s
  | .mfProbe => Sys2Proof.Machine.execMfProbe s
  | .mfDelete => Sys2Proof.Machine.execMfDelete s
  | .mfLongest => Sys2Proof.Machine.execMfLongest s
  | .treeRead => Sys2Proof.Machine.execTreeRead s
  | .freqClear a => Sys2Proof.Machine.execFreqClear a s
  | .freqInc a => Sys2Proof.Machine.execFreqInc a s
  | .freqRead a => Sys2Proof.Machine.execFreqRead a s
  | .hufBuild a => Sys2Proof.Machine.execHufBuild a s
  | .hufCanon a => Sys2Proof.Machine.execHufCanon a s
  | .hufSerialize a => Sys2Proof.Machine.execHufSerialize a s
  | .hufDeserialize a => Sys2Proof.Machine.execHufDeserialize a s
  | .hufTrie a => Sys2Proof.Machine.execHufTrie a s
  | .hufDecode a => Sys2Proof.Machine.execHufDecode a s
  | .hufEncode a => Sys2Proof.Machine.execHufEncode a s
  | .clRead a => Sys2Proof.Machine.execClRead a s
  | .clWrite a => Sys2Proof.Machine.execClWrite a s
  | .winReset => Sys2Proof.Machine.execWinReset s
  | .winPut => Sys2Proof.Machine.execWinPut s
  | .winCopy => Sys2Proof.Machine.execWinCopy s
  | .winRead => Sys2Proof.Machine.execWinRead s
  | .cleShort l => Sys2Proof.Machine.execCleShort l s
  | .cleExt1 x => Sys2Proof.Machine.execCleExt1 x s
  | .cleExt2 y => Sys2Proof.Machine.execCleExt2 y s
  | .cleZrunLl c => Sys2Proof.Machine.execCleZrunLl c s
  | .cleZrunD c => Sys2Proof.Machine.execCleZrunD c s
  | .lit b => Sys2Proof.Machine.execLit b s
  | .eos => Sys2Proof.Machine.execEos s
  | .match3 d => Sys2Proof.Machine.execMatch3 d s
  | .matchSlot k e j x => Sys2Proof.Machine.execMatchSlot k e j x s

end Sys2Proof.Machine
end

