-- ==== Sys2Proof/Machine/Engine.lean ====
section
/-! DEFINITION. The engine's turn: Execute (R214, R251), and one element of a stream where the engine stands inside one
(log entry 10). -/

namespace Sys2Proof.Machine

/-- The engine's step Execute (R214, R251): the word in CMD is decoded (R66) and its command run to its end. An illegal
word does nothing but complete with its error (R62). -/
def execute (s : State) : Host.Outcome State Fault Refusal :=
  match decodeWord s.ctl.cmd with
  | .ok i => exec i s
  | .reservedOpcode => .next (s.fail (.illegal .reservedOpcode))
  | .reservedBits => .next (s.fail (.illegal .reservedBits))

/-- The next entry of a code-length table is read (R72) and run. An error in reading it ends the command (R216). -/
def runEntry (a : Alphabet) (s : State) : Host.Outcome State Fault Refusal :=
  match runParse (entryParse a) s with
  | .ok e t => exec (e.toInstr a) t
  | .err e t => .next (t.fail e)
  | .fault f => .fault f

/-- The next event of the symbol stream is read (R73) and run. An error in reading it ends the command (R216). -/
def runEvent (s : State) : Host.Outcome State Fault Refusal :=
  match readEvent s with
  | .ok e t => exec e.toInstr t
  | .err e t => .next (t.fail e)
  | .fault f => .fault f

/-- A table has been read to its end. Inside EXPAND the distance table follows the literal/length table, and the symbol
stream follows both once their tries are built (R199); otherwise HUF_DESERIALIZE is done (R145). -/
def tableDone (a : Alphabet) (b0 : Word) (s : State) : Host.Outcome State Fault Refusal :=
  if decodeWord s.ctl.cmd = .ok .expand then
    match a with
    | .ll => .next (s.setPos (.table .ds 0 s.rd.bitsR))
    | .ds =>
      match expandTries s with
      | .ok _ t => .next (t.setPos (.events 0 0))
      | .err e t => .next (t.fail e)
      | .fault f => .fault f
  else .next (s.complete (s.rd.bitsR - b0) 0 0)

/-- The engine's turn. It has work only while BUSY = 1 and reset is released (R13, R240, R243). -/
def engineTurn (s : State) : Host.Outcome State Fault Refusal :=
  if s.rstAsserted || !s.ctl.busy then .next s
  else
    match s.prog.pos with
    | .idle => execute s
    | .table a i b0 => if a.size ≤ i then tableDone a b0 s else runEntry a s
    | .events _ _ => runEvent s

/-! ## Placing an instruction where the next step takes it -/

/-- A command word as if the host had just written it to CMD (R214), with reset released and no host act before the
engine's turn. -/
def placeCommand (s : State) (w : Word) : State :=
  let t := s.start w
  { t with rstAsserted := false, host := { t.host with todo := [] } }

/-- Bits put at stream bit `k` and on (R47); a byte nothing has written counts as 0 there. -/
def placeBits (m : Memory) (k : Nat) : List Bool → Memory
  | [] => m
  | b :: bs => placeBits (Memory.write m (k / 8) (setBit ((Memory.read? m (k / 8)).getD 0) (k % 8) b)) (k + 1) bs

/-- The bits of a table entry at the reader's cursor, with IN_LEN just past them, inside a HUF_DESERIALIZE.LL (word
0x46) that stands at its first entry. -/
def placeEntry (s : State) (bs : List Bool) : State :=
  let t := placeCommand s 0x46
  let t := { t with ibuf := placeBits t.ibuf t.readPos bs
                    ctl := { t.ctl with inLen := BitVec.ofNat 32 ((t.readPos + bs.length + 7) / 8) } }
  t.setPos (.table .ll 0 t.rd.bitsR)

end Sys2Proof.Machine
end

