-- ==== Sys2Proof/Machine/Step.lean ====
section
/-! DEFINITION. One step of the machine: the next act of the host's script, or the engine's turn (R13, R54, R251; log
entries 1 and 2). And the placing of an instruction where the next step runs it (log entry 12). -/

namespace Sys2Proof.Machine

/-- The rest of the script after its next act. -/
def State.popAct (s : State) (rest : List HostAct) : State := { s with host := { s.host with todo := rest } }

/-- One step. The script says who moves: a host or platform act, or, at a `wait` and once the script is over, the
engine. -/
def step (s : State) : Host.Outcome State Fault Refusal :=
  match s.host.todo with
  | [] => engineTurn s
  | .wait :: rest => engineTurn (s.popAct rest)
  | .read addr w :: rest => hostAct (.read addr w) (s.popAct rest)
  | .write addr w v :: rest => hostAct (.write addr w v) (s.popAct rest)
  | .assertReset :: rest => hostAct .assertReset (s.popAct rest)
  | .releaseReset :: rest => hostAct .releaseReset (s.popAct rest)

/-- The instruction of an opcode-table word where the next step runs it: a 32-bit word is written to CMD, a table entry
is put at the reader's cursor. -/
def State.withFetchWord (s : State) (nbits w : Nat) : State :=
  if nbits = 32 then placeCommand s (BitVec.ofNat 32 w) else placeEntry s (tableBits w)

end Sys2Proof.Machine
end

