-- ==== Sys2Proof/Safety.lean ====
section
/-! DEFINITION. The notions the statements speak of: streams of bits (R11, R47, R48), what a part of a command touches,
the invariants of the machine (10_state.md) and of the tree (43_match_finder.md R176), canonical codes by their closed
form (R138, R139), code-length tables and event streams read as what they stand for (R70–R75, R199). -/

namespace Sys2Proof.Machine

/-! ## Streams of bits -/

/-- Stream bit `k` of a buffer: bit `k mod 8` of byte `k / 8` (R11, R47); `none` where that byte is unwritten. -/
def Memory.bit? (m : Memory) (k : Nat) : Option Bool := (Memory.read? m (k / 8)).map fun b => b.getLsbD (k % 8)

/-- The unread input begins with the bits `bs`: IN_LEN is in range, the bits lie before its end (R93), and each is
written. -/
abbrev State.InputHas (s : State) (bs : List Bool) : Prop :=
  s.inputOk = true ∧ bs.length ≤ s.avail ∧ ∀ j, j < bs.length → Memory.bit? s.ibuf (s.readPos + j) = bs[j]?

/-- The reader has moved on by `n` bits (R93, R94). -/
abbrev Consumed (s t : State) (n : Nat) : Prop :=
  t.readPos = s.readPos + n ∧ t.rd.bitsR = s.rd.bitsR + BitVec.ofNat 32 n

/-- The number of bits of the output stream: whole bytes and pending bits (R22, R24). -/
def State.writePos (s : State) : Nat := 8 * s.wr.outLen.toNat + s.wr.wcnt.toNat

/-- Bit `k` of the output stream: in OBUF, or pending in WACC (R24). -/
def State.outBit (s : State) (k : Nat) : Option Bool :=
  if k < 8 * s.wr.outLen.toNat then Memory.bit? s.obuf k
  else if k < s.writePos then some (s.wr.wacc.getLsbD (k % 8)) else none

/-- The writer has appended the bits `bs`: the stream keeps its bits, `bs` follow, BITS_W counts them (R90), and the
bytes of OBUF outside the completed ones stay. -/
abbrev Appended (s t : State) (bs : List Bool) : Prop :=
  t.writePos = s.writePos + bs.length ∧
  (∀ k, k < s.writePos → t.outBit k = s.outBit k) ∧
  (∀ j, j < bs.length → t.outBit (s.writePos + j) = bs[j]?) ∧
  t.wr.bitsW = s.wr.bitsW + BitVec.ofNat 32 bs.length ∧
  (∀ i, i < s.wr.outLen.toNat ∨ t.wr.outLen.toNat ≤ i → Memory.read? t.obuf i = Memory.read? s.obuf i)

/-- `bs` more bits fit: the bytes they complete stay inside OBUF (R90). -/
abbrev State.BitsFit (s : State) (n : Nat) : Prop := s.wr.outLen.toNat + (s.wr.wcnt.toNat + n) / 8 ≤ s.params.obufSize

/-! ## What a command touches -/

/-- Nothing but the bit reader. -/
abbrev OnlyReader (s t : State) : Prop := t = { s with rd := t.rd }

/-- Nothing but the bit writer and OBUF. -/
abbrev OnlyWriter (s t : State) : Prop := t = { s with wr := t.wr, obuf := t.obuf }

/-- Nothing but the match finder. -/
abbrev OnlyFinder (s t : State) : Prop := t = { s with mf := t.mf }

/-- Nothing but the window, OUT_LEN and OBUF: the pending bits and BITS_W stay (R193). -/
abbrev OnlyWindow (s t : State) : Prop :=
  t = { s with win := t.win, wr := { s.wr with outLen := t.wr.outLen }, obuf := t.obuf }

/-- Nothing but FREQ of one alphabet. -/
abbrev OnlyFreq (a : Alphabet) (s t : State) : Prop := t = s.setTab a { s.tab a with freq := (t.tab a).freq }

/-- Nothing but CL of one alphabet. -/
abbrev OnlyCl (a : Alphabet) (s t : State) : Prop := t = s.setTab a { s.tab a with cl := (t.tab a).cl }

/-- Nothing but CODE of one alphabet. -/
abbrev OnlyCode (a : Alphabet) (s t : State) : Prop := t = s.setTab a { s.tab a with code := (t.tab a).code }

/-- Nothing but CODE and TRIE of one alphabet. -/
abbrev OnlyCodeTrie (a : Alphabet) (s t : State) : Prop :=
  t = s.setTab a { s.tab a with code := (t.tab a).code, trie := (t.tab a).trie }

/-- Nothing but the bit reader and CL of one alphabet. -/
abbrev OnlyReaderCl (a : Alphabet) (s t : State) : Prop :=
  t = { s.setTab a { s.tab a with cl := (t.tab a).cl } with rd := t.rd }

/-- What no command changes (R19, R21, R26, R41, R251): the parameters, IE, WOVR, CMD, the operands, IN_LEN, every byte of
IBUF, the reset input, the host's side. -/
abbrev KeepsHostSide (s t : State) : Prop :=
  t.params = s.params ∧ t.ctl.ie = s.ctl.ie ∧ t.ctl.wovr = s.ctl.wovr ∧ t.ctl.cmd = s.ctl.cmd ∧
  t.ctl.arg0 = s.ctl.arg0 ∧ t.ctl.arg1 = s.ctl.arg1 ∧ t.ctl.arg2 = s.ctl.arg2 ∧ t.ctl.inLen = s.ctl.inLen ∧
  (∀ i, Memory.read? t.ibuf i = Memory.read? s.ibuf i) ∧ t.rstAsserted = s.rstAsserted ∧ t.host = s.host

/-- What the two pipelines write of the tables: COMPRESS leaves the tries (R190). -/
abbrev KeepsTries (s t : State) : Prop := t.ll.trie = s.ll.trie ∧ t.ds.trie = s.ds.trie

/-- What EXPAND leaves of the tables: the frequencies (R199). -/
abbrev KeepsFreqs (s t : State) : Prop := t.ll.freq = s.ll.freq ∧ t.ds.freq = s.ds.freq

/-- The instruction is a command word, not an element of a stream (R60). -/
abbrev IsCommand (i : Instr) : Prop := ∃ w, encode i = .word w

/-! ## Bytes appended -/

/-- The window and the output have got `l` more bytes (R193, R194): the same bytes in WIN from WIN_POS on and in OBUF from
OUT_LEN on, the cursors moved on, everything else as before. -/
abbrev Pushed (s t : State) (l : Nat) : Prop :=
  OnlyWindow s t ∧
  t.wr.outLen.toNat = s.wr.outLen.toNat + l ∧
  t.win.pos = s.win.pos + BitVec.ofNat 16 l ∧
  t.win.fill.toNat = min (s.win.fill.toNat + l) windowSize ∧
  (∀ n, n < l → Memory.read? t.win.bytes ((s.win.pos.toNat + n) % windowSize) =
    Memory.read? t.obuf (s.wr.outLen.toNat + n)) ∧
  (∀ k, k < s.wr.outLen.toNat ∨ s.wr.outLen.toNat + l ≤ k → Memory.read? t.obuf k = Memory.read? s.obuf k) ∧
  (∀ j, (∀ n, n < l → (s.win.pos.toNat + n) % windowSize ≠ j) →
    Memory.read? t.win.bytes j = Memory.read? s.win.bytes j)

/-- The bytes a copy at distance `d` appends (R194): each is the byte `d` before it, in the window as it was or among the
bytes of the copy itself. -/
abbrev Copied (s t : State) (l d : Nat) : Prop :=
  Pushed s t l ∧
  ∀ n, n < l → (Memory.read? t.obuf (s.wr.outLen.toNat + n)).isSome = true ∧
    Memory.read? t.obuf (s.wr.outLen.toNat + n) =
      if n < d then Memory.read? s.win.bytes ((windowBack s d + n) % windowSize)
      else Memory.read? t.obuf (s.wr.outLen.toNat + n - d)

/-- A number as its bytes, the least significant first (R45). -/
def leValue : List Byte → Nat
  | [] => 0
  | b :: bs => b.toNat + 256 * leValue bs

/-! ## Invariants -/

/-- The writer's state is one a run can reach: OUT_LEN is at most OBUF_SIZE (R22) and WACC is 0 from bit WCNT on
(R24). -/
abbrev WriterOk (s : State) : Prop :=
  s.wr.outLen.toNat ≤ s.params.obufSize ∧ s.wr.wacc.toNat < 2 ^ s.wr.wcnt.toNat

/-- The window's state is one a run can reach: WIN_FILL is at most 65536 (R25), and the slots the last WIN_FILL bytes went
to are written (R34, R194). -/
abbrev WindowOk (s : State) : Prop :=
  s.win.fill.toNat ≤ windowSize ∧
  ∀ d, 1 ≤ d → d ≤ s.win.fill.toNat → (Memory.read? s.win.bytes (windowBack s d)).isSome = true

/-- Every code length of an alphabet is in the range of R29. -/
abbrev LengthsOk (a : Alphabet) (s : State) : Prop := ∀ l ∈ codeLens a s, l ≤ maxCodeLenDec

/-- The machine's invariant: R8 for the parameters, the memories and links in their one form, R22 and R24 for the writer,
R25 and R34 for the window, R29 for the code lengths, R33 for the candidate, and no stream left half read between
commands (R251). -/
structure Inv (s : State) : Prop where
  params : s.params.ok
  ibuf : Memory.wf s.ibuf = true
  obuf : Memory.wf s.obuf = true
  winBytes : Memory.wf s.win.bytes = true
  links : Links.wf s.mf.parent = true ∧ Links.wf s.mf.smaller = true ∧ Links.wf s.mf.larger = true
  writer : WriterOk s
  window : WindowOk s
  lengths : ∀ a, LengthsOk a s
  best : s.mf.best.len.toNat ≤ lookahead ∧ s.mf.best.dist.toNat ≤ windowSize
  idle : s.prog = Progress.none

/-- `climb f k i` is where `k` parent links lead from index `i` (R176 c). -/
def climb (f : Finder) : Nat → Nat → Nat
  | 0, i => i
  | k + 1, i => climb f k (f.par i).toNat

/-- The structural invariants of the tree (R176), with the links in their one form. -/
structure TreeInv (f : Finder) : Prop where
  links : Links.wf f.parent = true ∧ Links.wf f.smaller = true ∧ Links.wf f.larger = true
  /-- (a) -/
  root : f.par rootIndex = nilLink ∧ f.sm rootIndex = nilLink
  /-- (b): the parent of a slot in the tree is ROOT or a slot in the tree, and the slot is exactly one of its children. -/
  parent : ∀ i, f.inTree i = true →
    i < windowSize ∧ ((f.par i).toNat = rootIndex ∨ f.inTree (f.par i).toNat = true) ∧
    ((f.la (f.par i).toNat = link i ∧ f.sm (f.par i).toNat ≠ link i) ∨
      (f.sm (f.par i).toNat = link i ∧ f.la (f.par i).toNat ≠ link i))
  /-- (b), (d): a link leads to a slot in the tree, whose parent is where the link stands. -/
  child : ∀ i side, f.child i side ≠ nilLink →
    f.inTree (f.child i side).toNat = true ∧ f.par (f.child i side).toNat = link i
  /-- (d): a slot outside the tree has no links. -/
  outside : ∀ i, i ≠ rootIndex → f.inTree i = false → f.sm i = nilLink ∧ f.la i = nilLink
  /-- (c): every slot in the tree is reached from ROOT. -/
  reach : ∀ i, f.inTree i = true → ∃ k, climb f k i = rootIndex

/-! ## The walk (43_match_finder.md) -/

/-- R161, R162: of the bytes at `p` and at `q`, exactly the first `i` are compared and agree, up to the limit
`min(256, IN_LEN - p)`; every byte compared is written. -/
structure Compared (s : State) (p q i : Nat) : Prop where
  limit : i ≤ min 256 (s.ctl.inLen.toNat - p)
  same : ∀ j, j < i → (Memory.read? s.ibuf (p + j)).isSome = true ∧ Memory.read? s.ibuf (q + j) = Memory.read? s.ibuf (p + j)
  differ : i = min 256 (s.ctl.inLen.toNat - p) ∨
    ∃ b c, Memory.read? s.ibuf (p + i) = some b ∧ Memory.read? s.ibuf (q + i) = some c ∧ b ≠ c

/-- R162, R163: the side a descent takes after `i` equal bytes: larger when all compared bytes agree or the new suffix's
byte is the greater one. -/
def TakesSide (s : State) (p q i : Nat) : Side → Prop
  | .larger => i = min 256 (s.ctl.inLen.toNat - p) ∨
      ∃ b c, Memory.read? s.ibuf (p + i) = some b ∧ Memory.read? s.ibuf (q + i) = some c ∧ c.toNat < b.toNat
  | .smaller => i < min 256 (s.ctl.inLen.toNat - p) ∧
      ∃ b c, Memory.read? s.ibuf (p + i) = some b ∧ Memory.read? s.ibuf (q + i) = some c ∧ b.toNat < c.toNat

/-- R164: the length a comparison competes with. -/
def competing (i d : Nat) : Nat := if i = 3 ∧ 4096 < d then 0 else i

/-- R163: a descent for position `p` from node `t` on: the competing length and the distance of every comparison, in
order, and its end: where a new leaf goes, the node that agrees on all 256 bytes, or `none` at a node that stands for no
earlier position. -/
inductive Descent (s : State) (p : Nat) : Nat → List (Nat × Nat) → Option WalkEnd → Prop
  | noPosition (t : Nat) (h : p < slotDist p t) : Descent s p t [] none
  | full (t : Nat) (h : slotDist p t ≤ p) (hc : Compared s p (p - slotDist p t) 256) :
      Descent s p t [(256, slotDist p t)] (some (.full t))
  | leaf (t i : Nat) (side : Side) (h : slotDist p t ≤ p) (hc : Compared s p (p - slotDist p t) i) (hi : i ≠ 256)
      (hs : TakesSide s p (p - slotDist p t) i side) (hn : s.mf.child t side = 0x1FFFF) :
      Descent s p t [(competing i (slotDist p t), slotDist p t)] (some (.leaf t side))
  | down (t i : Nat) (side : Side) (path : List (Nat × Nat)) (e : Option WalkEnd) (h : slotDist p t ≤ p)
      (hc : Compared s p (p - slotDist p t) i) (hi : i ≠ 256) (hs : TakesSide s p (p - slotDist p t) i side)
      (hn : s.mf.child t side ≠ 0x1FFFF) (hd : Descent s p (s.mf.child t side).toNat path e) :
      Descent s p t ((competing i (slotDist p t), slotDist p t) :: path) e

/-- R165: the candidate of a descent: a longest comparison, of several the last. -/
def BestOf (path : List (Nat × Nat)) (len dist : Nat) : Prop :=
  ∃ pre post, path = pre ++ (len, dist) :: post ∧ (∀ x ∈ pre, x.1 ≤ len) ∧ ∀ x ∈ post, x.1 < len

/-- R163, R166, R167: the links after slot `n` has been inserted at the end of a descent, each of them: a new leaf, or
the slot in the place of the node that agrees on all bytes. -/
def LinkedIn (f g : Finder) (n : Nat) : WalkEnd → Prop
  | .leaf t side => ∀ i, g.par i = (if i = n then link t else f.par i) ∧
      ∀ sd, g.child i sd = if i = n then 0x1FFFF else if i = t ∧ sd = side then link n else f.child i sd
  | .full t => ∀ i,
      g.par i = (if i = t then 0x1FFFF else if i = n then f.par t else if f.par i = link t then link n else f.par i) ∧
      ∀ sd, g.child i sd =
        if i = t then 0x1FFFF else if i = n then f.child t sd else if f.child i sd = link t then link n else f.child i sd

/-! ## Codes -/

/-- The Kraft sum of an alphabet's code lengths, in units of `2 ^ -21` (R139). -/
def kraft (a : Alphabet) (s : State) : Nat :=
  (((codeLens a s).filter fun l => 0 < l).map fun l => 2 ^ (maxCodeLenDec - l)).sum

/-- The canonical code of symbol `sym` in closed form (R138): every coded symbol before it, by length and then by number,
takes up `2 ^ (CL[sym] - its own length)` codes of its length. -/
def canonicalCode (a : Alphabet) (s : State) (sym : Nat) : Nat :=
  (((List.range a.size).filter fun x =>
      0 < clOf a x s ∧ (clOf a x s < clOf a sym s ∨ (clOf a x s = clOf a sym s ∧ x < sym))).map fun x =>
    2 ^ (clOf a sym s - clOf a x s)).sum

/-- The number of symbols of an alphabet that occur (R137). -/
def codedCount (a : Alphabet) (s : State) : Nat := ((s.tab a).freq.toList.filter fun f => f ≠ 0).length

/-- A stream bit's code: the length and the code of every symbol, as the tables hold them. -/
def codeTable (s : State) (a : Alphabet) (sym : Nat) : Nat × Nat := (clOf a sym s, codeOf a sym s)

/-- R134, R135: the initial list of HUF_BUILD: a leaf for every symbol that occurs, by frequency and then by symbol. -/
def InitialList (a : Alphabet) (s : State) (q : List (Nat × MergeTree)) : Prop :=
  ∃ syms : List Nat, q = syms.map (fun sym => ((freqOf a sym s).toNat, MergeTree.leaf sym)) ∧
    (∀ sym, sym ∈ syms ↔ sym < a.size ∧ freqOf a sym s ≠ 0) ∧
    syms.Pairwise fun x y =>
      (freqOf a x s).toNat < (freqOf a y s).toNat ∨ ((freqOf a x s).toNat = (freqOf a y s).toNat ∧ x < y)

/-- R134, R135: the two first nodes are merged, and the new node goes after every node of equal or lower weight, until
one tree is left. -/
inductive MergesTo : List (Nat × MergeTree) → MergeTree → Prop
  | one (w : Nat) (t : MergeTree) : MergesTo [(w, t)] t
  | merge (x y : Nat × MergeTree) (before after : List (Nat × MergeTree)) (t : MergeTree)
      (hb : ∀ z ∈ before, z.1 ≤ x.1 + y.1) (ha : ∀ z ∈ after.head?, x.1 + y.1 < z.1)
      (h : MergesTo (before ++ (x.1 + y.1, MergeTree.node x.2 y.2) :: after) t) :
      MergesTo (x :: y :: (before ++ after)) t

/-- R31: what stands at a path from a slot of a trie; a path through a leaf or an unpopulated slot leads nowhere. -/
def slotFrom : Trie → List Bool → Trie
  | t, [] => t
  | .node z o, b :: bs => slotFrom (if b then o else z) bs
  | .leaf _, _ :: _ => .empty
  | .empty, _ :: _ => .empty

/-- R31: what stands at a path from the root of TRIE[A], which is internal. -/
def slotAt (a : Alphabet) (s : State) (bs : List Bool) : Trie :=
  slotFrom (.node (s.tab a).trie.zero (s.tab a).trie.one) bs

/-- The bits begin a code and are not the whole of it: they lead to an internal node of the trie (R146, R148). -/
def InsideCode (code : Nat → Nat × Nat) (part : List Bool) : Prop :=
  part = [] ∨ ∃ sym, part <+: codePath (code sym).2 (code sym).1 ∧ part.length < (code sym).1

/-- The bits begin no code: they lead to an unpopulated slot (R146, R148). -/
def OutsideCodes (code : Nat → Nat × Nat) (bits : List Bool) : Prop :=
  ∀ sym, 0 < (code sym).1 → ¬ bits <+: codePath (code sym).2 (code sym).1

/-! ## Code-length tables -/

/-- The code lengths an entry stands for (R70, R71). -/
def entryLens : TableEntry → List Nat
  | .short l => [l.toNat]
  | .ext1 x => [15 + x.toNat]
  | .ext2 y => [18 + y.toNat]
  | .zrun c => List.replicate (c + 1) 0

/-- The entry is one the format can write for alphabet `a` (R70, R71). -/
def entryOk (a : Alphabet) : TableEntry → Bool
  | .short l => 1 ≤ l.toNat && l.toNat ≤ 14
  | .ext1 x => x.toNat ≤ 2
  | .ext2 _ => true
  | .zrun c => c < 2 ^ a.zb

/-- The bits of a list of entries (R69, R70, R71); no entry holds a Huffman code. -/
def entriesBits (a : Alphabet) (es : List TableEntry) : List Bool :=
  fieldsToBits (fun _ _ => (0, 0)) (es.flatMap (TableEntry.fields a))

/-- The entries cover an alphabet's symbols exactly (R72). -/
def entriesLens (es : List TableEntry) : List Nat := es.flatMap entryLens

/-- R144: how a code-length table of alphabet `a` goes wrong after `covered` symbols: the bits that follow, the error,
how many of the bits are consumed, and whether the input must end with the bits. A read past the end consumes nothing;
a run past the last symbol has been read. -/
inductive BadEntry (a : Alphabet) (covered : Nat) : List Bool → Err → Nat → Bool → Prop
  | ends (e : TableEntry) (pre post : List Field) (v w : Nat) (part : List Bool)
      (hf : e.fields a = pre ++ .bits v w :: post) (hp : part.length < w) :
      BadEntry a covered (fieldsToBits (fun _ _ => (0, 0)) pre ++ part) (.corrupt .eosInTable)
        (fieldsToBits (fun _ _ => (0, 0)) pre).length true
  | overrun (c : Nat) (hc : c < 2 ^ a.zb) (ho : a.size < covered + (c + 1)) :
      BadEntry a covered (entriesBits a [.zrun c]) (.corrupt .tableOverrun) (entriesBits a [.zrun c]).length false

/-! ## Events and what they stand for -/

/-- One copied byte after another, each read `d` back from the end (R194). -/
def copyBack (d : Nat) : Nat → List Byte → List Byte
  | 0, out => out
  | n + 1, out => copyBack d n (out ++ [out.getD (out.length - d) 0])

/-- The output after a copy; `none` where its distance reaches before the first byte the window holds (R194). -/
def replayCopy (l d : Nat) (out : List Byte) : Option (List Byte) :=
  if d ≤ min out.length windowSize then some (copyBack d l out) else none

/-- The output a list of decoded events makes of an output so far (R199, R200); `none` also for an end of stream, which is
not an event of output. -/
def replay : List StreamEvent → List Byte → Option (List Byte)
  | [], out => some out
  | .lit b :: es, out => replay es (out ++ [b])
  | .eos :: _, _ => none
  | .match3 d :: es, out => (replayCopy thresh (d.toNat + 1) out).bind (replay es)
  | .matchSlot k e j x :: es, out => (replayCopy (eventLen k e) (eventDist j x) out).bind (replay es)

/-- The output the encoder's events stand for (R185, R203). -/
def replayEvents : List Event → List Byte → Option (List Byte)
  | [], out => some out
  | .lit b :: es, out => replayEvents es (out ++ [b])
  | .copy l d :: es, out => (replayCopy l.toNat d.toNat out).bind (replayEvents es)

/-- The number of literals among decoded events (R199). -/
def streamLits (es : List StreamEvent) : Nat :=
  (es.filter fun e => match e with | .lit _ => true | .eos => false | .match3 _ => false | .matchSlot _ _ _ _ => false).length

/-- The symbols a decoded event is coded with all have a code (R76). -/
def eventCoded (code : Alphabet → Nat → Nat × Nat) (e : StreamEvent) : Prop :=
  ∀ a sym, Field.code a sym ∈ e.fields → 0 < (code a sym).1

/-- R199, R148: how an event's bits go wrong where the symbols have these codes: the bits, the error, how many of them are
consumed, and whether the input must end with the bits. The fields before are whole; then a field or a code is cut short,
or a code's bits lead to an unpopulated slot. -/
inductive BadEvent (code : Alphabet → Nat → Nat × Nat) : List Bool → Err → Nat → Bool → Prop
  | field (e : StreamEvent) (hw : wellFormed e.toInstr = true) (pre post : List Field) (v w : Nat) (part : List Bool)
      (hf : e.fields = pre ++ .bits v w :: post) (hc : ∀ a sym, Field.code a sym ∈ pre → 0 < (code a sym).1)
      (hp : part.length < w) :
      BadEvent code (fieldsToBits code pre ++ part) (.corrupt .eosInField) (fieldsToBits code pre).length true
  | symbol (e : StreamEvent) (hw : wellFormed e.toInstr = true) (pre post : List Field) (a : Alphabet) (sym : Nat)
      (part : List Bool) (hf : e.fields = pre ++ .code a sym :: post)
      (hc : ∀ a sym, Field.code a sym ∈ pre → 0 < (code a sym).1) (hi : InsideCode (code a) part) :
      BadEvent code (fieldsToBits code pre ++ part) (.corrupt .eosInSymbol) (fieldsToBits code pre ++ part).length true
  | slot (e : StreamEvent) (hw : wellFormed e.toInstr = true) (pre post : List Field) (a : Alphabet) (sym : Nat)
      (part : List Bool) (b : Bool) (hf : e.fields = pre ++ .code a sym :: post)
      (hc : ∀ a sym, Field.code a sym ∈ pre → 0 < (code a sym).1) (hi : InsideCode (code a) part)
      (ho : OutsideCodes (code a) (part ++ [b])) :
      BadEvent code (fieldsToBits code pre ++ (part ++ [b])) (.corrupt .unpopulated)
        (fieldsToBits code pre ++ (part ++ [b])).length false

/-- R199, R194, R193: how an event that has been read goes wrong after the output `out`: its distance reaches before the
first byte of the window, or its bytes do not fit. -/
inductive BadOutput (e : StreamEvent) (out : List Byte) (obufSize : Nat) : Err → Prop
  | distance (h : replay [e] out = none) (he : e ≠ .eos) : BadOutput e out obufSize (.corrupt .distBeforeStart)
  | full (out' : List Byte) (h : replay [e] out = some out') (hf : obufSize < out'.length) :
      BadOutput e out obufSize .outputFull

/-- The bytes of a memory from index 0 on are `bs` (R41, R42). -/
abbrev Memory.Holds (m : Memory) (bs : List Byte) : Prop := ∀ i, i < bs.length → Memory.read? m i = bs[i]?

/-- What EXPAND has done when it ends after both tables (R199, R217): the output so far is in OBUF and no other byte of it
has changed, so many bits are consumed, CL holds the stream's tables, the finder and the frequencies are as before. -/
def Expanded (s t : State) (es : Alphabet → List TableEntry) (out : List Byte) (consumed : Nat) : Prop :=
  Memory.Holds t.obuf out ∧ t.wr.outLen.toNat = out.length ∧
  (∀ k, out.length ≤ k → Memory.read? t.obuf k = Memory.read? s.obuf k) ∧
  Consumed (resetReader s) t consumed ∧ (∀ a, codeLens a t = entriesLens (es a)) ∧ t.mf = s.mf ∧ KeepsFreqs s t

/-! ## What the spec prints -/

/-- 30_encoding.md R63: the opcodes of the 35 commands. -/
def printedOpcodes : List Nat :=
  [0x01, 0x02, 0x10, 0x11, 0x12, 0x13, 0x18, 0x19, 0x1A, 0x20, 0x21, 0x22, 0x23, 0x30, 0x31, 0x32, 0x33, 0x34, 0x35] ++
  [0x40, 0x41, 0x42, 0x43, 0x44, 0x45, 0x46, 0x47, 0x48, 0x49, 0x4A, 0x4B, 0x50, 0x51, 0x52, 0x53]

/-- 30_encoding.md R63: the opcodes marked "A". -/
def printedAlphabetOpcodes : List Nat := [0x40, 0x41, 0x42, 0x43, 0x44, 0x45, 0x46, 0x47, 0x48, 0x49, 0x4A, 0x4B]

/-- 10_state.md R14 to R26: the value a register read returns, by offset; every other offset of the window is reserved. -/
def printedRegisters (s : State) : List (Nat × Word) :=
  [(0x000, 0x4C5A5353), (0x004, if s.ctl.ie then 1 else 0), (0x008, s.statusWord), (0x00C, s.ctl.cmd),
   (0x010, s.ctl.arg0), (0x014, s.ctl.arg1), (0x018, s.ctl.arg2), (0x01C, s.ctl.res0), (0x020, s.ctl.res1), (0x024, s.ctl.res2), (0x028, s.ctl.inLen),
   (0x02C, BitVec.ofNat 32 s.wr.outLen.toNat), (0x030, BitVec.ofNat 32 s.rd.rpos.toNat)] ++
  [(0x034, BitVec.ofNat 32 s.rd.rbit.toNat), (0x038, BitVec.ofNat 32 (s.wr.wacc.toNat + 256 * s.wr.wcnt.toNat)),
   (0x03C, s.wr.bitsW), (0x040, s.rd.bitsR), (0x044, BitVec.ofNat 32 s.win.pos.toNat),
   (0x048, BitVec.ofNat 32 s.win.fill.toNat), (0x04C, BitVec.ofNat 32 s.params.ibufSize),
   (0x050, BitVec.ofNat 32 s.params.obufSize)]

/-- 60_exceptions.md R210 to R213: every error with its CAUSE and DETAIL codes. -/
def printedErrors : List (Err × Nat × Nat) :=
  [(.endOfInput, 1, 0), (.align, 2, 0), (.outputFull, 5, 0)] ++
  [(.corrupt .unpopulated, 3, 1), (.corrupt .eosInSymbol, 3, 2), (.corrupt .eosInTable, 3, 3), (.corrupt .eosInField, 3, 4),
   (.corrupt .tableOverrun, 3, 5), (.corrupt .oversubscribed, 3, 6), (.corrupt .distBeforeStart, 3, 7)] ++
  [(.internal .lenRange, 4, 1), (.internal .distRange, 4, 2), (.internal .codelenOverflow, 4, 3), (.internal .noCode, 4, 4),
   (.internal .slotOccupied, 4, 5), (.internal .treePos, 4, 6), (.internal .freqOverflow, 4, 7)] ++
  [(.illegal .reservedOpcode, 6, 1), (.illegal .reservedBits, 6, 2), (.illegal .operandRange, 6, 3)]

/-- The bus accesses the address map admits (R40, R44, R45): a register at a multiple of 4 with 32 bits, a buffer byte, or
an aligned 32-bit word inside a buffer. -/
def Admitted (p : Params) (addr : Nat) (w : Width) : Prop :=
  p.base ≤ addr ∧
  ((addr - p.base < 0x10000 ∧ w = .w32 ∧ (addr - p.base) % 4 = 0) ∨
   (∃ i, addr - p.base = 0x1000000 + i ∧ ((w = .w8 ∧ i < p.ibufSize) ∨ (w = .w32 ∧ i % 4 = 0 ∧ i + 4 ≤ p.ibufSize))) ∨
   (∃ i, addr - p.base = 0x2000000 + i ∧ ((w = .w8 ∧ i < p.obufSize) ∨ (w = .w32 ∧ i % 4 = 0 ∧ i + 4 ≤ p.obufSize))))

/-- 41_alphabet.md R110, row by row: slot, LO_len, HI_len, NB_len. -/
def printedLenRows : List (Nat × Nat × Nat × Nat) :=
  [(0, 3, 3, 0), (1, 4, 4, 0), (2, 5, 5, 0), (3, 6, 6, 0), (4, 7, 7, 0), (5, 8, 8, 0), (6, 9, 9, 0), (7, 10, 10, 0),
   (8, 11, 12, 1), (9, 13, 14, 1), (10, 15, 16, 1), (11, 17, 18, 1)] ++
  [(12, 19, 22, 2), (13, 23, 26, 2), (14, 27, 30, 2), (15, 31, 34, 2), (16, 35, 42, 3), (17, 43, 50, 3), (18, 51, 58, 3),
   (19, 59, 66, 3), (20, 67, 98, 5), (21, 99, 130, 5), (22, 131, 257, 7), (23, 258, 258, 0)]

/-- 41_alphabet.md R111, row by row: slot, LO_dist, HI_dist, NB_dist. -/
def printedDistRows : List (Nat × Nat × Nat × Nat) :=
  [(0, 1, 1, 0), (1, 2, 2, 0), (2, 3, 3, 0), (3, 4, 4, 0), (4, 5, 6, 1), (5, 7, 8, 1), (6, 9, 12, 2), (7, 13, 16, 2),
   (8, 17, 24, 3), (9, 25, 32, 3), (10, 33, 48, 4), (11, 49, 64, 4), (12, 65, 96, 5), (13, 97, 128, 5),
   (14, 129, 192, 6), (15, 193, 256, 6)] ++
  [(16, 257, 384, 7), (17, 385, 512, 7), (18, 513, 768, 8), (19, 769, 1024, 8), (20, 1025, 1536, 9), (21, 1537, 2048, 9),
   (22, 2049, 3072, 10), (23, 3073, 4096, 10), (24, 4097, 6144, 11), (25, 6145, 8192, 11), (26, 8193, 12288, 12),
   (27, 12289, 16384, 12), (28, 16385, 24576, 13), (29, 24577, 32768, 13), (30, 32769, 49152, 14), (31, 49153, 65536, 14)]

end Sys2Proof.Machine
end

