-- ==== Sys2Proof/Certificates/Slice0/Obligations.lean ====
section
/-! DEFINITION. The statements for the provers. Each docstring names the rules of spec/ its statement comes from. Host
accesses are acts of a script in State: the model's choice (log entry 1), which every statement about a step rests on. -/

open Sys2Proof Sys2Proof.Machine

/-! ## Encoding (30_encoding.md) -/

/-- R63, R70, R71: words written out from the spec's tables decode to the instructions they stand for. -/
def Obligations.WrittenWordsDecode : Prop :=
  decodeWord 0x00000001 = .ok .compress ∧ decodeWord 0x00000011 = .ok .bwWriteBits ∧
  decodeWord 0x0000001A = .ok .brReadByte ∧ decodeWord 0x00000021 = .ok .distSlot ∧
  decodeWord 0x00000031 = .ok .mfInsert ∧ decodeWord 0x00000143 = .ok (.hufBuild .ds) ∧
  decodeWord 0x0000004B = .ok (.clWrite .ll) ∧ decodeWord 0x00000052 = .ok .winCopy ∧
  (entryParse .ll).onBits [true, true, true, true, true, true, false, true] = some (.ext2 2, []) ∧
  (entryParse .ds).onBits [false, false, false, false, true, true, false, false, false] = some (.zrun 3, [])

/-- R60, R61, R63, R66: a command word decodes to an instruction exactly when it is that instruction's word. -/
def Obligations.CommandDecodeIffEncode : Prop :=
  ∀ (w : Word) (i : Instr), decodeWord w = .ok i ↔ encode i = .word w

/-- R70 to R72: a reader reads back every entry of a code-length table the format can write, and nothing of what
follows. -/
def Obligations.TableEntryReadsBack : Prop :=
  ∀ (a : Alphabet) (e : TableEntry) (rest : List Bool), entryOk a e = true →
    (entryParse a).onBits (entriesBits a [e] ++ rest) = some (e, rest)

/-- R73 to R76, R146, R154: with the canonical codes of any two code-length tables and the tries built of them, a reader
reads back every well-formed event all of whose symbols have codes, and nothing of what follows. The distance rows and the
recurrence behind the codes are general knowledge in the spec itself (93 G1, G2, log entry 15). -/
def Obligations.EventReadsBack : Prop :=
  ∀ (cl codes : Alphabet → List Nat),
    (∀ a, (cl a).length = a.size ∧ (∀ l ∈ cl a, l ≤ maxCodeLenDec) ∧ canon (cl a) = some (codes a)) →
    ∀ (e : StreamEvent) (rest : List Bool), wellFormed e.toInstr = true →
      eventCoded (fun a sym => ((cl a).getD sym 0, (codes a).getD sym 0)) e →
      (eventParse (buildTrie (cl .ll) (codes .ll)) (buildTrie (cl .ds) (codes .ds))).onBits
        (fieldsToBits (fun a sym => ((cl a).getD sym 0, (codes a).getD sym 0)) e.fields ++ rest) = some (e, rest)

/-- R62: an illegal command word does nothing but complete with its error, and every other word is a command. -/
def Obligations.IllegalWordsOnlyFail : Prop :=
  ∀ s : State, s.rstAsserted = false → s.ctl.busy = true → s.prog = Progress.none → s.host.todo = [] →
    (s.ctl.cmd.toNat % 256 ∉ printedOpcodes →
      step s = .next { s with ctl := { s.ctl with cause := 6, detail := 1, busy := false, done := true } }) ∧
    (s.ctl.cmd.toNat % 256 ∈ printedOpcodes →
      (s.ctl.cmd.toNat / 512 ≠ 0 ∨
        (s.ctl.cmd.getLsbD 8 = true ∧ s.ctl.cmd.toNat % 256 ∉ printedAlphabetOpcodes)) →
      step s = .next { s with ctl := { s.ctl with cause := 6, detail := 2, busy := false, done := true } }) ∧
    (s.ctl.cmd.toNat % 256 ∈ printedOpcodes → s.ctl.cmd.toNat / 512 = 0 →
      (s.ctl.cmd.getLsbD 8 = true → s.ctl.cmd.toNat % 256 ∈ printedAlphabetOpcodes) →
      ∃ i, decodeWord s.ctl.cmd = .ok i ∧ step s = exec i s)

/-! ## The step -/

/-- R214, R251: the engine's turn while BUSY = 1 is the meaning of the instruction that the word in CMD decodes to. -/
def Obligations.StepRunsDecodedCommand : Prop :=
  ∀ (s : State) (i : Instr), s.rstAsserted = false → s.ctl.busy = true → s.prog.pos = .idle →
    decodeWord s.ctl.cmd = .ok i →
    (s.host.todo = [] → step s = exec i s) ∧
    (∀ rest, s.host.todo = .wait :: rest → step s = exec i (s.popAct rest))

/-- R69, R72, R73: inside a stream, the engine's turn reads the element whose bits come next and is that element's meaning
after them; past a table's last symbol it goes on with what follows the table: the command's end, the distance table, or,
with the tries of both tables built, the symbol stream. That a turn reads one element is the model's choice (log entry
10). -/
def Obligations.StepRunsReadElement : Prop :=
  ∀ s : State, s.params.ok → s.rstAsserted = false → s.ctl.busy = true → s.host.todo = [] →
    (∀ a i b0 bs e, s.prog.pos = .table a i b0 → i < a.size → s.InputHas bs →
      (entryParse a).onBits bs = some (e, []) →
      ∃ t, OnlyReader s t ∧ Consumed s t bs.length ∧ step s = exec (e.toInstr a) t) ∧
    (∀ nl nm bs e, s.prog.pos = .events nl nm → s.InputHas bs →
      (eventParse s.ll.trie s.ds.trie).onBits bs = some (e, []) →
      ∃ t, OnlyReader s t ∧ Consumed s t bs.length ∧ step s = exec e.toInstr t) ∧
    (∀ a i b0, s.prog.pos = .table a i b0 → a.size ≤ i → decodeWord s.ctl.cmd = .ok (.hufDeserialize a) →
      step s = .next (s.complete (s.rd.bitsR - b0) 0 0)) ∧
    (∀ i b0, s.prog.pos = .table .ll i b0 → Alphabet.ll.size ≤ i → decodeWord s.ctl.cmd = .ok .expand →
      step s = .next (s.setPos (.table .ds 0 s.rd.bitsR))) ∧
    (∀ i b0, s.prog.pos = .table .ds i b0 → Alphabet.ds.size ≤ i → decodeWord s.ctl.cmd = .ok .expand →
      (∀ a, LengthsOk a s) →
      (canon (codeLens .ll s) = none → step s = .next (s.fail (.corrupt .oversubscribed))) ∧
      (∀ codes, canon (codeLens .ll s) = some codes → canon (codeLens .ds s) = none →
        ∃ t, OnlyCodeTrie .ll s t ∧ step s = .next (t.fail (.corrupt .oversubscribed)) ∧
          t.ll.trie = buildTrie (codeLens .ll s) codes ∧
          ∀ sym, sym < Alphabet.ll.size → codeOf .ll sym t = codes.getD sym 0) ∧
      (∀ codes : Alphabet → List Nat, (∀ a, canon (codeLens a s) = some (codes a)) →
        ∃ t : State, t = { s with
            ll := { s.ll with code := t.ll.code, trie := t.ll.trie }
            ds := { s.ds with code := t.ds.code, trie := t.ds.trie } } ∧
          step s = .next (t.setPos (.events 0 0)) ∧
          ∀ a, (t.tab a).trie = buildTrie (codeLens a s) (codes a) ∧
            ∀ sym, sym < a.size → codeOf a sym t = (codes a).getD sym 0))

/-! ## Reset (70_reset_and_hazards.md) -/

/-- R37, R14, R240, R242, R243: the state after reset, register by register and array by array, and it does nothing on its
own. -/
def Obligations.ResetState : Prop :=
  (∀ off, regValue State.reset off =
    if off = 0x000 then 0x4C5A5353 else if off = 0x008 then 0x00000030
    else if off = 0x04C then BitVec.ofNat 32 State.reset.params.ibufSize
    else if off = 0x050 then BitVec.ofNat 32 State.reset.params.obufSize else 0) ∧
  State.reset.params.ok ∧
  (∀ a sym, freqOf a sym State.reset = 0 ∧ clOf a sym State.reset = 0 ∧ codeOf a sym State.reset = 0) ∧
  (∀ a, (State.reset.tab a).trie = ⟨.empty, .empty⟩) ∧
  (∀ i, State.reset.mf.par i = 0x1FFFF ∧ State.reset.mf.sm i = 0x1FFFF ∧ State.reset.mf.la i = 0x1FFFF) ∧
  State.reset.mf.best = ⟨0, 0⟩ ∧
  (∀ i, Memory.read? State.reset.ibuf i = none ∧ Memory.read? State.reset.obuf i = none ∧
    Memory.read? State.reset.win.bytes i = none) ∧
  State.reset.prog.evq = [] ∧ State.reset.prog.pos = .idle ∧ State.reset.irq = false ∧
  step State.reset = .next State.reset

/-- R8, R22, R24, R25, R29, R33, R34: the machine's invariant holds after reset. -/
def Obligations.InvariantAtReset : Prop := Inv State.reset ∧ TreeInv State.reset.mf

/-- R241, R16: a CTRL write with SRST = 1 puts every piece of the block's state at its reset value, whether BUSY is 0 or 1,
and its IE bit is discarded. -/
def Obligations.SoftResetRestoresReset : Prop :=
  ∀ (s : State) (v : Word) (rest : List HostAct), s.rstAsserted = false → v.getLsbD 1 = true →
    s.host.todo = .write (s.params.base + 0x004) .w32 v :: rest →
    step s = .next (State.resetWith s.params { s.host with todo := rest })

/-- R240: while the reset input is asserted every access is refused and the engine does nothing; once it is released the
state is the reset state. That asserting it resets at once is the model's choice (log entry 8). -/
def Obligations.HardwareReset : Prop :=
  ∀ (s : State) (rest : List HostAct),
    (s.host.todo = .assertReset :: rest →
      step s = .next { State.resetWith s.params { s.host with todo := rest } with rstAsserted := true }) ∧
    (s.rstAsserted = true →
      (∀ addr w, s.host.todo = .read addr w :: rest → step s = .refused .resetAsserted) ∧
      (∀ addr w v, s.host.todo = .write addr w v :: rest → step s = .refused .resetAsserted) ∧
      (s.host.todo = .wait :: rest → step s = .next (s.popAct rest)) ∧
      (s.host.todo = .releaseReset :: rest →
        step s = .next (State.resetWith s.params { s.host with todo := rest })))

/-! ## Invariants -/

/-- R8, R22, R24, R25, R29, R33, R34, R194: every step keeps the machine's invariant, from every state that meets it. -/
def Obligations.InvariantKept : Prop := ∀ s t : State, Inv s → step s = .next t → Inv t

/-- R176: every instruction keeps the structural invariants of the tree, and where they hold no walk runs into a cycle. -/
def Obligations.TreeInvariantKept : Prop :=
  ∀ (i : Instr) (s : State), TreeInv s.mf →
    exec i s ≠ .fault .treeCycle ∧ ∀ t, exec i s = .next t → TreeInv t.mf

/-! ## The host bus (20_memory.md, 10_state.md) -/

/-- R214: a host write to CMD while BUSY = 0 starts a command in one step; while BUSY = 1 it is ignored and sets WOVR. -/
def Obligations.CommandStart : Prop :=
  ∀ (s : State) (w : Word) (rest : List HostAct), s.rstAsserted = false →
    s.host.todo = .write (s.params.base + 0x00C) .w32 w :: rest →
    (s.ctl.busy = false →
      step s = .next { s with
        host := { s.host with todo := rest }, prog := Progress.none,
        ctl := { s.ctl with cmd := w, busy := true, done := false, cause := 0, detail := 0 } }) ∧
    (s.ctl.busy = true →
      step s = .next { s with host := { s.host with todo := rest }, ctl := { s.ctl with wovr := true } })

/-- R246: every host access while BUSY = 1. The value of an unspecified read is left open. That a write to a read-only
register sets WOVR is the model's choice: it follows the rulings 93 I5 and 92 D31 against R246's own row (log entry 6). -/
def Obligations.AccessesWhileBusy : Prop :=
  ∀ (s : State) (rest : List HostAct), s.params.ok → s.rstAsserted = false → s.ctl.busy = true →
    (∀ off, off = 0x000 ∨ off = 0x004 ∨ off = 0x008 → s.host.todo = .read (s.params.base + off) .w32 :: rest →
      step s = .next { s with host := { s.host with todo := rest, rdata := regValue s off } }) ∧
    (∀ addr w, s.host.todo = .read addr w :: rest → Admitted s.params addr w →
      (∀ off, off = 0x000 ∨ off = 0x004 ∨ off = 0x008 → addr ≠ s.params.base + off) →
      ∃ v n, step s = .next { s with host := { todo := rest, rdata := v, draws := n } }) ∧
    (∀ v, s.host.todo = .write (s.params.base + 0x004) .w32 v :: rest → v.getLsbD 1 = false →
      step s = .next { s with host := { s.host with todo := rest }, ctl := { s.ctl with ie := v.getLsbD 0 } }) ∧
    (∀ v, s.host.todo = .write (s.params.base + 0x004) .w32 v :: rest → v.getLsbD 1 = true →
      step s = .next (State.resetWith s.params { s.host with todo := rest })) ∧
    (∀ v, s.host.todo = .write (s.params.base + 0x008) .w32 v :: rest →
      step s = .next { s with
        host := { s.host with todo := rest },
        ctl := { s.ctl with done := s.ctl.done && !v.getLsbD 1, wovr := s.ctl.wovr && !v.getLsbD 3 } }) ∧
    (∀ off v, off ∈ [0x00C, 0x010, 0x014, 0x018, 0x028] →
      s.host.todo = .write (s.params.base + off) .w32 v :: rest →
      step s = .next { s with host := { s.host with todo := rest }, ctl := { s.ctl with wovr := true } }) ∧
    (∀ addr w v, s.host.todo = .write addr w v :: rest → Admitted s.params addr w → s.params.base + 0x10000 ≤ addr →
      step s = .next { s with host := { s.host with todo := rest }, ctl := { s.ctl with wovr := true } }) ∧
    (∀ off v, off ∈ [0x000, 0x01C, 0x020, 0x024, 0x02C, 0x030, 0x034, 0x038, 0x03C, 0x040, 0x044, 0x048, 0x04C, 0x050] →
      s.host.todo = .write (s.params.base + off) .w32 v :: rest →
      step s = .next { s with host := { s.host with todo := rest }, ctl := { s.ctl with wovr := true } }) ∧
    (∀ off v, 0x054 ≤ off → off < 0x10000 → off % 4 = 0 → s.host.todo = .write (s.params.base + off) .w32 v :: rest →
      step s = .next { s with host := { s.host with todo := rest } }) ∧
    (∀ addr w, s.host.todo = .read addr w :: rest → ¬ Admitted s.params addr w → step s = .refused .busError) ∧
    (∀ addr w v, s.host.todo = .write addr w v :: rest → ¬ Admitted s.params addr w → step s = .refused .busError)

/-- R46, R51, with R40, R44 and R45: an access is a bus error exactly when the address map does not admit it, and a bus error
has no step; every other write has one; a read that has one has no side effect in the block. -/
def Obligations.BusAccessOutcomes : Prop :=
  ∀ (s : State) (rest : List HostAct), s.params.ok → s.rstAsserted = false →
    (∀ addr w, s.host.todo = .read addr w :: rest →
      (step s = .refused .busError ↔ ¬ Admitted s.params addr w)) ∧
    (∀ addr w v, s.host.todo = .write addr w v :: rest →
      (step s = .refused .busError ↔ ¬ Admitted s.params addr w)) ∧
    (∀ addr w v, Admitted s.params addr w → s.host.todo = .write addr w v :: rest → ∃ t, step s = .next t) ∧
    (∀ addr w t, s.host.todo = .read addr w :: rest → step s = .next t →
      t = { s with host := t.host } ∧ t.host.todo = rest)

/-- R14 to R21, R23 to R26, R44: the registers while BUSY = 0, what each read returns and what each write does. -/
def Obligations.RegisterAccesses : Prop :=
  ∀ (s : State) (rest : List HostAct), s.rstAsserted = false → s.ctl.busy = false →
    (∀ p ∈ printedRegisters s, s.host.todo = .read (s.params.base + p.1) .w32 :: rest →
      step s = .next { s with host := { s.host with todo := rest, rdata := p.2 } }) ∧
    (∀ off, 0x054 ≤ off → off < 0x10000 → off % 4 = 0 → s.host.todo = .read (s.params.base + off) .w32 :: rest →
      step s = .next { s with host := { s.host with todo := rest, rdata := 0 } }) ∧
    (∀ v, v.getLsbD 1 = false → s.host.todo = .write (s.params.base + 0x004) .w32 v :: rest →
      step s = .next { s with host := { s.host with todo := rest }, ctl := { s.ctl with ie := v.getLsbD 0 } }) ∧
    (∀ v, s.host.todo = .write (s.params.base + 0x008) .w32 v :: rest →
      step s = .next { s with
        host := { s.host with todo := rest },
        ctl := { s.ctl with done := s.ctl.done && !v.getLsbD 1, wovr := s.ctl.wovr && !v.getLsbD 3 } }) ∧
    (∀ v, s.host.todo = .write (s.params.base + 0x010) .w32 v :: rest →
      step s = .next { s with host := { s.host with todo := rest }, ctl := { s.ctl with arg0 := v } }) ∧
    (∀ v, s.host.todo = .write (s.params.base + 0x014) .w32 v :: rest →
      step s = .next { s with host := { s.host with todo := rest }, ctl := { s.ctl with arg1 := v } }) ∧
    (∀ v, s.host.todo = .write (s.params.base + 0x018) .w32 v :: rest →
      step s = .next { s with host := { s.host with todo := rest }, ctl := { s.ctl with arg2 := v } }) ∧
    (∀ v, s.host.todo = .write (s.params.base + 0x028) .w32 v :: rest →
      step s = .next { s with host := { s.host with todo := rest }, ctl := { s.ctl with inLen := v } }) ∧
    (∀ off v, off < 0x10000 → off % 4 = 0 → off ∉ [0x004, 0x008, 0x00C, 0x010, 0x014, 0x018, 0x028] →
      s.host.todo = .write (s.params.base + off) .w32 v :: rest →
      step s = .next { s with host := { s.host with todo := rest } })

/-- R45, R242: buffer accesses while BUSY = 0. A write stores exactly the bytes it names, the least significant first, and
nothing else; a read returns them in the same order; a read of an unwritten byte faults. -/
def Obligations.BufferAccesses : Prop :=
  ∀ (s : State) (rest : List HostAct) (w : Width) (i : Nat),
    s.params.ok → s.rstAsserted = false → s.ctl.busy = false →
    (Admitted s.params (s.params.base + 0x1000000 + i) w → i < s.params.ibufSize →
      (∀ v, s.host.todo = .write (s.params.base + 0x1000000 + i) w v :: rest →
        ∃ t, step s = .next t ∧ t = { s with host := { s.host with todo := rest }, ibuf := t.ibuf } ∧
          ∀ k, Memory.read? t.ibuf k =
            if i ≤ k ∧ k < i + w.bytes then some (BitVec.ofNat 8 (v.toNat / 256 ^ (k - i)))
            else Memory.read? s.ibuf k) ∧
      (∀ bs, bs.length = w.bytes → (∀ j, j < bs.length → Memory.read? s.ibuf (i + j) = bs[j]?) →
        s.host.todo = .read (s.params.base + 0x1000000 + i) w :: rest →
        step s = .next { s with host := { s.host with todo := rest, rdata := BitVec.ofNat 32 (leValue bs) } }) ∧
      (∀ j, j < w.bytes → Memory.read? s.ibuf (i + j) = none →
        s.host.todo = .read (s.params.base + 0x1000000 + i) w :: rest → step s = .fault .unwrittenInput)) ∧
    (Admitted s.params (s.params.base + 0x2000000 + i) w → i < s.params.obufSize →
      (∀ v, s.host.todo = .write (s.params.base + 0x2000000 + i) w v :: rest →
        ∃ t, step s = .next t ∧ t = { s with host := { s.host with todo := rest }, obuf := t.obuf } ∧
          ∀ k, Memory.read? t.obuf k =
            if i ≤ k ∧ k < i + w.bytes then some (BitVec.ofNat 8 (v.toNat / 256 ^ (k - i)))
            else Memory.read? s.obuf k) ∧
      (∀ bs, bs.length = w.bytes → (∀ j, j < bs.length → Memory.read? s.obuf (i + j) = bs[j]?) →
        s.host.todo = .read (s.params.base + 0x2000000 + i) w :: rest →
        step s = .next { s with host := { s.host with todo := rest, rdata := BitVec.ofNat 32 (leValue bs) } }) ∧
      (∀ j, j < w.bytes → Memory.read? s.obuf (i + j) = none →
        s.host.todo = .read (s.params.base + 0x2000000 + i) w :: rest → step s = .fault .unwrittenOutput))

/-! ## Status, errors and the interrupt (60_exceptions.md) -/

/-- R17, R210 to R213, R216: the fields of the STATUS word, bit by bit; and taking an error puts its CAUSE and DETAIL codes there,
sets ERR and DONE, clears BUSY, and keeps RES0 to RES2. -/
def Obligations.StatusFieldsAndErrors : Prop :=
  ∀ s : State,
    s.statusWord.getLsbD 0 = s.ctl.busy ∧ s.statusWord.getLsbD 1 = s.ctl.done ∧
    (s.statusWord.getLsbD 2 = true ↔ s.ctl.cause ≠ 0) ∧ s.statusWord.getLsbD 3 = s.ctl.wovr ∧
    (s.statusWord.getLsbD 4 = true ↔ s.wr.wcnt = 0) ∧ (s.statusWord.getLsbD 5 = true ↔ s.rd.rbit = 0) ∧
    s.statusWord.getLsbD 6 = false ∧ s.statusWord.getLsbD 7 = false ∧
    (∀ k, k < 8 → s.statusWord.getLsbD (8 + k) = s.ctl.cause.getLsbD k ∧
      s.statusWord.getLsbD (16 + k) = s.ctl.detail.getLsbD k ∧ s.statusWord.getLsbD (24 + k) = false) ∧
    (∀ e : Err, ∃ x ∈ printedErrors, x.1 = e) ∧
    ∀ x ∈ printedErrors,
      (s.fail x.1).statusWord.toNat / 256 % 256 = x.2.1 ∧ (s.fail x.1).statusWord.toNat / 65536 % 256 = x.2.2 ∧
      (s.fail x.1).statusWord.toNat % 8 = 6 ∧
      (s.fail x.1).ctl.res0 = s.ctl.res0 ∧ (s.fail x.1).ctl.res1 = s.ctl.res1 ∧ (s.fail x.1).ctl.res2 = s.ctl.res2

/-- R221: irq is the level DONE and IE: asserted at the completion of every command while IE = 1, lowered by a DONE
acknowledgement, by the next start and by clearing IE, asserted at once by setting IE while DONE = 1, not driven by
WOVR. -/
def Obligations.InterruptLevel : Prop :=
  ∀ s : State,
    (s.irq = true ↔ s.statusWord.getLsbD 1 = true ∧ s.ctrlWord.getLsbD 0 = true) ∧
    (∀ i t, IsCommand i → exec i s = .next t → t.irq = s.ctl.ie) ∧
    (∀ w, (s.start w).irq = false) ∧
    (∀ v, (s.ackStatus v).irq = (s.irq && !v.getLsbD 1)) ∧
    (∀ v, v.getLsbD 1 = false → (writeCtrl v s).irq = (s.ctl.done && v.getLsbD 0)) ∧
    (lostWrite s).irq = s.irq

/-! ## Every command (60_exceptions.md) -/

/-- R19, R21, R26, R41, R251: no instruction changes the parameters, IE, WOVR, CMD, an operand, IN_LEN, a byte of IBUF, the
reset input or the host's side. -/
def Obligations.InstructionsKeepHostSide : Prop :=
  ∀ (i : Instr) (s t : State), exec i s = .next t → KeepsHostSide s t

/-- R215, R216, R20, R229: every command ends with BUSY = 0 and DONE = 1; it succeeds with CAUSE and DETAIL 0, or fails with
a CAUSE from 1 to 6 and RES0 to RES2 unchanged; it is never refused. -/
def Obligations.CommandsEndDone : Prop :=
  ∀ (i : Instr) (s : State), IsCommand i →
    (∀ r, exec i s ≠ .refused r) ∧
    ∀ t, exec i s = .next t →
      t.ctl.busy = false ∧ t.ctl.done = true ∧ t.prog = Progress.none ∧
      ((t.ctl.cause = 0 ∧ t.ctl.detail = 0) ∨
        (1 ≤ t.ctl.cause.toNat ∧ t.ctl.cause.toNat ≤ 6 ∧ t.ctl.res0 = s.ctl.res0 ∧ t.ctl.res1 = s.ctl.res1 ∧
          t.ctl.res2 = s.ctl.res2))

/-- R217: an atomic command that fails changes nothing but CAUSE, DETAIL, BUSY and DONE. HUF_ENCODE does not either. -/
def Obligations.AtomicCommandsFailClean : Prop :=
  ∀ (i : Instr) (s t : State), IsCommand i → i ≠ .compress → i ≠ .expand →
    (∀ a, i ≠ .hufSerialize a ∧ i ≠ .hufDeserialize a ∧ i ≠ .hufDecode a) →
    exec i s = .next t → t.ctl.cause ≠ 0 →
    t = { s with
      prog := Progress.none
      ctl := { s.ctl with cause := t.ctl.cause, detail := t.ctl.detail, busy := false, done := true } }

/-- R227, and 41_alphabet.md section 3: an observation or lookup command writes RES0 to RES2 and ends the command, and
nothing else. -/
def Obligations.ObservationCommandsFrame : Prop :=
  ∀ (i : Instr) (s t : State),
    (i ∈ [.lenSlot, .distSlot, .lenRange, .distRange, .mfLongest, .treeRead, .winRead] ∨
      ∃ a, i = .freqRead a ∨ i = .clRead a) →
    exec i s = .next t → t = { s with prog := Progress.none, ctl := t.ctl } ∧ KeepsHostSide s t

/-- R130: a command of the Huffman family leaves every table of the other alphabet. -/
def Obligations.AlphabetsDoNotMix : Prop :=
  ∀ (a b : Alphabet) (i : Instr) (s t : State), a ≠ b →
    i ∈ [.freqClear a, .freqInc a, .freqRead a, .hufBuild a, .hufCanon a, .hufSerialize a, .hufDeserialize a, .hufTrie a,
      .hufDecode a, .hufEncode a, .clRead a, .clWrite a] →
    exec i s = .next t → t.tab b = s.tab b

/-- R90 to R94, R131 to R153: the frame of the bit stream and Huffman commands. A writer touches the writer and, of OBUF,
only the bytes from the old OUT_LEN up to the new one; a reader touches the reader; each table command touches the one
table it names. -/
def Obligations.StreamAndTableCommandsFrame : Prop :=
  ∀ (i : Instr) (a : Alphabet) (s t : State), s.params.ok → exec i s = .next t →
    (i ∈ [.bwReset, .bwWriteBits, .bwWriteByte, .bwWriteEof, .hufSerialize a, .hufEncode a] →
      t = { s with prog := Progress.none, ctl := t.ctl, wr := t.wr, obuf := t.obuf } ∧
      ∀ k, ¬ (s.wr.outLen.toNat ≤ k ∧ k < t.wr.outLen.toNat) → Memory.read? t.obuf k = Memory.read? s.obuf k) ∧
    (i ∈ [.brReset, .brReadBits, .brReadByte, .hufDecode a] →
      t = { s with prog := Progress.none, ctl := t.ctl, rd := t.rd }) ∧
    (i = .hufDeserialize a →
      t = { s.setTab a { s.tab a with cl := (t.tab a).cl } with prog := Progress.none, ctl := t.ctl, rd := t.rd }) ∧
    (i ∈ [.freqClear a, .freqInc a] →
      t = { s.setTab a { s.tab a with freq := (t.tab a).freq } with prog := Progress.none, ctl := t.ctl }) ∧
    (i ∈ [.hufBuild a, .clWrite a] →
      t = { s.setTab a { s.tab a with cl := (t.tab a).cl } with prog := Progress.none, ctl := t.ctl }) ∧
    (i = .hufCanon a →
      t = { s.setTab a { s.tab a with code := (t.tab a).code } with prog := Progress.none, ctl := t.ctl }) ∧
    (i = .hufTrie a →
      t = { s.setTab a { s.tab a with code := (t.tab a).code, trie := (t.tab a).trie } with
            prog := Progress.none, ctl := t.ctl })

/-- R163, R170 to R173, R193 to R197: the frame of the match-finder and window commands. The former touch the finder alone,
MF_PROBE only MF_BEST, MF_DELETE only the links. WIN_PUT and WIN_COPY touch OUT_LEN, the window, the OBUF bytes from the
old OUT_LEN up to the new one and as many slots of WIN from WIN_POS on; the pending bits and BITS_W stay. WIN_RESET leaves
WIN's bytes. -/
def Obligations.FinderAndWindowCommandsFrame : Prop :=
  ∀ (i : Instr) (s t : State), s.params.ok → exec i s = .next t →
    (i ∈ [.mfInit, .mfInsert, .mfProbe, .mfDelete] →
      t = { s with prog := Progress.none, ctl := t.ctl, mf := t.mf } ∧
      (i = .mfProbe → t.mf = { s.mf with best := t.mf.best }) ∧
      (i = .mfDelete → t.mf.best = s.mf.best)) ∧
    (i ∈ [.winPut, .winCopy] →
      t = { s with prog := Progress.none, ctl := t.ctl, win := t.win, obuf := t.obuf,
                   wr := { s.wr with outLen := t.wr.outLen } } ∧
      (∀ k, ¬ (s.wr.outLen.toNat ≤ k ∧ k < t.wr.outLen.toNat) → Memory.read? t.obuf k = Memory.read? s.obuf k) ∧
      (∀ j, (∀ n, s.wr.outLen.toNat + n < t.wr.outLen.toNat → (s.win.pos.toNat + n) % windowSize ≠ j) →
        Memory.read? t.win.bytes j = Memory.read? s.win.bytes j)) ∧
    (i = .winReset → t = { s with prog := Progress.none, ctl := t.ctl, win := { s.win with pos := 0, fill := 0 } })

/-- R190, R199, R42: the frame of the two pipelines. COMPRESS leaves the tries, the reader, WIN and its cursors; EXPAND leaves
the frequencies and the finder; neither touches OBUF at or above the OUT_LEN it leaves. -/
def Obligations.PipelinesFrame : Prop :=
  ∀ (s t : State), s.params.ok →
    (exec .compress s = .next t →
      t.rd = s.rd ∧ t.win = s.win ∧ KeepsTries s t ∧
      ∀ k, t.wr.outLen.toNat ≤ k → Memory.read? t.obuf k = Memory.read? s.obuf k) ∧
    (exec .expand s = .next t →
      t.mf = s.mf ∧ KeepsFreqs s t ∧
      ∀ k, t.wr.outLen.toNat ≤ k → Memory.read? t.obuf k = Memory.read? s.obuf k)

/-! ## The bit stream (40_bitstream.md) -/

/-- R95, R99, R195: the three commands that start a stream or a window. -/
def Obligations.ResettingCommands : Prop :=
  ∀ s : State,
    (∃ t, OnlyWriter s t ∧ exec .bwReset s = .next (t.complete 0 0 0) ∧ t.wr = ⟨0, 0, 0, 0⟩ ∧
      (∀ k, Memory.read? t.obuf k = Memory.read? s.obuf k) ∧ (t.complete 0 0 0).statusWord.getLsbD 4 = true) ∧
    (∃ t, OnlyReader s t ∧ exec .brReset s = .next (t.complete 0 0 0) ∧ t.rd = ⟨0, 0, 0⟩ ∧
      (t.complete 0 0 0).statusWord.getLsbD 5 = true) ∧
    (∃ t : State, t = { s with win := t.win } ∧ exec .winReset s = .next (t.complete 0 0 0) ∧ t.win.pos = 0 ∧ t.win.fill = 0 ∧
      (∀ j, Memory.read? t.win.bytes j = Memory.read? s.win.bytes j))

/-- R96, R90: BW_WRITE_BITS, on every operand. -/
def Obligations.WriteBits : Prop :=
  ∀ s : State, s.params.ok →
    (32 < s.a1 → exec .bwWriteBits s = .next (s.fail (.illegal .operandRange))) ∧
    (s.a1 ≤ 32 → ¬ s.BitsFit s.a1 → exec .bwWriteBits s = .next (s.fail .outputFull)) ∧
    (s.a1 ≤ 32 → s.BitsFit s.a1 →
      ∃ t, OnlyWriter s t ∧ exec .bwWriteBits s = .next (t.complete 0 0 0) ∧
        Appended s t (toBits s.a0 s.a1))

/-- R97, R98, R91, R92: BW_WRITE_BYTE and BW_WRITE_EOF, on every operand. The padding bits are 0 where WACC is 0 from bit
WCNT on (R24). -/
def Obligations.WriteByteAndEof : Prop :=
  ∀ s : State, s.params.ok → WriterOk s →
    (255 < s.a0 → exec .bwWriteByte s = .next (s.fail (.illegal .operandRange))) ∧
    (s.a0 ≤ 255 → s.wr.wcnt ≠ 0 → exec .bwWriteByte s = .next (s.fail .align)) ∧
    (s.a0 ≤ 255 → s.wr.wcnt = 0 → s.wr.outLen.toNat = s.params.obufSize →
      exec .bwWriteByte s = .next (s.fail .outputFull)) ∧
    (s.a0 ≤ 255 → s.wr.wcnt = 0 → s.wr.outLen.toNat < s.params.obufSize →
      ∃ t, OnlyWriter s t ∧ exec .bwWriteByte s = .next (t.complete 0 0 0) ∧ Appended s t (toBits s.a0 8)) ∧
    (s.wr.wcnt = 0 → exec .bwWriteEof s = .next (s.complete 0 0 0)) ∧
    (s.wr.wcnt ≠ 0 → s.wr.outLen.toNat = s.params.obufSize → exec .bwWriteEof s = .next (s.fail .outputFull)) ∧
    (s.wr.wcnt ≠ 0 → s.wr.outLen.toNat < s.params.obufSize →
      ∃ t, OnlyWriter s t ∧ exec .bwWriteEof s = .next (t.complete 0 0 0) ∧
        t.wr.outLen.toNat = s.wr.outLen.toNat + 1 ∧ t.wr.wcnt = 0 ∧ t.wr.wacc = 0 ∧ t.wr.bitsW = s.wr.bitsW ∧
        (∀ k, k < s.writePos → t.outBit k = s.outBit k) ∧
        (∀ k, s.writePos ≤ k → k < t.writePos → t.outBit k = some false) ∧
        (∀ i, i ≠ s.wr.outLen.toNat → Memory.read? t.obuf i = Memory.read? s.obuf i))

/-- R100, R93: BR_READ_BITS, on every operand, and its fault on an unwritten byte (R242). -/
def Obligations.ReadBits : Prop :=
  ∀ s : State, s.params.ok →
    (32 < s.a1 ∨ s.params.ibufSize < s.ctl.inLen.toNat →
      exec .brReadBits s = .next (s.fail (.illegal .operandRange))) ∧
    (s.a1 ≤ 32 → s.ctl.inLen.toNat ≤ s.params.ibufSize → s.avail < s.a1 →
      exec .brReadBits s = .next (s.fail .endOfInput)) ∧
    (∀ bs, bs.length = s.a1 → s.a1 ≤ 32 → s.InputHas bs →
      ∃ t, OnlyReader s t ∧ exec .brReadBits s = .next (t.complete (BitVec.ofNat 32 (ofBits bs)) 0 0) ∧
        Consumed s t s.a1) ∧
    (∀ j, j < s.a1 → s.a1 ≤ 32 → s.ctl.inLen.toNat ≤ s.params.ibufSize → s.a1 ≤ s.avail →
      Memory.bit? s.ibuf (s.readPos + j) = none → exec .brReadBits s = .fault .unwrittenInput)

/-- R101, R94: BR_READ_BYTE, in every state, and its fault on an unwritten byte (R242). -/
def Obligations.ReadByte : Prop :=
  ∀ s : State, s.params.ok →
    (s.params.ibufSize < s.ctl.inLen.toNat → exec .brReadByte s = .next (s.fail (.illegal .operandRange))) ∧
    (s.ctl.inLen.toNat ≤ s.params.ibufSize → s.rd.rbit ≠ 0 → exec .brReadByte s = .next (s.fail .align)) ∧
    (s.ctl.inLen.toNat ≤ s.params.ibufSize → s.rd.rbit = 0 → s.ctl.inLen.toNat ≤ s.rd.rpos.toNat →
      exec .brReadByte s = .next (s.fail .endOfInput)) ∧
    (∀ b, s.ctl.inLen.toNat ≤ s.params.ibufSize → s.rd.rbit = 0 → s.rd.rpos.toNat < s.ctl.inLen.toNat →
      Memory.read? s.ibuf s.rd.rpos.toNat = some b →
      ∃ t, OnlyReader s t ∧ exec .brReadByte s = .next (t.complete (BitVec.ofNat 32 b.toNat) 0 0) ∧ Consumed s t 8) ∧
    (s.ctl.inLen.toNat ≤ s.params.ibufSize → s.rd.rbit = 0 → s.rd.rpos.toNat < s.ctl.inLen.toNat →
      Memory.read? s.ibuf s.rd.rpos.toNat = none → exec .brReadByte s = .fault .unwrittenInput)

/-! ## The alphabet tables (41_alphabet.md) -/

/-- R115, R117, R110: LEN_SLOT on every length and LEN_RANGE on every slot, by the table as the spec prints it. -/
def Obligations.LengthCommands : Prop :=
  ∀ s : State,
    (¬ (3 ≤ s.a0 ∧ s.a0 ≤ 258) → exec .lenSlot s = .next (s.fail (.illegal .operandRange))) ∧
    (∀ r ∈ printedLenRows, r.2.1 ≤ s.a0 → s.a0 ≤ r.2.2.1 →
      exec .lenSlot s = .next (s.complete (BitVec.ofNat 32 r.1) (BitVec.ofNat 32 (s.a0 - r.2.1)) (BitVec.ofNat 32 r.2.2.2))) ∧
    (3 ≤ s.a0 → s.a0 ≤ 258 → ∃ r ∈ printedLenRows, r.2.1 ≤ s.a0 ∧ s.a0 ≤ r.2.2.1) ∧
    (23 < s.a0 → exec .lenRange s = .next (s.fail (.illegal .operandRange))) ∧
    (∀ r ∈ printedLenRows, s.a0 = r.1 →
      exec .lenRange s = .next (s.complete (BitVec.ofNat 32 r.2.1) (BitVec.ofNat 32 r.2.2.1) (BitVec.ofNat 32 r.2.2.2)))

/-- R116, R118, R111: DIST_SLOT on every distance and DIST_RANGE on every slot, by the table as the spec prints it. The
rows come from general knowledge in the spec itself (93 G1, log entry 15). -/
def Obligations.DistanceCommands : Prop :=
  ∀ s : State,
    (¬ (1 ≤ s.a0 ∧ s.a0 ≤ 65536) → exec .distSlot s = .next (s.fail (.illegal .operandRange))) ∧
    (∀ r ∈ printedDistRows, r.2.1 ≤ s.a0 → s.a0 ≤ r.2.2.1 →
      exec .distSlot s = .next (s.complete (BitVec.ofNat 32 r.1) (BitVec.ofNat 32 (s.a0 - r.2.1)) (BitVec.ofNat 32 r.2.2.2))) ∧
    (1 ≤ s.a0 → s.a0 ≤ 65536 → ∃ r ∈ printedDistRows, r.2.1 ≤ s.a0 ∧ s.a0 ≤ r.2.2.1) ∧
    (31 < s.a0 → exec .distRange s = .next (s.fail (.illegal .operandRange))) ∧
    (∀ r ∈ printedDistRows, s.a0 = r.1 →
      exec .distRange s = .next (s.complete (BitVec.ofNat 32 r.2.1) (BitVec.ofNat 32 r.2.2.1) (BitVec.ofNat 32 r.2.2.2)))

/-! ## Huffman (42_huffman.md) -/

/-- R131 to R133: FREQ_CLEAR, FREQ_INC and FREQ_READ, on every operand. -/
def Obligations.FrequencyCommands : Prop :=
  ∀ (a : Alphabet) (s : State),
    (∃ t, OnlyFreq a s t ∧ exec (.freqClear a) s = .next (t.complete 0 0 0) ∧ ∀ sym, freqOf a sym t = 0) ∧
    (a.size ≤ s.a0 → exec (.freqInc a) s = .next (s.fail (.illegal .operandRange)) ∧
      exec (.freqRead a) s = .next (s.fail (.illegal .operandRange))) ∧
    (s.a0 < a.size → freqOf a s.a0 s = 0xFFFFFFFF →
      exec (.freqInc a) s = .next (s.fail (.internal .freqOverflow))) ∧
    (s.a0 < a.size → freqOf a s.a0 s ≠ 0xFFFFFFFF →
      ∃ t, OnlyFreq a s t ∧ exec (.freqInc a) s = .next (t.complete (freqOf a s.a0 s + 1) 0 0) ∧
        ∀ sym, freqOf a sym t = if sym = s.a0 then freqOf a sym s + 1 else freqOf a sym s) ∧
    (s.a0 < a.size → exec (.freqRead a) s = .next (s.complete (freqOf a s.a0 s) 0 0))

/-- R152, R153: CL_READ and CL_WRITE, on every operand; the reversed code bit by bit (R140). -/
def Obligations.CodeLengthCommands : Prop :=
  ∀ (a : Alphabet) (s : State),
    (a.size ≤ s.a0 → exec (.clRead a) s = .next (s.fail (.illegal .operandRange))) ∧
    (s.a0 < a.size →
      ∃ r, exec (.clRead a) s =
          .next (s.complete (BitVec.ofNat 32 (clOf a s.a0 s)) (BitVec.ofNat 32 (codeOf a s.a0 s)) r) ∧
        ∀ j, r.getLsbD j = (decide (j < clOf a s.a0 s) && (codeOf a s.a0 s).testBit (clOf a s.a0 s - 1 - j))) ∧
    (a.size ≤ s.a0 ∨ 21 < s.a1 → exec (.clWrite a) s = .next (s.fail (.illegal .operandRange))) ∧
    (s.a0 < a.size → s.a1 ≤ 21 →
      ∃ t, OnlyCl a s t ∧ exec (.clWrite a) s = .next (t.complete 0 0 0) ∧
        ∀ sym, clOf a sym t = if sym = s.a0 then s.a1 else clOf a sym s)

/-- R137, R136: HUF_BUILD of at most 20 symbols that occur completes: exactly they get a code, none longer than 19 bits; RES0
is the longest length, RES1 their number; one symbol alone gets length 1. -/
def Obligations.BuildOfFewSymbols : Prop :=
  ∀ (a : Alphabet) (s : State), codedCount a s ≤ 20 →
    ∃ t longest, OnlyCl a s t ∧
      exec (.hufBuild a) s = .next (t.complete (BitVec.ofNat 32 longest) (BitVec.ofNat 32 (codedCount a s)) 0) ∧
      longest ≤ 19 ∧ (∀ sym, clOf a sym t ≤ longest) ∧ (longest = 0 ∨ ∃ sym, clOf a sym t = longest) ∧
      (∀ sym, clOf a sym t = 0 ↔ freqOf a sym s = 0) ∧ (codedCount a s = 1 → longest = 1)

/-- R134, R135, R137, R139: whatever the frequencies, HUF_BUILD merges in the order of the list and of its ties: the length
of a symbol is its depth in the tree that the list of the symbols that occur merges to. It either fails with
CODELEN_OVERFLOW, exactly when a depth exceeds 19, or leaves lengths of at most 19 that give a complete code: their Kraft
sum is exactly 1, or one half for a single symbol. -/
def Obligations.BuildGivesCompleteCode : Prop :=
  ∀ (a : Alphabet) (s : State), ∃ t, exec (.hufBuild a) s = .next t ∧
    ((t.ctl.cause = 4 ∧ t.ctl.detail = 3 ∧ t.tab a = s.tab a) ∨
      (t.ctl.cause = 0 ∧ (∀ sym, clOf a sym t ≤ 19) ∧ (∀ sym, clOf a sym t = 0 ↔ freqOf a sym s = 0) ∧
        (2 ≤ codedCount a s → kraft a t = 2 ^ 21) ∧ (codedCount a s = 1 → kraft a t = 2 ^ 20) ∧
        (codedCount a s = 0 → kraft a t = 0))) ∧
    ∃ q, InitialList a s q ∧ q.length = codedCount a s ∧
      (2 ≤ q.length → ∃ tree, MergesTo q tree ∧
        (t.ctl.cause = 4 ↔ ∃ x ∈ tree.depths 0, 19 < x.2) ∧
        (t.ctl.cause = 0 → ∀ x ∈ tree.depths 0, clOf a x.1 t = x.2))

/-- R138, R139, R141: HUF_CANON assigns every symbol its canonical code, given here in closed form and below `2 ^ CL`, exactly
when the lengths keep the Kraft inequality; otherwise it fails with OVERSUBSCRIBED and changes no table. The recurrence of R138
is general knowledge in the spec itself (93 G2, log entry 15). -/
def Obligations.CanonGivesCanonicalCodes : Prop :=
  ∀ (a : Alphabet) (s : State), LengthsOk a s →
    (2 ^ 21 < kraft a s → exec (.hufCanon a) s = .next (s.fail (.corrupt .oversubscribed))) ∧
    (kraft a s ≤ 2 ^ 21 →
      ∃ t, OnlyCode a s t ∧ exec (.hufCanon a) s = .next (t.complete 0 0 0) ∧
        ∀ sym, sym < a.size →
          (clOf a sym s = 0 → codeOf a sym t = 0) ∧
          (clOf a sym s ≠ 0 → codeOf a sym t = canonicalCode a s sym ∧ codeOf a sym t < 2 ^ clOf a sym s))

/-- R147, R146, R148, R154: HUF_TRIE builds the trie whose leaves are exactly the coded symbols, each at the path that is its
canonical code read from its most significant bit; no code is a prefix of another; CODE is written too; and it fails as
HUF_CANON does. The recurrence of R138 is general knowledge in the spec itself (93 G2, log entry 15). -/
def Obligations.TrieHoldsCanonicalCodes : Prop :=
  ∀ (a : Alphabet) (s : State), LengthsOk a s →
    (2 ^ 21 < kraft a s → exec (.hufTrie a) s = .next (s.fail (.corrupt .oversubscribed))) ∧
    (kraft a s ≤ 2 ^ 21 →
      ∃ t, OnlyCodeTrie a s t ∧ exec (.hufTrie a) s = .next (t.complete 0 0 0) ∧
        (∀ sym, sym < a.size → codeOf a sym t = if clOf a sym s = 0 then 0 else canonicalCode a s sym) ∧
        (∀ bs sym, (t.tab a).trie.parse.onBits bs = some (sym, []) ↔
          sym < a.size ∧ clOf a sym s ≠ 0 ∧ bs = codePath (codeOf a sym t) (clOf a sym s)) ∧
        (∀ x y, x < a.size → y < a.size → clOf a x s ≠ 0 → clOf a y s ≠ 0 → x ≠ y →
          ¬ codePath (codeOf a x t) (clOf a x s) <+: codePath (codeOf a y t) (clOf a y s)))

/-- R142, R143, R217: HUF_SERIALIZE writes entries that spell out CL, zero runs split only at `2 ^ ZB[A]` symbols; RES0 is the
number of bits; a length above 19 fails before any bit is written; where the entries do not fit it is OUTPUT_FULL, and the
fields before the first that does not fit stay written. -/
def Obligations.SerializeWritesTable : Prop :=
  ∀ (a : Alphabet) (s : State), s.params.ok →
    ((∃ sym, sym < a.size ∧ 19 < clOf a sym s) →
      exec (.hufSerialize a) s = .next (s.fail (.internal .codelenOverflow))) ∧
    ((∀ sym, sym < a.size → clOf a sym s ≤ 19) →
      ∃ es : List TableEntry, (∀ e ∈ es, entryOk a e = true) ∧ entriesLens es = codeLens a s ∧
        (∀ pre c d post, es = pre ++ .zrun c :: .zrun d :: post → c + 1 = 2 ^ a.zb) ∧
        (s.BitsFit (entriesBits a es).length →
          ∃ t, OnlyWriter s t ∧
            exec (.hufSerialize a) s = .next (t.complete (BitVec.ofNat 32 (entriesBits a es).length) 0 0) ∧
            Appended s t (entriesBits a es)) ∧
        (∀ pre f post, es.flatMap (TableEntry.fields a) = pre ++ f :: post →
          s.BitsFit (fieldsToBits (fun _ _ => (0, 0)) pre).length →
          ¬ s.BitsFit (fieldsToBits (fun _ _ => (0, 0)) (pre ++ [f])).length →
          ∃ t, OnlyWriter s t ∧ exec (.hufSerialize a) s = .next (t.fail .outputFull) ∧
            Appended s t (fieldsToBits (fun _ _ => (0, 0)) pre)) ∧
        (s.wr.outLen.toNat ≤ s.params.obufSize → ¬ s.BitsFit (entriesBits a es).length →
          ∃ pre f post, es.flatMap (TableEntry.fields a) = pre ++ f :: post ∧
            s.BitsFit (fieldsToBits (fun _ _ => (0, 0)) pre).length ∧
            ¬ s.BitsFit (fieldsToBits (fun _ _ => (0, 0)) (pre ++ [f])).length))

/-- R144, R145, R217: HUF_DESERIALIZE of entries that cover the alphabet exactly completes with their lengths in CL; RES0 is
the number of bits read; nothing after the table is read. An IN_LEN out of range is OPERAND_RANGE; entries after which the
table goes wrong leave their lengths in CL and the bits read consumed, and the error is EOS_IN_TABLE or TABLE_OVERRUN. -/
def Obligations.DeserializeReadsTable : Prop :=
  ∀ (a : Alphabet) (s : State), s.params.ok →
    (s.params.ibufSize < s.ctl.inLen.toNat → exec (.hufDeserialize a) s = .next (s.fail (.illegal .operandRange))) ∧
    ∀ es : List TableEntry, (∀ e ∈ es, entryOk a e = true) →
      ((entriesLens es).length = a.size → s.InputHas (entriesBits a es) →
        ∃ t, OnlyReaderCl a s t ∧
          exec (.hufDeserialize a) s = .next (t.complete (BitVec.ofNat 32 (entriesBits a es).length) 0 0) ∧
          Consumed s t (entriesBits a es).length ∧ codeLens a t = entriesLens es) ∧
      (∀ bits e n atEnd, (entriesLens es).length < a.size → BadEntry a (entriesLens es).length bits e n atEnd →
        s.InputHas (entriesBits a es ++ bits) → (atEnd = true → s.avail = (entriesBits a es ++ bits).length) →
        ∃ t, OnlyReaderCl a s t ∧ exec (.hufDeserialize a) s = .next (t.fail e) ∧
          Consumed s t ((entriesBits a es).length + n) ∧
          ∀ sym, clOf a sym t =
            if sym < (entriesLens es).length then (entriesLens es).getD sym 0 else clOf a sym s)

/-- R154, "Table round trip": what HUF_SERIALIZE has written, HUF_DESERIALIZE reads back into CL exactly, with the same count of
bits. -/
def Obligations.TableRoundTrip : Prop :=
  ∀ (a : Alphabet) (s t u : State), s.params.ok → u.params.ok →
    exec (.hufSerialize a) s = .next t → t.ctl.cause = 0 →
    u.inputOk = true → t.writePos - s.writePos ≤ u.avail →
    (∀ j, j < t.writePos - s.writePos → Memory.bit? u.ibuf (u.readPos + j) = t.outBit (s.writePos + j)) →
    ∃ v, exec (.hufDeserialize a) u = .next v ∧ v.ctl.cause = 0 ∧ codeLens a v = codeLens a s ∧
      v.ctl.res0 = t.ctl.res0

/-- R148, R149, R217: HUF_DECODE. The symbol whose path the next bits are; the errors on a bad IN_LEN, at an unpopulated slot
and at the end of the input, at every depth of the trie, with the bits read consumed. -/
def Obligations.DecodeSymbol : Prop :=
  ∀ (a : Alphabet) (s : State), s.params.ok →
    (∀ bs sym, (s.tab a).trie.parse.onBits bs = some (sym, []) → s.InputHas bs →
      ∃ t, OnlyReader s t ∧ exec (.hufDecode a) s = .next (t.complete (BitVec.ofNat 32 sym) 0 0) ∧
        Consumed s t bs.length) ∧
    (s.params.ibufSize < s.ctl.inLen.toNat → exec (.hufDecode a) s = .next (s.fail (.illegal .operandRange))) ∧
    (∀ bs z o, slotAt a s bs = .node z o → s.InputHas bs → s.avail = bs.length →
      ∃ t, OnlyReader s t ∧ exec (.hufDecode a) s = .next (t.fail (.corrupt .eosInSymbol)) ∧ Consumed s t bs.length) ∧
    (∀ bs b z o, slotAt a s bs = .node z o → slotAt a s (bs ++ [b]) = .empty → s.InputHas (bs ++ [b]) →
      ∃ t, OnlyReader s t ∧ exec (.hufDecode a) s = .next (t.fail (.corrupt .unpopulated)) ∧
        Consumed s t (bs.length + 1))

/-- R150, R151: HUF_ENCODE appends a symbol's code, its most significant bit first on the wire; RES0 is the code length, RES1 the
reversed code; the errors in their order. -/
def Obligations.EncodeSymbol : Prop :=
  ∀ (a : Alphabet) (s : State), s.params.ok →
    (a.size ≤ s.a0 → exec (.hufEncode a) s = .next (s.fail (.illegal .operandRange))) ∧
    (s.a0 < a.size → clOf a s.a0 s = 0 → exec (.hufEncode a) s = .next (s.fail (.internal .noCode))) ∧
    (s.a0 < a.size → clOf a s.a0 s ≠ 0 → ¬ s.BitsFit (clOf a s.a0 s) →
      exec (.hufEncode a) s = .next (s.fail .outputFull)) ∧
    (s.a0 < a.size → clOf a s.a0 s ≠ 0 → s.BitsFit (clOf a s.a0 s) →
      ∃ t, OnlyWriter s t ∧
        exec (.hufEncode a) s = .next (t.complete (BitVec.ofNat 32 (clOf a s.a0 s))
          (BitVec.ofNat 32 (revBits (codeOf a s.a0 s) (clOf a s.a0 s))) 0) ∧
        Appended s t (codePath (codeOf a s.a0 s) (clOf a s.a0 s)))

/-! ## The match finder (43_match_finder.md) -/

/-- R170, R174, R175: MF_INIT empties the tree and the candidate; MF_LONGEST gives the candidate; TREE_READ gives the three links of
an index. -/
def Obligations.FinderInitAndObservation : Prop :=
  ∀ s : State,
    (∃ t, OnlyFinder s t ∧ exec .mfInit s = .next (t.complete 0 0 0) ∧ t.mf.best = ⟨0, 0⟩ ∧
      ∀ i, t.mf.par i = 0x1FFFF ∧ t.mf.sm i = 0x1FFFF ∧ t.mf.la i = 0x1FFFF) ∧
    exec .mfLongest s =
      .next (s.complete (BitVec.ofNat 32 s.mf.best.len.toNat) (BitVec.ofNat 32 s.mf.best.dist.toNat) 0) ∧
    (65536 < s.a0 → exec .treeRead s = .next (s.fail (.illegal .operandRange))) ∧
    (s.a0 ≤ 65536 →
      exec .treeRead s = .next (s.complete (BitVec.ofNat 32 (s.mf.par s.a0).toNat)
        (BitVec.ofNat 32 (s.mf.sm s.a0).toNat) (BitVec.ofNat 32 (s.mf.la s.a0).toNat)))

/-- R160 to R166, R171, R172: MF_INSERT and MF_PROBE. Operands out of range and an occupied slot; an empty tree; and, on a
well-formed tree, what the descent from its top decides: TREE_POS at a node that stands for no earlier position, else the
candidate reported (a longest comparison, of several the last) and, for an insert, every link afterwards. A written input
always has a descent, and one on whose tree every slot stands for an earlier position ends without an error. -/
def Obligations.InsertAndProbe : Prop :=
  ∀ s : State, TreeInv s.mf →
    (s.params.ibufSize < s.ctl.inLen.toNat ∨ s.ctl.inLen.toNat ≤ s.a0 →
      exec .mfInsert s = .next (s.fail (.illegal .operandRange)) ∧
      exec .mfProbe s = .next (s.fail (.illegal .operandRange))) ∧
    (s.ctl.inLen.toNat ≤ s.params.ibufSize → s.a0 < s.ctl.inLen.toNat → s.mf.par (s.a0 % 65536) ≠ 0x1FFFF →
      exec .mfInsert s = .next (s.fail (.internal .slotOccupied))) ∧
    (s.ctl.inLen.toNat ≤ s.params.ibufSize → s.a0 < s.ctl.inLen.toNat → s.mf.la 65536 ≠ 0x1FFFF →
      (∀ path, Descent s s.a0 (s.mf.la 65536).toNat path none →
        exec .mfProbe s = .next (s.fail (.internal .treePos)) ∧
        (s.mf.par (s.a0 % 65536) = 0x1FFFF → exec .mfInsert s = .next (s.fail (.internal .treePos)))) ∧
      (∀ path stop, Descent s s.a0 (s.mf.la 65536).toNat path (some stop) →
        ∃ len dist, BestOf path len dist ∧
          (∃ t, OnlyFinder s t ∧ t.mf = { s.mf with best := ⟨BitVec.ofNat 9 len, BitVec.ofNat 17 dist⟩ } ∧
            exec .mfProbe s = .next (t.complete (BitVec.ofNat 32 len) (BitVec.ofNat 32 dist) 0)) ∧
          (s.mf.par (s.a0 % 65536) = 0x1FFFF →
            ∃ t, OnlyFinder s t ∧ t.mf.best = ⟨BitVec.ofNat 9 len, BitVec.ofNat 17 dist⟩ ∧
              exec .mfInsert s = .next (t.complete (BitVec.ofNat 32 len) (BitVec.ofNat 32 dist) 0) ∧
              LinkedIn s.mf t.mf (s.a0 % 65536) stop)) ∧
      ((∀ i, i < s.ctl.inLen.toNat → (Memory.read? s.ibuf i).isSome = true) →
        ∃ path e, Descent s s.a0 (s.mf.la 65536).toNat path e ∧
          ((∀ i, s.mf.inTree i = true → slotDist s.a0 i ≤ s.a0) → e ≠ none))) ∧
    (s.ctl.inLen.toNat ≤ s.params.ibufSize → s.a0 < s.ctl.inLen.toNat → s.mf.la 65536 = 0x1FFFF →
      (∃ t, OnlyFinder s t ∧ exec .mfProbe s = .next (t.complete 0 0 0) ∧ t.mf = { s.mf with best := ⟨0, 0⟩ }) ∧
      (∃ t, OnlyFinder s t ∧ exec .mfInsert s = .next (t.complete 0 0 0) ∧ t.mf.best = ⟨0, 0⟩ ∧
        ∀ i, t.mf.par i = (if i = s.a0 % 65536 then 0x10000 else s.mf.par i) ∧
          t.mf.sm i = s.mf.sm i ∧
          t.mf.la i = if i = 65536 then BitVec.ofNat 17 (s.a0 % 65536) else s.mf.la i))

/-- R161 to R165: the match that MF_INSERT and MF_PROBE report is real: it stays inside the input, its bytes are those `d` before
them, its length is at most 256, and one of length 3 is at most 4096 back. -/
def Obligations.MatchIsReal : Prop :=
  ∀ (s t : State), (exec .mfInsert s = .next t ∨ exec .mfProbe s = .next t) → t.ctl.cause = 0 →
    t.mf.best = ⟨BitVec.ofNat 9 t.ctl.res0.toNat, BitVec.ofNat 17 t.ctl.res1.toNat⟩ ∧
    t.ctl.res0.toNat ≤ 256 ∧ t.ctl.res1.toNat ≤ 65536 ∧
    s.a0 + t.ctl.res0.toNat ≤ s.ctl.inLen.toNat ∧
    (0 < t.ctl.res0.toNat → 1 ≤ t.ctl.res1.toNat) ∧ t.ctl.res1.toNat ≤ s.a0 ∧
    (∀ i, i < t.ctl.res0.toNat → (Memory.read? s.ibuf (s.a0 + i)).isSome = true ∧
      Memory.read? s.ibuf (s.a0 - t.ctl.res1.toNat + i) = Memory.read? s.ibuf (s.a0 + i)) ∧
    (t.ctl.res0.toNat = 3 → t.ctl.res1.toNat ≤ 4096)

/-- R173, R168, R169: MF_DELETE always completes on a well-formed tree, takes exactly that slot out of it and clears its links,
keeps MF_BEST; it does nothing to a slot outside the tree; a slot with at most one child is replaced by that child. -/
def Obligations.DeleteTakesSlotOut : Prop :=
  ∀ (s : State) (x : Nat), x = s.a0 % 65536 →
    (s.mf.par x = 0x1FFFF → exec .mfDelete s = .next (s.complete 0 0 0)) ∧
    (TreeInv s.mf →
      ∃ t, OnlyFinder s t ∧ exec .mfDelete s = .next (t.complete 0 0 0) ∧ t.mf.best = s.mf.best ∧
        t.mf.par x = 0x1FFFF ∧ t.mf.sm x = 0x1FFFF ∧ t.mf.la x = 0x1FFFF ∧
        (∀ i, i ≠ x → t.mf.inTree i = s.mf.inTree i) ∧
        (∀ c, s.mf.par x ≠ 0x1FFFF →
          ((s.mf.la x = 0x1FFFF ∧ c = s.mf.sm x) ∨ (s.mf.la x ≠ 0x1FFFF ∧ s.mf.sm x = 0x1FFFF ∧ c = s.mf.la x)) →
          ∀ i, i ≠ x →
            t.mf.par i = (if c ≠ 0x1FFFF ∧ i = c.toNat then s.mf.par x else s.mf.par i) ∧
            t.mf.la i = (if i = (s.mf.par x).toNat ∧ s.mf.la i = BitVec.ofNat 17 x then c else s.mf.la i) ∧
            t.mf.sm i = (if i = (s.mf.par x).toNat ∧ s.mf.la i ≠ BitVec.ofNat 17 x then c else s.mf.sm i)))

/-! ## The window and the pipelines (44_pipelines.md) -/

/-- R196, R198, R193, R242: WIN_PUT and WIN_READ, on every operand; reading a slot nothing has written faults. -/
def Obligations.WindowPutAndRead : Prop :=
  ∀ s : State, s.params.ok →
    (255 < s.a0 → exec .winPut s = .next (s.fail (.illegal .operandRange))) ∧
    (s.a0 ≤ 255 → s.params.obufSize ≤ s.wr.outLen.toNat → exec .winPut s = .next (s.fail .outputFull)) ∧
    (s.a0 ≤ 255 → s.wr.outLen.toNat < s.params.obufSize →
      ∃ t, exec .winPut s = .next (t.complete 0 0 0) ∧ Pushed s t 1 ∧
        Memory.read? t.obuf s.wr.outLen.toNat = some (BitVec.ofNat 8 s.a0)) ∧
    (65535 < s.a0 → exec .winRead s = .next (s.fail (.illegal .operandRange))) ∧
    (∀ b, s.a0 ≤ 65535 → Memory.read? s.win.bytes s.a0 = some b →
      exec .winRead s = .next (s.complete (BitVec.ofNat 32 b.toNat) 0 0)) ∧
    (s.a0 ≤ 65535 → Memory.read? s.win.bytes s.a0 = none → exec .winRead s = .fault .unwrittenWindow)

/-- R197, R194: WIN_COPY, on every operand: its errors in their order, each changing nothing, and the bytes it appends. -/
def Obligations.WindowCopy : Prop :=
  ∀ s : State, s.params.ok → WindowOk s →
    (¬ (3 ≤ s.a0 ∧ s.a0 ≤ 258 ∧ 1 ≤ s.a1 ∧ s.a1 ≤ 65536) →
      exec .winCopy s = .next (s.fail (.illegal .operandRange))) ∧
    (3 ≤ s.a0 → s.a0 ≤ 258 → 1 ≤ s.a1 → s.a1 ≤ 65536 → s.win.fill.toNat < s.a1 →
      exec .winCopy s = .next (s.fail (.corrupt .distBeforeStart))) ∧
    (3 ≤ s.a0 → s.a0 ≤ 258 → 1 ≤ s.a1 → s.a1 ≤ s.win.fill.toNat →
      s.params.obufSize < s.wr.outLen.toNat + s.a0 → exec .winCopy s = .next (s.fail .outputFull)) ∧
    (3 ≤ s.a0 → s.a0 ≤ 258 → 1 ≤ s.a1 → s.a1 ≤ s.win.fill.toNat →
      s.wr.outLen.toNat + s.a0 ≤ s.params.obufSize →
      ∃ t, exec .winCopy s = .next (t.complete 0 0 0) ∧ Copied s t s.a0 s.a1)

/-- R186 to R188, R203, "Match validity" and "BREAK_EVEN bound": the events COMPRESS generates stand for exactly the input, and
every match among them is in range. -/
def Obligations.EventsReplayInput : Prop :=
  ∀ (s t : State), generateEvents s = .ok () t →
    ∃ out, replayEvents t.prog.evq [] = some out ∧ out.length = s.ctl.inLen.toNat ∧ Memory.Holds s.ibuf out ∧
      t.prog.evq.length ≤ s.ctl.inLen.toNat ∧
      ∀ l d, Event.copy l d ∈ t.prog.evq →
        3 ≤ l.toNat ∧ l.toNat ≤ 256 ∧ 1 ≤ d.toNat ∧ d.toNat ≤ 65535 ∧ (l.toNat = 3 → d.toNat ≤ 4096)

/-- R190, R203, R212: on every input that has been written, whatever else the state holds, COMPRESS ends, and only
code-length overflow or a full OBUF make it fail; when it succeeds, RES0 and RES1 count at most one event per byte, and
RES2 is OUT_LEN. -/
def Obligations.CompressFailsOnly : Prop :=
  ∀ s : State, s.params.ok → s.inputOk = true →
    (∀ i, i < s.ctl.inLen.toNat → (Memory.read? s.ibuf i).isSome = true) →
    ∃ t, exec .compress s = .next t ∧
      ((t.ctl.cause = 0 ∧ t.ctl.res0.toNat + t.ctl.res1.toNat ≤ s.ctl.inLen.toNat ∧
          t.ctl.res2.toNat = t.wr.outLen.toNat ∧ t.wr.wcnt = 0) ∨
        (t.ctl.cause = 4 ∧ t.ctl.detail = 3) ∨ t.ctl.cause = 5)

/-- R190: COMPRESS refuses an IN_LEN above IBUF_SIZE, and of the empty input it makes two tables and the end-of-stream code: 38
bits, 5 bytes. -/
def Obligations.CompressEmptyInput : Prop :=
  ∀ s : State,
    (s.params.ibufSize < s.ctl.inLen.toNat → exec .compress s = .next (s.fail (.illegal .operandRange)) ∧
      exec .expand s = .next (s.fail (.illegal .operandRange))) ∧
    (s.params.ok → s.ctl.inLen = 0 → 5 ≤ s.params.obufSize →
      ∃ t, exec .compress s = .next (t.complete 0 0 5) ∧ Memory.Holds t.obuf [0xF0, 0x1F, 0x70, 0x01, 0x1F] ∧
        t.wr = ⟨5, 0, 0, 38⟩ ∧ (∀ k, 5 ≤ k → Memory.read? t.obuf k = Memory.read? s.obuf k) ∧
        (∀ a sym, freqOf a sym t = if a = .ll ∧ sym = 256 then 1 else 0) ∧
        (∀ a sym, clOf a sym t = if a = .ll ∧ sym = 256 then 1 else 0) ∧
        t.mf = Finder.reset ∧ t.rd = s.rd ∧ t.win = s.win ∧ KeepsTries s t)

/-- R199 to R201, R80, R217: EXPAND of a well-formed stream (two tables of a usable code each, events all coded, the end of
stream) completes with the output the events stand for, the tables of the stream, and the cursor just after the
end-of-stream code. A stream that goes wrong ends it with its error: in a table, in the codes of a table, in reading an
event, or in its output; the table entries, the bits read and the output before stay. -/
def Obligations.ExpandReplaysStream : Prop :=
  ∀ (s : State) (es : Alphabet → List TableEntry), s.params.ok → (∀ a, ∀ e ∈ es a, entryOk a e = true) →
    (∀ a before bits e n atEnd,
      ((a = .ll ∧ before = []) ∨
        (a = .ds ∧ before = entriesBits .ll (es .ll) ∧ (entriesLens (es .ll)).length = Alphabet.ll.size)) →
      (entriesLens (es a)).length < a.size → BadEntry a (entriesLens (es a)).length bits e n atEnd →
      (resetReader s).InputHas (before ++ entriesBits a (es a) ++ bits) →
      (atEnd = true → (resetReader s).avail = (before ++ entriesBits a (es a) ++ bits).length) →
      ∃ t, exec .expand s = .next (t.fail e) ∧ t.wr = ⟨0, 0, 0, 0⟩ ∧
        (∀ k, Memory.read? t.obuf k = Memory.read? s.obuf k) ∧
        Consumed (resetReader s) t ((before ++ entriesBits a (es a)).length + n) ∧
        (a = .ds → codeLens .ll t = entriesLens (es .ll)) ∧
        ∀ sym, clOf a sym t =
          if sym < (entriesLens (es a)).length then (entriesLens (es a)).getD sym 0 else clOf a sym s) ∧
    ((∀ a, (entriesLens (es a)).length = a.size) → (∃ a, canon (entriesLens (es a)) = none) →
      (resetReader s).InputHas (entriesBits .ll (es .ll) ++ entriesBits .ds (es .ds)) →
      ∃ t, exec .expand s = .next (t.fail (.corrupt .oversubscribed)) ∧ t.wr = ⟨0, 0, 0, 0⟩ ∧
        (∀ k, Memory.read? t.obuf k = Memory.read? s.obuf k) ∧
        Consumed (resetReader s) t (entriesBits .ll (es .ll) ++ entriesBits .ds (es .ds)).length ∧
        ∀ a, codeLens a t = entriesLens (es a)) ∧
    ∀ (codes : Alphabet → List Nat) (evs : List StreamEvent) (out : List Byte) (code : Alphabet → Nat → Nat × Nat)
      (bits : List Bool),
      (∀ a, (entriesLens (es a)).length = a.size ∧ canon (entriesLens (es a)) = some (codes a)) →
      code = (fun a sym => ((entriesLens (es a)).getD sym 0, (codes a).getD sym 0)) →
      (∀ e ∈ evs, wellFormed e.toInstr = true ∧ eventCoded code e) →
      bits = entriesBits .ll (es .ll) ++ entriesBits .ds (es .ds) ++ fieldsToBits code (evs.flatMap StreamEvent.fields) →
      replay evs [] = some out → out.length ≤ s.params.obufSize →
      (eventCoded code StreamEvent.eos → (resetReader s).InputHas (bits ++ fieldsToBits code StreamEvent.eos.fields) →
        ∃ t, exec .expand s = .next (t.complete (BitVec.ofNat 32 (streamLits evs))
            (BitVec.ofNat 32 (evs.length - streamLits evs)) (BitVec.ofNat 32 out.length)) ∧
          Expanded s t es out (bits ++ fieldsToBits code StreamEvent.eos.fields).length) ∧
      (∀ bad e n atEnd, BadEvent code bad e n atEnd → (resetReader s).InputHas (bits ++ bad) →
        (atEnd = true → (resetReader s).avail = (bits ++ bad).length) →
        ∃ t, exec .expand s = .next (t.fail e) ∧ Expanded s t es out (bits.length + n)) ∧
      (∀ ev e, wellFormed ev.toInstr = true → eventCoded code ev → BadOutput ev out s.params.obufSize e →
        (resetReader s).InputHas (bits ++ fieldsToBits code ev.fields) →
        ∃ t, exec .expand s = .next (t.fail e) ∧ Expanded s t es out (bits ++ fieldsToBits code ev.fields).length)

/-- R203, "Round trip": what COMPRESS made of an input, EXPAND makes into that input again. -/
def Obligations.CompressExpandRoundTrip : Prop :=
  ∀ (s t u : State), s.params.ok → u.params.ok → exec .compress s = .next t → t.ctl.cause = 0 →
    u.ctl.inLen = t.ctl.res2 → u.ctl.inLen.toNat ≤ u.params.ibufSize →
    (∀ i, i < u.ctl.inLen.toNat → Memory.read? u.ibuf i = Memory.read? t.obuf i) →
    s.ctl.inLen.toNat ≤ u.params.obufSize →
    ∃ v, exec .expand u = .next v ∧ v.ctl.cause = 0 ∧ v.wr.outLen.toNat = s.ctl.inLen.toNat ∧
      v.ctl.res2 = s.ctl.inLen ∧
      ∀ i, i < s.ctl.inLen.toNat → Memory.read? v.obuf i = Memory.read? s.ibuf i

/-! ## Stream elements (30_encoding.md R69 to R75) -/

/-- R70, R71, R144: the code-length table elements at the table they belong to: one symbol gets its length, or a run of symbols
gets none; a run past the last symbol is TABLE_OVERRUN. That an element is a step of its own is the model's choice (log
entry 10). -/
def Obligations.TableElementsInPlace : Prop :=
  ∀ (s : State) (a : Alphabet) (i : Nat) (b0 : Word), s.prog.pos = .table a i b0 → i < a.size →
    (∀ (instr : Instr) (len : Nat),
      ((∃ l, instr = .cleShort l ∧ len = l.toNat) ∨ (∃ x, instr = .cleExt1 x ∧ len = 15 + x.toNat) ∨
        (∃ y, instr = .cleExt2 y ∧ len = 18 + y.toNat)) →
      ∃ t, OnlyCl a s t ∧ exec instr s = .next (t.setPos (.table a (i + 1) b0)) ∧
        ∀ j, clOf a j t = if j = i then len else clOf a j s) ∧
    (∀ (instr : Instr) (r : Nat),
      ((∃ c, a = .ll ∧ instr = .cleZrunLl c ∧ r = c.toNat + 1) ∨
        (∃ c, a = .ds ∧ instr = .cleZrunD c ∧ r = c.toNat + 1)) →
      (a.size < i + r → exec instr s = .next (s.fail (.corrupt .tableOverrun))) ∧
      (i + r ≤ a.size →
        ∃ t, OnlyCl a s t ∧ exec instr s = .next (t.setPos (.table a (i + r) b0)) ∧
          ∀ j, clOf a j t = if i ≤ j ∧ j < i + r then 0 else clOf a j s))

/-- R73, R75, R199, R200: the symbol events at the symbol stream: a literal is appended, a match copied from `d` back, the end of
stream completes the command; with the errors of the appends. That an event is a step of its own is the model's choice (log
entry 10). -/
def Obligations.SymbolEventsInPlace : Prop :=
  ∀ (s : State) (nl nm : Nat), s.prog.pos = .events nl nm → s.params.ok → WindowOk s →
    (∀ b, s.params.obufSize ≤ s.wr.outLen.toNat → exec (.lit b) s = .next (s.fail .outputFull)) ∧
    (∀ b, s.wr.outLen.toNat < s.params.obufSize →
      ∃ t, exec (.lit b) s = .next (t.setPos (.events (nl + 1) nm)) ∧ Pushed s t 1 ∧
        Memory.read? t.obuf s.wr.outLen.toNat = some b) ∧
    exec .eos s = .next (s.complete (BitVec.ofNat 32 nl) (BitVec.ofNat 32 nm) (BitVec.ofNat 32 s.wr.outLen.toNat)) ∧
    (∀ (instr : Instr) (l d : Nat),
      ((∃ x, instr = .match3 x ∧ l = 3 ∧ d = x.toNat + 1) ∨
        (∃ k e j x, instr = .matchSlot k e j x ∧ wellFormed instr = true ∧
          l = loLen k.toNat + e.toNat ∧ d = loDist j.toNat + x.toNat)) →
      (s.win.fill.toNat < d → exec instr s = .next (s.fail (.corrupt .distBeforeStart))) ∧
      (d ≤ s.win.fill.toNat → s.params.obufSize < s.wr.outLen.toNat + l →
        exec instr s = .next (s.fail .outputFull)) ∧
      (d ≤ s.win.fill.toNat → s.wr.outLen.toNat + l ≤ s.params.obufSize →
        ∃ t, exec instr s = .next (t.setPos (.events nl (nm + 1))) ∧ Copied s t l d))

/-- R69: a stream element where the stream's layout has none of its kind is refused by name: the model's choice (log entry 10). -/
def Obligations.ElementsOutOfPlace : Prop :=
  ∀ (s : State) (i : Instr) (tableEntry : Bool),
    (if tableEntry then
      (∃ l, i = .cleShort l) ∨ (∃ x, i = .cleExt1 x) ∨ (∃ y, i = .cleExt2 y) ∨ (∃ c, i = .cleZrunLl c) ∨ ∃ c, i = .cleZrunD c
    else (∃ b, i = .lit b) ∨ i = Instr.eos ∨ (∃ d, i = .match3 d) ∨ ∃ k e j x, i = .matchSlot k e j x) →
    (s.prog.pos = .idle → exec i s = .refused .elementOutOfPlace) ∧
    (∀ nl nm, tableEntry = true → s.prog.pos = .events nl nm → exec i s = .refused .elementOutOfPlace) ∧
    (∀ a j b0, s.prog.pos = .table a j b0 →
      (tableEntry = false ∨ a.size ≤ j ∨ (a = .ll ∧ ∃ c, i = .cleZrunD c) ∨ (a = .ds ∧ ∃ c, i = .cleZrunLl c)) →
      exec i s = .refused .elementOutOfPlace)
end

