-- ==== Sys2Proof/Laws/Memory.lean ====
section
/-! SUPPORT. The laws of memories and of tree links: a read after a write, and the one form each keeps. -/

namespace Sys2Proof.Machine

/-! ## Memories -/

@[simp] theorem Memory.read?_nil (i : Nat) : Memory.read? [] i = none := rfl

/-- The byte written is the byte read. -/
@[simp] theorem Memory.read?_write_same (m : Memory) (i : Nat) (b : Byte) :
    Memory.read? (Memory.write m i b) i = some b := by
  induction m with
  | nil => simp [Memory.write, Memory.read?]
  | cons c rest ih =>
    obtain ⟨j, c⟩ := c
    unfold Memory.write
    split
    · simp [Memory.read?]
    · split
      · simp [Memory.read?]
      · rename_i h1 h2
        simp [Memory.read?, h1, h2, ih]

/-- Every other byte stays. -/
theorem Memory.read?_write_of_ne (m : Memory) {i k : Nat} (b : Byte) (h : k ≠ i) :
    Memory.read? (Memory.write m i b) k = Memory.read? m k := by
  induction m with
  | nil => simp [Memory.write, Memory.read?, h]
  | cons c rest ih =>
    obtain ⟨j, c⟩ := c
    unfold Memory.write
    split
    · subst_vars; simp [Memory.read?, h]
    · split
      · rename_i h1 h2
        have h3 : Memory.read? ((i, b) :: (j, c) :: rest) k =
          if k < i then none else Memory.read? ((j, c) :: rest) k := by simp [Memory.read?, h]
        rw [h3]
        split
        · simp only [Memory.read?]
          rw [if_neg (by omega), if_pos (by omega)]
        · rfl
      · simp only [Memory.read?, ih]

theorem Memory.read?_write (m : Memory) (i k : Nat) (b : Byte) :
    Memory.read? (Memory.write m i b) k = if k = i then some b else Memory.read? m k := by
  split
  · subst_vars; simp
  · rename_i h; exact Memory.read?_write_of_ne m b h

theorem Memory.risingFrom_mono {m : Memory} {k l : Nat} (hkl : k ≤ l) (h : Memory.risingFrom l m = true) :
    Memory.risingFrom k m = true := by
  cases m with
  | nil => rfl
  | cons c rest =>
    simp only [Memory.risingFrom, Bool.and_eq_true, decide_eq_true_eq] at h ⊢
    exact ⟨by omega, h.2⟩

theorem Memory.risingFrom_write {m : Memory} {k i : Nat} (b : Byte) (hk : k ≤ i) (h : Memory.risingFrom k m = true) :
    Memory.risingFrom k (Memory.write m i b) = true := by
  induction m generalizing k with
  | nil => simp [Memory.write, Memory.risingFrom, hk]
  | cons c rest ih =>
    obtain ⟨j, c⟩ := c
    simp only [Memory.risingFrom, Bool.and_eq_true, decide_eq_true_eq] at h
    unfold Memory.write
    split
    · subst_vars; simp [Memory.risingFrom, h]
    · split
      · simp only [Memory.risingFrom, Bool.and_eq_true, decide_eq_true_eq]
        exact ⟨hk, by omega, h.2⟩
      · simp only [Memory.risingFrom, Bool.and_eq_true, decide_eq_true_eq]
        exact ⟨h.1, ih (by omega) h.2⟩

/-- Writing keeps the one form of a memory. -/
theorem Memory.wf_write {m : Memory} (i : Nat) (b : Byte) (h : Memory.wf m = true) :
    Memory.wf (Memory.write m i b) = true := Memory.risingFrom_write b (Nat.zero_le _) h

@[simp] theorem Memory.wf_nil : Memory.wf [] = true := rfl

/-! ## Tree links -/

@[simp] theorem Links.get_nil (i : Nat) : Links.get [] i = nilLink := rfl

theorem Links.get_of_risingFrom {m : Links} {k i : Nat} (h : Links.risingFrom k m = true) (hi : i < k) :
    Links.get m i = nilLink := by
  cases m with
  | nil => rfl
  | cons c rest =>
    obtain ⟨j, v⟩ := c
    simp only [Links.risingFrom, Bool.and_eq_true, decide_eq_true_eq] at h
    simp only [Links.get]
    rw [if_neg (by omega), if_pos (by omega)]

theorem Links.risingFrom_mono {m : Links} {k l : Nat} (hkl : k ≤ l) (h : Links.risingFrom l m = true) :
    Links.risingFrom k m = true := by
  cases m with
  | nil => rfl
  | cons c rest =>
    simp only [Links.risingFrom, Bool.and_eq_true, decide_eq_true_eq] at h ⊢
    exact ⟨⟨by omega, h.1.2⟩, h.2⟩

theorem Links.risingFrom_cons {rest : Links} {k i : Nat} (v : BitVec 17) (hk : k ≤ i)
    (h : Links.risingFrom (i + 1) rest = true) : Links.risingFrom k (Links.cons i v rest) = true := by
  unfold Links.cons
  split
  · exact Links.risingFrom_mono (by omega) h
  · rename_i hv
    simp only [Links.risingFrom, Bool.and_eq_true, decide_eq_true_eq, bne_iff_ne]
    exact ⟨⟨hk, hv⟩, h⟩

theorem Links.get_cons {rest : Links} {i : Nat} (v : BitVec 17) (h : Links.risingFrom (i + 1) rest = true) (k : Nat) :
    Links.get (Links.cons i v rest) k = if k = i then v else if k < i then nilLink else Links.get rest k := by
  unfold Links.cons
  split
  · subst_vars
    split
    · subst_vars; exact Links.get_of_risingFrom h (by omega)
    · split
      · exact Links.get_of_risingFrom h (by omega)
      · rfl
  · rfl

theorem Links.risingFrom_set {m : Links} {k i : Nat} (v : BitVec 17) (hk : k ≤ i) (h : Links.risingFrom k m = true) :
    Links.risingFrom k (Links.set m i v) = true := by
  induction m generalizing k with
  | nil => exact Links.risingFrom_cons v hk rfl
  | cons c rest ih =>
    obtain ⟨j, u⟩ := c
    simp only [Links.risingFrom, Bool.and_eq_true, decide_eq_true_eq] at h
    unfold Links.set
    split
    · subst_vars; exact Links.risingFrom_cons v hk h.2
    · split
      · apply Links.risingFrom_cons v hk
        simp only [Links.risingFrom, Bool.and_eq_true, decide_eq_true_eq]
        exact ⟨⟨by omega, h.1.2⟩, h.2⟩
      · simp only [Links.risingFrom, Bool.and_eq_true, decide_eq_true_eq]
        exact ⟨h.1, ih (by omega) h.2⟩

/-- Writing keeps the one form of a list of links. -/
theorem Links.wf_set {m : Links} (i : Nat) (v : BitVec 17) (h : Links.wf m = true) : Links.wf (Links.set m i v) = true :=
  Links.risingFrom_set v (Nat.zero_le _) h

theorem Links.get_set_of_risingFrom {m : Links} {k : Nat} (h : Links.risingFrom k m = true) (i l : Nat) (v : BitVec 17) :
    Links.get (Links.set m i v) l = if l = i then v else Links.get m l := by
  induction m generalizing k with
  | nil =>
    simp only [Links.set]
    rw [Links.get_cons v rfl]
    split
    · rfl
    · simp
  | cons c rest ih =>
    obtain ⟨j, u⟩ := c
    simp only [Links.risingFrom, Bool.and_eq_true, decide_eq_true_eq] at h
    unfold Links.set
    split
    · subst_vars
      rw [Links.get_cons v h.2]
      by_cases hl : l = j <;> simp [Links.get, hl]
    · split
      · rw [Links.get_cons v (by
          simp only [Links.risingFrom, Bool.and_eq_true, decide_eq_true_eq]
          exact ⟨⟨by omega, h.1.2⟩, h.2⟩)]
        split
        · rfl
        · split
          · simp only [Links.get]; rw [if_neg (by omega), if_pos (by omega)]
          · rfl
      · simp only [Links.get, ih h.2]
        split
        · rw [if_neg (by omega)]
        · by_cases hl : l = i
          · subst hl; rw [if_pos rfl, if_neg (by omega), if_pos rfl]
          · simp [hl]

/-- The entry written is the entry read; every other entry stays. -/
theorem Links.get_set {m : Links} (h : Links.wf m = true) (i l : Nat) (v : BitVec 17) :
    Links.get (Links.set m i v) l = if l = i then v else Links.get m l :=
  Links.get_set_of_risingFrom h i l v

@[simp] theorem Links.wf_nil : Links.wf [] = true := rfl

/-! ## Tables -/

theorem tableGet_eq {α : Type} {n : Nat} (v : Vector α n) (i : Nat) (d : α) : tableGet v i d = v[i]?.getD d := by
  simp [tableGet]

/-- The entry written is the entry read; every other entry stays. -/
theorem tableGet_tableSet {α : Type} {n : Nat} (v : Vector α n) (i k : Nat) (x d : α) :
    tableGet (tableSet v i x) k d = if k = i ∧ i < n then x else tableGet v k d := by
  simp only [tableGet_eq, tableSet]
  by_cases hk : k = i
  · subst hk
    by_cases hn : k < n
    · simp [hn]
    · simp [hn]
  · simp [hk, Vector.getElem?_setIfInBounds_ne (Ne.symm hk)]

theorem tableGet_of_le {α : Type} {n : Nat} (v : Vector α n) {i : Nat} (h : n ≤ i) (d : α) : tableGet v i d = d := by
  rw [tableGet_eq]; simp [h]

@[simp] theorem tableGet_replicate {α : Type} (n i : Nat) (d : α) : tableGet (Vector.replicate n d) i d = d := by
  rw [tableGet_eq]
  by_cases h : i < n <;> simp [h]

theorem tableGet_tableOf {α : Type} {n : Nat} (d : α) (l : List α) (hl : l.length = n) (i : Nat) :
    tableGet (tableOf n d l) i d = l.getD i d := by
  unfold tableGet tableOf Vector.toList
  have h1 : l.take n = l := by rw [← hl]; simp
  have h2 : n - l.length = 0 := by omega
  simp [h1, h2]

end Sys2Proof.Machine
end

