-- ==== Sys2Proof/Laws/State.lean ====
section
/-! SUPPORT. One lemma per field per update of State: what each named update leaves and what it writes. -/

namespace Sys2Proof.Machine

section

variable (s : State)

/-! ### `State.start` -/

@[simp] theorem State.start_params (w : Word) : (s.start w).params = s.params := rfl
@[simp] theorem State.start_rd (w : Word) : (s.start w).rd = s.rd := rfl
@[simp] theorem State.start_wr (w : Word) : (s.start w).wr = s.wr := rfl
@[simp] theorem State.start_win (w : Word) : (s.start w).win = s.win := rfl
@[simp] theorem State.start_ll (w : Word) : (s.start w).ll = s.ll := rfl
@[simp] theorem State.start_ds (w : Word) : (s.start w).ds = s.ds := rfl
@[simp] theorem State.start_mf (w : Word) : (s.start w).mf = s.mf := rfl
@[simp] theorem State.start_ibuf (w : Word) : (s.start w).ibuf = s.ibuf := rfl
@[simp] theorem State.start_obuf (w : Word) : (s.start w).obuf = s.obuf := rfl
@[simp] theorem State.start_rstAsserted (w : Word) : (s.start w).rstAsserted = s.rstAsserted := rfl
@[simp] theorem State.start_host (w : Word) : (s.start w).host = s.host := rfl
@[simp] theorem State.start_cmd (w : Word) : (s.start w).ctl.cmd = w := rfl
@[simp] theorem State.start_busy (w : Word) : (s.start w).ctl.busy = true := rfl
@[simp] theorem State.start_done (w : Word) : (s.start w).ctl.done = false := rfl
@[simp] theorem State.start_cause (w : Word) : (s.start w).ctl.cause = 0 := rfl
@[simp] theorem State.start_detail (w : Word) : (s.start w).ctl.detail = 0 := rfl
@[simp] theorem State.start_ie (w : Word) : (s.start w).ctl.ie = s.ctl.ie := rfl
@[simp] theorem State.start_wovr (w : Word) : (s.start w).ctl.wovr = s.ctl.wovr := rfl
@[simp] theorem State.start_arg0 (w : Word) : (s.start w).ctl.arg0 = s.ctl.arg0 := rfl
@[simp] theorem State.start_arg1 (w : Word) : (s.start w).ctl.arg1 = s.ctl.arg1 := rfl
@[simp] theorem State.start_arg2 (w : Word) : (s.start w).ctl.arg2 = s.ctl.arg2 := rfl
@[simp] theorem State.start_res0 (w : Word) : (s.start w).ctl.res0 = s.ctl.res0 := rfl
@[simp] theorem State.start_res1 (w : Word) : (s.start w).ctl.res1 = s.ctl.res1 := rfl
@[simp] theorem State.start_res2 (w : Word) : (s.start w).ctl.res2 = s.ctl.res2 := rfl
@[simp] theorem State.start_inLen (w : Word) : (s.start w).ctl.inLen = s.ctl.inLen := rfl
@[simp] theorem State.start_prog (w : Word) : (s.start w).prog = Progress.none := rfl

/-! ### `State.complete` -/

@[simp] theorem State.complete_params (r0 r1 r2 : Word) : (s.complete r0 r1 r2).params = s.params := rfl
@[simp] theorem State.complete_rd (r0 r1 r2 : Word) : (s.complete r0 r1 r2).rd = s.rd := rfl
@[simp] theorem State.complete_wr (r0 r1 r2 : Word) : (s.complete r0 r1 r2).wr = s.wr := rfl
@[simp] theorem State.complete_win (r0 r1 r2 : Word) : (s.complete r0 r1 r2).win = s.win := rfl
@[simp] theorem State.complete_ll (r0 r1 r2 : Word) : (s.complete r0 r1 r2).ll = s.ll := rfl
@[simp] theorem State.complete_ds (r0 r1 r2 : Word) : (s.complete r0 r1 r2).ds = s.ds := rfl
@[simp] theorem State.complete_mf (r0 r1 r2 : Word) : (s.complete r0 r1 r2).mf = s.mf := rfl
@[simp] theorem State.complete_ibuf (r0 r1 r2 : Word) : (s.complete r0 r1 r2).ibuf = s.ibuf := rfl
@[simp] theorem State.complete_obuf (r0 r1 r2 : Word) : (s.complete r0 r1 r2).obuf = s.obuf := rfl
@[simp] theorem State.complete_rstAsserted (r0 r1 r2 : Word) : (s.complete r0 r1 r2).rstAsserted = s.rstAsserted := rfl
@[simp] theorem State.complete_host (r0 r1 r2 : Word) : (s.complete r0 r1 r2).host = s.host := rfl
@[simp] theorem State.complete_cmd (r0 r1 r2 : Word) : (s.complete r0 r1 r2).ctl.cmd = s.ctl.cmd := rfl
@[simp] theorem State.complete_busy (r0 r1 r2 : Word) : (s.complete r0 r1 r2).ctl.busy = false := rfl
@[simp] theorem State.complete_done (r0 r1 r2 : Word) : (s.complete r0 r1 r2).ctl.done = true := rfl
@[simp] theorem State.complete_cause (r0 r1 r2 : Word) : (s.complete r0 r1 r2).ctl.cause = 0 := rfl
@[simp] theorem State.complete_detail (r0 r1 r2 : Word) : (s.complete r0 r1 r2).ctl.detail = 0 := rfl
@[simp] theorem State.complete_ie (r0 r1 r2 : Word) : (s.complete r0 r1 r2).ctl.ie = s.ctl.ie := rfl
@[simp] theorem State.complete_wovr (r0 r1 r2 : Word) : (s.complete r0 r1 r2).ctl.wovr = s.ctl.wovr := rfl
@[simp] theorem State.complete_arg0 (r0 r1 r2 : Word) : (s.complete r0 r1 r2).ctl.arg0 = s.ctl.arg0 := rfl
@[simp] theorem State.complete_arg1 (r0 r1 r2 : Word) : (s.complete r0 r1 r2).ctl.arg1 = s.ctl.arg1 := rfl
@[simp] theorem State.complete_arg2 (r0 r1 r2 : Word) : (s.complete r0 r1 r2).ctl.arg2 = s.ctl.arg2 := rfl
@[simp] theorem State.complete_res0 (r0 r1 r2 : Word) : (s.complete r0 r1 r2).ctl.res0 = r0 := rfl
@[simp] theorem State.complete_res1 (r0 r1 r2 : Word) : (s.complete r0 r1 r2).ctl.res1 = r1 := rfl
@[simp] theorem State.complete_res2 (r0 r1 r2 : Word) : (s.complete r0 r1 r2).ctl.res2 = r2 := rfl
@[simp] theorem State.complete_inLen (r0 r1 r2 : Word) : (s.complete r0 r1 r2).ctl.inLen = s.ctl.inLen := rfl
@[simp] theorem State.complete_prog (r0 r1 r2 : Word) : (s.complete r0 r1 r2).prog = Progress.none := rfl

/-! ### `State.fail` -/

@[simp] theorem State.fail_params (e : Err) : (s.fail e).params = s.params := rfl
@[simp] theorem State.fail_rd (e : Err) : (s.fail e).rd = s.rd := rfl
@[simp] theorem State.fail_wr (e : Err) : (s.fail e).wr = s.wr := rfl
@[simp] theorem State.fail_win (e : Err) : (s.fail e).win = s.win := rfl
@[simp] theorem State.fail_ll (e : Err) : (s.fail e).ll = s.ll := rfl
@[simp] theorem State.fail_ds (e : Err) : (s.fail e).ds = s.ds := rfl
@[simp] theorem State.fail_mf (e : Err) : (s.fail e).mf = s.mf := rfl
@[simp] theorem State.fail_ibuf (e : Err) : (s.fail e).ibuf = s.ibuf := rfl
@[simp] theorem State.fail_obuf (e : Err) : (s.fail e).obuf = s.obuf := rfl
@[simp] theorem State.fail_rstAsserted (e : Err) : (s.fail e).rstAsserted = s.rstAsserted := rfl
@[simp] theorem State.fail_host (e : Err) : (s.fail e).host = s.host := rfl
@[simp] theorem State.fail_cmd (e : Err) : (s.fail e).ctl.cmd = s.ctl.cmd := rfl
@[simp] theorem State.fail_busy (e : Err) : (s.fail e).ctl.busy = false := rfl
@[simp] theorem State.fail_done (e : Err) : (s.fail e).ctl.done = true := rfl
@[simp] theorem State.fail_cause (e : Err) : (s.fail e).ctl.cause = e.cause := rfl
@[simp] theorem State.fail_detail (e : Err) : (s.fail e).ctl.detail = e.detail := rfl
@[simp] theorem State.fail_ie (e : Err) : (s.fail e).ctl.ie = s.ctl.ie := rfl
@[simp] theorem State.fail_wovr (e : Err) : (s.fail e).ctl.wovr = s.ctl.wovr := rfl
@[simp] theorem State.fail_arg0 (e : Err) : (s.fail e).ctl.arg0 = s.ctl.arg0 := rfl
@[simp] theorem State.fail_arg1 (e : Err) : (s.fail e).ctl.arg1 = s.ctl.arg1 := rfl
@[simp] theorem State.fail_arg2 (e : Err) : (s.fail e).ctl.arg2 = s.ctl.arg2 := rfl
@[simp] theorem State.fail_res0 (e : Err) : (s.fail e).ctl.res0 = s.ctl.res0 := rfl
@[simp] theorem State.fail_res1 (e : Err) : (s.fail e).ctl.res1 = s.ctl.res1 := rfl
@[simp] theorem State.fail_res2 (e : Err) : (s.fail e).ctl.res2 = s.ctl.res2 := rfl
@[simp] theorem State.fail_inLen (e : Err) : (s.fail e).ctl.inLen = s.ctl.inLen := rfl
@[simp] theorem State.fail_prog (e : Err) : (s.fail e).prog = Progress.none := rfl

/-! ### `State.ackStatus` -/

@[simp] theorem State.ackStatus_params (v : Word) : (s.ackStatus v).params = s.params := rfl
@[simp] theorem State.ackStatus_rd (v : Word) : (s.ackStatus v).rd = s.rd := rfl
@[simp] theorem State.ackStatus_wr (v : Word) : (s.ackStatus v).wr = s.wr := rfl
@[simp] theorem State.ackStatus_win (v : Word) : (s.ackStatus v).win = s.win := rfl
@[simp] theorem State.ackStatus_ll (v : Word) : (s.ackStatus v).ll = s.ll := rfl
@[simp] theorem State.ackStatus_ds (v : Word) : (s.ackStatus v).ds = s.ds := rfl
@[simp] theorem State.ackStatus_mf (v : Word) : (s.ackStatus v).mf = s.mf := rfl
@[simp] theorem State.ackStatus_ibuf (v : Word) : (s.ackStatus v).ibuf = s.ibuf := rfl
@[simp] theorem State.ackStatus_obuf (v : Word) : (s.ackStatus v).obuf = s.obuf := rfl
@[simp] theorem State.ackStatus_prog (v : Word) : (s.ackStatus v).prog = s.prog := rfl
@[simp] theorem State.ackStatus_rstAsserted (v : Word) : (s.ackStatus v).rstAsserted = s.rstAsserted := rfl
@[simp] theorem State.ackStatus_host (v : Word) : (s.ackStatus v).host = s.host := rfl
@[simp] theorem State.ackStatus_done (v : Word) : (s.ackStatus v).ctl.done = (s.ctl.done && !v.getLsbD 1) := rfl
@[simp] theorem State.ackStatus_wovr (v : Word) : (s.ackStatus v).ctl.wovr = (s.ctl.wovr && !v.getLsbD 3) := rfl
@[simp] theorem State.ackStatus_busy (v : Word) : (s.ackStatus v).ctl.busy = s.ctl.busy := rfl
@[simp] theorem State.ackStatus_inLen (v : Word) : (s.ackStatus v).ctl.inLen = s.ctl.inLen := rfl

/-! ### `State.setPos` -/

@[simp] theorem State.setPos_params (p : StreamPos) : (s.setPos p).params = s.params := rfl
@[simp] theorem State.setPos_ctl (p : StreamPos) : (s.setPos p).ctl = s.ctl := rfl
@[simp] theorem State.setPos_rd (p : StreamPos) : (s.setPos p).rd = s.rd := rfl
@[simp] theorem State.setPos_wr (p : StreamPos) : (s.setPos p).wr = s.wr := rfl
@[simp] theorem State.setPos_win (p : StreamPos) : (s.setPos p).win = s.win := rfl
@[simp] theorem State.setPos_ll (p : StreamPos) : (s.setPos p).ll = s.ll := rfl
@[simp] theorem State.setPos_ds (p : StreamPos) : (s.setPos p).ds = s.ds := rfl
@[simp] theorem State.setPos_mf (p : StreamPos) : (s.setPos p).mf = s.mf := rfl
@[simp] theorem State.setPos_ibuf (p : StreamPos) : (s.setPos p).ibuf = s.ibuf := rfl
@[simp] theorem State.setPos_obuf (p : StreamPos) : (s.setPos p).obuf = s.obuf := rfl
@[simp] theorem State.setPos_rstAsserted (p : StreamPos) : (s.setPos p).rstAsserted = s.rstAsserted := rfl
@[simp] theorem State.setPos_host (p : StreamPos) : (s.setPos p).host = s.host := rfl
@[simp] theorem State.setPos_pos (p : StreamPos) : (s.setPos p).prog.pos = p := rfl
@[simp] theorem State.setPos_evq (p : StreamPos) : (s.setPos p).prog.evq = s.prog.evq := rfl
@[simp] theorem State.setPos_cand (p : StreamPos) : (s.setPos p).prog.cand = s.prog.cand := rfl

/-! ### `State.popAct` -/

@[simp] theorem State.popAct_params (rest : List HostAct) : (s.popAct rest).params = s.params := rfl
@[simp] theorem State.popAct_ctl (rest : List HostAct) : (s.popAct rest).ctl = s.ctl := rfl
@[simp] theorem State.popAct_rd (rest : List HostAct) : (s.popAct rest).rd = s.rd := rfl
@[simp] theorem State.popAct_wr (rest : List HostAct) : (s.popAct rest).wr = s.wr := rfl
@[simp] theorem State.popAct_win (rest : List HostAct) : (s.popAct rest).win = s.win := rfl
@[simp] theorem State.popAct_ll (rest : List HostAct) : (s.popAct rest).ll = s.ll := rfl
@[simp] theorem State.popAct_ds (rest : List HostAct) : (s.popAct rest).ds = s.ds := rfl
@[simp] theorem State.popAct_mf (rest : List HostAct) : (s.popAct rest).mf = s.mf := rfl
@[simp] theorem State.popAct_ibuf (rest : List HostAct) : (s.popAct rest).ibuf = s.ibuf := rfl
@[simp] theorem State.popAct_obuf (rest : List HostAct) : (s.popAct rest).obuf = s.obuf := rfl
@[simp] theorem State.popAct_prog (rest : List HostAct) : (s.popAct rest).prog = s.prog := rfl
@[simp] theorem State.popAct_rstAsserted (rest : List HostAct) : (s.popAct rest).rstAsserted = s.rstAsserted := rfl
@[simp] theorem State.popAct_todo (rest : List HostAct) : (s.popAct rest).host.todo = rest := rfl
@[simp] theorem State.popAct_rdata (rest : List HostAct) : (s.popAct rest).host.rdata = s.host.rdata := rfl
@[simp] theorem State.popAct_draws (rest : List HostAct) : (s.popAct rest).host.draws = s.host.draws := rfl

/-! ### `outAppend` -/

@[simp] theorem outAppend_params (b : Byte) : (outAppend b s).params = s.params := rfl
@[simp] theorem outAppend_ctl (b : Byte) : (outAppend b s).ctl = s.ctl := rfl
@[simp] theorem outAppend_rd (b : Byte) : (outAppend b s).rd = s.rd := rfl
@[simp] theorem outAppend_win (b : Byte) : (outAppend b s).win = s.win := rfl
@[simp] theorem outAppend_ll (b : Byte) : (outAppend b s).ll = s.ll := rfl
@[simp] theorem outAppend_ds (b : Byte) : (outAppend b s).ds = s.ds := rfl
@[simp] theorem outAppend_mf (b : Byte) : (outAppend b s).mf = s.mf := rfl
@[simp] theorem outAppend_ibuf (b : Byte) : (outAppend b s).ibuf = s.ibuf := rfl
@[simp] theorem outAppend_prog (b : Byte) : (outAppend b s).prog = s.prog := rfl
@[simp] theorem outAppend_rstAsserted (b : Byte) : (outAppend b s).rstAsserted = s.rstAsserted := rfl
@[simp] theorem outAppend_host (b : Byte) : (outAppend b s).host = s.host := rfl
@[simp] theorem outAppend_outLen (b : Byte) : (outAppend b s).wr.outLen = s.wr.outLen + 1 := rfl
@[simp] theorem outAppend_wacc (b : Byte) : (outAppend b s).wr.wacc = s.wr.wacc := rfl
@[simp] theorem outAppend_wcnt (b : Byte) : (outAppend b s).wr.wcnt = s.wr.wcnt := rfl
@[simp] theorem outAppend_bitsW (b : Byte) : (outAppend b s).wr.bitsW = s.wr.bitsW := rfl
@[simp] theorem outAppend_obuf (b : Byte) : (outAppend b s).obuf = Memory.write s.obuf s.wr.outLen.toNat b := rfl

/-! ### `resetWriter` -/

@[simp] theorem resetWriter_params : (resetWriter s).params = s.params := rfl
@[simp] theorem resetWriter_ctl : (resetWriter s).ctl = s.ctl := rfl
@[simp] theorem resetWriter_rd : (resetWriter s).rd = s.rd := rfl
@[simp] theorem resetWriter_win : (resetWriter s).win = s.win := rfl
@[simp] theorem resetWriter_ll : (resetWriter s).ll = s.ll := rfl
@[simp] theorem resetWriter_ds : (resetWriter s).ds = s.ds := rfl
@[simp] theorem resetWriter_mf : (resetWriter s).mf = s.mf := rfl
@[simp] theorem resetWriter_ibuf : (resetWriter s).ibuf = s.ibuf := rfl
@[simp] theorem resetWriter_obuf : (resetWriter s).obuf = s.obuf := rfl
@[simp] theorem resetWriter_prog : (resetWriter s).prog = s.prog := rfl
@[simp] theorem resetWriter_rstAsserted : (resetWriter s).rstAsserted = s.rstAsserted := rfl
@[simp] theorem resetWriter_host : (resetWriter s).host = s.host := rfl
@[simp] theorem resetWriter_wr : (resetWriter s).wr = ⟨0, 0, 0, 0⟩ := rfl

/-! ### `resetReader` -/

@[simp] theorem resetReader_params : (resetReader s).params = s.params := rfl
@[simp] theorem resetReader_ctl : (resetReader s).ctl = s.ctl := rfl
@[simp] theorem resetReader_wr : (resetReader s).wr = s.wr := rfl
@[simp] theorem resetReader_win : (resetReader s).win = s.win := rfl
@[simp] theorem resetReader_ll : (resetReader s).ll = s.ll := rfl
@[simp] theorem resetReader_ds : (resetReader s).ds = s.ds := rfl
@[simp] theorem resetReader_mf : (resetReader s).mf = s.mf := rfl
@[simp] theorem resetReader_ibuf : (resetReader s).ibuf = s.ibuf := rfl
@[simp] theorem resetReader_obuf : (resetReader s).obuf = s.obuf := rfl
@[simp] theorem resetReader_prog : (resetReader s).prog = s.prog := rfl
@[simp] theorem resetReader_rstAsserted : (resetReader s).rstAsserted = s.rstAsserted := rfl
@[simp] theorem resetReader_host : (resetReader s).host = s.host := rfl
@[simp] theorem resetReader_rd : (resetReader s).rd = ⟨0, 0, 0⟩ := rfl

/-! ### `resetWindow` -/

@[simp] theorem resetWindow_params : (resetWindow s).params = s.params := rfl
@[simp] theorem resetWindow_ctl : (resetWindow s).ctl = s.ctl := rfl
@[simp] theorem resetWindow_rd : (resetWindow s).rd = s.rd := rfl
@[simp] theorem resetWindow_wr : (resetWindow s).wr = s.wr := rfl
@[simp] theorem resetWindow_ll : (resetWindow s).ll = s.ll := rfl
@[simp] theorem resetWindow_ds : (resetWindow s).ds = s.ds := rfl
@[simp] theorem resetWindow_mf : (resetWindow s).mf = s.mf := rfl
@[simp] theorem resetWindow_ibuf : (resetWindow s).ibuf = s.ibuf := rfl
@[simp] theorem resetWindow_obuf : (resetWindow s).obuf = s.obuf := rfl
@[simp] theorem resetWindow_prog : (resetWindow s).prog = s.prog := rfl
@[simp] theorem resetWindow_rstAsserted : (resetWindow s).rstAsserted = s.rstAsserted := rfl
@[simp] theorem resetWindow_host : (resetWindow s).host = s.host := rfl
@[simp] theorem resetWindow_win : (resetWindow s).win = ⟨0, 0, s.win.bytes⟩ := rfl

/-! ### `countWritten` -/

@[simp] theorem countWritten_params (n : Nat) : (countWritten n s).params = s.params := rfl
@[simp] theorem countWritten_ctl (n : Nat) : (countWritten n s).ctl = s.ctl := rfl
@[simp] theorem countWritten_rd (n : Nat) : (countWritten n s).rd = s.rd := rfl
@[simp] theorem countWritten_win (n : Nat) : (countWritten n s).win = s.win := rfl
@[simp] theorem countWritten_ll (n : Nat) : (countWritten n s).ll = s.ll := rfl
@[simp] theorem countWritten_ds (n : Nat) : (countWritten n s).ds = s.ds := rfl
@[simp] theorem countWritten_mf (n : Nat) : (countWritten n s).mf = s.mf := rfl
@[simp] theorem countWritten_ibuf (n : Nat) : (countWritten n s).ibuf = s.ibuf := rfl
@[simp] theorem countWritten_obuf (n : Nat) : (countWritten n s).obuf = s.obuf := rfl
@[simp] theorem countWritten_prog (n : Nat) : (countWritten n s).prog = s.prog := rfl
@[simp] theorem countWritten_rstAsserted (n : Nat) : (countWritten n s).rstAsserted = s.rstAsserted := rfl
@[simp] theorem countWritten_host (n : Nat) : (countWritten n s).host = s.host := rfl
@[simp] theorem countWritten_outLen (n : Nat) : (countWritten n s).wr.outLen = s.wr.outLen := rfl
@[simp] theorem countWritten_wacc (n : Nat) : (countWritten n s).wr.wacc = s.wr.wacc := rfl
@[simp] theorem countWritten_wcnt (n : Nat) : (countWritten n s).wr.wcnt = s.wr.wcnt := rfl
@[simp] theorem countWritten_bitsW (n : Nat) : (countWritten n s).wr.bitsW = s.wr.bitsW + BitVec.ofNat 32 n := rfl

/-! ### `countRead` -/

@[simp] theorem countRead_params (n : Nat) : (countRead n s).params = s.params := rfl
@[simp] theorem countRead_ctl (n : Nat) : (countRead n s).ctl = s.ctl := rfl
@[simp] theorem countRead_wr (n : Nat) : (countRead n s).wr = s.wr := rfl
@[simp] theorem countRead_win (n : Nat) : (countRead n s).win = s.win := rfl
@[simp] theorem countRead_ll (n : Nat) : (countRead n s).ll = s.ll := rfl
@[simp] theorem countRead_ds (n : Nat) : (countRead n s).ds = s.ds := rfl
@[simp] theorem countRead_mf (n : Nat) : (countRead n s).mf = s.mf := rfl
@[simp] theorem countRead_ibuf (n : Nat) : (countRead n s).ibuf = s.ibuf := rfl
@[simp] theorem countRead_obuf (n : Nat) : (countRead n s).obuf = s.obuf := rfl
@[simp] theorem countRead_prog (n : Nat) : (countRead n s).prog = s.prog := rfl
@[simp] theorem countRead_rstAsserted (n : Nat) : (countRead n s).rstAsserted = s.rstAsserted := rfl
@[simp] theorem countRead_host (n : Nat) : (countRead n s).host = s.host := rfl
@[simp] theorem countRead_rpos (n : Nat) : (countRead n s).rd.rpos = s.rd.rpos := rfl
@[simp] theorem countRead_rbit (n : Nat) : (countRead n s).rd.rbit = s.rd.rbit := rfl
@[simp] theorem countRead_bitsR (n : Nat) : (countRead n s).rd.bitsR = s.rd.bitsR + BitVec.ofNat 32 n := rfl

/-! ### `setBest` -/

@[simp] theorem setBest_params (l d : Nat) : (setBest l d s).params = s.params := rfl
@[simp] theorem setBest_ctl (l d : Nat) : (setBest l d s).ctl = s.ctl := rfl
@[simp] theorem setBest_rd (l d : Nat) : (setBest l d s).rd = s.rd := rfl
@[simp] theorem setBest_wr (l d : Nat) : (setBest l d s).wr = s.wr := rfl
@[simp] theorem setBest_win (l d : Nat) : (setBest l d s).win = s.win := rfl
@[simp] theorem setBest_ll (l d : Nat) : (setBest l d s).ll = s.ll := rfl
@[simp] theorem setBest_ds (l d : Nat) : (setBest l d s).ds = s.ds := rfl
@[simp] theorem setBest_ibuf (l d : Nat) : (setBest l d s).ibuf = s.ibuf := rfl
@[simp] theorem setBest_obuf (l d : Nat) : (setBest l d s).obuf = s.obuf := rfl
@[simp] theorem setBest_prog (l d : Nat) : (setBest l d s).prog = s.prog := rfl
@[simp] theorem setBest_rstAsserted (l d : Nat) : (setBest l d s).rstAsserted = s.rstAsserted := rfl
@[simp] theorem setBest_host (l d : Nat) : (setBest l d s).host = s.host := rfl
@[simp] theorem setBest_best (l d : Nat) : (setBest l d s).mf.best = ⟨BitVec.ofNat 9 l, BitVec.ofNat 17 d⟩ := rfl
@[simp] theorem setBest_parent (l d : Nat) : (setBest l d s).mf.parent = s.mf.parent := rfl
@[simp] theorem setBest_smaller (l d : Nat) : (setBest l d s).mf.smaller = s.mf.smaller := rfl
@[simp] theorem setBest_larger (l d : Nat) : (setBest l d s).mf.larger = s.mf.larger := rfl

/-! ### `initFinder` -/

@[simp] theorem initFinder_params : (initFinder s).params = s.params := rfl
@[simp] theorem initFinder_ctl : (initFinder s).ctl = s.ctl := rfl
@[simp] theorem initFinder_rd : (initFinder s).rd = s.rd := rfl
@[simp] theorem initFinder_wr : (initFinder s).wr = s.wr := rfl
@[simp] theorem initFinder_win : (initFinder s).win = s.win := rfl
@[simp] theorem initFinder_ll : (initFinder s).ll = s.ll := rfl
@[simp] theorem initFinder_ds : (initFinder s).ds = s.ds := rfl
@[simp] theorem initFinder_ibuf : (initFinder s).ibuf = s.ibuf := rfl
@[simp] theorem initFinder_obuf : (initFinder s).obuf = s.obuf := rfl
@[simp] theorem initFinder_prog : (initFinder s).prog = s.prog := rfl
@[simp] theorem initFinder_rstAsserted : (initFinder s).rstAsserted = s.rstAsserted := rfl
@[simp] theorem initFinder_host : (initFinder s).host = s.host := rfl
@[simp] theorem initFinder_mf : (initFinder s).mf = Finder.reset := rfl

/-! ### `pushEvent` -/

@[simp] theorem pushEvent_params (e : Event) : (pushEvent e s).params = s.params := rfl
@[simp] theorem pushEvent_ctl (e : Event) : (pushEvent e s).ctl = s.ctl := rfl
@[simp] theorem pushEvent_rd (e : Event) : (pushEvent e s).rd = s.rd := rfl
@[simp] theorem pushEvent_wr (e : Event) : (pushEvent e s).wr = s.wr := rfl
@[simp] theorem pushEvent_win (e : Event) : (pushEvent e s).win = s.win := rfl
@[simp] theorem pushEvent_ll (e : Event) : (pushEvent e s).ll = s.ll := rfl
@[simp] theorem pushEvent_ds (e : Event) : (pushEvent e s).ds = s.ds := rfl
@[simp] theorem pushEvent_mf (e : Event) : (pushEvent e s).mf = s.mf := rfl
@[simp] theorem pushEvent_ibuf (e : Event) : (pushEvent e s).ibuf = s.ibuf := rfl
@[simp] theorem pushEvent_obuf (e : Event) : (pushEvent e s).obuf = s.obuf := rfl
@[simp] theorem pushEvent_rstAsserted (e : Event) : (pushEvent e s).rstAsserted = s.rstAsserted := rfl
@[simp] theorem pushEvent_host (e : Event) : (pushEvent e s).host = s.host := rfl
@[simp] theorem pushEvent_evq (e : Event) : (pushEvent e s).prog.evq = s.prog.evq ++ [e] := rfl
@[simp] theorem pushEvent_cand (e : Event) : (pushEvent e s).prog.cand = s.prog.cand := rfl
@[simp] theorem pushEvent_pos (e : Event) : (pushEvent e s).prog.pos = s.prog.pos := rfl

/-! ### `takeCandidate` -/

@[simp] theorem takeCandidate_params : (takeCandidate s).params = s.params := rfl
@[simp] theorem takeCandidate_ctl : (takeCandidate s).ctl = s.ctl := rfl
@[simp] theorem takeCandidate_rd : (takeCandidate s).rd = s.rd := rfl
@[simp] theorem takeCandidate_wr : (takeCandidate s).wr = s.wr := rfl
@[simp] theorem takeCandidate_win : (takeCandidate s).win = s.win := rfl
@[simp] theorem takeCandidate_ll : (takeCandidate s).ll = s.ll := rfl
@[simp] theorem takeCandidate_ds : (takeCandidate s).ds = s.ds := rfl
@[simp] theorem takeCandidate_mf : (takeCandidate s).mf = s.mf := rfl
@[simp] theorem takeCandidate_ibuf : (takeCandidate s).ibuf = s.ibuf := rfl
@[simp] theorem takeCandidate_obuf : (takeCandidate s).obuf = s.obuf := rfl
@[simp] theorem takeCandidate_rstAsserted : (takeCandidate s).rstAsserted = s.rstAsserted := rfl
@[simp] theorem takeCandidate_host : (takeCandidate s).host = s.host := rfl
@[simp] theorem takeCandidate_cand : (takeCandidate s).prog.cand = s.mf.best := rfl
@[simp] theorem takeCandidate_evq : (takeCandidate s).prog.evq = s.prog.evq := rfl
@[simp] theorem takeCandidate_pos : (takeCandidate s).prog.pos = s.prog.pos := rfl

/-! ### `lostWrite` -/

@[simp] theorem lostWrite_params : (lostWrite s).params = s.params := rfl
@[simp] theorem lostWrite_rd : (lostWrite s).rd = s.rd := rfl
@[simp] theorem lostWrite_wr : (lostWrite s).wr = s.wr := rfl
@[simp] theorem lostWrite_win : (lostWrite s).win = s.win := rfl
@[simp] theorem lostWrite_ll : (lostWrite s).ll = s.ll := rfl
@[simp] theorem lostWrite_ds : (lostWrite s).ds = s.ds := rfl
@[simp] theorem lostWrite_mf : (lostWrite s).mf = s.mf := rfl
@[simp] theorem lostWrite_ibuf : (lostWrite s).ibuf = s.ibuf := rfl
@[simp] theorem lostWrite_obuf : (lostWrite s).obuf = s.obuf := rfl
@[simp] theorem lostWrite_prog : (lostWrite s).prog = s.prog := rfl
@[simp] theorem lostWrite_rstAsserted : (lostWrite s).rstAsserted = s.rstAsserted := rfl
@[simp] theorem lostWrite_host : (lostWrite s).host = s.host := rfl
@[simp] theorem lostWrite_ctl : (lostWrite s).ctl = { s.ctl with wovr := true } := rfl

/-! ### `readReturns` -/

@[simp] theorem readReturns_params (v : Word) : (readReturns v s).params = s.params := rfl
@[simp] theorem readReturns_ctl (v : Word) : (readReturns v s).ctl = s.ctl := rfl
@[simp] theorem readReturns_rd (v : Word) : (readReturns v s).rd = s.rd := rfl
@[simp] theorem readReturns_wr (v : Word) : (readReturns v s).wr = s.wr := rfl
@[simp] theorem readReturns_win (v : Word) : (readReturns v s).win = s.win := rfl
@[simp] theorem readReturns_ll (v : Word) : (readReturns v s).ll = s.ll := rfl
@[simp] theorem readReturns_ds (v : Word) : (readReturns v s).ds = s.ds := rfl
@[simp] theorem readReturns_mf (v : Word) : (readReturns v s).mf = s.mf := rfl
@[simp] theorem readReturns_ibuf (v : Word) : (readReturns v s).ibuf = s.ibuf := rfl
@[simp] theorem readReturns_obuf (v : Word) : (readReturns v s).obuf = s.obuf := rfl
@[simp] theorem readReturns_prog (v : Word) : (readReturns v s).prog = s.prog := rfl
@[simp] theorem readReturns_rstAsserted (v : Word) : (readReturns v s).rstAsserted = s.rstAsserted := rfl
@[simp] theorem readReturns_todo (v : Word) : (readReturns v s).host.todo = s.host.todo := rfl
@[simp] theorem readReturns_rdata (v : Word) : (readReturns v s).host.rdata = v := rfl
@[simp] theorem readReturns_draws (v : Word) : (readReturns v s).host.draws = s.host.draws := rfl

/-! ### `readDraws` -/

@[simp] theorem readDraws_params (w : Width) : (readDraws w s).params = s.params := rfl
@[simp] theorem readDraws_ctl (w : Width) : (readDraws w s).ctl = s.ctl := rfl
@[simp] theorem readDraws_rd (w : Width) : (readDraws w s).rd = s.rd := rfl
@[simp] theorem readDraws_wr (w : Width) : (readDraws w s).wr = s.wr := rfl
@[simp] theorem readDraws_win (w : Width) : (readDraws w s).win = s.win := rfl
@[simp] theorem readDraws_ll (w : Width) : (readDraws w s).ll = s.ll := rfl
@[simp] theorem readDraws_ds (w : Width) : (readDraws w s).ds = s.ds := rfl
@[simp] theorem readDraws_mf (w : Width) : (readDraws w s).mf = s.mf := rfl
@[simp] theorem readDraws_ibuf (w : Width) : (readDraws w s).ibuf = s.ibuf := rfl
@[simp] theorem readDraws_obuf (w : Width) : (readDraws w s).obuf = s.obuf := rfl
@[simp] theorem readDraws_prog (w : Width) : (readDraws w s).prog = s.prog := rfl
@[simp] theorem readDraws_rstAsserted (w : Width) : (readDraws w s).rstAsserted = s.rstAsserted := rfl
@[simp] theorem readDraws_todo (w : Width) : (readDraws w s).host.todo = s.host.todo := rfl
@[simp] theorem readDraws_draws (w : Width) : (readDraws w s).host.draws = s.host.draws + 1 := rfl

/-! ### `windowPush` -/

@[simp] theorem windowPush_params (b : Byte) : (windowPush b s).params = s.params := rfl
@[simp] theorem windowPush_ctl (b : Byte) : (windowPush b s).ctl = s.ctl := rfl
@[simp] theorem windowPush_rd (b : Byte) : (windowPush b s).rd = s.rd := rfl
@[simp] theorem windowPush_ll (b : Byte) : (windowPush b s).ll = s.ll := rfl
@[simp] theorem windowPush_ds (b : Byte) : (windowPush b s).ds = s.ds := rfl
@[simp] theorem windowPush_mf (b : Byte) : (windowPush b s).mf = s.mf := rfl
@[simp] theorem windowPush_ibuf (b : Byte) : (windowPush b s).ibuf = s.ibuf := rfl
@[simp] theorem windowPush_prog (b : Byte) : (windowPush b s).prog = s.prog := rfl
@[simp] theorem windowPush_rstAsserted (b : Byte) : (windowPush b s).rstAsserted = s.rstAsserted := rfl
@[simp] theorem windowPush_host (b : Byte) : (windowPush b s).host = s.host := rfl
@[simp] theorem windowPush_bytes (b : Byte) : (windowPush b s).win.bytes = Memory.write s.win.bytes s.win.pos.toNat b := rfl
@[simp] theorem windowPush_pos (b : Byte) : (windowPush b s).win.pos = s.win.pos + 1 := rfl
@[simp] theorem windowPush_outLen (b : Byte) : (windowPush b s).wr.outLen = s.wr.outLen + 1 := rfl
@[simp] theorem windowPush_wacc (b : Byte) : (windowPush b s).wr.wacc = s.wr.wacc := rfl
@[simp] theorem windowPush_wcnt (b : Byte) : (windowPush b s).wr.wcnt = s.wr.wcnt := rfl
@[simp] theorem windowPush_bitsW (b : Byte) : (windowPush b s).wr.bitsW = s.wr.bitsW := rfl
@[simp] theorem windowPush_obuf (b : Byte) : (windowPush b s).obuf = Memory.write s.obuf s.wr.outLen.toNat b := rfl

/-! ### `State.setTab` and `State.tab` -/

@[simp] theorem State.setTab_params (a : Alphabet) (t : Tables a.size) : (s.setTab a t).params = s.params := by cases a <;> rfl
@[simp] theorem State.setTab_ctl (a : Alphabet) (t : Tables a.size) : (s.setTab a t).ctl = s.ctl := by cases a <;> rfl
@[simp] theorem State.setTab_rd (a : Alphabet) (t : Tables a.size) : (s.setTab a t).rd = s.rd := by cases a <;> rfl
@[simp] theorem State.setTab_wr (a : Alphabet) (t : Tables a.size) : (s.setTab a t).wr = s.wr := by cases a <;> rfl
@[simp] theorem State.setTab_win (a : Alphabet) (t : Tables a.size) : (s.setTab a t).win = s.win := by cases a <;> rfl
@[simp] theorem State.setTab_mf (a : Alphabet) (t : Tables a.size) : (s.setTab a t).mf = s.mf := by cases a <;> rfl
@[simp] theorem State.setTab_ibuf (a : Alphabet) (t : Tables a.size) : (s.setTab a t).ibuf = s.ibuf := by cases a <;> rfl
@[simp] theorem State.setTab_obuf (a : Alphabet) (t : Tables a.size) : (s.setTab a t).obuf = s.obuf := by cases a <;> rfl
@[simp] theorem State.setTab_prog (a : Alphabet) (t : Tables a.size) : (s.setTab a t).prog = s.prog := by cases a <;> rfl
@[simp] theorem State.setTab_rstAsserted (a : Alphabet) (t : Tables a.size) : (s.setTab a t).rstAsserted = s.rstAsserted := by cases a <;> rfl
@[simp] theorem State.setTab_host (a : Alphabet) (t : Tables a.size) : (s.setTab a t).host = s.host := by cases a <;> rfl

@[simp] theorem State.tab_setTab (a : Alphabet) (t : Tables a.size) : (s.setTab a t).tab a = t := by cases a <;> rfl

@[simp] theorem State.tab_ll : s.tab .ll = s.ll := rfl
@[simp] theorem State.tab_ds : s.tab .ds = s.ds := rfl
@[simp] theorem State.setTab_ll_ll (t : Tables 281) : (s.setTab .ll t).ll = t := rfl
@[simp] theorem State.setTab_ll_ds (t : Tables 281) : (s.setTab .ll t).ds = s.ds := rfl
@[simp] theorem State.setTab_ds_ll (t : Tables 32) : (s.setTab .ds t).ll = s.ll := rfl
@[simp] theorem State.setTab_ds_ds (t : Tables 32) : (s.setTab .ds t).ds = t := rfl

theorem State.tab_setTab_of_ne {a b : Alphabet} (h : a ≠ b) (t : Tables a.size) : (s.setTab a t).tab b = s.tab b := by
  cases a <;> cases b <;> first | rfl | exact absurd rfl h

@[simp] theorem State.setTab_setTab (a : Alphabet) (t u : Tables a.size) : (s.setTab a t).setTab a u = s.setTab a u := by
  cases a <;> rfl

@[simp] theorem State.setTab_tab (a : Alphabet) : s.setTab a (s.tab a) = s := by cases a <;> rfl

end

end Sys2Proof.Machine
end

