-- ==== Sys2Proof/Laws/Bus.lean ====
section
/-! SUPPORT. The host bus: the parameters of Config, which accesses reach what (R40, R44, R45), and the bytes of an access in
their order. -/

namespace Sys2Proof.Machine

/-! ## The parameters -/

theorem bufferSize_le (n : Nat) : n % 2 ^ 24 + 1 ≤ 2 ^ 24 := Nat.mod_lt n (Nat.two_pow_pos 24)

/-- R8: the machine's parameters meet their constraints, whatever the constants of Config are. -/
theorem configParams_ok : Config.params.ok := by
  have h1 : Config.params.ibufSize = Config.ibufDraw % 2 ^ 24 + 1 := rfl
  have h2 : Config.params.obufSize = Config.obufDraw % 2 ^ 24 + 1 := rfl
  have h3 : Config.params.base = Config.baseDraw * 2 ^ 26 := rfl
  unfold Params.ok
  rw [h1, h2, h3]
  exact ⟨Nat.le_add_left 1 _, bufferSize_le _, Nat.le_add_left 1 _, bufferSize_le _, Nat.mul_mod_left _ _⟩

/-! ## Targets -/

/-- R44: an aligned 32-bit access of the register window. -/
theorem targetOf_reg (p : Params) {off : Nat} (h1 : off < 0x10000) (h2 : off % 4 = 0) :
    targetOf p (p.base + off) .w32 = some (.reg off) := by
  simp [targetOf, targetAt, registerOk, h1, h2]

/-- R41, R45: an access inside IBUF. -/
theorem targetOf_ibuf (p : Params) {i : Nat} {w : Width} (h1 : i < 2 ^ 24) (h2 : bufferOk p.ibufSize i w = true) :
    targetOf p (p.base + 0x1000000 + i) w = some (.ibuf i) := by
  have e : p.base + 0x1000000 + i - p.base = 0x1000000 + i := by omega
  unfold targetOf targetAt
  rw [if_pos (by omega), e, if_neg (by omega), if_neg (by omega), if_pos (by omega),
    show 0x1000000 + i - 0x1000000 = i by omega, if_pos h2]

/-- R42, R45: an access inside OBUF. -/
theorem targetOf_obuf (p : Params) {i : Nat} {w : Width} (h1 : i < 2 ^ 24) (h2 : bufferOk p.obufSize i w = true) :
    targetOf p (p.base + 0x2000000 + i) w = some (.obuf i) := by
  have e : p.base + 0x2000000 + i - p.base = 0x2000000 + i := by omega
  unfold targetOf targetAt
  rw [if_pos (by omega), e, if_neg (by omega), if_neg (by omega), if_neg (by omega), if_pos (by omega),
    show 0x2000000 + i - 0x2000000 = i by omega, if_pos h2]

theorem bufferOk_iff (size i : Nat) (w : Width) :
    bufferOk size i w = true ↔ (w = .w8 ∧ i < size) ∨ (w = .w32 ∧ i % 4 = 0 ∧ i + 4 ≤ size) := by
  cases w <;> simp [bufferOk]

theorem registerOk_iff (off : Nat) (w : Width) : registerOk off w = true ↔ w = .w32 ∧ off % 4 = 0 := by
  cases w <;> simp [registerOk]

/-- R46: the accesses that have a target are those the address map admits. -/
theorem targetOf_isSome_iff {p : Params} (hp : p.ok) (addr : Nat) (w : Width) :
    (targetOf p addr w).isSome = true ↔ Admitted p addr w := by
  obtain ⟨-, hi, -, ho, -⟩ := hp
  unfold targetOf Admitted
  by_cases hb : p.base ≤ addr
  · rw [if_pos hb]
    generalize addr - p.base = off
    unfold targetAt
    simp only [hb, true_and]
    split
    · rename_i h1
      by_cases hr : registerOk off w = true
      · rw [if_pos hr]
        simp only [Option.isSome_some, true_iff]
        exact .inl ⟨h1, (registerOk_iff off w).1 hr⟩
      · rw [if_neg hr]
        simp only [Option.isSome_none, Bool.false_eq_true, false_iff]
        rintro (⟨-, h2⟩ | ⟨i, h2, -⟩ | ⟨i, h2, -⟩)
        · exact hr ((registerOk_iff off w).2 h2)
        · omega
        · omega
    · rename_i h1
      split
      · simp only [Option.isSome_none, Bool.false_eq_true, false_iff]
        rintro (⟨h2, -⟩ | ⟨i, h2, -⟩ | ⟨i, h2, -⟩) <;> omega
      · rename_i h2
        split
        · rename_i h3
          by_cases hk : bufferOk p.ibufSize (off - 0x1000000) w = true
          · rw [if_pos hk]
            simp only [Option.isSome_some, true_iff]
            exact .inr (.inl ⟨off - 0x1000000, by omega, (bufferOk_iff _ _ w).1 hk⟩)
          · rw [if_neg hk]
            simp only [Option.isSome_none, Bool.false_eq_true, false_iff]
            rintro (⟨h4, -⟩ | ⟨i, h4, h5⟩ | ⟨i, h4, -⟩)
            · omega
            · rw [show off - 0x1000000 = i by omega] at hk
              exact hk ((bufferOk_iff _ _ w).2 h5)
            · omega
        · rename_i h3
          split
          · rename_i h6
            by_cases hk : bufferOk p.obufSize (off - 0x2000000) w = true
            · rw [if_pos hk]
              simp only [Option.isSome_some, true_iff]
              exact .inr (.inr ⟨off - 0x2000000, by omega, (bufferOk_iff _ _ w).1 hk⟩)
            · rw [if_neg hk]
              simp only [Option.isSome_none, Bool.false_eq_true, false_iff]
              rintro (⟨h4, -⟩ | ⟨i, h4, h5⟩ | ⟨i, h4, h5⟩)
              · omega
              · rcases h5 with ⟨-, h5⟩ | ⟨-, -, h5⟩ <;> omega
              · rw [show off - 0x2000000 = i by omega] at hk
                exact hk ((bufferOk_iff _ _ w).2 h5)
          · simp only [Option.isSome_none, Bool.false_eq_true, false_iff]
            rintro (⟨h4, -⟩ | ⟨i, h4, h5⟩ | ⟨i, h4, h5⟩)
            · omega
            · rcases h5 with ⟨-, h5⟩ | ⟨-, -, h5⟩ <;> omega
            · rcases h5 with ⟨-, h5⟩ | ⟨-, -, h5⟩ <;> omega
  · rw [if_neg hb]
    simp [hb]

/-! ## The bytes of an access (R45) -/

theorem bytesAt_eq_some {m : Memory} {i : Nat} {bs : List Byte}
    (h : ∀ j, j < bs.length → Memory.read? m (i + j) = bs[j]?) : bytesAt m i bs.length = some (leValue bs) := by
  induction bs generalizing i with
  | nil => rfl
  | cons b bs ih =>
    have h0 := h 0 (by simp)
    simp only [Nat.add_zero, List.getElem?_cons_zero] at h0
    have h1 := ih (i := i + 1) (by
      intro j hj
      have := h (j + 1) (by simpa using hj)
      rw [Nat.add_assoc, Nat.add_comm 1 j, this, List.getElem?_cons_succ])
    simp only [List.length_cons, bytesAt, h0, h1, leValue]

theorem bytesAt_eq_none {m : Memory} {i n j : Nat} (hj : j < n) (h : Memory.read? m (i + j) = none) :
    bytesAt m i n = none := by
  induction n generalizing i j with
  | zero => omega
  | succ n ih =>
    unfold bytesAt
    cases j with
    | zero => rw [Nat.add_zero] at h; rw [h]
    | succ j =>
      rw [ih (i := i + 1) (j := j) (by omega) (by rw [← h]; congr 1; omega)]
      cases Memory.read? m i <;> rfl

theorem read?_writeBytes (m : Memory) (i v n k : Nat) :
    Memory.read? (writeBytes m i v n) k =
      if i ≤ k ∧ k < i + n then some (BitVec.ofNat 8 (v / 256 ^ (k - i))) else Memory.read? m k := by
  induction n generalizing m i v with
  | zero => rw [if_neg (by omega)]; rfl
  | succ n ih =>
    unfold writeBytes
    rw [ih]
    by_cases h1 : i + 1 ≤ k ∧ k < i + 1 + n
    · rw [if_pos h1, if_pos (by omega), Nat.div_div_eq_div_mul, ← Nat.pow_succ', show (k - (i + 1)).succ = k - i by omega]
    · rw [if_neg h1, Memory.read?_write]
      by_cases h2 : k = i
      · subst h2; simp
      · rw [if_neg h2, if_neg (by omega)]

theorem wf_writeBytes {m : Memory} (i v n : Nat) (h : Memory.wf m = true) : Memory.wf (writeBytes m i v n) = true := by
  induction n generalizing m i v with
  | zero => exact h
  | succ n ih => exact ih _ _ (Memory.wf_write _ _ h)

/-! ## Writes that change no register -/

/-- R14: while BUSY = 0 a write to a read-only or reserved register changes nothing. -/
theorem writeIgnored_idle {s : State} (h : s.ctl.busy = false) (off : Nat) : writeIgnored off s = s := by
  simp [writeIgnored, whenIdle, h]

/-- 93 I5 (log entry 6): while BUSY = 1 a write to a read-only register is lost and sets WOVR. -/
theorem writeIgnored_readOnly {s : State} {off : Nat} (h : s.ctl.busy = true) (ho : off ∈ readOnlyOffsets) :
    writeIgnored off s = lostWrite s := by
  rw [writeIgnored, if_pos (List.contains_iff_mem.2 ho), whenIdle, if_pos h]

/-- R14, R246: a write to any other offset that comes here, a reserved one, changes nothing. -/
theorem writeIgnored_reserved {s : State} {off : Nat} (ho : off ∉ readOnlyOffsets) : writeIgnored off s = s := by
  rw [writeIgnored, if_neg fun h => ho (List.contains_iff_mem.1 h)]

end Sys2Proof.Machine
end

