-- ==== Sys2Proof/Laws/Results.lean ====
section
/-! SUPPORT. What a sequence of primitives ends in: inversion of `Res.bind`, `require` and `finish`, and relations between
the state before and every state a primitive can leave. -/

namespace Sys2Proof.Machine

variable {α β : Type}

/-! ## Inversion -/

@[simp] theorem Res.bind_ok (a : α) (s : State) (k : α → State → Res β) : (Res.ok a s).bind k = k a s := rfl
@[simp] theorem Res.bind_err (e : Err) (s : State) (k : α → State → Res β) : (Res.err e s).bind k = .err e s := rfl
@[simp] theorem Res.bind_fault (f : Fault) (k : α → State → Res β) : (Res.fault f).bind k = .fault f := rfl

theorem Res.bind_eq_ok {r : Res α} {k : α → State → Res β} {b : β} {t : State} :
    r.bind k = .ok b t ↔ ∃ a u, r = .ok a u ∧ k a u = .ok b t := by
  cases r <;> simp

theorem Res.bind_eq_err {r : Res α} {k : α → State → Res β} {e : Err} {t : State} :
    r.bind k = .err e t ↔ r = .err e t ∨ ∃ a u, r = .ok a u ∧ k a u = .err e t := by
  cases r <;> simp

theorem Res.bind_eq_fault {r : Res α} {k : α → State → Res β} {f : Fault} :
    r.bind k = .fault f ↔ r = .fault f ∨ ∃ a u, r = .ok a u ∧ k a u = .fault f := by
  cases r <;> simp

@[simp] theorem require_true (e : Err) (s : State) (k : Unit → Res α) : require true e s k = k () := rfl
@[simp] theorem require_false (e : Err) (s : State) (k : Unit → Res α) : require false e s k = .err e s := rfl

theorem require_of {c : Bool} (h : c = true) (e : Err) (s : State) (k : Unit → Res α) : require c e s k = k () := by
  subst h; rfl

theorem require_of_not {c : Bool} (h : ¬ c = true) (e : Err) (s : State) (k : Unit → Res α) :
    require c e s k = .err e s := by
  cases c
  · rfl
  · exact absurd rfl h

theorem require_eq_ok {c : Bool} {e : Err} {s t : State} {k : Unit → Res α} {a : α} :
    require c e s k = .ok a t ↔ c = true ∧ k () = .ok a t := by
  cases c <;> simp

theorem require_eq_err {c : Bool} {e e' : Err} {s t : State} {k : Unit → Res α} :
    require c e s k = .err e' t ↔ (c = false ∧ e = e' ∧ s = t) ∨ (c = true ∧ k () = .err e' t) := by
  cases c <;> simp

theorem require_eq_fault {c : Bool} {e : Err} {s : State} {k : Unit → Res α} {f : Fault} :
    require c e s k = .fault f ↔ c = true ∧ k () = .fault f := by
  cases c <;> simp

@[simp] theorem finish_ok (r : Results) (s : State) : finish (.ok r s) = .next (s.complete r.r0 r.r1 r.r2) := rfl
@[simp] theorem finish_err (e : Err) (s : State) : finish (.err e s) = .next (s.fail e) := rfl
@[simp] theorem finish_fault (f : Fault) : finish (.fault f) = .fault f := rfl

/-- A command ends in a completion or in taking an error. -/
theorem finish_eq_next {r : Res Results} {t : State} :
    finish r = .next t ↔
      (∃ x u, r = .ok x u ∧ t = u.complete x.r0 x.r1 x.r2) ∨ (∃ e u, r = .err e u ∧ t = u.fail e) := by
  cases r <;> simp [eq_comm]

theorem finish_eq_fault {r : Res Results} {f : Fault} : finish r = .fault f ↔ r = .fault f := by
  cases r <;> simp

/-- No command is refused. -/
theorem finish_ne_refused (r : Res Results) (x : Refusal) : finish r ≠ .refused x := by
  cases r <;> simp

theorem Err.cause_ne_zero (e : Err) : e.cause ≠ 0 := by cases e <;> simp [Err.cause]

/-! ## Relations kept by a primitive -/

/-- A relation between states that holds of no change, and of one change after another. -/
structure IsFrame (R : State → State → Prop) : Prop where
  refl : ∀ s, R s s
  trans : ∀ {s t u}, R s t → R t u → R s u

/-- Every state a result leaves is related to `s`. -/
def Res.Stays (R : State → State → Prop) (s : State) : Res α → Prop
  | .ok _ t => R s t
  | .err _ t => R s t
  | .fault _ => True

theorem Res.Stays.ok {R : State → State → Prop} {s t : State} {r : Res α} (h : r.Stays R s) {a : α} (hr : r = .ok a t) :
    R s t := by subst hr; exact h

theorem Res.Stays.err {R : State → State → Prop} {s t : State} {r : Res α} (h : r.Stays R s) {e : Err}
    (hr : r = .err e t) : R s t := by subst hr; exact h

/-- One primitive after another keeps a transitive relation that both keep. -/
theorem Res.Stays.bind {R : State → State → Prop} (hR : IsFrame R) {s : State} {r : Res α}
    {k : α → State → Res β} (h : r.Stays R s) (hk : ∀ a t, r = .ok a t → (k a t).Stays R t) : (r.bind k).Stays R s := by
  cases r with
  | fault f => exact trivial
  | err e t => exact h
  | ok a t =>
    have h2 := hk a t rfl
    simp only [Res.bind_ok]
    cases hr : k a t with
    | fault f => exact trivial
    | ok b u => rw [hr] at h2; exact hR.trans h h2
    | err e u => rw [hr] at h2; exact hR.trans h h2

theorem Res.Stays.require {R : State → State → Prop} (hR : IsFrame R) {c : Bool} {e : Err} {s : State}
    {k : Unit → Res α} (h : c = true → (k ()).Stays R s) : (Sys2Proof.Machine.require c e s k).Stays R s := by
  cases c with
  | false => exact hR.refl s
  | true => exact h rfl

theorem Res.Stays.mono {R S : State → State → Prop} {s : State} {r : Res α} (h : r.Stays R s)
    (hrs : ∀ t, R s t → S s t) : r.Stays S s := by
  cases r with
  | fault f => exact trivial
  | ok a t => exact hrs t h
  | err e t => exact hrs t h

theorem Res.Stays.after {R : State → State → Prop} (hR : IsFrame R) {s t : State} {r : Res α} (h : R s t)
    (hr : r.Stays R t) : r.Stays R s := by
  cases r with
  | fault f => exact trivial
  | ok a u => exact hR.trans h hr
  | err e u => exact hR.trans h hr

/-- A property of states that a primitive keeps, as the relation that it holds after if it held before. -/
theorem Res.Stays.of_eq {R : State → State → Prop} (hR : IsFrame R) {s : State} {r : Res α} (h : r.Stays Eq s) :
    r.Stays R s := h.mono fun _ e => e ▸ hR.refl s

/-- What a command's end keeps: a relation the primitives keep and the two ends keep. -/
theorem Res.Stays.finish {R : State → State → Prop} {s : State} {r : Res Results} (h : r.Stays R s)
    (hc : ∀ t r0 r1 r2, R s t → R s (t.complete r0 r1 r2)) (hf : ∀ t e, R s t → R s (t.fail e)) {t : State}
    (hn : Sys2Proof.Machine.finish r = .next t) : R s t := by
  rcases finish_eq_next.1 hn with ⟨x, u, hr, rfl⟩ | ⟨e, u, hr, rfl⟩
  · exact hc _ _ _ _ (h.ok hr)
  · exact hf _ _ (h.err hr)

end Sys2Proof.Machine
end

