-- ==== Sys2Proof/Laws/Frames.lean ====
section
/-! SUPPORT. The frame of each primitive: what it touches of the state, whether it ends well or raises. -/

namespace Sys2Proof.Machine

variable {α : Type}

/-! ## The relations are preorders -/

theorem eqFrame : IsFrame (Eq : State → State → Prop) := ⟨fun _ => rfl, fun h1 h2 => h1.trans h2⟩

theorem readerFrame : IsFrame OnlyReader := ⟨fun _ => rfl, fun h1 h2 => Eq.trans h2 (by rw [h1])⟩

theorem writerFrame : IsFrame OnlyWriter := ⟨fun _ => rfl, fun h1 h2 => Eq.trans h2 (by rw [h1])⟩

theorem finderFrame : IsFrame OnlyFinder := ⟨fun _ => rfl, fun h1 h2 => Eq.trans h2 (by rw [h1])⟩

theorem windowFrame : IsFrame OnlyWindow := ⟨fun _ => rfl, fun h1 h2 => Eq.trans h2 (by rw [h1])⟩

theorem clFrame (a : Alphabet) : IsFrame (OnlyCl a) :=
  ⟨fun _ => by cases a <;> rfl, fun h1 h2 => Eq.trans h2 (by rw [h1]; cases a <;> rfl)⟩

theorem readerClFrame (a : Alphabet) : IsFrame (OnlyReaderCl a) :=
  ⟨fun _ => by cases a <;> rfl, fun h1 h2 => Eq.trans h2 (by rw [h1]; cases a <;> rfl)⟩

theorem OnlyReader.readerCl {a : Alphabet} {s t : State} (h : OnlyReader s t) : OnlyReaderCl a s t := by
  rw [h]; cases a <;> rfl

theorem OnlyCl.readerCl {a : Alphabet} {s t : State} (h : OnlyCl a s t) : OnlyReaderCl a s t := by
  rw [h]; cases a <;> rfl

/-! ## The reader -/

theorem inByte_stays (p : Nat) (s : State) : (inByte p s).Stays Eq s := by
  unfold inByte; split
  · exact rfl
  · exact trivial

theorem inByte_eq_ok {p : Nat} {s t : State} {b : Byte} :
    inByte p s = .ok b t ↔ Memory.read? s.ibuf p = some b ∧ t = s := by
  unfold inByte; split <;> rename_i h <;> simp [h, eq_comm]

theorem nextBit_only (s : State) : OnlyReader s (nextBit s) := by unfold nextBit; split <;> rfl

theorem takeBits_stays (n : Nat) (s : State) : (takeBits n s).Stays OnlyReader s := by
  induction n generalizing s with
  | zero => exact rfl
  | succ n ih =>
    refine Res.Stays.bind readerFrame ((inByte_stays _ s).of_eq readerFrame) fun b t _ => ?_
    refine Res.Stays.bind readerFrame ?_ fun v u _ => readerFrame.refl u
    exact (ih (nextBit t)).after readerFrame (nextBit_only t)

theorem readBits_stays (n : Nat) (s : State) : (readBits n s).Stays OnlyReader s := by
  refine Res.Stays.require readerFrame fun _ => Res.Stays.require readerFrame fun _ =>
    Res.Stays.require readerFrame fun _ => ?_
  exact Res.Stays.bind readerFrame (takeBits_stays n s) fun v t _ => rfl

theorem readByte_stays (s : State) : (readByte s).Stays OnlyReader s := by
  refine Res.Stays.require readerFrame fun _ => Res.Stays.require readerFrame fun _ =>
    Res.Stays.require readerFrame fun _ => ?_
  exact Res.Stays.bind readerFrame ((inByte_stays _ s).of_eq readerFrame) fun v t _ => rfl

theorem eosBecomes_stays {R : State → State → Prop} {s : State} (p : Place) {r : Res α} (h : r.Stays R s) :
    (eosBecomes p r).Stays R s := by
  cases r with
  | ok a t => exact h
  | fault f => exact trivial
  | err e t => cases e <;> exact h

theorem runParse_stays (p : Parse α) (s : State) : (runParse p s).Stays OnlyReader s := by
  induction p generalizing s with
  | done a => exact rfl
  | unpopulated => exact rfl
  | field pl n k ih =>
    have h := eosBecomes_stays pl (readBits_stays n s)
    unfold runParse
    cases hr : eosBecomes pl (readBits n s) with
    | fault f => exact trivial
    | err e t => rw [hr] at h; exact h
    | ok v t =>
      rw [hr] at h
      exact (ih v t).after readerFrame h

theorem decodeSymbol_stays (a : Alphabet) (s : State) : (decodeSymbol a s).Stays OnlyReader s := runParse_stays _ s

/-! ## The writer -/

theorem outAppend_only (b : Byte) (s : State) : OnlyWriter s (outAppend b s) := rfl

theorem appendBit_only (b : Bool) (s : State) : OnlyWriter s (appendBit b s) := by
  unfold appendBit; dsimp only; split <;> rfl

theorem appendBits_only (v n : Nat) (s : State) : OnlyWriter s (appendBits v n s) := by
  induction n generalizing v s with
  | zero => rfl
  | succ n ih => exact writerFrame.trans (appendBit_only _ s) (ih _ _)

theorem writeBits_stays (v n : Nat) (s : State) : (writeBits v n s).Stays OnlyWriter s := by
  refine Res.Stays.require writerFrame fun _ => Res.Stays.require writerFrame fun _ => ?_
  exact writerFrame.trans (appendBits_only v n s) rfl

theorem writeByte_stays (b : Nat) (s : State) : (writeByte b s).Stays OnlyWriter s :=
  Res.Stays.require writerFrame fun _ => Res.Stays.require writerFrame fun _ =>
    Res.Stays.require writerFrame fun _ => rfl

theorem writeEof_stays (s : State) : (writeEof s).Stays OnlyWriter s := by
  unfold writeEof
  split
  · exact rfl
  · exact Res.Stays.require writerFrame fun _ => rfl

theorem encodeSymbol_stays (a : Alphabet) (sym : Nat) (s : State) : (encodeSymbol a sym s).Stays OnlyWriter s :=
  Res.Stays.require writerFrame fun _ => writeBits_stays _ _ s

theorem writeField_stays (f : Field) (s : State) : (writeField f s).Stays OnlyWriter s := by
  cases f
  · exact writeBits_stays _ _ s
  · exact encodeSymbol_stays _ _ s

theorem writeFields_stays (fs : List Field) (s : State) : (writeFields fs s).Stays OnlyWriter s := by
  induction fs generalizing s with
  | nil => exact rfl
  | cons f fs ih => exact Res.Stays.bind writerFrame (writeField_stays f s) fun _ t _ => ih t

theorem serialize_stays (a : Alphabet) (s : State) : (serialize a s).Stays OnlyWriter s := by
  unfold serialize
  exact Res.Stays.require writerFrame fun _ => writeFields_stays _ s

theorem emit_stays (e : Event) (s : State) : (emit e s).Stays OnlyWriter s := by
  cases e with
  | lit b => exact writeFields_stays _ s
  | copy l d =>
    simp only [emit]
    split
    · exact writerFrame.refl s
    · refine Res.Stays.bind writerFrame (writeFields_stays _ s) fun _ t _ => ?_
      split
      · exact writeBits_stays _ _ t
      · split
        · exact writerFrame.refl t
        · exact writeFields_stays _ t

/-! ## The tables -/

theorem setCl_only (a : Alphabet) (sym l : Nat) (s : State) : OnlyCl a s (setCl a sym l s) := by cases a <;> rfl

theorem clearCls_only (a : Alphabet) (i r : Nat) (s : State) : OnlyCl a s (clearCls a i r s) := by
  induction r generalizing i s with
  | zero => exact (clFrame a).refl s
  | succ r ih => exact (clFrame a).trans (setCl_only a i 0 s) (ih _ _)

theorem applyEntry_stays (a : Alphabet) (i : Nat) (e : TableEntry) (s : State) : (applyEntry a i e s).Stays (OnlyCl a) s := by
  cases e with
  | short l => exact setCl_only a _ _ s
  | ext1 x => exact setCl_only a _ _ s
  | ext2 y => exact setCl_only a _ _ s
  | zrun c =>
    unfold applyEntry
    exact Res.Stays.require (clFrame a) fun _ => clearCls_only a _ _ s

theorem deserializeFrom_stays (a : Alphabet) (n i : Nat) (s : State) :
    (deserializeFrom a n i s).Stays (OnlyReaderCl a) s := by
  induction n generalizing i s with
  | zero => exact (readerClFrame a).refl s
  | succ n ih =>
    unfold deserializeFrom
    split
    · exact (readerClFrame a).refl s
    · refine Res.Stays.bind (readerClFrame a) ((runParse_stays _ s).mono fun _ h => h.readerCl) fun e t _ => ?_
      exact Res.Stays.bind (readerClFrame a) ((applyEntry_stays a i e t).mono fun _ h => h.readerCl) fun j u _ => ih j u

theorem deserialize_stays (a : Alphabet) (s : State) : (deserialize a s).Stays (OnlyReaderCl a) s :=
  deserializeFrom_stays a _ _ s

theorem hufBuild_stays (a : Alphabet) (s : State) : (hufBuild a s).Stays (OnlyCl a) s :=
  by unfold hufBuild; exact Res.Stays.require (clFrame a) fun _ => by cases a <;> rfl

theorem hufCanon_stays (a : Alphabet) (s : State) : (hufCanon a s).Stays (OnlyCode a) s := by
  unfold hufCanon; split <;> cases a <;> rfl

theorem hufTrie_stays (a : Alphabet) (s : State) : (hufTrie a s).Stays (OnlyCodeTrie a) s := by
  unfold hufTrie; split <;> cases a <;> rfl

theorem clearFreq_only (a : Alphabet) (s : State) : OnlyFreq a s (clearFreq a s) := by cases a <;> rfl

theorem bumpFreq_only (a : Alphabet) (sym : Nat) (s : State) : OnlyFreq a s (bumpFreq a sym s) := by cases a <;> rfl

/-! ## The match finder -/

theorem compareFrom_stays (p q n i : Nat) (s : State) : (compareFrom p q n i s).Stays Eq s := by
  induction n generalizing i s with
  | zero => exact rfl
  | succ n ih =>
    refine Res.Stays.bind eqFrame (inByte_stays _ s) fun b t ht => Res.Stays.bind eqFrame (inByte_stays _ t) fun c u hu => ?_
    split
    · exact ih (i + 1) u
    · exact rfl

theorem walkFrom_stays (p m n t bl bd : Nat) (s : State) : (walkFrom p m n t bl bd s).Stays Eq s := by
  induction n generalizing t bl bd s with
  | zero => exact trivial
  | succ n ih =>
    unfold walkFrom
    refine Res.Stays.require eqFrame fun _ => Res.Stays.bind eqFrame (compareFrom_stays _ _ _ _ s) fun r u _ => ?_
    dsimp only
    generalize (if r.2 = true then Side.larger else Side.smaller) = side
    split
    · exact rfl
    · split
      · exact rfl
      · exact ih _ _ _ u

theorem walkRoot_stays (p : Nat) (s : State) : (walkRoot p s).Stays Eq s := by
  unfold walkRoot
  split
  · exact rfl
  · exact walkFrom_stays _ _ _ _ _ _ s

theorem walk_stays (p : Nat) (mutate : Bool) (s : State) : (walk p mutate s).Stays OnlyFinder s := by
  refine Res.Stays.require finderFrame fun _ => Res.Stays.require finderFrame fun _ =>
    Res.Stays.require finderFrame fun _ => ?_
  refine Res.Stays.bind finderFrame ((walkRoot_stays p s).of_eq finderFrame) fun r t _ => ?_
  cases mutate <;> exact rfl

theorem deleteAt_stays (slot : Nat) (s : State) : (deleteAt slot s).Stays OnlyFinder s := by
  unfold deleteAt; split
  · exact rfl
  · exact trivial

/-! ## The window -/

theorem windowPush_only (b : Byte) (s : State) : OnlyWindow s (windowPush b s) := rfl

theorem windowRead_stays (j : Nat) (s : State) : (windowRead j s).Stays Eq s := by
  unfold windowRead; split
  · exact rfl
  · exact trivial

theorem copyLoop_stays (d n : Nat) (s : State) : (copyLoop d n s).Stays OnlyWindow s := by
  induction n generalizing s with
  | zero => exact rfl
  | succ n ih =>
    refine Res.Stays.bind windowFrame ((windowRead_stays _ s).of_eq windowFrame) fun b t _ => ?_
    exact (ih (windowPush b t)).after windowFrame (windowPush_only b t)

theorem winPut_stays (b : Byte) (s : State) : (winPut b s).Stays OnlyWindow s :=
  Res.Stays.require windowFrame fun _ => rfl

theorem winCopy_stays (l d : Nat) (s : State) : (winCopy l d s).Stays OnlyWindow s :=
  Res.Stays.require windowFrame fun _ => Res.Stays.require windowFrame fun _ =>
    Res.Stays.require windowFrame fun _ => copyLoop_stays d l s

theorem applyEvent_stays (e : StreamEvent) (nl nm : Nat) (s : State) : (applyEvent e nl nm s).Stays OnlyWindow s := by
  cases e with
  | lit b => exact Res.Stays.bind windowFrame (winPut_stays b s) fun _ t _ => windowFrame.refl t
  | eos => exact windowFrame.refl s
  | match3 d => exact Res.Stays.bind windowFrame (winCopy_stays _ _ s) fun _ t _ => windowFrame.refl t
  | matchSlot k e j x => exact Res.Stays.bind windowFrame (winCopy_stays _ _ s) fun _ t _ => windowFrame.refl t

end Sys2Proof.Machine
end

