-- ==== Sys2Proof/Laws/Tree.lean ====
section
/-! SUPPORT. The tree of the match finder: each operation link by link, and that each keeps the structural invariants
of R176. -/

namespace Sys2Proof.Machine

/-! ## Link values -/

theorem toNat_link {i : Nat} (h : i < 2 ^ 17) : (link i).toNat = i := by
  unfold link; rw [BitVec.toNat_ofNat]; exact Nat.mod_eq_of_lt h

theorem link_toNat (v : BitVec 17) : link v.toNat = v := by simp [link]

theorem toNat_nilLink : nilLink.toNat = 131071 := rfl

theorem link_ne_nil {i : Nat} (h : i ≤ rootIndex) : link i ≠ nilLink := by
  intro he
  have := congrArg BitVec.toNat he
  unfold rootIndex at h
  rw [toNat_link (by omega), toNat_nilLink] at this
  omega

theorem link_inj {i j : Nat} (hi : i < 2 ^ 17) (hj : j < 2 ^ 17) (h : link i = link j) : i = j := by
  rw [← toNat_link hi, ← toNat_link hj, h]

theorem inTree_iff {f : Finder} {i : Nat} : f.inTree i = true ↔ f.par i ≠ nilLink := by simp [Finder.inTree]

theorem not_inTree_iff {f : Finder} {i : Nat} : f.inTree i = false ↔ f.par i = nilLink := by simp [Finder.inTree]

/-! ## The operations, link by link -/

/-- The three lists of links in their one form. -/
abbrev Finder.LinksOk (f : Finder) : Prop :=
  Links.wf f.parent = true ∧ Links.wf f.smaller = true ∧ Links.wf f.larger = true

theorem linksOk_setPar {f : Finder} (h : f.LinksOk) (i : Nat) (v : BitVec 17) : (f.setPar i v).LinksOk :=
  ⟨Links.wf_set i v h.1, h.2.1, h.2.2⟩

theorem linksOk_setSm {f : Finder} (h : f.LinksOk) (i : Nat) (v : BitVec 17) : (f.setSm i v).LinksOk :=
  ⟨h.1, Links.wf_set i v h.2.1, h.2.2⟩

theorem linksOk_setLa {f : Finder} (h : f.LinksOk) (i : Nat) (v : BitVec 17) : (f.setLa i v).LinksOk :=
  ⟨h.1, h.2.1, Links.wf_set i v h.2.2⟩

theorem linksOk_setChild {f : Finder} (h : f.LinksOk) (i : Nat) (v : BitVec 17) (sd : Side) :
    (f.setChild i v sd).LinksOk := by
  cases sd
  · exact linksOk_setSm h i v
  · exact linksOk_setLa h i v

theorem par_setPar {f : Finder} (h : f.LinksOk) (i k : Nat) (v : BitVec 17) :
    (f.setPar i v).par k = if k = i then v else f.par k := Links.get_set h.1 i k v

@[simp] theorem child_setPar (f : Finder) (i k : Nat) (v : BitVec 17) (sd : Side) :
    (f.setPar i v).child k sd = f.child k sd := by cases sd <;> rfl

@[simp] theorem par_setChild (f : Finder) (i k : Nat) (v : BitVec 17) (sd : Side) :
    (f.setChild i v sd).par k = f.par k := by cases sd <;> rfl

theorem child_setChild {f : Finder} (h : f.LinksOk) (i k : Nat) (v : BitVec 17) (sd se : Side) :
    (f.setChild i v sd).child k se = if k = i ∧ se = sd then v else f.child k se := by
  cases sd <;> cases se <;>
    simp [Finder.child, Finder.setChild, Finder.setSm, Finder.setLa, Finder.sm, Finder.la, Links.get_set h.2.1,
      Links.get_set h.2.2]

/-- R167, R168: a slot cleared. -/
theorem clearSlot_linksOk {f : Finder} (h : f.LinksOk) (s : Nat) : (clearSlot f s).LinksOk :=
  linksOk_setLa (linksOk_setSm (linksOk_setPar h _ _) _ _) _ _

theorem par_clearSlot {f : Finder} (h : f.LinksOk) (s k : Nat) :
    (clearSlot f s).par k = if k = s then nilLink else f.par k := par_setPar h s k nilLink

theorem child_clearSlot {f : Finder} (h : f.LinksOk) (s k : Nat) (sd : Side) :
    (clearSlot f s).child k sd = if k = s then nilLink else f.child k sd := by
  cases sd <;>
    simp [clearSlot, Finder.child, Finder.setPar, Finder.setSm, Finder.setLa, Finder.sm, Finder.la,
      Links.get_set h.2.1, Links.get_set h.2.2]

/-- R163: a new leaf. -/
theorem attach_linksOk {f : Finder} (h : f.LinksOk) (t : Nat) (side : Side) (s : Nat) : (attach f t side s).LinksOk :=
  linksOk_setLa (linksOk_setSm (linksOk_setPar (linksOk_setChild h _ _ _) _ _) _ _) _ _

theorem par_attach {f : Finder} (h : f.LinksOk) (t : Nat) (side : Side) (s k : Nat) :
    (attach f t side s).par k = if k = s then link t else f.par k := by
  show ((f.setChild t (link s) side).setPar s (link t)).par k = _
  rw [par_setPar (linksOk_setChild h _ _ _), par_setChild]

theorem child_attach {f : Finder} (h : f.LinksOk) (t : Nat) (side : Side) (s k : Nat) (sd : Side) :
    (attach f t side s).child k sd =
      if k = s then nilLink else if k = t ∧ sd = side then link s else f.child k sd := by
  have h1 := linksOk_setPar (linksOk_setChild h t (link s) side) s (link t)
  have h2 := linksOk_setChild h1 s nilLink .smaller
  have e : attach f t side s =
      (((f.setChild t (link s) side).setPar s (link t)).setChild s nilLink .smaller).setChild s nilLink .larger := rfl
  rw [e, child_setChild h2, child_setChild h1, child_setPar, child_setChild h]
  cases sd <;> by_cases hk : k = s <;> simp [hk]

/-- Which child of its parent a slot is, as R167 and R168 find it. -/
def sideOf (f : Finder) (i : Nat) : Side := if f.la (f.par i).toNat = link i then .larger else .smaller

theorem relink_eq (f : Finder) (p old : Nat) (v : BitVec 17) :
    relink f p old v = f.setChild p v (if f.la p = link old then .larger else .smaller) := by
  unfold relink; split <;> rfl

theorem adopt_linksOk {f : Finder} (h : f.LinksOk) (c p : BitVec 17) : (adopt f c p).LinksOk := by
  unfold adopt; split
  · exact h
  · exact linksOk_setPar h _ _

theorem par_adopt {f : Finder} (h : f.LinksOk) (c p : BitVec 17) (k : Nat) :
    (adopt f c p).par k = if c ≠ nilLink ∧ k = c.toNat then p else f.par k := by
  unfold adopt
  split
  · rename_i hc; simp [hc]
  · rename_i hc; rw [par_setPar h]; simp [hc]

@[simp] theorem child_adopt (f : Finder) (c p : BitVec 17) (k : Nat) (sd : Side) :
    (adopt f c p).child k sd = f.child k sd := by
  unfold adopt; split
  · rfl
  · exact child_setPar _ _ _ _ _

@[simp] theorem la_adopt (f : Finder) (c p : BitVec 17) (k : Nat) : (adopt f c p).la k = f.la k := child_adopt f c p k .larger

/-- R168, link by link. -/
theorem contract_linksOk {f : Finder} (h : f.LinksOk) (old : Nat) (c : BitVec 17) : (contract f old c).LinksOk := by
  unfold contract
  dsimp only
  rw [relink_eq]
  exact clearSlot_linksOk (linksOk_setChild (adopt_linksOk h _ _) _ _ _) _

theorem par_contract {f : Finder} (h : f.LinksOk) (old : Nat) (c : BitVec 17) (k : Nat) :
    (contract f old c).par k =
      if k = old then nilLink else if c ≠ nilLink ∧ k = c.toNat then f.par old else f.par k := by
  unfold contract
  dsimp only
  rw [relink_eq, par_clearSlot (linksOk_setChild (adopt_linksOk h _ _) _ _ _), par_setChild, par_adopt h]

theorem child_contract {f : Finder} (h : f.LinksOk) (old : Nat) (c : BitVec 17) (k : Nat) (sd : Side) :
    (contract f old c).child k sd =
      if k = old then nilLink else if k = (f.par old).toNat ∧ sd = sideOf f old then c else f.child k sd := by
  have hp : (adopt f c (f.par old)).par old = f.par old := by
    rw [par_adopt h]; split <;> rfl
  unfold contract
  dsimp only
  rw [relink_eq, child_clearSlot (linksOk_setChild (adopt_linksOk h _ _) _ _ _),
    child_setChild (adopt_linksOk h _ _), child_adopt, hp, la_adopt]
  rfl

/-! ## The invariants, by sides -/

/-- The other child. -/
def Side.other : Side → Side
  | .smaller => .larger
  | .larger => .smaller

theorem treeInv_side {f : Finder} (h : TreeInv f) {i : Nat} (hi : f.inTree i = true) (sd : Side) :
    f.child (f.par i).toNat sd = link i ↔ sd = sideOf f i := by
  have := (h.parent i hi).2.2
  unfold sideOf
  cases sd
  · show f.sm _ = _ ↔ _
    rcases this with ⟨h1, h2⟩ | ⟨h1, h2⟩ <;> simp [h1, h2]
  · show f.la _ = _ ↔ _
    rcases this with ⟨h1, h2⟩ | ⟨h1, h2⟩ <;> simp [h1, h2]

theorem treeInv_slot_lt {f : Finder} (h : TreeInv f) {i : Nat} (hi : f.inTree i = true) : i < windowSize :=
  (h.parent i hi).1

theorem treeInv_root_out {f : Finder} (h : TreeInv f) : f.inTree rootIndex = false := not_inTree_iff.2 h.root.1

theorem treeInv_parent {f : Finder} (h : TreeInv f) {i : Nat} (hi : f.inTree i = true) :
    (f.par i).toNat = rootIndex ∨ f.inTree (f.par i).toNat = true := (h.parent i hi).2.1

theorem treeInv_parent_le {f : Finder} (h : TreeInv f) {i : Nat} (hi : f.inTree i = true) :
    (f.par i).toNat ≤ rootIndex := by
  rcases treeInv_parent h hi with h1 | h1
  · omega
  · exact Nat.le_of_lt (treeInv_slot_lt h h1)

theorem treeInv_outside {f : Finder} (h : TreeInv f) {i : Nat} (hr : i ≠ rootIndex) (hi : f.inTree i = false) (sd : Side) :
    f.child i sd = nilLink := by
  cases sd
  · exact (h.outside i hr hi).1
  · exact (h.outside i hr hi).2

/-- The invariants from the facts about sides. -/
theorem treeInv_mk {f : Finder} (hl : f.LinksOk) (hr : f.par rootIndex = nilLink) (hs : f.child rootIndex .smaller = nilLink)
    (hp : ∀ i, f.inTree i = true → i < windowSize ∧ ((f.par i).toNat = rootIndex ∨ f.inTree (f.par i).toNat = true) ∧
      ∃ se, ∀ sd, f.child (f.par i).toNat sd = link i ↔ sd = se)
    (hc : ∀ i sd, f.child i sd ≠ nilLink →
      f.inTree (f.child i sd).toNat = true ∧ f.par (f.child i sd).toNat = link i)
    (ho : ∀ i, i ≠ rootIndex → f.inTree i = false → ∀ sd, f.child i sd = nilLink)
    (hreach : ∀ i, f.inTree i = true → ∃ k, climb f k i = rootIndex) : TreeInv f where
  links := hl
  root := ⟨hr, hs⟩
  parent := by
    intro i hi
    obtain ⟨h1, h2, se, h3⟩ := hp i hi
    refine ⟨h1, h2, ?_⟩
    have hla := h3 .larger
    have hsm := h3 .smaller
    cases se
    · right; exact ⟨hsm.2 rfl, fun h => by cases hla.1 h⟩
    · left; exact ⟨hla.2 rfl, fun h => by cases hsm.1 h⟩
  child := hc
  outside := fun i hr hi => ⟨ho i hr hi .smaller, ho i hr hi .larger⟩
  reach := hreach

/-- A child leads to another slot than its parent: no slot is its own parent, as it would never reach ROOT. -/
theorem treeInv_par_ne {f : Finder} (h : TreeInv f) {i : Nat} (hi : f.inTree i = true) : (f.par i).toNat ≠ i := by
  intro he
  obtain ⟨k, hk⟩ := h.reach i hi
  have : ∀ k, climb f k i = i := by
    intro k
    induction k with
    | zero => rfl
    | succ k ih => show climb f k (f.par i).toNat = i; rw [he, ih]
  rw [this] at hk
  have := treeInv_slot_lt h hi
  rw [hk] at this
  exact absurd this (by decide)

/-! ## Attach -/

theorem attach_treeInv {f : Finder} (h : TreeInv f) {t s : Nat} {side : Side} (ht : t = rootIndex ∧ side = .larger ∨ f.inTree t = true)
    (hs : f.inTree s = false) (hsl : s < windowSize) (hc : f.child t side = nilLink) : TreeInv (attach f t side s) := by
  have hl := h.links
  have hsr : s ≠ rootIndex := by unfold windowSize rootIndex at *; omega
  have htle : t ≤ rootIndex := by
    rcases ht with ⟨h1, -⟩ | h1
    · omega
    · exact Nat.le_of_lt (treeInv_slot_lt h h1)
  have hts : t ≠ s := by
    rintro rfl
    rcases ht with ⟨h1, -⟩ | h1
    · exact hsr h1
    · rw [hs] at h1; cases h1
  have htn : (link t).toNat = t := toNat_link (by unfold rootIndex at htle; omega)
  have hsn : (link s).toNat = s := toNat_link (by unfold windowSize at hsl; omega)
  have hsnil : link s ≠ nilLink := link_ne_nil (Nat.le_of_lt hsl)
  have htnil : link t ≠ nilLink := link_ne_nil htle
  have hin : ∀ i, (attach f t side s).inTree i = true ↔ i = s ∨ f.inTree i = true := by
    intro i
    rw [inTree_iff, inTree_iff, par_attach hl]
    by_cases hi : i = s <;> simp [hi, htnil]
  refine treeInv_mk (attach_linksOk hl _ _ _) ?_ ?_ ?_ ?_ ?_ ?_
  · rw [par_attach hl, if_neg (Ne.symm hsr)]; exact h.root.1
  · rw [child_attach hl, if_neg (Ne.symm hsr), if_neg]
    · exact h.root.2
    · rintro ⟨rfl, hsd⟩
      rcases ht with ⟨-, h1⟩ | h1
      · rw [h1] at hsd; cases hsd
      · rw [treeInv_root_out h] at h1; cases h1
  · intro i hi
    rw [par_attach hl]
    by_cases his : i = s
    · subst his
      rw [if_pos rfl, htn]
      refine ⟨hsl, ?_, side, fun sd => ?_⟩
      · rcases ht with ⟨h1, -⟩ | h1
        · exact .inl h1
        · exact .inr ((hin t).2 (.inr h1))
      · rw [child_attach hl, if_neg hts]
        by_cases hsd : sd = side
        · simp [hsd]
        · rw [if_neg (by simp [hsd])]
          simp only [hsd, iff_false]
          intro he
          have h1 := (h.child t sd (by rw [he]; exact hsnil)).1
          rw [he, hsn, hs] at h1; cases h1
    · rw [if_neg his]
      have hit : f.inTree i = true := ((hin i).1 hi).resolve_left his
      refine ⟨treeInv_slot_lt h hit, ?_, sideOf f i, fun sd => ?_⟩
      · rcases treeInv_parent h hit with h1 | h1
        · exact .inl h1
        · exact .inr ((hin _).2 (.inr h1))
      · have hps : (f.par i).toNat ≠ s := by
          intro he
          rcases treeInv_parent h hit with h1 | h1
          · exact hsr (he ▸ h1)
          · rw [he, hs] at h1; cases h1
        rw [child_attach hl, if_neg hps, ← treeInv_side h hit sd]
        split
        · rename_i hc2
          obtain ⟨h1, h2⟩ := hc2
          rw [h1, h2, hc]
          constructor
          · intro he; exact absurd (link_inj (by unfold windowSize at hsl; omega)
              (by have := treeInv_slot_lt h hit; unfold windowSize at this; omega) he).symm his
          · intro he; exact absurd he.symm (link_ne_nil (Nat.le_of_lt (treeInv_slot_lt h hit)))
        · rfl
  · intro i sd hne
    rw [child_attach hl] at hne ⊢
    by_cases his : i = s
    · rw [if_pos his] at hne; exact absurd rfl hne
    · rw [if_neg his] at hne ⊢
      by_cases hit : i = t ∧ sd = side
      · rw [if_pos hit, hsn]
        refine ⟨(hin s).2 (.inl rfl), ?_⟩
        rw [par_attach hl, if_pos rfl, hit.1]
      · rw [if_neg hit] at hne ⊢
        obtain ⟨h1, h2⟩ := h.child i sd hne
        refine ⟨(hin _).2 (.inr h1), ?_⟩
        rw [par_attach hl, if_neg, h2]
        intro he; rw [he, hs] at h1; cases h1
  · intro i hir hi sd
    have hno : ¬ (i = s ∨ f.inTree i = true) := fun hh => by rw [(hin i).2 hh] at hi; cases hi
    rw [child_attach hl, if_neg (fun he => hno (.inl he)), if_neg]
    · exact treeInv_outside h hir (Bool.eq_false_iff.2 fun he => hno (.inr he)) sd
    · rintro ⟨rfl, -⟩
      rcases ht with ⟨h1, -⟩ | h1
      · exact hir h1
      · exact hno (.inr h1)
  · have old : ∀ k i, i = rootIndex ∨ f.inTree i = true → climb f k i = rootIndex →
        ∃ k', climb (attach f t side s) k' i = rootIndex := by
      intro k
      induction k with
      | zero => intro i _ hk; exact ⟨0, hk⟩
      | succ k ih =>
        intro i hi hk
        rcases hi with rfl | hi
        · exact ⟨0, rfl⟩
        · obtain ⟨k', hk'⟩ := ih (f.par i).toNat (treeInv_parent h hi) hk
          refine ⟨k' + 1, ?_⟩
          show climb _ k' ((attach f t side s).par i).toNat = _
          rw [par_attach hl, if_neg (by rintro rfl; rw [hs] at hi; cases hi), hk']
    intro i hi
    rcases (hin i).1 hi with rfl | hi
    · have : ∃ k, climb f k t = rootIndex := by
        rcases ht with ⟨h1, -⟩ | h1
        · exact ⟨0, h1⟩
        · exact h.reach t h1
      obtain ⟨k, hk⟩ := this
      obtain ⟨k', hk'⟩ := old k t (ht.imp And.left id) hk
      refine ⟨k' + 1, ?_⟩
      show climb _ k' ((attach f t side i).par i).toNat = _
      rw [par_attach hl, if_pos rfl, htn, hk']
    · obtain ⟨k, hk⟩ := h.reach i hi
      exact old k i (.inr hi) hk

/-! ## Contract -/

theorem treeInv_child_inTree {f : Finder} (h : TreeInv f) {i : Nat} {sd : Side} (hne : f.child i sd ≠ nilLink) :
    f.inTree (f.child i sd).toNat = true := (h.child i sd hne).1

theorem treeInv_child_par {f : Finder} (h : TreeInv f) {i : Nat} {sd : Side} (hne : f.child i sd ≠ nilLink) :
    f.par (f.child i sd).toNat = link i := (h.child i sd hne).2

/-- A slot in the tree whose parent is `i` is one of the children of `i`. -/
theorem treeInv_is_child {f : Finder} (h : TreeInv f) {i j : Nat} (hj : f.inTree j = true) (hp : (f.par j).toNat = i) :
    f.child i (sideOf f j) = link j := by
  rw [← hp]; exact (treeInv_side h hj _).2 rfl

/-- R168: a slot with at most one child is taken out, and that child is put in its place. -/
theorem contract_treeInv {f : Finder} (h : TreeInv f) {old : Nat} {se : Side} (ho : f.inTree old = true)
    (hc : f.child old se.other = nilLink) : TreeInv (contract f old (f.child old se)) := by
  have hl := h.links
  have hor : old ≠ rootIndex := by rintro rfl; rw [treeInv_root_out h] at ho; cases ho
  have holt := treeInv_slot_lt h ho
  have honil : link old ≠ nilLink := link_ne_nil (Nat.le_of_lt holt)
  have hon : (link old).toNat = old := toNat_link (by unfold windowSize at holt; omega)
  have hpne := treeInv_par_ne h ho
  generalize hce : f.child old se = c
  have hcin : c ≠ nilLink → f.inTree c.toNat = true := fun hn => by subst hce; exact treeInv_child_inTree h hn
  have hcpar : c ≠ nilLink → f.par c.toNat = link old := fun hn => by subst hce; exact treeInv_child_par h hn
  have hcne : c ≠ nilLink → c.toNat ≠ old := by
    intro hn he
    have h1 := treeInv_par_ne h (hcin hn)
    rw [hcpar hn, hon] at h1
    exact h1 he.symm
  have honly : ∀ i, f.inTree i = true → (f.par i).toNat = old → c ≠ nilLink ∧ i = c.toNat := by
    intro i hi hp
    have h1 := treeInv_is_child h hi hp
    have hil := treeInv_slot_lt h hi
    have h2 : sideOf f i = se := by
      by_contra hns
      have : sideOf f i = se.other := by cases hs : sideOf f i <;> cases se <;> simp_all [Side.other]
      rw [this, hc] at h1
      exact link_ne_nil (Nat.le_of_lt hil) h1.symm
    rw [h2, hce] at h1
    rw [h1]
    exact ⟨link_ne_nil (Nat.le_of_lt hil), (toNat_link (by unfold windowSize at hil; omega)).symm⟩
  have hin : ∀ i, (contract f old c).inTree i = true ↔ i ≠ old ∧ f.inTree i = true := by
    intro i
    rw [inTree_iff, inTree_iff, par_contract hl]
    by_cases hi : i = old
    · simp [hi]
    · rw [if_neg hi]
      split
      · rename_i hc2
        have h1 := hcin hc2.1
        rw [← hc2.2] at h1
        exact ⟨fun _ => ⟨hi, inTree_iff.1 h1⟩, fun _ => inTree_iff.1 ho⟩
      · simp [hi]
  refine treeInv_mk (contract_linksOk hl _ _) ?_ ?_ ?_ ?_ ?_ ?_
  · rw [par_contract hl, if_neg (Ne.symm hor), if_neg]
    · exact h.root.1
    · rintro ⟨h1, h2⟩
      have := hcin h1
      rw [← h2, treeInv_root_out h] at this; cases this
  · rw [child_contract hl, if_neg (Ne.symm hor), if_neg]
    · exact h.root.2
    · rintro ⟨h1, h2⟩
      have h3 := treeInv_is_child h ho h1.symm
      rw [← h2] at h3
      exact honil (h3.symm.trans h.root.2)
  · intro i hi
    obtain ⟨hio, hit⟩ := (hin i).1 hi
    have hilt := treeInv_slot_lt h hit
    refine ⟨hilt, ?_⟩
    rw [par_contract hl, if_neg hio]
    by_cases hic : c ≠ nilLink ∧ i = c.toNat
    · rw [if_pos hic]
      refine ⟨?_, sideOf f old, fun sd => ?_⟩
      · rcases treeInv_parent h ho with h1 | h1
        · exact .inl h1
        · exact .inr ((hin _).2 ⟨hpne, h1⟩)
      · rw [child_contract hl, if_neg hpne]
        by_cases hsd : sd = sideOf f old
        · rw [if_pos ⟨rfl, hsd⟩, hic.2, link_toNat]; simp [hsd]
        · rw [if_neg (fun hh => hsd hh.2)]
          simp only [hsd, iff_false]
          intro he
          have hne : f.child (f.par old).toNat sd ≠ nilLink := by rw [he]; exact link_ne_nil (Nat.le_of_lt hilt)
          have h1 := treeInv_child_par h hne
          rw [he, toNat_link (by unfold windowSize at hilt; omega), hic.2, hcpar hic.1] at h1
          exact hpne (by rw [← toNat_link (i := (f.par old).toNat) (by omega), ← h1, hon])
    · rw [if_neg hic]
      have hpo : (f.par i).toNat ≠ old := fun hp => hic (honly i hit hp)
      refine ⟨?_, sideOf f i, fun sd => ?_⟩
      · rcases treeInv_parent h hit with h1 | h1
        · exact .inl h1
        · exact .inr ((hin _).2 ⟨hpo, h1⟩)
      · rw [child_contract hl, if_neg hpo, ← treeInv_side h hit sd]
        split
        · rename_i hc2
          have h1 := treeInv_is_child h ho hc2.1.symm
          rw [← hc2.2] at h1
          rw [h1]
          constructor
          · intro he
            exfalso
            refine hic ⟨?_, ?_⟩
            · rw [he]; exact link_ne_nil (Nat.le_of_lt hilt)
            · rw [he, toNat_link (by unfold windowSize at hilt; omega)]
          · intro he
            exact absurd (link_inj (by unfold windowSize at holt; omega) (by unfold windowSize at hilt; omega) he).symm hio
        · rfl
  · intro i sd hne
    rw [child_contract hl] at hne ⊢
    by_cases hio : i = old
    · rw [if_pos hio] at hne; exact absurd rfl hne
    · rw [if_neg hio] at hne ⊢
      by_cases hic : i = (f.par old).toNat ∧ sd = sideOf f old
      · rw [if_pos hic] at hne ⊢
        refine ⟨(hin _).2 ⟨hcne hne, hcin hne⟩, ?_⟩
        rw [par_contract hl, if_neg (hcne hne), if_pos ⟨hne, rfl⟩, hic.1, link_toNat]
      · rw [if_neg hic] at hne ⊢
        have h1 := treeInv_child_inTree h hne
        have h2 := treeInv_child_par h hne
        have hino : (f.child i sd).toNat ≠ old := by
          intro he
          rw [he] at h2
          have h4 : i < 2 ^ 17 := by
            by_contra hbig
            have : f.inTree i = false := Bool.eq_false_iff.2 fun hh => by
              have := treeInv_slot_lt h hh; unfold windowSize at this; omega
            exact hne (treeInv_outside h (by unfold rootIndex; omega) this sd)
          have h3 : i = (f.par old).toNat := by rw [h2, toNat_link h4]
          refine hic ⟨h3, ?_⟩
          rw [← treeInv_side h ho sd, ← h3, ← he, link_toNat]
        refine ⟨(hin _).2 ⟨hino, h1⟩, ?_⟩
        rw [par_contract hl, if_neg hino, if_neg, h2]
        rintro ⟨h3, h4⟩
        rw [h4, hcpar h3] at h2
        have h5 := congrArg BitVec.toNat h2
        rw [hon] at h5
        by_cases hlt : i < 2 ^ 17
        · rw [toNat_link hlt] at h5; exact hio h5.symm
        · have : f.inTree i = false := Bool.eq_false_iff.2 fun hh => by
            have := treeInv_slot_lt h hh; unfold windowSize at this; omega
          exact hne (treeInv_outside h (by unfold rootIndex; omega) this sd)
  · intro i hir hi sd
    rw [child_contract hl]
    by_cases hio : i = old
    · rw [if_pos hio]
    · rw [if_neg hio]
      have hit : f.inTree i = false := Bool.eq_false_iff.2 fun hh => by rw [(hin i).2 ⟨hio, hh⟩] at hi; cases hi
      rw [if_neg]
      · exact treeInv_outside h hir hit sd
      · rintro ⟨h1, -⟩
        rcases treeInv_parent h ho with h2 | h2
        · exact hir (h1.trans h2)
        · rw [← h1, hit] at h2; cases h2
  · have key : ∀ k i, i = rootIndex ∨ f.inTree i = true → climb f k i = rootIndex →
        ∃ k', climb (contract f old c) k' (if i = old then (f.par old).toNat else i) = rootIndex := by
      intro k
      induction k with
      | zero =>
        intro i _ hk
        have : i = rootIndex := hk
        rw [if_neg (by rw [this]; exact Ne.symm hor)]
        exact ⟨0, hk⟩
      | succ k ih =>
        intro i hi hk
        rcases hi with rfl | hi
        · rw [if_neg (Ne.symm hor)]; exact ⟨0, rfl⟩
        · obtain ⟨k', hk'⟩ := ih (f.par i).toNat (treeInv_parent h hi) hk
          by_cases hio : i = old
          · rw [if_pos hio]
            rw [hio, if_neg hpne] at hk'
            exact ⟨k', hk'⟩
          · rw [if_neg hio]
            by_cases hpo : (f.par i).toNat = old
            · rw [if_pos hpo] at hk'
              refine ⟨k' + 1, ?_⟩
              show climb _ k' ((contract f old c).par i).toNat = _
              rw [par_contract hl, if_neg hio, if_pos (honly i hi hpo), hk']
            · rw [if_neg hpo] at hk'
              refine ⟨k' + 1, ?_⟩
              show climb _ k' ((contract f old c).par i).toNat = _
              rw [par_contract hl, if_neg hio, if_neg, hk']
              rintro ⟨h1, h2⟩
              rw [h2, hcpar h1, hon] at hpo
              exact hpo rfl
    intro i hi
    obtain ⟨hio, hit⟩ := (hin i).1 hi
    obtain ⟨k, hk⟩ := h.reach i hit
    obtain ⟨k', hk'⟩ := key k i (.inr hit) hk
    rw [if_neg hio] at hk'
    exact ⟨k', hk'⟩

/-! ## The candidate is not a link -/

@[simp] theorem relink_best (f : Finder) (p old : Nat) (v : BitVec 17) : (relink f p old v).best = f.best := by
  unfold relink; split <;> rfl

@[simp] theorem adopt_best (f : Finder) (c p : BitVec 17) : (adopt f c p).best = f.best := by
  unfold adopt; split <;> rfl

@[simp] theorem setPar_best (f : Finder) (i : Nat) (v : BitVec 17) : (f.setPar i v).best = f.best := rfl
@[simp] theorem setSm_best (f : Finder) (i : Nat) (v : BitVec 17) : (f.setSm i v).best = f.best := rfl
@[simp] theorem setLa_best (f : Finder) (i : Nat) (v : BitVec 17) : (f.setLa i v).best = f.best := rfl
@[simp] theorem clearSlot_best (f : Finder) (s : Nat) : (clearSlot f s).best = f.best := rfl

theorem contract_best (f : Finder) (old : Nat) (c : BitVec 17) : (contract f old c).best = f.best := by
  simp [contract]

theorem replaceNode_best (f : Finder) (old new : Nat) : (replaceNode f old new).best = f.best := by
  simp [replaceNode]

theorem compareFrom_ne_treeCycle (p q n i : Nat) (s : State) : compareFrom p q n i s ≠ .fault .treeCycle := by
  induction n generalizing i s with
  | zero => intro h; cases h
  | succ n ih =>
    unfold compareFrom
    intro h
    have hb : ∀ (k : Nat) (u : State), inByte k u ≠ .fault .treeCycle := by
      intro k u hk; unfold inByte at hk; split at hk <;> cases hk
    rcases Res.bind_eq_fault.1 h with h | ⟨b, u, -, h⟩
    · exact hb _ _ h
    · rcases Res.bind_eq_fault.1 h with h | ⟨c, v, -, h⟩
      · exact hb _ _ h
      · split at h
        · exact ih _ _ h
        · cases h

/-! ## Replace -/

/-- Whose parent is `old`: exactly its children. -/
theorem treeInv_par_eq_link {f : Finder} (h : TreeInv f) {old : Nat} (ho : old ≤ rootIndex) (k : Nat) :
    f.par k = link old ↔ (f.sm old ≠ nilLink ∧ k = (f.sm old).toNat) ∨ (f.la old ≠ nilLink ∧ k = (f.la old).toNat) := by
  have hon : (link old).toNat = old := toNat_link (by unfold rootIndex at ho; omega)
  constructor
  · intro hk
    have hin : f.inTree k = true := inTree_iff.2 (by rw [hk]; exact link_ne_nil ho)
    have hlt := treeInv_slot_lt h hin
    have h1 := treeInv_is_child h hin (by rw [hk, hon])
    cases hs : sideOf f k <;> rw [hs] at h1
    · left
      have h2 : f.sm old = link k := h1
      rw [h2]; exact ⟨link_ne_nil (Nat.le_of_lt hlt), (toNat_link (by unfold windowSize at hlt; omega)).symm⟩
    · right
      have h2 : f.la old = link k := h1
      rw [h2]; exact ⟨link_ne_nil (Nat.le_of_lt hlt), (toNat_link (by unfold windowSize at hlt; omega)).symm⟩
  · rintro (⟨h1, rfl⟩ | ⟨h1, rfl⟩)
    · exact treeInv_child_par h (i := old) (sd := .smaller) h1
    · exact treeInv_child_par h (i := old) (sd := .larger) h1

/-- R167, link by link. -/
theorem replaceNode_links {f : Finder} (h : TreeInv f) {old new : Nat} (ho : f.inTree old = true)
    (hn : f.inTree new = false) (hnl : new < windowSize) :
    (replaceNode f old new).LinksOk ∧
    (∀ k, (replaceNode f old new).par k =
      if k = old then nilLink else if k = new then f.par old else if f.par k = link old then link new else f.par k) ∧
    (∀ k sd, (replaceNode f old new).child k sd =
      if k = old then nilLink else if k = new then f.child old sd
      else if k = (f.par old).toNat ∧ sd = sideOf f old then link new else f.child k sd) := by
  have hl := h.links
  have holt := treeInv_slot_lt h ho
  have hno : new ≠ old := by rintro rfl; rw [hn] at ho; cases ho
  have hpn : (f.par old).toNat ≠ new := by
    intro he
    rcases treeInv_parent h ho with h1 | h1
    · unfold windowSize rootIndex at *; omega
    · rw [he, hn] at h1; cases h1
  have hl1 : ((f.setPar new (f.par old)).setChild new (f.sm old) .smaller).LinksOk :=
    linksOk_setChild (linksOk_setPar hl _ _) _ _ _
  generalize hf1 : (((f.setPar new (f.par old)).setSm new (f.sm old)).setLa new (f.la old)) = f1
  have hf1' : ((f.setPar new (f.par old)).setChild new (f.sm old) .smaller).setChild new (f.la old) .larger = f1 := hf1
  have hl2 : f1.LinksOk := by rw [← hf1']; exact linksOk_setChild hl1 _ _ _
  have hpar1 : ∀ k, f1.par k = if k = new then f.par old else f.par k := by
    intro k; rw [← hf1', par_setChild, par_setChild, par_setPar hl]
  have hch1 : ∀ k sd, f1.child k sd = if k = new then f.child old sd else f.child k sd := by
    intro k sd
    rw [← hf1', child_setChild hl1, child_setChild (linksOk_setPar hl _ _), child_setPar]
    cases sd <;> by_cases hk : k = new <;> simp [hk, Finder.child]
  have hsm1 : f1.sm new = f.sm old := by have := hch1 new .smaller; rwa [if_pos rfl] at this
  have hla1 : f1.la new = f.la old := by have := hch1 new .larger; rwa [if_pos rfl] at this
  have e : replaceNode f old new = clearSlot (relink (adopt (adopt f1 (f.sm old) (link new)) (f.la old) (link new))
      ((adopt (adopt f1 (f.sm old) (link new)) (f.la old) (link new)).par old).toNat old (link new)) old := by
    unfold replaceNode
    rw [hf1]
    dsimp only
    rw [hsm1, la_adopt, hla1]
  have hl3 := adopt_linksOk (adopt_linksOk hl2 (f.sm old) (link new)) (f.la old) (link new)
  have hpar3 : ∀ k, (adopt (adopt f1 (f.sm old) (link new)) (f.la old) (link new)).par k =
      if f.par k = link old then link new else if k = new then f.par old else f.par k := by
    intro k
    rw [par_adopt (adopt_linksOk hl2 _ _), par_adopt hl2, hpar1]
    have := treeInv_par_eq_link h (Nat.le_of_lt holt) k
    by_cases h1 : f.la old ≠ nilLink ∧ k = (f.la old).toNat
    · rw [if_pos h1, if_pos (this.2 (.inr h1))]
    · by_cases h2 : f.sm old ≠ nilLink ∧ k = (f.sm old).toNat
      · rw [if_neg h1, if_pos h2, if_pos (this.2 (.inl h2))]
      · rw [if_neg h1, if_neg h2, if_neg (fun hh => (this.1 hh).elim h2 h1)]
  have hself : f.par old ≠ link old := by
    intro he
    have := treeInv_par_ne h ho
    rw [he, toNat_link (by unfold windowSize at holt; omega)] at this
    exact this rfl
  have hpold : (adopt (adopt f1 (f.sm old) (link new)) (f.la old) (link new)).par old = f.par old := by
    rw [hpar3, if_neg hself, if_neg (Ne.symm hno)]
  have hlap : (adopt (adopt f1 (f.sm old) (link new)) (f.la old) (link new)).la (f.par old).toNat =
      f.la (f.par old).toNat := by
    rw [la_adopt, la_adopt]
    have := hch1 (f.par old).toNat .larger
    rwa [if_neg hpn] at this
  have hnew : f.par new ≠ link old := by
    intro he
    rw [not_inTree_iff] at hn
    rw [hn] at he
    exact link_ne_nil (Nat.le_of_lt holt) he.symm
  refine ⟨?_, fun k => ?_, fun k sd => ?_⟩
  · rw [e, relink_eq]; exact clearSlot_linksOk (linksOk_setChild hl3 _ _ _) _
  · rw [e, relink_eq, par_clearSlot (linksOk_setChild hl3 _ _ _), par_setChild, hpar3]
    by_cases hk : k = new
    · simp [hk, hnew]
    · rw [if_neg hk, if_neg hk]
  · rw [e, relink_eq, hpold, hlap, child_clearSlot (linksOk_setChild hl3 _ _ _), child_setChild hl3, child_adopt,
      child_adopt, hch1]
    by_cases hk : k = new
    · rw [if_pos hk, if_pos hk]
      by_cases hko : k = old
      · rw [if_pos hko, if_pos hko]
      · rw [if_neg hko, if_neg hko, if_neg]
        rintro ⟨h1, -⟩
        exact hpn (h1 ▸ hk)
    · rw [if_neg hk, if_neg hk]; rfl

/-- R167: a slot outside the tree takes the place of one inside. -/
theorem replaceNode_treeInv {f : Finder} (h : TreeInv f) {old new : Nat} (ho : f.inTree old = true)
    (hn : f.inTree new = false) (hnl : new < windowSize) : TreeInv (replaceNode f old new) := by
  obtain ⟨hlo, hpar, hch⟩ := replaceNode_links h ho hn hnl
  have holt := treeInv_slot_lt h ho
  have hno : new ≠ old := by rintro rfl; rw [hn] at ho; cases ho
  have hor : old ≠ rootIndex := by rintro rfl; rw [treeInv_root_out h] at ho; cases ho
  have hnr : new ≠ rootIndex := by unfold windowSize rootIndex at *; omega
  have hon : (link old).toNat = old := toNat_link (by unfold windowSize at holt; omega)
  have hnn : (link new).toNat = new := toNat_link (by unfold windowSize at hnl; omega)
  have honil : link old ≠ nilLink := link_ne_nil (Nat.le_of_lt holt)
  have hnnil : link new ≠ nilLink := link_ne_nil (Nat.le_of_lt hnl)
  have hpne := treeInv_par_ne h ho
  have hpn : (f.par old).toNat ≠ new := by
    intro he
    rcases treeInv_parent h ho with h1 | h1
    · exact hnr (he.symm.trans h1)
    · rw [he, hn] at h1; cases h1
  have hin : ∀ i, (replaceNode f old new).inTree i = true ↔ i ≠ old ∧ (i = new ∨ f.inTree i = true) := by
    intro i
    rw [inTree_iff, inTree_iff, hpar]
    by_cases hio : i = old
    · simp [hio]
    · rw [if_neg hio]
      by_cases hin2 : i = new
      · rw [if_pos hin2]; exact ⟨fun _ => ⟨hio, .inl hin2⟩, fun _ => inTree_iff.1 ho⟩
      · rw [if_neg hin2]
        split
        · rename_i hpl
          exact ⟨fun _ => ⟨hio, .inr (by rw [hpl]; exact honil)⟩, fun _ => hnnil⟩
        · simp [hio, hin2]
  have hlt : ∀ {i}, f.inTree i = true → i < 2 ^ 17 := fun hi => by
    have := treeInv_slot_lt h hi; unfold windowSize at this; omega
  have hchild_old : ∀ i sd, f.child i sd = link old → i = (f.par old).toNat ∧ sd = sideOf f old := by
    intro i sd he
    have hne : f.child i sd ≠ nilLink := by rw [he]; exact honil
    have h2 := treeInv_child_par h hne
    rw [he, hon] at h2
    have hib : i < 2 ^ 17 := by
      by_contra hbig
      have : f.inTree i = false := Bool.eq_false_iff.2 fun hh => hbig (hlt hh)
      exact hne (treeInv_outside h (by unfold rootIndex; omega) this sd)
    have h3 : i = (f.par old).toNat := by rw [h2, toNat_link hib]
    refine ⟨h3, ?_⟩
    rw [← treeInv_side h ho sd, ← h3, he]
  refine treeInv_mk hlo ?_ ?_ ?_ ?_ ?_ ?_
  · rw [hpar, if_neg (Ne.symm hor), if_neg (Ne.symm hnr), h.root.1, if_neg (Ne.symm honil)]
  · rw [hch, if_neg (Ne.symm hor), if_neg (Ne.symm hnr), if_neg]
    · exact h.root.2
    · rintro ⟨h1, h2⟩
      have h3 := treeInv_is_child h ho h1.symm
      rw [← h2] at h3
      exact honil (h3.symm.trans h.root.2)
  · intro i hi
    obtain ⟨hio, hi2⟩ := (hin i).1 hi
    by_cases hinew : i = new
    · subst hinew
      refine ⟨hnl, ?_⟩
      rw [hpar, if_neg hio, if_pos rfl]
      refine ⟨?_, sideOf f old, fun sd => ?_⟩
      · rcases treeInv_parent h ho with h1 | h1
        · exact .inl h1
        · exact .inr ((hin _).2 ⟨hpne, .inr h1⟩)
      · rw [hch, if_neg hpne, if_neg hpn]
        by_cases hsd : sd = sideOf f old
        · simp [hsd]
        · rw [if_neg (fun hh => hsd hh.2)]
          simp only [hsd, iff_false]
          intro he
          have h1 := treeInv_child_inTree h (i := (f.par old).toNat) (sd := sd) (by rw [he]; exact hnnil)
          rw [he, hnn, hn] at h1; cases h1
    · have hit := hi2.resolve_left hinew
      refine ⟨treeInv_slot_lt h hit, ?_⟩
      rw [hpar, if_neg hio, if_neg hinew]
      by_cases hpl : f.par i = link old
      · rw [if_pos hpl, hnn]
        refine ⟨.inr ((hin new).2 ⟨hno, .inl rfl⟩), sideOf f i, fun sd => ?_⟩
        rw [hch, if_neg hno, if_pos rfl, ← treeInv_side h hit sd, hpl, hon]
      · rw [if_neg hpl]
        have hpo : (f.par i).toNat ≠ old := by
          intro he; exact hpl (by rw [← he, link_toNat])
        have hpnew : (f.par i).toNat ≠ new := by
          intro he
          rcases treeInv_parent h hit with h1 | h1
          · exact hnr (he.symm.trans h1)
          · rw [he, hn] at h1; cases h1
        refine ⟨?_, sideOf f i, fun sd => ?_⟩
        · rcases treeInv_parent h hit with h1 | h1
          · exact .inl h1
          · exact .inr ((hin _).2 ⟨hpo, .inr h1⟩)
        · rw [hch, if_neg hpo, if_neg hpnew, ← treeInv_side h hit sd]
          split
          · rename_i hc2
            have h1 := treeInv_is_child h ho hc2.1.symm
            rw [← hc2.2] at h1
            rw [h1]
            constructor
            · intro he
              exact absurd (link_inj (by unfold windowSize at hnl; omega) (hlt hit) he).symm hinew
            · intro he
              exact absurd (link_inj (hlt ho) (hlt hit) he).symm hio
          · rfl
  · intro i sd hne
    rw [hch] at hne ⊢
    by_cases hio : i = old
    · rw [if_pos hio] at hne; exact absurd rfl hne
    · rw [if_neg hio] at hne ⊢
      by_cases hinew : i = new
      · rw [if_pos hinew] at hne ⊢
        have h1 := treeInv_child_inTree h hne
        have h2 := treeInv_child_par h hne
        have h3 : (f.child old sd).toNat ≠ old := by
          intro he
          have := treeInv_par_ne h h1
          rw [h2, hon] at this
          exact this he.symm
        have h4 : (f.child old sd).toNat ≠ new := by
          intro he; rw [he, hn] at h1; cases h1
        refine ⟨(hin _).2 ⟨h3, .inr h1⟩, ?_⟩
        rw [hpar, if_neg h3, if_neg h4, if_pos h2, hinew]
      · rw [if_neg hinew] at hne ⊢
        by_cases hip : i = (f.par old).toNat ∧ sd = sideOf f old
        · rw [if_pos hip, hnn]
          refine ⟨(hin _).2 ⟨hno, .inl rfl⟩, ?_⟩
          rw [hpar, if_neg hno, if_pos rfl, hip.1, link_toNat]
        · rw [if_neg hip] at hne ⊢
          have h1 := treeInv_child_inTree h hne
          have h2 := treeInv_child_par h hne
          have h3 : (f.child i sd).toNat ≠ old := by
            intro he; exact hip (hchild_old i sd (by rw [← he, link_toNat]))
          have h4 : (f.child i sd).toNat ≠ new := by
            intro he; rw [he, hn] at h1; cases h1
          refine ⟨(hin _).2 ⟨h3, .inr h1⟩, ?_⟩
          rw [hpar, if_neg h3, if_neg h4, if_neg, h2]
          rw [h2]
          intro he
          by_cases hib : i < 2 ^ 17
          · exact hio (link_inj hib (hlt ho) he)
          · have : f.inTree i = false := Bool.eq_false_iff.2 fun hh => hib (hlt hh)
            exact hne (treeInv_outside h (by unfold rootIndex; omega) this sd)
  · intro i hir hi sd
    have hno2 : ¬ (i ≠ old ∧ (i = new ∨ f.inTree i = true)) := fun hh => by rw [(hin i).2 hh] at hi; cases hi
    rw [hch]
    by_cases hio : i = old
    · rw [if_pos hio]
    · rw [if_neg hio]
      have hinew : i ≠ new := fun hh => hno2 ⟨hio, .inl hh⟩
      have hit : f.inTree i = false := Bool.eq_false_iff.2 fun hh => hno2 ⟨hio, .inr hh⟩
      rw [if_neg hinew, if_neg]
      · exact treeInv_outside h hir hit sd
      · rintro ⟨h1, -⟩
        rcases treeInv_parent h ho with h2 | h2
        · exact hir (h1.trans h2)
        · rw [← h1, hit] at h2; cases h2
  · have key : ∀ k i, i = rootIndex ∨ f.inTree i = true → climb f k i = rootIndex →
        ∃ k', climb (replaceNode f old new) k' (if i = old then new else i) = rootIndex := by
      intro k
      induction k with
      | zero =>
        intro i _ hk
        have : i = rootIndex := hk
        rw [if_neg (by rw [this]; exact Ne.symm hor)]
        exact ⟨0, hk⟩
      | succ k ih =>
        intro i hi hk
        rcases hi with rfl | hi
        · rw [if_neg (Ne.symm hor)]; exact ⟨0, rfl⟩
        · obtain ⟨k', hk'⟩ := ih (f.par i).toNat (treeInv_parent h hi) hk
          refine ⟨k' + 1, ?_⟩
          by_cases hio : i = old
          · rw [hio, if_neg hpne] at hk'
            rw [if_pos hio]
            show climb _ k' ((replaceNode f old new).par new).toNat = _
            rw [hpar, if_neg hno, if_pos rfl, hk']
          · have hinew : i ≠ new := by rintro rfl; rw [hn] at hi; cases hi
            rw [if_neg hio]
            show climb _ k' ((replaceNode f old new).par i).toNat = _
            rw [hpar, if_neg hio, if_neg hinew]
            by_cases hpl : f.par i = link old
            · rw [if_pos hpl, hnn]
              rw [hpl, hon, if_pos rfl] at hk'
              exact hk'
            · rw [if_neg hpl]
              rw [if_neg (fun he => hpl (by rw [← he, link_toNat]))] at hk'
              exact hk'
    intro i hi
    obtain ⟨hio, hi2⟩ := (hin i).1 hi
    rcases hi2 with rfl | hit
    · obtain ⟨k, hk⟩ := h.reach old ho
      obtain ⟨k', hk'⟩ := key k old (.inr ho) hk
      rw [if_pos rfl] at hk'
      exact ⟨k', hk'⟩
    · obtain ⟨k, hk⟩ := h.reach i hit
      obtain ⟨k', hk'⟩ := key k i (.inr hit) hk
      rw [if_neg hio] at hk'
      exact ⟨k', hk'⟩

/-! ## Depths -/

theorem climb_add (f : Finder) (j k i : Nat) : climb f (j + k) i = climb f k (climb f j i) := by
  induction j generalizing i with
  | zero => rw [Nat.zero_add]; rfl
  | succ j ih => rw [Nat.add_right_comm]; exact ih _

/-- How many links lead from a slot up to ROOT. -/
def DepthIs (f : Finder) (i k : Nat) : Prop := climb f k i = rootIndex ∧ ∀ j, j < k → climb f j i ≠ rootIndex

theorem treeInv_depth {f : Finder} (h : TreeInv f) {i : Nat} (hi : f.inTree i = true) : ∃ k, DepthIs f i k := by
  have hex := h.reach i hi
  classical
  exact ⟨Nat.find hex, Nat.find_spec hex, fun j hj => Nat.find_min hex hj⟩

theorem depthIs_child {f : Finder} (h : TreeInv f) {i k : Nat} {sd : Side} (hi : i = rootIndex ∨ f.inTree i = true)
    (hd : DepthIs f i k) (hne : f.child i sd ≠ nilLink) : DepthIs f (f.child i sd).toNat (k + 1) := by
  have hin := treeInv_child_inTree h hne
  have hp := treeInv_child_par h hne
  have hil : i < 2 ^ 17 := by
    rcases hi with rfl | hi
    · decide
    · have := treeInv_slot_lt h hi; unfold windowSize at this; omega
  have hpn : (f.par (f.child i sd).toNat).toNat = i := by rw [hp, toNat_link hil]
  refine ⟨?_, fun j hj => ?_⟩
  · show climb f k (f.par (f.child i sd).toNat).toNat = _
    rw [hpn]; exact hd.1
  · cases j with
    | zero =>
      intro he
      have he2 : (f.child i sd).toNat = rootIndex := he
      rw [he2, treeInv_root_out h] at hin; cases hin
    | succ j =>
      show climb f j (f.par (f.child i sd).toNat).toNat ≠ _
      rw [hpn]; exact hd.2 j (by omega)

theorem climb_inTree {f : Finder} (h : TreeInv f) {i k j : Nat} (hi : f.inTree i = true) (hd : DepthIs f i k) (hj : j < k) :
    f.inTree (climb f j i) = true := by
  induction j with
  | zero => exact hi
  | succ j ih =>
    have h1 := ih (by omega)
    have h2 : climb f (j + 1) i = (f.par (climb f j i)).toNat := climb_add f j 1 i
    rcases treeInv_parent h h1 with h3 | h3
    · exact absurd (h2.trans h3) (hd.2 _ hj)
    · rw [h2]; exact h3

/-- No slot is deeper than there are slots. -/
theorem depthIs_le {f : Finder} (h : TreeInv f) {i k : Nat} (hi : f.inTree i = true) (hd : DepthIs f i k) : k ≤ windowSize := by
  by_contra hk
  have hlt : ∀ j : Fin k, climb f j i < windowSize := fun j => treeInv_slot_lt h (climb_inTree h hi hd j.isLt)
  let g : Fin k → Fin windowSize := fun j => ⟨climb f j i, hlt j⟩
  have hcard : Fintype.card (Fin windowSize) < Fintype.card (Fin k) := by
    rw [Fintype.card_fin, Fintype.card_fin]; omega
  obtain ⟨a, b, hab, he⟩ := Fintype.exists_ne_map_eq_of_card_lt g hcard
  have he' : climb f a i = climb f b i := congrArg Fin.val he
  have aux : ∀ a b : Fin k, (a : Nat) < b → climb f a i = climb f b i → False := by
    intro a b hlt he
    have h1 : climb f (a + (k - b)) i = rootIndex := by
      rw [climb_add, he, ← climb_add, show (b : Nat) + (k - b) = k from by have := b.isLt; omega]
      exact hd.1
    exact hd.2 _ (by have := b.isLt; omega) h1
  rcases Nat.lt_or_gt_of_ne (fun hv => hab (Fin.ext hv)) with hl | hl
  · exact aux a b hl he'
  · exact aux b a hl he'.symm

/-! ## Delete -/

/-- R169's search for the predecessor ends, at a slot of the tree without a larger child. -/
theorem rightmost_of_depth {f : Finder} (h : TreeInv f) {n r k : Nat} (hr : f.inTree r = true) (hd : DepthIs f r k)
    (hn : windowSize < n + k) : ∃ q, rightmost f n r = some q ∧ f.inTree q = true ∧ f.la q = nilLink := by
  induction n generalizing r k with
  | zero => have := depthIs_le h hr hd; omega
  | succ n ih =>
    unfold rightmost
    by_cases hl : f.la r = nilLink
    · rw [if_pos hl]; exact ⟨r, rfl, hr, hl⟩
    · rw [if_neg hl]
      exact ih (treeInv_child_inTree h (i := r) (sd := .larger) hl)
        (depthIs_child h (i := r) (sd := .larger) (.inr hr) hd hl) (by omega)

theorem inTree_contract {f : Finder} (h : TreeInv f) {old : Nat} {se : Side} (ho : f.inTree old = true) (i : Nat) :
    (contract f old (f.child old se)).inTree i = (f.inTree i && i != old) := by
  rw [Bool.eq_iff_iff]
  simp only [Bool.and_eq_true, bne_iff_ne]
  rw [inTree_iff, inTree_iff, par_contract h.links]
  by_cases hi : i = old
  · simp [hi]
  · rw [if_neg hi]
    split
    · rename_i hc
      have h1 := treeInv_child_inTree h hc.1
      rw [← hc.2] at h1
      exact ⟨fun _ => ⟨inTree_iff.1 h1, hi⟩, fun _ => inTree_iff.1 ho⟩
    · simp [hi]

/-- R169: DeleteSlot ends, keeps the invariants, and takes exactly that slot out of the tree. -/
theorem deleteSlot_treeInv {f : Finder} (h : TreeInv f) {s : Nat} (hs : s < windowSize) :
    ∃ g, deleteSlot f s = some g ∧ TreeInv g ∧ g.best = f.best ∧ ∀ i, g.inTree i = (f.inTree i && i != s) := by
  unfold deleteSlot
  by_cases hin : f.inTree s = true
  · rw [if_neg (by simp [hin])]
    by_cases hla : f.la s = nilLink
    · rw [if_pos hla]
      exact ⟨_, rfl, contract_treeInv h (se := .smaller) hin hla, contract_best _ _ _,
        inTree_contract h (se := .smaller) hin⟩
    · rw [if_neg hla]
      by_cases hsm : f.sm s = nilLink
      · rw [if_pos hsm]
        exact ⟨_, rfl, contract_treeInv h (se := .larger) hin hsm, contract_best _ _ _,
          inTree_contract h (se := .larger) hin⟩
      · rw [if_neg hsm]
        have hc := treeInv_child_inTree h (i := s) (sd := .smaller) hsm
        obtain ⟨k, hk⟩ := treeInv_depth h hc
        obtain ⟨r, hr, hrin, hrla⟩ := rightmost_of_depth h (n := treeFuel) hc hk (by unfold windowSize treeFuel; omega)
        have hr' : rightmost f treeFuel (f.sm s).toNat = some r := hr
        rw [hr']
        have hrs : r ≠ s := by rintro rfl; exact hla hrla
        have hpre : deletePredecessor f r = contract f r (f.child r .smaller) := by
          unfold deletePredecessor; rw [if_pos hrin]; rfl
        have h1 := contract_treeInv h (se := .smaller) hrin hrla
        have h2 := inTree_contract h (se := .smaller) hrin
        have h3 : (contract f r (f.child r .smaller)).inTree s = true := by
          rw [h2, hin]; simp [Ne.symm hrs]
        have h4 : (contract f r (f.child r .smaller)).inTree r = false := by rw [h2]; simp
        refine ⟨_, rfl, ?_, ?_, fun i => ?_⟩
        · show TreeInv (replaceNode (deletePredecessor f r) s r)
          rw [hpre]; exact replaceNode_treeInv h1 h3 h4 (treeInv_slot_lt h hrin)
        · show (replaceNode (deletePredecessor f r) s r).best = f.best
          rw [hpre, replaceNode_best, contract_best]
        · show (replaceNode (deletePredecessor f r) s r).inTree i = _
          rw [hpre]
          obtain ⟨-, hpar, -⟩ := replaceNode_links h1 h3 h4 (treeInv_slot_lt h hrin)
          have h5 : f.inTree i = true → i ≠ s → i ≠ r → (contract f r (f.child r .smaller)).inTree i = true := by
            intro a b c; rw [h2, a]; simp [c]
          rw [Bool.eq_iff_iff, inTree_iff, hpar]
          simp only [Bool.and_eq_true, bne_iff_ne]
          by_cases his : i = s
          · simp [his]
          · rw [if_neg his]
            by_cases hir : i = r
            · rw [if_pos hir]
              exact ⟨fun _ => ⟨by rw [hir]; exact hrin, his⟩, fun _ => inTree_iff.1 h3⟩
            · rw [if_neg hir]
              split
              · rename_i hpl
                have : (contract f r (f.child r .smaller)).inTree i = true :=
                  inTree_iff.2 (by rw [hpl]; exact link_ne_nil (Nat.le_of_lt hs))
                rw [h2] at this
                exact ⟨fun _ => ⟨(Bool.and_eq_true _ _ ▸ this).1, his⟩,
                  fun _ => link_ne_nil (Nat.le_of_lt (treeInv_slot_lt h hrin))⟩
              · rw [← inTree_iff, h2]
                simp [hir, his]
  · rw [if_pos (by simpa using hin)]
    refine ⟨f, rfl, h, rfl, fun i => ?_⟩
    by_cases hi : i = s
    · subst hi; simpa using hin
    · simp [hi]

/-! ## The walk -/

/-- R163: a walk ends before it has followed more links than there are slots. -/
theorem walkFrom_ne_treeCycle {p m n t bl bd : Nat} {s : State} (h : TreeInv s.mf) {k : Nat} (ht : s.mf.inTree t = true)
    (hd : DepthIs s.mf t k) (hn : windowSize < n + k) : walkFrom p m n t bl bd s ≠ .fault .treeCycle := by
  induction n generalizing t bl bd k with
  | zero => have := depthIs_le h ht hd; omega
  | succ n ih =>
    unfold walkFrom
    dsimp only
    intro he
    obtain ⟨-, he⟩ := require_eq_fault.1 he
    rcases Res.bind_eq_fault.1 he with he | ⟨r, u, hr, he⟩
    · exact compareFrom_ne_treeCycle _ _ _ _ _ he
    · have hu : s = u := (compareFrom_stays _ _ _ _ s).ok hr
      subst hu
      generalize (if r.2 = true then Side.larger else Side.smaller) = sd at he
      split at he
      · cases he
      · split at he
        · cases he
        · rename_i hne
          exact ih (treeInv_child_inTree h hne) (depthIs_child h (.inr ht) hd hne) (by omega) he

/-- Where a walk ends: at a slot of the tree with no child on the side of a new leaf, or, in an empty tree, at ROOT. -/
def WalkEnd.Fits (f : Finder) : WalkEnd → Prop
  | .leaf t sd => (t = rootIndex ∧ sd = .larger ∨ f.inTree t = true) ∧ f.child t sd = nilLink
  | .full t => f.inTree t = true

theorem walkFrom_fits {p m n t bl bd : Nat} {s u : State} {r : WalkResult} (h : TreeInv s.mf) (ht : s.mf.inTree t = true)
    (hr : walkFrom p m n t bl bd s = .ok r u) : r.stop.Fits s.mf := by
  induction n generalizing t bl bd with
  | zero => cases hr
  | succ n ih =>
    unfold walkFrom at hr
    dsimp only at hr
    obtain ⟨-, hr⟩ := require_eq_ok.1 hr
    obtain ⟨c, v, hc, hr⟩ := Res.bind_eq_ok.1 hr
    have hv : s = v := (compareFrom_stays _ _ _ _ s).ok hc
    subst hv
    generalize (if c.2 = true then Side.larger else Side.smaller) = sd at hr
    split at hr
    · cases hr; exact ht
    · split at hr
      · rename_i hne
        cases hr; exact ⟨.inr ht, hne⟩
      · rename_i hne
        exact ih (treeInv_child_inTree h hne) hr

theorem walkRoot_fits {p : Nat} {s u : State} {r : WalkResult} (h : TreeInv s.mf) (hr : walkRoot p s = .ok r u) :
    r.stop.Fits s.mf := by
  unfold walkRoot at hr
  split at hr
  · rename_i hla
    cases hr; exact ⟨.inl ⟨rfl, rfl⟩, hla⟩
  · rename_i hla
    exact walkFrom_fits h (treeInv_child_inTree h (i := rootIndex) (sd := .larger) hla) hr

/-- R163, R166: what an insert does at the end of its walk keeps the invariants. -/
theorem linkIn_treeInv {f : Finder} (h : TreeInv f) {stop : WalkEnd} (hf : stop.Fits f) {s : Nat} (hs : s < windowSize)
    (hn : f.inTree s = false) : TreeInv (linkIn f stop s) := by
  cases stop with
  | leaf t sd => exact attach_treeInv h hf.1 hn hs hf.2
  | full t => exact replaceNode_treeInv h hf hn hs

/-- The candidate is no part of the tree. -/
theorem treeInv_best {f : Finder} (h : TreeInv f) (b : Best) : TreeInv { f with best := b } := by
  have hc : ∀ k i, climb { f with best := b } k i = climb f k i := by
    intro k
    induction k with
    | zero => intro i; rfl
    | succ k ih => intro i; exact ih _
  exact ⟨h.links, h.root, h.parent, fun i sd => by
    cases sd
    · exact h.child i .smaller
    · exact h.child i .larger, h.outside, fun i hi => by
    obtain ⟨k, hk⟩ := h.reach i hi
    exact ⟨k, by rw [hc]; exact hk⟩⟩

/-- R163: a walk never runs into a cycle, and it keeps the invariants. -/
theorem walk_treeInv {p : Nat} {mutate : Bool} {s : State} (h : TreeInv s.mf) :
    walk p mutate s ≠ .fault .treeCycle ∧ (walk p mutate s).Stays (fun _ t => TreeInv t.mf) s := by
  unfold walk
  refine ⟨fun he => ?_, ?_⟩
  · obtain ⟨-, he⟩ := require_eq_fault.1 he
    obtain ⟨-, he⟩ := require_eq_fault.1 he
    obtain ⟨-, he⟩ := require_eq_fault.1 he
    rcases Res.bind_eq_fault.1 he with he | ⟨r, u, hr, he⟩
    · unfold walkRoot at he
      split at he
      · cases he
      · rename_i hla
        have hroot : DepthIs s.mf rootIndex 0 := ⟨rfl, fun j hj => by omega⟩
        exact walkFrom_ne_treeCycle h (treeInv_child_inTree h (i := rootIndex) (sd := .larger) hla)
          (depthIs_child h (.inl rfl) hroot (sd := .larger) hla) (by unfold windowSize treeFuel; omega) he
    · cases he
  · by_cases h1 : s.inputOk = true
    · rw [require_of h1]
      by_cases h2 : s.positionOk p = true
      · rw [require_of h2]
        by_cases h3 : (!(mutate && s.mf.inTree (slotOf p))) = true
        · rw [require_of h3]
          cases hr : walkRoot p s with
          | fault f => exact trivial
          | err e t => exact (walkRoot_stays p s).err hr ▸ h
          | ok r u =>
            have hu : s = u := (walkRoot_stays p s).ok hr
            subst hu
            have hf := walkRoot_fits h hr
            cases mutate with
            | false => exact treeInv_best h _
            | true =>
              have hn : s.mf.inTree (slotOf p) = false := by simpa using h3
              exact treeInv_best (linkIn_treeInv h hf (Nat.mod_lt _ (by decide)) hn) _
        · rw [require_of_not h3]; exact h
      · rw [require_of_not h2]; exact h
    · rw [require_of_not h1]; exact h

/-- R169 over the state. -/
theorem deleteAt_treeInv {slot : Nat} {s : State} (h : TreeInv s.mf) (hs : slot < windowSize) :
    ∃ t, deleteAt slot s = .ok () t ∧ OnlyFinder s t ∧ TreeInv t.mf ∧ t.mf.best = s.mf.best ∧
      ∀ i, t.mf.inTree i = (s.mf.inTree i && i != slot) := by
  obtain ⟨g, hg, h1, h2, h3⟩ := deleteSlot_treeInv h hs
  refine ⟨{ s with mf := g }, ?_, rfl, h1, h2, h3⟩
  unfold deleteAt; rw [hg]

end Sys2Proof.Machine
end

