-- ==== Sys2Proof/Laws/Descent.lean ====
section
/-! SUPPORT. What a walk finds and where it ends (R160–R166): a descent of the tree, told comparison by comparison,
decides the candidate and the links. -/

namespace Sys2Proof.Machine

/-! ## One comparison -/

theorem compareLimit_eq (p : Nat) (s : State) : compareLimit p s = min 256 (s.ctl.inLen.toNat - p) := rfl

/-- R162: the loop counts the equal bytes and takes the side. -/
theorem compareFrom_compared {s : State} {p q i : Nat} {side : Side} (hc : Compared s p q i)
    (hs : TakesSide s p q i side) {n k : Nat} (hk : k ≤ i) (hn : k + n = compareLimit p s) :
    compareFrom p q n k s = .ok (i, decide (side = .larger)) s := by
  induction n generalizing k with
  | zero =>
    have hl := hc.limit
    rw [compareLimit_eq] at hn
    have hki : k = i := by omega
    subst hki
    cases side with
    | larger => rfl
    | smaller => have := hs.1; omega
  | succ n ih =>
    rw [compareLimit_eq] at hn
    rcases Nat.lt_or_eq_of_le hk with hlt | rfl
    · obtain ⟨h1, h2⟩ := hc.same k hlt
      obtain ⟨b, hb⟩ := Option.isSome_iff_exists.1 h1
      rw [compareFrom, inByte_eq_ok.2 ⟨hb, rfl⟩, Res.bind_ok, inByte_eq_ok.2 ⟨h2.trans hb, rfl⟩, Res.bind_ok, if_pos rfl]
      exact ih hlt (by rw [compareLimit_eq]; omega)
    · have hlt : k < min 256 (s.ctl.inLen.toNat - p) := by omega
      obtain ⟨b, c, hb, hcc, hne⟩ := hc.differ.resolve_left (by omega)
      rw [compareFrom, inByte_eq_ok.2 ⟨hb, rfl⟩, Res.bind_ok, inByte_eq_ok.2 ⟨hcc, rfl⟩, Res.bind_ok, if_neg hne]
      cases side with
      | larger =>
        obtain ⟨b', c', hb', hc', hlt'⟩ := hs.resolve_left (by omega)
        rw [hb] at hb'; rw [hcc] at hc'
        cases hb'; cases hc'
        simp [hlt']
      | smaller =>
        obtain ⟨-, b', c', hb', hc', hlt'⟩ := hs
        rw [hb] at hb'; rw [hcc] at hc'
        cases hb'; cases hc'
        simp; omega

/-- R162: on a written input a comparison has an outcome. -/
theorem exists_compared {s : State} {p q : Nat} (hq : q ≤ p)
    (hw : ∀ i, i < s.ctl.inLen.toNat → (Memory.read? s.ibuf i).isSome = true) :
    ∃ i side, Compared s p q i ∧ TakesSide s p q i side := by
  have key : ∀ n k, k + n = min 256 (s.ctl.inLen.toNat - p) →
      (∀ j, j < k → Memory.read? s.ibuf (q + j) = Memory.read? s.ibuf (p + j)) →
      ∃ i side, Compared s p q i ∧ TakesSide s p q i side := by
    intro n
    induction n with
    | zero =>
      intro k hk hsame
      exact ⟨k, .larger, ⟨by omega, fun j hj => ⟨hw _ (by omega), hsame j hj⟩, .inl (by omega)⟩, .inl (by omega)⟩
    | succ n ih =>
      intro k hk hsame
      obtain ⟨b, hb⟩ := Option.isSome_iff_exists.1 (hw (p + k) (by omega))
      obtain ⟨c, hc⟩ := Option.isSome_iff_exists.1 (hw (q + k) (by omega))
      by_cases he : b = c
      · subst he
        refine ih (k + 1) (by omega) fun j hj => ?_
        rcases Nat.lt_or_eq_of_le (Nat.le_of_lt_succ hj) with h | rfl
        · exact hsame j h
        · rw [hb, hc]
      · have hcmp : Compared s p q k :=
          ⟨by omega, fun j hj => ⟨hw _ (by omega), hsame j hj⟩, .inr ⟨b, c, hb, hc, he⟩⟩
        have hne : b.toNat ≠ c.toNat := fun h => he (BitVec.eq_of_toNat_eq h)
        rcases Nat.lt_or_gt_of_ne hne with h | h
        · exact ⟨k, .smaller, hcmp, by omega, b, c, hb, hc, h⟩
        · exact ⟨k, .larger, hcmp, .inr ⟨b, c, hb, hc, h⟩⟩
  exact key _ 0 (Nat.zero_add _) fun j hj => by omega

/-! ## The candidate -/

/-- R165: the update of the candidate by the comparisons of a descent, in order. -/
def updateBest (best : Nat × Nat) (path : List (Nat × Nat)) : Nat × Nat :=
  path.foldl (fun b x => if b.1 ≤ x.1 then x else b) best

@[simp] theorem updateBest_nil (b : Nat × Nat) : updateBest b [] = b := rfl

@[simp] theorem updateBest_cons (b x : Nat × Nat) (path : List (Nat × Nat)) :
    updateBest b (x :: path) = updateBest (if b.1 ≤ x.1 then x else b) path := rfl

/-- R164, R165: one update, as the walk computes it. -/
theorem updateBest_one (bl bd i d : Nat) (path : List (Nat × Nat)) :
    updateBest (bl, bd) ((competing i d, d) :: path) =
      updateBest (if bl ≤ effectiveLen i d then effectiveLen i d else bl, if bl ≤ effectiveLen i d then d else bd) path := by
  have : competing i d = effectiveLen i d := rfl
  simp only [updateBest_cons, this]
  split <;> rfl

/-- R165: the candidate stays, being longer than every comparison, or becomes the last of the longest. -/
theorem updateBest_cases (path : List (Nat × Nat)) (b : Nat × Nat) :
    (updateBest b path = b ∧ ∀ x ∈ path, x.1 < b.1) ∨
    (b.1 ≤ (updateBest b path).1 ∧ BestOf path (updateBest b path).1 (updateBest b path).2) := by
  induction path generalizing b with
  | nil => exact .inl ⟨rfl, fun x hx => by cases hx⟩
  | cons x path ih =>
    rw [updateBest_cons]
    split
    · rename_i hle
      rcases ih x with ⟨he, hlt⟩ | ⟨hge, pre, post, hp, h1, h2⟩
      · rw [he]; exact .inr ⟨hle, [], path, rfl, by simp, hlt⟩
      · refine .inr ⟨by omega, x :: pre, post, by rw [List.cons_append, ← hp], fun y hy => ?_, h2⟩
        rcases List.mem_cons.1 hy with rfl | hy
        · exact hge
        · exact h1 y hy
    · rename_i hgt
      rcases ih b with ⟨he, hlt⟩ | ⟨hge, pre, post, hp, h1, h2⟩
      · refine .inl ⟨he, fun y hy => ?_⟩
        rcases List.mem_cons.1 hy with rfl | hy
        · omega
        · exact hlt y hy
      · refine .inr ⟨hge, x :: pre, post, by rw [List.cons_append, ← hp], fun y hy => ?_, h2⟩
        rcases List.mem_cons.1 hy with rfl | hy
        · omega
        · exact h1 y hy

theorem updateBest_bestOf {path : List (Nat × Nat)} (h : path ≠ []) :
    BestOf path (updateBest (0, 0) path).1 (updateBest (0, 0) path).2 := by
  rcases updateBest_cases path (0, 0) with ⟨-, hlt⟩ | ⟨-, hb⟩
  · cases path with
    | nil => exact absurd rfl h
    | cons x path => exact absurd (hlt x (List.mem_cons_self ..)) (Nat.not_lt_zero _)
  · exact hb

/-! ## The walk -/

/-- What a walk along a descent comes to. -/
def descentResult (s : State) (best : Nat × Nat) (path : List (Nat × Nat)) : Option WalkEnd → Res WalkResult
  | none => .err (.internal .treePos) s
  | some stop => .ok ⟨(updateBest best path).1, (updateBest best path).2, stop⟩ s

/-- R163: a walk follows the descent to its end, unless it has no links left to follow. -/
theorem walkFrom_descent {s : State} {p t : Nat} {path : List (Nat × Nat)} {e : Option WalkEnd}
    (h : Descent s p t path e) {n bl bd : Nat} (hn : walkFrom p (compareLimit p s) n t bl bd s ≠ .fault .treeCycle) :
    walkFrom p (compareLimit p s) n t bl bd s = descentResult s (bl, bd) path e := by
  have hlim : lookahead = 256 := rfl
  induction h generalizing n bl bd with
  | noPosition t h =>
    cases n with
    | zero => exact absurd rfl hn
    | succ n => rw [walkFrom]; dsimp only; rw [require_of_not (by simpa using h)]; rfl
  | full t h hc =>
    cases n with
    | zero => exact absurd rfl hn
    | succ n =>
      have hs : TakesSide s p (p - slotDist p t) 256 .larger := .inl (by have := hc.limit; omega)
      rw [walkFrom]; dsimp only
      rw [require_of (by simpa using h), compareFrom_compared hc hs (Nat.zero_le _) (Nat.zero_add _), Res.bind_ok,
        if_pos hlim.symm]
      have h := updateBest_one bl bd 256 (slotDist p t) []
      rw [show competing 256 (slotDist p t) = 256 by simp [competing]] at h
      simp only [descentResult, h, updateBest_nil]
  | leaf t i side h hc hi hs hnil =>
    cases n with
    | zero => exact absurd rfl hn
    | succ n =>
      rw [walkFrom]; dsimp only
      rw [require_of (by simpa using h), compareFrom_compared hc hs (Nat.zero_le _) (Nat.zero_add _), Res.bind_ok,
        if_neg (show ¬ i = lookahead by rw [hlim]; exact hi)]
      have hsd : (if decide (side = Side.larger) = true then Side.larger else Side.smaller) = side := by cases side <;> rfl
      dsimp only
      rw [hsd, if_pos (show s.mf.child t side = nilLink from hnil)]
      simp only [descentResult, updateBest_one, updateBest_nil]
  | down t i side path e h hc hi hs hnil hd ih =>
    cases n with
    | zero => exact absurd rfl hn
    | succ n =>
      have hsd : (if decide (side = Side.larger) = true then Side.larger else Side.smaller) = side := by cases side <;> rfl
      rw [walkFrom] at hn ⊢; dsimp only at hn ⊢
      rw [require_of (by simpa using h), compareFrom_compared hc hs (Nat.zero_le _) (Nat.zero_add _), Res.bind_ok,
        if_neg (show ¬ i = lookahead by rw [hlim]; exact hi)] at hn ⊢
      dsimp only at hn ⊢
      rw [hsd, if_neg (show ¬ s.mf.child t side = nilLink from hnil)] at hn ⊢
      rw [ih hn]
      cases e with
      | none => rfl
      | some stop => simp only [descentResult, updateBest_one]

/-- R163, R176: on a written input, from a slot of a well-formed tree there is a descent. -/
theorem exists_descent {s : State} (h : TreeInv s.mf) {p : Nat}
    (hw : ∀ i, i < s.ctl.inLen.toNat → (Memory.read? s.ibuf i).isSome = true) {t k : Nat} (ht : s.mf.inTree t = true)
    (hd : DepthIs s.mf t k) :
    ∃ path e, Descent s p t path e ∧ ((∀ i, s.mf.inTree i = true → slotDist p i ≤ p) → e ≠ none) := by
  have key : ∀ n t k, s.mf.inTree t = true → DepthIs s.mf t k → windowSize < n + k →
      ∃ path e, Descent s p t path e ∧ ((∀ i, s.mf.inTree i = true → slotDist p i ≤ p) → e ≠ none) := by
    intro n
    induction n with
    | zero => intro t k ht hd hn; have := depthIs_le h ht hd; omega
    | succ n ih =>
      intro t k ht hd hn
      by_cases hp : slotDist p t ≤ p
      · obtain ⟨i, side, hc, hs⟩ := exists_compared (s := s) (p := p) (q := p - slotDist p t) (Nat.sub_le _ _) hw
        by_cases hi : i = 256
        · subst hi; exact ⟨_, _, .full t hp hc, fun _ => by simp⟩
        · by_cases hnil : s.mf.child t side = nilLink
          · exact ⟨_, _, .leaf t i side hp hc hi hs hnil, fun _ => by simp⟩
          · obtain ⟨path, e, hde, hne⟩ := ih _ (k + 1) (treeInv_child_inTree h hnil) (depthIs_child h (.inr ht) hd hnil)
              (by omega)
            exact ⟨_, e, .down t i side path e hp hc hi hs hnil hde, hne⟩
      · exact ⟨[], none, .noPosition t (by omega), fun hall => absurd (hall t ht) hp⟩
  exact key (windowSize + 1) t k ht hd (by omega)

/-! ## The links -/

/-- R163, R166, R167: the links after an insert, each of them. -/
theorem linkIn_linkedIn {f : Finder} (h : TreeInv f) {stop : WalkEnd} (hf : stop.Fits f) {n : Nat} (hn : n < windowSize)
    (ho : f.inTree n = false) : LinkedIn f (linkIn f stop n) n stop := by
  cases stop with
  | leaf t side =>
    intro i
    exact ⟨par_attach h.links t side n i, fun sd => child_attach h.links t side n i sd⟩
  | full t =>
    obtain ⟨-, hpar, hch⟩ := replaceNode_links h hf ho hn
    have htl := treeInv_slot_lt h hf
    have htn : (link t).toNat = t := toNat_link (by unfold windowSize at htl; omega)
    intro i
    refine ⟨hpar i, fun sd => ?_⟩
    show (replaceNode f t n).child i sd = _
    rw [hch i sd]
    have hiff : (i = (f.par t).toNat ∧ sd = sideOf f t) ↔ f.child i sd = link t := by
      constructor
      · rintro ⟨rfl, rfl⟩; exact treeInv_is_child h hf rfl
      · intro he
        have hne : f.child i sd ≠ nilLink := by rw [he]; exact link_ne_nil (Nat.le_of_lt htl)
        have hp := treeInv_child_par h hne
        rw [he, htn] at hp
        have hi : i ≤ rootIndex := by
          by_contra hgt
          have hio : f.inTree i = false := by
            by_contra hin
            have := treeInv_slot_lt h (by simpa using hin)
            unfold windowSize rootIndex at *; omega
          exact hne (treeInv_outside h (by omega) hio sd)
        have hpi : (f.par t).toNat = i := by rw [hp, toNat_link (by unfold rootIndex at hi; omega)]
        refine ⟨hpi.symm, ?_⟩
        subst hpi
        exact (treeInv_side h hf sd).1 he
    by_cases h1 : i = t
    · rw [if_pos h1, if_pos h1]; rfl
    · rw [if_neg h1, if_neg h1]
      by_cases h2 : i = n
      · rw [if_pos h2, if_pos h2]
      · rw [if_neg h2, if_neg h2]
        by_cases h3 : f.child i sd = link t
        · rw [if_pos h3, if_pos (hiff.2 h3)]
        · rw [if_neg h3, if_neg fun hh => h3 (hiff.1 hh)]

end Sys2Proof.Machine
end

