-- ==== Sys2Proof/Laws/PerInstr.lean ====
section
/-! SUPPORT. Statements for every instruction, one lemma per constructor. -/

namespace Sys2Proof.Laws

/-- The command word of an instruction has its reserved bits 0, and A = 1 only where the opcode is one of the
twelve that take an alphabet (R60, R61, R63). -/
def ReservedBits.Statement (i : Instr) : Prop :=
  ∀ w, encode i = .word w → reservedOf w = 0 ∧ (w.getLsbD 8 = true → 0x40 ≤ opcOf w ∧ opcOf w ≤ 0x4B)

theorem ReservedBits.of_word {i : Instr} {v : Word} (h : encode i = .word v)
    (hv : reservedOf v = 0 ∧ (v.getLsbD 8 = true → 0x40 ≤ opcOf v ∧ opcOf v ≤ 0x4B)) : ReservedBits.Statement i := by
  intro w hw
  rw [h] at hw
  cases hw
  exact hv

theorem ReservedBits.of_stream {i : Instr} {fs : List Field} (h : encode i = .stream fs) : ReservedBits.Statement i := by
  intro w hw
  rw [h] at hw
  cases hw

theorem ReservedBits.compress : ReservedBits.Statement .compress := of_word rfl (by decide)
theorem ReservedBits.expand : ReservedBits.Statement .expand := of_word rfl (by decide)
theorem ReservedBits.bwReset : ReservedBits.Statement .bwReset := of_word rfl (by decide)
theorem ReservedBits.bwWriteBits : ReservedBits.Statement .bwWriteBits := of_word rfl (by decide)
theorem ReservedBits.bwWriteByte : ReservedBits.Statement .bwWriteByte := of_word rfl (by decide)
theorem ReservedBits.bwWriteEof : ReservedBits.Statement .bwWriteEof := of_word rfl (by decide)
theorem ReservedBits.brReset : ReservedBits.Statement .brReset := of_word rfl (by decide)
theorem ReservedBits.brReadBits : ReservedBits.Statement .brReadBits := of_word rfl (by decide)
theorem ReservedBits.brReadByte : ReservedBits.Statement .brReadByte := of_word rfl (by decide)
theorem ReservedBits.lenSlot : ReservedBits.Statement .lenSlot := of_word rfl (by decide)
theorem ReservedBits.distSlot : ReservedBits.Statement .distSlot := of_word rfl (by decide)
theorem ReservedBits.lenRange : ReservedBits.Statement .lenRange := of_word rfl (by decide)
theorem ReservedBits.distRange : ReservedBits.Statement .distRange := of_word rfl (by decide)
theorem ReservedBits.mfInit : ReservedBits.Statement .mfInit := of_word rfl (by decide)
theorem ReservedBits.mfInsert : ReservedBits.Statement .mfInsert := of_word rfl (by decide)
theorem ReservedBits.mfProbe : ReservedBits.Statement .mfProbe := of_word rfl (by decide)
theorem ReservedBits.mfDelete : ReservedBits.Statement .mfDelete := of_word rfl (by decide)
theorem ReservedBits.mfLongest : ReservedBits.Statement .mfLongest := of_word rfl (by decide)
theorem ReservedBits.treeRead : ReservedBits.Statement .treeRead := of_word rfl (by decide)
theorem ReservedBits.winReset : ReservedBits.Statement .winReset := of_word rfl (by decide)
theorem ReservedBits.winPut : ReservedBits.Statement .winPut := of_word rfl (by decide)
theorem ReservedBits.winCopy : ReservedBits.Statement .winCopy := of_word rfl (by decide)
theorem ReservedBits.winRead : ReservedBits.Statement .winRead := of_word rfl (by decide)

theorem ReservedBits.freqClear (a : Alphabet) : ReservedBits.Statement (.freqClear a) := of_word rfl (by cases a <;> decide)
theorem ReservedBits.freqInc (a : Alphabet) : ReservedBits.Statement (.freqInc a) := of_word rfl (by cases a <;> decide)
theorem ReservedBits.freqRead (a : Alphabet) : ReservedBits.Statement (.freqRead a) := of_word rfl (by cases a <;> decide)
theorem ReservedBits.hufBuild (a : Alphabet) : ReservedBits.Statement (.hufBuild a) := of_word rfl (by cases a <;> decide)
theorem ReservedBits.hufCanon (a : Alphabet) : ReservedBits.Statement (.hufCanon a) := of_word rfl (by cases a <;> decide)
theorem ReservedBits.hufSerialize (a : Alphabet) : ReservedBits.Statement (.hufSerialize a) := of_word rfl (by cases a <;> decide)
theorem ReservedBits.hufDeserialize (a : Alphabet) : ReservedBits.Statement (.hufDeserialize a) := of_word rfl (by cases a <;> decide)
theorem ReservedBits.hufTrie (a : Alphabet) : ReservedBits.Statement (.hufTrie a) := of_word rfl (by cases a <;> decide)
theorem ReservedBits.hufDecode (a : Alphabet) : ReservedBits.Statement (.hufDecode a) := of_word rfl (by cases a <;> decide)
theorem ReservedBits.hufEncode (a : Alphabet) : ReservedBits.Statement (.hufEncode a) := of_word rfl (by cases a <;> decide)
theorem ReservedBits.clRead (a : Alphabet) : ReservedBits.Statement (.clRead a) := of_word rfl (by cases a <;> decide)
theorem ReservedBits.clWrite (a : Alphabet) : ReservedBits.Statement (.clWrite a) := of_word rfl (by cases a <;> decide)

theorem ReservedBits.cleShort (l : BitVec 4) : ReservedBits.Statement (.cleShort l) := of_stream rfl
theorem ReservedBits.cleExt1 (x : BitVec 2) : ReservedBits.Statement (.cleExt1 x) := of_stream rfl
theorem ReservedBits.cleExt2 (y : BitVec 2) : ReservedBits.Statement (.cleExt2 y) := of_stream rfl
theorem ReservedBits.cleZrunLl (c : BitVec 8) : ReservedBits.Statement (.cleZrunLl c) := of_stream rfl
theorem ReservedBits.cleZrunD (c : BitVec 5) : ReservedBits.Statement (.cleZrunD c) := of_stream rfl
theorem ReservedBits.lit (b : Byte) : ReservedBits.Statement (.lit b) := of_stream rfl
theorem ReservedBits.eos : ReservedBits.Statement .eos := of_stream rfl
theorem ReservedBits.match3 (d : BitVec 12) : ReservedBits.Statement (.match3 d) := of_stream rfl
theorem ReservedBits.matchSlot (k : BitVec 5) (e : BitVec 7) (j : BitVec 5) (x : BitVec 14) : ReservedBits.Statement (.matchSlot k e j x) := of_stream rfl

end Sys2Proof.Laws
end

