-- ==== Sys2Proof/Laws/Reader.lean ====
section
/-! SUPPORT. What the bit reader reads (R93, R94): the bits that stand at the cursor, and a reader's plan run over them. -/

namespace Sys2Proof.Machine

/-! ## Bits and numbers -/

theorem ofBits_lt (bs : List Bool) : ofBits bs < 2 ^ bs.length := by
  induction bs with
  | nil => simp [ofBits]
  | cons b bs ih =>
    simp only [ofBits, List.length_cons, Nat.pow_succ]
    split <;> omega

@[simp] theorem length_toBits (v n : Nat) : (toBits v n).length = n := by
  induction n generalizing v with
  | zero => rfl
  | succ n ih => simp [toBits, ih]

/-- R48: the bits of a field, read back. -/
theorem ofBits_toBits (v n : Nat) : ofBits (toBits v n) = v % 2 ^ n := by
  induction n generalizing v with
  | zero => simp [toBits, ofBits, Nat.mod_one]
  | succ n ih =>
    simp only [toBits, ofBits, ih, Nat.testBit_zero]
    rw [Nat.pow_succ, Nat.mul_comm (2 ^ n) 2, Nat.mod_mul]
    rcases Nat.mod_two_eq_zero_or_one v with h | h <;> simp [h]

theorem toBits_ofBits (bs : List Bool) : toBits (ofBits bs) bs.length = bs := by
  induction bs with
  | nil => rfl
  | cons b bs ih =>
    simp only [ofBits, List.length_cons, toBits]
    have h1 : ((if b = true then 1 else 0) + 2 * ofBits bs) / 2 = ofBits bs := by split <;> omega
    rw [h1, ih]
    congr 1
    rw [Nat.testBit_zero]
    cases b <;> simp

theorem getElem?_toBits (v n j : Nat) (h : j < n) : (toBits v n)[j]? = some (v.testBit j) := by
  induction n generalizing v j with
  | zero => omega
  | succ n ih =>
    cases j with
    | zero => simp [toBits]
    | succ j =>
      simp only [toBits, List.getElem?_cons_succ]
      rw [ih _ _ (by omega)]
      rw [← Nat.testBit_succ]

/-! ## The cursor -/

theorem readPos_nextBit (s : State) (h : s.readPos + 1 < 2 ^ 28) : (nextBit s).readPos = s.readPos + 1 := by
  unfold State.readPos at *
  unfold nextBit
  have hb := s.rd.rbit.isLt
  split
  · rename_i h7
    have h7' : s.rd.rbit.toNat = 7 := by rw [h7]; rfl
    have : (s.rd.rpos + 1#25).toNat = s.rd.rpos.toNat + 1 := by
      rw [BitVec.toNat_add]; simp; omega
    simp [this]; omega
  · rename_i h7
    have h7' : s.rd.rbit.toNat ≠ 7 := fun h => h7 (BitVec.eq_of_toNat_eq (by simpa using h))
    have : (s.rd.rbit + 1#3).toNat = s.rd.rbit.toNat + 1 := by
      rw [BitVec.toNat_add]; simp; omega
    simp [this]; omega

@[simp] theorem nextBit_bitsR (s : State) : (nextBit s).rd.bitsR = s.rd.bitsR := by unfold nextBit; split <;> rfl

theorem bit?_readPos (s : State) (m : Memory) :
    Memory.bit? m s.readPos = (Memory.read? m s.rd.rpos.toNat).map fun b => b.getLsbD s.rd.rbit.toNat := by
  have hb := s.rd.rbit.isLt
  unfold Memory.bit? State.readPos
  have h1 : (8 * s.rd.rpos.toNat + s.rd.rbit.toNat) / 8 = s.rd.rpos.toNat := by omega
  have h2 : (8 * s.rd.rpos.toNat + s.rd.rbit.toNat) % 8 = s.rd.rbit.toNat := by omega
  rw [h1, h2]

/-- R93's loop reads the bits at the cursor, the first of them bit 0 of the value. -/
theorem takeBits_bits (bs : List Bool) (s : State)
    (h : ∀ j, j < bs.length → Memory.bit? s.ibuf (s.readPos + j) = bs[j]?) (hw : s.readPos + bs.length < 2 ^ 28) :
    ∃ t, takeBits bs.length s = .ok (ofBits bs) t ∧ OnlyReader s t ∧ t.readPos = s.readPos + bs.length ∧
      t.rd.bitsR = s.rd.bitsR := by
  induction bs generalizing s with
  | nil => exact ⟨s, rfl, rfl, rfl, rfl⟩
  | cons b bs ih =>
    have h0 := h 0 (by simp)
    simp only [Nat.add_zero, bit?_readPos, List.getElem?_cons_zero, Option.map_eq_some_iff] at h0
    obtain ⟨c, hc, hcb⟩ := h0
    simp only [List.length_cons] at hw
    have hp := readPos_nextBit s (by omega)
    have hi : (nextBit s).ibuf = s.ibuf := by rw [nextBit_only s]
    obtain ⟨t, ht, hof, hpos, hbits⟩ := ih (nextBit s) (by
      intro j hj
      have := h (j + 1) (by simpa using hj)
      rw [hp, hi]
      simpa [Nat.add_assoc, Nat.add_comm 1 j] using this) (by omega)
    refine ⟨t, ?_, readerFrame.trans (nextBit_only s) hof, by rw [hpos, hp, List.length_cons]; omega, by
      rw [hbits, nextBit_bitsR]⟩
    simp only [List.length_cons, takeBits]
    rw [inByte_eq_ok.2 ⟨hc, rfl⟩]
    simp only [Res.bind_ok, ht, hcb, ofBits]

/-! ## ReadBits -/

/-- What is left of the input once its first bits are read. -/
theorem inputHas_rest {s t : State} {bs rest : List Bool} (h : s.InputHas (bs ++ rest)) (ho : OnlyReader s t)
    (hp : t.readPos = s.readPos + bs.length) : t.InputHas rest := by
  obtain ⟨h1, h2, h3⟩ := h
  have hctl : t.ctl = s.ctl := by rw [ho]
  have hpar : t.params = s.params := by rw [ho]
  have hib : t.ibuf = s.ibuf := by rw [ho]
  refine ⟨by unfold State.inputOk at *; rw [hctl, hpar]; exact h1, ?_, ?_⟩
  · unfold State.avail at *
    rw [hctl, hp]; simp only [List.length_append] at h2; omega
  · intro j hj
    have := h3 (bs.length + j) (by simp only [List.length_append]; omega)
    rw [List.getElem?_append_right (by omega)] at this
    rw [hib, hp, Nat.add_assoc, this]
    congr 1; omega

theorem inputHas_take {s : State} {bs rest : List Bool} (h : s.InputHas (bs ++ rest)) : s.InputHas bs := by
  obtain ⟨h1, h2, h3⟩ := h
  simp only [List.length_append] at h2 h3
  refine ⟨h1, by omega, fun j hj => ?_⟩
  rw [h3 j (by omega), List.getElem?_append_left hj]

theorem inputHas_readPos_lt {s : State} {bs : List Bool} (hp : s.params.ok) (h : s.InputHas bs) (hne : bs ≠ []) :
    s.readPos + bs.length < 2 ^ 28 := by
  obtain ⟨h1, h2, -⟩ := h
  obtain ⟨-, h4, -⟩ := hp
  simp only [State.inputOk, decide_eq_true_eq] at h1
  have : 0 < bs.length := List.length_pos_iff.2 hne
  unfold State.avail at h2
  omega

/-- R93: the next bits are read, the cursor moves on by their number, and BITS_R counts them. -/
theorem readBits_bits {s : State} {bs : List Bool} (hp : s.params.ok) (hn : bs.length ≤ 32) (h : s.InputHas bs) :
    ∃ t, readBits bs.length s = .ok (ofBits bs) t ∧ OnlyReader s t ∧ Consumed s t bs.length := by
  have ⟨h1, h2, h3⟩ := h
  unfold readBits
  rw [require_of (by simpa [bitCountOk] using hn), require_of h1, require_of (by simpa using h2)]
  by_cases hne : bs = []
  · subst hne
    exact ⟨countRead 0 s, rfl, rfl, rfl, rfl⟩
  · obtain ⟨t, ht, ho, hpos, hb⟩ := takeBits_bits bs s h3 (inputHas_readPos_lt hp h hne)
    refine ⟨countRead bs.length t, by rw [ht]; rfl, readerFrame.trans ho rfl, ?_, ?_⟩
    · exact hpos
    · simp [hb]

/-- R93: a read past the end of the input consumes nothing. -/
theorem readBits_short {s : State} {n : Nat} (hn : n ≤ 32) (hi : s.inputOk = true) (h : s.avail < n) :
    readBits n s = .err .endOfInput s := by
  unfold readBits
  rw [require_of (by simpa [bitCountOk] using hn), require_of hi, require_of_not (by simpa using h)]

/-! ## A reader's plan over the bits of the input -/

/-- Every field of a plan is at most 32 bits wide (R90, R93). -/
def Parse.Narrow {α : Type} : Parse α → Prop
  | .done _ => True
  | .unpopulated => True
  | .field _ n k => n ≤ 32 ∧ ∀ v, Parse.Narrow (k v)

theorem Parse.Narrow.bind {α β : Type} {p : Parse α} {f : α → Parse β} (hp : Parse.Narrow p)
    (hf : ∀ a, Parse.Narrow (f a)) : Parse.Narrow (p.bind f) := by
  induction p with
  | done a => exact hf a
  | unpopulated => trivial
  | field pl n k ih => exact ⟨hp.1, fun v => ih v (hp.2 v)⟩

theorem eosBecomes_ok {α : Type} (p : Place) (a : α) (s : State) : eosBecomes p (.ok a s) = .ok a s := rfl

/-- A plan run by the machine reads what it reads from a list of bits. -/
theorem runParse_onBits {α : Type} {p : Parse α} (hnar : Parse.Narrow p) {s : State} {bs rest : List Bool} {a : α}
    (hp : s.params.ok) (h : s.InputHas bs) (hpar : p.onBits bs = some (a, rest)) :
    ∃ t, runParse p s = .ok a t ∧ OnlyReader s t ∧ rest.length ≤ bs.length ∧ Consumed s t (bs.length - rest.length) ∧
      t.InputHas rest := by
  induction p generalizing s bs with
  | done b =>
    simp only [Parse.onBits, Option.some.injEq, Prod.mk.injEq] at hpar
    obtain ⟨rfl, rfl⟩ := hpar
    exact ⟨s, rfl, rfl, Nat.le_refl _, by simp [Consumed], h⟩
  | unpopulated => simp [Parse.onBits] at hpar
  | field pl n k ih =>
    simp only [Parse.onBits] at hpar
    split at hpar
    · simp at hpar
    · rename_i hlen
      have hlen' : n ≤ bs.length := by omega
      have hsplit : bs.take n ++ bs.drop n = bs := List.take_append_drop n bs
      have htl : (bs.take n).length = n := by simp [hlen']
      have h' : s.InputHas (bs.take n ++ bs.drop n) := by rw [hsplit]; exact h
      obtain ⟨t, ht, ho, hc⟩ := readBits_bits hp (by rw [htl]; exact hnar.1) (inputHas_take h')
      rw [htl] at ht hc
      have hpt : t.params.ok := by rw [show t.params = s.params by rw [ho]]; exact hp
      obtain ⟨u, hu, hou, hle, hcu, hiu⟩ :=
        ih _ (hnar.2 _) hpt (inputHas_rest h' ho (by rw [hc.1, htl])) hpar
      simp only [List.length_drop] at hle hcu
      refine ⟨u, ?_, readerFrame.trans ho hou, by omega, ⟨?_, ?_⟩, hiu⟩
      · unfold runParse; rw [ht]; exact hu
      · rw [hcu.1, hc.1]; omega
      · rw [hcu.2, hc.2, BitVec.add_assoc, ← BitVec.ofNat_add]; congr 2; omega

/-! ## The plans of the stream -/

theorem Trie.parse_narrow (t : Trie) : Parse.Narrow t.parse := by
  induction t with
  | empty => trivial
  | leaf s => trivial
  | node z o hz ho =>
    refine ⟨by omega, fun v => ?_⟩
    dsimp only
    split
    · exact hz
    · exact ho

theorem DecodeTrie.parse_narrow (t : DecodeTrie) : Parse.Narrow t.parse := by
  refine ⟨by omega, fun v => ?_⟩
  dsimp only
  split
  · exact Trie.parse_narrow _
  · exact Trie.parse_narrow _

theorem entryParse_narrow (a : Alphabet) : Parse.Narrow (entryParse a) := by
  refine ⟨by omega, fun v => ?_⟩
  dsimp only
  split
  · exact ⟨by cases a <;> decide, fun _ => trivial⟩
  · split
    · trivial
    · refine ⟨by omega, fun x => ?_⟩
      dsimp only
      split
      · trivial
      · exact ⟨by omega, fun _ => trivial⟩

theorem fieldParse_narrow {n : Nat} (h : n ≤ 32) : Parse.Narrow (fieldParse n) := by
  unfold fieldParse
  split
  · trivial
  · exact ⟨h, fun _ => trivial⟩

theorem nbLen_le (k : Nat) : nbLen k ≤ 7 := by
  unfold nbLen rangeLen
  by_cases h : k < 24
  · revert h; revert k; decide
  · rw [List.getElem?_eq_none (by simpa [lenRows] using h)]; simp

theorem nbDist_le (j : Nat) : nbDist j ≤ 14 := by
  unfold nbDist rangeDist
  by_cases h : j < 32
  · exact (by decide +kernel : ∀ j < 32, ((distRows[j]?).map SlotRow.nb).getD 0 ≤ 14) j h
  · rw [List.getElem?_eq_none (by simpa [distRows] using h)]; simp

theorem fieldParse_nbLen_narrow (k : Nat) : Parse.Narrow (fieldParse (nbLen k)) :=
  fieldParse_narrow (Nat.le_trans (nbLen_le k) (by omega))

theorem fieldParse_nbDist_narrow (j : Nat) : Parse.Narrow (fieldParse (nbDist j)) :=
  fieldParse_narrow (Nat.le_trans (nbDist_le j) (by omega))

theorem fieldParse_raw_narrow : Parse.Narrow (fieldParse rawDistBits) :=
  fieldParse_narrow (by unfold rawDistBits; omega)

theorem eventParse_narrow (ll ds : DecodeTrie) : Parse.Narrow (eventParse ll ds) := by
  refine (DecodeTrie.parse_narrow ll).bind fun s => ?_
  split
  · exact True.intro
  · split
    · exact True.intro
    · generalize s - lenSymbol0 = k
      refine (fieldParse_nbLen_narrow k).bind fun e => ?_
      split
      · exact fieldParse_raw_narrow.bind fun d => True.intro
      · exact (DecodeTrie.parse_narrow ds).bind fun j => (fieldParse_nbDist_narrow j).bind fun x => True.intro

/-! ## A plan part of the way -/

/-- Whole fields of a plan read: after these bits the plan `p'` is left. -/
inductive Parse.Reads {α : Type} : Parse α → List Bool → Parse α → Prop
  | refl (p : Parse α) : Parse.Reads p [] p
  | field (pl : Place) (n : Nat) (k : Nat → Parse α) (bs cs : List Bool) (p' : Parse α) (hb : bs.length = n)
      (h : Parse.Reads (k (ofBits bs)) cs p') : Parse.Reads (.field pl n k) (bs ++ cs) p'

theorem Parse.Reads.trans {α : Type} {p q r : Parse α} {bs cs : List Bool} (h1 : Parse.Reads p bs q)
    (h2 : Parse.Reads q cs r) : Parse.Reads p (bs ++ cs) r := by
  induction h1 with
  | refl p => exact h2
  | field pl n k bs cs' p' hb h ih => rw [List.append_assoc]; exact .field pl n k bs _ _ hb (ih h2)

theorem Parse.Reads.one {α : Type} (pl : Place) (k : Nat → Parse α) (b : Bool) :
    Parse.Reads (.field pl 1 k) [b] (k (if b then 1 else 0)) := by
  have h := Parse.Reads.field pl 1 k [b] [] _ rfl (.refl _)
  simpa [ofBits] using h

theorem Parse.Reads.bind {α β : Type} {p p' : Parse α} {bs : List Bool} (h : Parse.Reads p bs p') (f : α → Parse β) :
    Parse.Reads (p.bind f) bs (p'.bind f) := by
  induction h with
  | refl p => exact .refl _
  | field pl n k bs cs p' hb h ih => exact .field pl n (fun v => (k v).bind f) bs cs _ hb ih

/-- The machine reads a plan's whole fields, and goes on with the plan that is left. -/
theorem runParse_reads {α : Type} {p p' : Parse α} {bs rest : List Bool} (h : Parse.Reads p bs p') (hnar : Parse.Narrow p)
    {s : State} (hp : s.params.ok) (hi : s.InputHas (bs ++ rest)) :
    Parse.Narrow p' ∧ ∃ t, runParse p s = runParse p' t ∧ OnlyReader s t ∧ Consumed s t bs.length ∧ t.InputHas rest := by
  induction h generalizing s with
  | refl p => exact ⟨hnar, s, rfl, rfl, by simp [Consumed], hi⟩
  | field pl n k bs cs p' hb h ih =>
    rw [List.append_assoc] at hi
    obtain ⟨t, ht, ho, hc⟩ := readBits_bits hp (by rw [hb]; exact hnar.1) (inputHas_take hi)
    obtain ⟨hn', u, hu, hou, hcu, hiu⟩ := ih (hnar.2 _) (by rw [ho]; exact hp) (inputHas_rest hi ho hc.1)
    refine ⟨hn', u, ?_, readerFrame.trans ho hou, ⟨?_, ?_⟩, hiu⟩
    · rw [runParse, ← hb, ht]; exact hu
    · rw [hcu.1, hc.1, List.length_append]; omega
    · rw [hcu.2, hc.2, List.length_append, BitVec.add_assoc, ← BitVec.ofNat_add]

/-- R144, R148, R199: a field that the input is too short for is the place's error, and nothing of it is consumed. -/
theorem runParse_short {α : Type} {pl : Place} {n : Nat} {k : Nat → Parse α} {s : State} (hn : n ≤ 32)
    (hi : s.inputOk = true) (h : s.avail < n) : runParse (.field pl n k) s = .err (Place.eosErr pl) s := by
  rw [runParse, readBits_short hn hi h]; rfl

/-- What is left of an input that ends with these bits. -/
theorem avail_consumed {s t : State} {n : Nat} (ho : OnlyReader s t) (h : Consumed s t n) : t.avail = s.avail - n := by
  have hl : t.ctl = s.ctl := by rw [ho]
  unfold State.avail
  rw [h.1, hl]; omega

/-! ## The trie -/

theorem slotFrom_append (t : Trie) (bs cs : List Bool) : slotFrom t (bs ++ cs) = slotFrom (slotFrom t bs) cs := by
  induction bs generalizing t with
  | nil => rfl
  | cons b bs ih =>
    cases t with
    | node z o => exact ih _
    | leaf x => cases cs <;> rfl
    | empty => cases cs <;> rfl

/-- R148: the descent along a path, while the path goes through internal nodes. -/
theorem slotFrom_reads {t : Trie} {bs : List Bool} {z o : Trie} (h : slotFrom t bs = .node z o) :
    Parse.Reads t.parse bs (slotFrom t bs).parse := by
  induction bs generalizing t with
  | nil => exact .refl _
  | cons b bs ih =>
    cases t with
    | leaf x => cases h
    | empty => cases h
    | node z' o' =>
      have h1 := Parse.Reads.one .inSymbol (fun v => if v = 0 then z'.parse else o'.parse) b
      cases b
      · exact h1.trans (ih (t := z') h)
      · exact h1.trans (ih (t := o') h)

/-- R148: the descent from the root is that from an internal node. -/
theorem parse_eq_node (t : DecodeTrie) : t.parse = (Trie.node t.zero t.one).parse := rfl

/-- R148: the input ends inside a symbol. -/
theorem decodeSymbol_ends {a : Alphabet} {s : State} {bs : List Bool} {z o : Trie} (hp : s.params.ok)
    (h : slotAt a s bs = .node z o) (hi : s.InputHas bs) (he : s.avail = bs.length) :
    ∃ t, decodeSymbol a s = .err (.corrupt .eosInSymbol) t ∧ OnlyReader s t ∧ Consumed s t bs.length := by
  have hr := slotFrom_reads h
  rw [show slotFrom _ bs = .node z o from h] at hr
  obtain ⟨-, t, ht, ho, hc, hti⟩ := runParse_reads (rest := []) hr (Trie.parse_narrow _) hp (by simpa using hi)
  refine ⟨t, ?_, ho, hc⟩
  have hav : t.avail < 1 := by rw [avail_consumed ho hc, he]; omega
  rw [decodeSymbol, parse_eq_node, ht]
  exact runParse_short (by omega) hti.1 hav

/-- R148: the next bit leads to an unpopulated slot. -/
theorem decodeSymbol_unpopulated {a : Alphabet} {s : State} {bs : List Bool} {b : Bool} {z o : Trie} (hp : s.params.ok)
    (h : slotAt a s bs = .node z o) (h2 : slotAt a s (bs ++ [b]) = .empty) (hi : s.InputHas (bs ++ [b])) :
    ∃ t, decodeSymbol a s = .err (.corrupt .unpopulated) t ∧ OnlyReader s t ∧ Consumed s t (bs.length + 1) := by
  have hr := slotFrom_reads h
  rw [show slotFrom _ bs = .node z o from h] at hr
  have h3 : (if b then o else z) = .empty := by
    have := slotFrom_append (.node (s.tab a).trie.zero (s.tab a).trie.one) bs [b]
    rw [show slotFrom _ (bs ++ [b]) = .empty from h2, show slotFrom _ bs = .node z o from h] at this
    exact this.symm
  have hone := hr.trans (Parse.Reads.one .inSymbol (fun v => if v = 0 then z.parse else o.parse) b)
  have hemp : (if (if b then 1 else 0) = 0 then z.parse else o.parse) = .unpopulated := by
    cases b
    · have : z = .empty := h3
      subst this; rfl
    · have : o = .empty := h3
      subst this; rfl
  rw [hemp] at hone
  obtain ⟨-, t, ht, ho, hc, -⟩ := runParse_reads (rest := []) hone (Trie.parse_narrow _) hp (by simpa using hi)
  exact ⟨t, by rw [decodeSymbol, parse_eq_node, ht]; rfl, ho, by simpa using hc⟩

end Sys2Proof.Machine
end

