-- ==== Sys2Proof/Laws/Table.lean ====
section
/-! SUPPORT. Code-length tables (R70–R72, R144): how an entry's fields are read, what an entry writes, and a table read
entry by entry. -/

namespace Sys2Proof.Machine

/-! ## Code lengths -/

theorem clOf_setCl (a : Alphabet) (i l : Nat) (s : State) (k : Nat) :
    clOf a k (setCl a i l s) = if k = i ∧ i < a.size then l % 32 else clOf a k s := by
  have ht : ((setCl a i l s).tab a).cl = tableSet (s.tab a).cl i (BitVec.ofNat 5 l) := by cases a <;> rfl
  unfold clOf
  rw [ht, tableGet_tableSet]
  split
  · rw [BitVec.toNat_ofNat]
  · rfl

theorem clOf_clearCls (a : Alphabet) (i r : Nat) (s : State) (k : Nat) (h : i + r ≤ a.size) :
    clOf a k (clearCls a i r s) = if i ≤ k ∧ k < i + r then 0 else clOf a k s := by
  induction r generalizing i s with
  | zero => rw [clearCls, if_neg (by omega)]
  | succ r ih =>
    rw [clearCls, ih (i + 1) _ (by omega), clOf_setCl]
    by_cases h1 : k = i
    · rw [if_neg (by omega), if_pos ⟨h1, by omega⟩, if_pos (by omega)]
    · by_cases h2 : i + 1 ≤ k ∧ k < i + 1 + r
      · rw [if_pos h2, if_pos (by omega)]
      · rw [if_neg h2, if_neg (by omega), if_neg (by omega)]

/-- The lengths of a list put from symbol `i` on. -/
def putLens (lens : List Nat) (i k old : Nat) : Nat := if i ≤ k ∧ k < i + lens.length then lens.getD (k - i) 0 else old

theorem putLens_append (l1 l2 : List Nat) (i k old : Nat) :
    putLens (l1 ++ l2) i k old = putLens l2 (i + l1.length) k (putLens l1 i k old) := by
  unfold putLens
  simp only [List.length_append, List.getD_eq_getElem?_getD]
  by_cases h1 : i ≤ k ∧ k < i + l1.length
  · rw [if_pos (by omega), if_neg (by omega), if_pos h1, List.getElem?_append_left (by omega)]
  · by_cases h2 : i + l1.length ≤ k ∧ k < i + l1.length + l2.length
    · rw [if_pos (by omega), if_pos h2, List.getElem?_append_right (by omega)]
      congr 2; omega
    · rw [if_neg (by omega), if_neg h2, if_neg h1]

theorem entryLens_pos (e : TableEntry) : 1 ≤ (entryLens e).length := by cases e <;> simp [entryLens]

/-- R144: what an entry that fits does to CL. -/
theorem applyEntry_eq {a : Alphabet} {i : Nat} {e : TableEntry} (h : i + (entryLens e).length ≤ a.size) (s : State) :
    ∃ t, applyEntry a i e s = .ok (i + (entryLens e).length) t ∧ OnlyCl a s t ∧
      ∀ k, clOf a k t = putLens (entryLens e) i k (clOf a k s) := by
  have one : ∀ l, l < 32 → i < a.size → ∀ k, clOf a k (setCl a i l s) = putLens [l] i k (clOf a k s) := by
    intro l hl hi k
    rw [clOf_setCl]
    unfold putLens
    by_cases hk : k = i
    · subst hk; rw [if_pos ⟨rfl, hi⟩, if_pos ⟨Nat.le_refl _, by simp⟩, Nat.mod_eq_of_lt hl]; simp
    · rw [if_neg (fun h => hk h.1), if_neg (by simp; omega)]
  cases e with
  | short l =>
    exact ⟨_, rfl, setCl_only .., one _ (by have := l.isLt; omega) h⟩
  | ext1 x => exact ⟨_, rfl, setCl_only .., one _ (by have := x.isLt; omega) h⟩
  | ext2 y => exact ⟨_, rfl, setCl_only .., one _ (by have := y.isLt; omega) h⟩
  | zrun c =>
    have hl : (entryLens (.zrun c)).length = c + 1 := by simp [entryLens]
    rw [hl] at h
    refine ⟨clearCls a i (c + 1) s, ?_, clearCls_only .., fun k => ?_⟩
    · rw [applyEntry, require_of (by simpa using h), hl]
    · rw [clOf_clearCls a i (c + 1) s k h]
      unfold putLens
      rw [hl]
      split
      · rename_i hk
        have hr : entryLens (.zrun c) = List.replicate (c + 1) 0 := rfl
        rw [hr, List.getD_eq_getElem?_getD, List.getElem?_replicate, if_pos (by omega)]; rfl
      · rfl

/-! ## Reading an entry -/

theorem fieldsToBits_cons (code : Alphabet → Nat → Nat × Nat) (f : Field) (fs : List Field) :
    fieldsToBits code (f :: fs) = f.toBits code ++ fieldsToBits code fs := rfl

theorem fieldsToBits_append (code : Alphabet → Nat → Nat × Nat) (fs gs : List Field) :
    fieldsToBits code (fs ++ gs) = fieldsToBits code fs ++ fieldsToBits code gs := by
  simp [fieldsToBits]

@[simp] theorem fieldsToBits_nil (code : Alphabet → Nat → Nat × Nat) : fieldsToBits code [] = [] := rfl

/-- One field of a plan read from the bits of its value. -/
theorem Parse.Reads.value {α : Type} (pl : Place) {v n : Nat} (hv : v < 2 ^ n) (k : Nat → Parse α) :
    Parse.Reads (.field pl n k) (Sys2Proof.toBits v n) (k v) := by
  have h := Parse.Reads.field pl n k (Sys2Proof.toBits v n) [] (k v) (length_toBits v n)
    (by rw [ofBits_toBits, Nat.mod_eq_of_lt hv]; exact .refl _)
  rwa [List.append_nil] at h

/-- The plan left once the 4-bit field has been read as 15 (R72). -/
def extPlan : Parse TableEntry :=
  .field .inTable 2 fun x =>
    if x < 3 then .done (.ext1 (BitVec.ofNat 2 x)) else .field .inTable 2 fun y => .done (.ext2 (BitVec.ofNat 2 y))

theorem entryParse_reads_ext (a : Alphabet) : Parse.Reads (entryParse a) (Sys2Proof.toBits 15 4) extPlan :=
  .value .inTable (v := 15) (n := 4) (by omega) _

theorem extPlan_reads_ext2 :
    Parse.Reads extPlan (Sys2Proof.toBits 3 2) (.field .inTable 2 fun y => .done (.ext2 (BitVec.ofNat 2 y))) :=
  .value .inTable (v := 3) (n := 2) (by omega) _

theorem entryParse_reads_zrun (a : Alphabet) :
    Parse.Reads (entryParse a) (Sys2Proof.toBits 0 4) (.field .inTable a.zb fun c => .done (.zrun c)) :=
  .value .inTable (v := 0) (n := 4) (by omega) _

/-- R72: an entry's plan reads the entry. -/
theorem entryParse_reads {a : Alphabet} {e : TableEntry} (h : entryOk a e = true) :
    Parse.Reads (entryParse a) (entriesBits a [e]) (.done e) := by
  cases e with
  | short l =>
    simp only [entryOk, Bool.and_eq_true, decide_eq_true_eq] at h
    have h1 : Parse.Reads (entryParse a) _ _ := Parse.Reads.value .inTable (v := l.toNat) (n := 4) l.isLt fun v =>
      if v = 0 then Parse.field .inTable a.zb fun c => .done (TableEntry.zrun c)
      else if v < 15 then .done (.short (BitVec.ofNat 4 v)) else extPlan
    rw [if_neg (by omega), if_pos (by omega)] at h1
    simpa [entriesBits, TableEntry.fields, fieldsToBits, Field.toBits] using h1
  | ext1 x =>
    have h1 := Parse.Reads.value .inTable (v := x.toNat) (n := 2) x.isLt fun x =>
      if x < 3 then Parse.done (TableEntry.ext1 (BitVec.ofNat 2 x))
      else .field .inTable 2 fun y => .done (.ext2 (BitVec.ofNat 2 y))
    simp only [entryOk, decide_eq_true_eq] at h
    rw [if_pos (by omega)] at h1
    simpa [entriesBits, TableEntry.fields, fieldsToBits, Field.toBits] using (entryParse_reads_ext a).trans h1
  | ext2 y =>
    have h1 := Parse.Reads.value .inTable (v := y.toNat) (n := 2) y.isLt fun y =>
      Parse.done (TableEntry.ext2 (BitVec.ofNat 2 y))
    simpa [entriesBits, TableEntry.fields, fieldsToBits, Field.toBits] using
      (entryParse_reads_ext a).trans (extPlan_reads_ext2.trans h1)
  | zrun c =>
    simp only [entryOk, decide_eq_true_eq] at h
    have h1 := Parse.Reads.value .inTable (v := c) (n := a.zb) h fun c => Parse.done (TableEntry.zrun c)
    simpa [entriesBits, TableEntry.fields, fieldsToBits, Field.toBits] using (entryParse_reads_zrun a).trans h1

/-- R72: the part of an entry's plan that is left when some of its fields have been read begins with the next field. -/
theorem entryParse_reads_part {a : Alphabet} {e : TableEntry} {pre post : List Field} {v w : Nat}
    (h : e.fields a = pre ++ .bits v w :: post) :
    w ≤ 32 ∧ ∃ k, Parse.Reads (entryParse a) (fieldsToBits (fun _ _ => (0, 0)) pre) (.field .inTable w k) := by
  have hz : a.zb ≤ 32 := by cases a <;> decide
  rcases pre with _ | ⟨f, _ | ⟨g, _ | ⟨g', pre⟩⟩⟩
  · have : w = 4 := by cases e <;> simp [TableEntry.fields] at h <;> omega
    subst this
    exact ⟨by omega, _, .refl _⟩
  · cases e <;>
      simp only [TableEntry.fields, List.cons_append, List.nil_append, List.cons.injEq, Field.bits.injEq, reduceCtorEq,
        and_false] at h
    · obtain ⟨rfl, ⟨-, rfl⟩, -⟩ := h
      exact ⟨by omega, _, by
        simpa [fieldsToBits, Field.toBits, extPlan] using entryParse_reads_ext a⟩
    · obtain ⟨rfl, ⟨-, rfl⟩, -⟩ := h
      exact ⟨by omega, _, by
        simpa [fieldsToBits, Field.toBits, extPlan] using entryParse_reads_ext a⟩
    · obtain ⟨rfl, ⟨-, rfl⟩, -⟩ := h
      exact ⟨hz, _, by simpa [fieldsToBits, Field.toBits] using entryParse_reads_zrun a⟩
  · cases e <;>
      simp only [TableEntry.fields, List.cons_append, List.nil_append, List.cons.injEq, Field.bits.injEq, reduceCtorEq,
        and_false] at h
    obtain ⟨rfl, rfl, ⟨-, rfl⟩, -⟩ := h
    exact ⟨by omega, _, by
      simpa [fieldsToBits, Field.toBits] using (entryParse_reads_ext a).trans extPlan_reads_ext2⟩
  · exfalso; cases e <;> simp [TableEntry.fields] at h

/-! ## Reading a table -/

theorem entriesBits_cons (a : Alphabet) (e : TableEntry) (es : List TableEntry) :
    entriesBits a (e :: es) = entriesBits a [e] ++ entriesBits a es := by
  simp [entriesBits, fieldsToBits]

theorem entriesLens_cons (e : TableEntry) (es : List TableEntry) : entriesLens (e :: es) = entryLens e ++ entriesLens es :=
  rfl

theorem onlyReaderCl_of_reader {a : Alphabet} {s t : State} (h : OnlyReader s t) : OnlyReaderCl a s t := by
  have : t.tab a = s.tab a := by rw [h]; cases a <;> rfl
  unfold OnlyReaderCl
  rw [this, h]; cases a <;> rfl

theorem onlyReaderCl_of_cl {a : Alphabet} {s t : State} (h : OnlyCl a s t) : OnlyReaderCl a s t := by
  have hrd : t.rd = s.rd := by rw [h]; simp
  unfold OnlyReaderCl
  rw [hrd]
  exact h.trans (by cases a <;> rfl)

theorem onlyReaderCl_fields {a : Alphabet} {s t : State} (h : OnlyReaderCl a s t) :
    t.params = s.params ∧ t.ctl = s.ctl ∧ t.ibuf = s.ibuf := by
  rw [h]; cases a <;> exact ⟨rfl, rfl, rfl⟩

theorem clOf_onlyReader {s t : State} (h : OnlyReader s t) (a : Alphabet) (k : Nat) : clOf a k t = clOf a k s := by
  rw [h]; cases a <;> rfl

/-- R144: the entries before go through; what is left of the table starts after them. -/
theorem deserializeFrom_entries {a : Alphabet} {es : List TableEntry} (hes : ∀ e ∈ es, entryOk a e = true) {n i : Nat}
    {s : State} {rest : List Bool} (hp : s.params.ok) (hi : i + (entriesLens es).length ≤ a.size)
    (hn : (entriesLens es).length ≤ n) (hin : s.InputHas (entriesBits a es ++ rest)) :
    ∃ m t, n ≤ m + (entriesLens es).length ∧
      deserializeFrom a n i s = deserializeFrom a m (i + (entriesLens es).length) t ∧ OnlyReaderCl a s t ∧
      Consumed s t (entriesBits a es).length ∧ t.InputHas rest ∧
      ∀ k, clOf a k t = putLens (entriesLens es) i k (clOf a k s) := by
  induction es generalizing n i s with
  | nil =>
    exact ⟨n, s, by simp [entriesLens], rfl, (readerClFrame a).refl s, by simp [Consumed, entriesBits], hin, fun k => by
      simp [putLens, entriesLens]⟩
  | cons e es ih =>
    rw [entriesLens_cons, List.length_append] at hi hn
    rw [entriesBits_cons, List.append_assoc] at hin
    have h1 := entryLens_pos e
    cases n with
    | zero => omega
    | succ n =>
      obtain ⟨-, t, ht, ho, hc, hti⟩ :=
        runParse_reads (entryParse_reads (hes e (List.mem_cons_self ..))) (entryParse_narrow a) hp hin
      obtain ⟨u, hu, huo, hucl⟩ := applyEntry_eq (a := a) (i := i) (e := e) (by omega) t
      have huo' := onlyReaderCl_of_cl huo
      have hsu := (readerClFrame a).trans (onlyReaderCl_of_reader ho) huo'
      obtain ⟨hup, huc, hui⟩ := onlyReaderCl_fields huo'
      have hurd : u.rd = t.rd := by rw [huo]; simp
      have hupos : u.readPos = t.readPos := by unfold State.readPos; rw [hurd]
      have huin : u.InputHas (entriesBits a es ++ rest) := by
        obtain ⟨g1, g2, g3⟩ := hti
        refine ⟨?_, ?_, ?_⟩
        · unfold State.inputOk at *; rw [huc, hup]; exact g1
        · unfold State.avail at *; rw [huc, hupos]; exact g2
        · rw [hui, hupos]; exact g3
      obtain ⟨m, v, hm, hv, hvo, hvc, hvi, hvcl⟩ := ih (fun e' he' => hes e' (List.mem_cons_of_mem _ he')) (n := n)
        (i := i + (entryLens e).length) (s := u) (by rw [hup, ho]; exact hp) (by omega) (by omega) huin
      refine ⟨m, v, ?_, ?_, (readerClFrame a).trans hsu hvo, ⟨?_, ?_⟩, hvi, fun k => ?_⟩
      · rw [entriesLens_cons, List.length_append]; omega
      · rw [deserializeFrom, if_neg (by omega), ht, runParse, Res.bind_ok, hu, Res.bind_ok, hv, entriesLens_cons,
          List.length_append, Nat.add_assoc]
      · rw [hvc.1, hupos, hc.1, entriesBits_cons a e es, List.length_append]; omega
      · rw [hvc.2, hurd, hc.2, entriesBits_cons a e es, List.length_append, BitVec.add_assoc, ← BitVec.ofNat_add]
      · rw [hvcl, hucl, clOf_onlyReader ho, entriesLens_cons, putLens_append]

/-- R144: a table that goes wrong after its entries so far. -/
theorem deserialize_bad {a : Alphabet} {es : List TableEntry} (hes : ∀ e ∈ es, entryOk a e = true) {s : State}
    {bits : List Bool} {e : Err} {n : Nat} {atEnd : Bool} (hp : s.params.ok) (hl : (entriesLens es).length < a.size)
    (hb : BadEntry a (entriesLens es).length bits e n atEnd) (hin : s.InputHas (entriesBits a es ++ bits))
    (hend : atEnd = true → s.avail = (entriesBits a es ++ bits).length) :
    ∃ t, deserialize a s = .err e t ∧ OnlyReaderCl a s t ∧ Consumed s t ((entriesBits a es).length + n) ∧
      ∀ k, clOf a k t = putLens (entriesLens es) 0 k (clOf a k s) := by
  obtain ⟨m, t, hm, ht, hto, htc, hti, htcl⟩ :=
    deserializeFrom_entries hes (n := a.size) (i := 0) hp (by omega) (by omega) hin
  rw [Nat.zero_add] at ht
  obtain ⟨htp, htctl, -⟩ := onlyReaderCl_fields hto
  have hpt : t.params.ok := by rw [htp]; exact hp
  obtain ⟨m, rfl⟩ : ∃ m', m = m' + 1 := ⟨m - 1, by omega⟩
  have hav : t.avail = s.avail - (entriesBits a es).length := by
    unfold State.avail; rw [htc.1, htctl]; omega
  unfold deserialize
  rw [ht, deserializeFrom, if_neg (by omega)]
  cases hb with
  | ends e pre post v w part hf hw =>
    obtain ⟨hw32, k, hr⟩ := entryParse_reads_part hf
    obtain ⟨-, u, hu, huo, huc, hui⟩ := runParse_reads hr (entryParse_narrow a) hpt hti
    have h1 := hend rfl
    rw [List.length_append, List.length_append] at h1
    have h2 := avail_consumed huo huc
    refine ⟨u, ?_, (readerClFrame a).trans hto (onlyReaderCl_of_reader huo), ⟨?_, ?_⟩, fun k => ?_⟩
    · rw [hu, runParse_short hw32 hui.1 (by omega)]; rfl
    · rw [huc.1, htc.1]; omega
    · rw [huc.2, htc.2, BitVec.add_assoc, ← BitVec.ofNat_add]
    · rw [clOf_onlyReader huo, htcl]
  | overrun c hc hov =>
    obtain ⟨-, u, hu, huo, huc, -⟩ := runParse_reads (rest := [])
      (entryParse_reads (a := a) (e := .zrun c) (by simpa [entryOk] using hc)) (entryParse_narrow a) hpt (by simpa using hti)
    refine ⟨u, ?_, (readerClFrame a).trans hto (onlyReaderCl_of_reader huo), ⟨?_, ?_⟩, fun k => ?_⟩
    · rw [hu, runParse, Res.bind_ok, applyEntry, require_of_not (by simp; omega)]; rfl
    · rw [huc.1, htc.1]; omega
    · rw [huc.2, htc.2, BitVec.add_assoc, ← BitVec.ofNat_add]
    · rw [clOf_onlyReader huo, htcl]

end Sys2Proof.Machine
end

