-- ==== Sys2Proof/Laws/Walk.lean ====
section
/-! SUPPORT. What a walk reports (R161–R165): a match that is there. -/

namespace Sys2Proof.Machine

/-- `l` bytes at `p` are those at `q`, and each is written. -/
abbrev SameBytes (m : Memory) (p q l : Nat) : Prop :=
  ∀ j, j < l → (Memory.read? m (p + j)).isSome = true ∧ Memory.read? m (q + j) = Memory.read? m (p + j)

/-- R162: the common prefix that a comparison reports is one, and at most as long as asked. -/
theorem compareFrom_eq_ok {p q n i : Nat} {s t : State} {r : Nat × Bool} (h : compareFrom p q n i s = .ok r t)
    (hi : SameBytes s.ibuf p q i) : t = s ∧ i ≤ r.1 ∧ r.1 ≤ i + n ∧ SameBytes s.ibuf p q r.1 := by
  induction n generalizing i with
  | zero => cases h; exact ⟨rfl, Nat.le_refl _, Nat.le_refl _, hi⟩
  | succ n ih =>
    unfold compareFrom at h
    obtain ⟨b, u, hb1, h1⟩ := Res.bind_eq_ok.1 h
    obtain ⟨hb, hu⟩ := inByte_eq_ok.1 hb1
    subst hu
    obtain ⟨c, v, hc1, h2⟩ := Res.bind_eq_ok.1 h1
    obtain ⟨hc, hv⟩ := inByte_eq_ok.1 hc1
    subst hv
    clear h h1 hb1 hc1
    rename' h2 => h
    split at h
    · rename_i hbc
      subst hbc
      obtain ⟨h1, h2, h3, h4⟩ := ih h (by
        intro j hj
        by_cases hji : j < i
        · exact hi j hji
        · have : j = i := by omega
          subst this
          rw [hb, hc]; exact ⟨rfl, rfl⟩)
      exact ⟨h1, by omega, by omega, h4⟩
    · cases h; exact ⟨rfl, Nat.le_refl _, by dsimp only; omega, hi⟩

/-- A candidate at position `p` (R161–R165): it stays inside the input, its bytes are those `dist` before them, and one of
length 3 is at most 4096 back. -/
structure Candidate (s : State) (p len dist : Nat) : Prop where
  len_le : len ≤ lookahead
  inside : p + len ≤ s.ctl.inLen.toNat
  dist_le : dist ≤ p ∧ dist ≤ windowSize
  dist_pos : 0 < len → 1 ≤ dist
  same : SameBytes s.ibuf p (p - dist) len
  near : len = 3 → dist ≤ 4096

theorem candidate_none {s : State} {p : Nat} (hp : p ≤ s.ctl.inLen.toNat) : Candidate s p 0 0 :=
  ⟨Nat.zero_le _, hp, ⟨Nat.zero_le _, Nat.zero_le _⟩, fun h => by omega, fun j hj => by omega, fun h => by omega⟩

theorem slotDist_pos (p t : Nat) : 1 ≤ slotDist p t := by unfold slotDist; omega

theorem slotDist_le (p t : Nat) : slotDist p t ≤ windowSize := by
  unfold slotDist windowSize
  have := Int.emod_lt_of_pos ((p : Int) - 1 - (t : Int)) (b := (65536 : Nat)) (by decide)
  have := Int.emod_nonneg ((p : Int) - 1 - (t : Int)) (b := (65536 : Nat)) (by decide)
  omega

/-- R163: the candidate of a walk is real when the one it started with is. -/
theorem walkFrom_candidate {p n t bl bd : Nat} {s u : State} {r : WalkResult} (hp : p ≤ s.ctl.inLen.toNat)
    (hb : Candidate s p bl bd) (h : walkFrom p (compareLimit p s) n t bl bd s = .ok r u) : Candidate s p r.len r.dist := by
  induction n generalizing t bl bd with
  | zero => cases h
  | succ n ih =>
    unfold walkFrom at h
    dsimp only at h
    obtain ⟨hd, h⟩ := require_eq_ok.1 h
    obtain ⟨c, v, hc, h⟩ := Res.bind_eq_ok.1 h
    obtain ⟨rfl, -, h2, h3⟩ := compareFrom_eq_ok hc (fun j hj => by omega)
    simp only [decide_eq_true_eq] at hd
    have hlim : c.1 ≤ lookahead ∧ p + c.1 ≤ v.ctl.inLen.toNat := by
      unfold compareLimit at h2; omega
    have hnew : Candidate v p (if bl ≤ effectiveLen c.1 (slotDist p t) then effectiveLen c.1 (slotDist p t) else bl)
        (if bl ≤ effectiveLen c.1 (slotDist p t) then slotDist p t else bd) := by
      split
      · refine ⟨?_, ?_, ⟨hd, slotDist_le p t⟩, fun _ => slotDist_pos p t, ?_, ?_⟩
        · unfold effectiveLen; split <;> omega
        · unfold effectiveLen; split <;> omega
        · intro j hj
          refine h3 j ?_
          unfold effectiveLen at hj; split at hj <;> omega
        · intro he
          unfold effectiveLen at he
          split at he
          · omega
          · rename_i hno
            unfold thresh near at hno
            omega
      · exact hb
    generalize (if c.2 = true then Side.larger else Side.smaller) = sd at h
    split at h
    · cases h; exact hnew
    · split at h
      · cases h; exact hnew
      · exact ih hnew h

theorem walkRoot_candidate {p : Nat} {s u : State} {r : WalkResult} (hp : p ≤ s.ctl.inLen.toNat)
    (h : walkRoot p s = .ok r u) : Candidate s p r.len r.dist := by
  unfold walkRoot at h
  split at h
  · cases h; exact candidate_none hp
  · exact walkFrom_candidate hp (candidate_none hp) h

/-- R163 to R165: a walk that ends leaves in MF_BEST a candidate that is real, and touches nothing but the finder. -/
theorem walk_candidate {p : Nat} {mutate : Bool} {s t : State} (h : walk p mutate s = .ok () t) :
    s.inputOk = true ∧ p < s.ctl.inLen.toNat ∧ OnlyFinder s t ∧
    Candidate s p t.mf.best.len.toNat t.mf.best.dist.toNat := by
  have hof := (walk_stays p mutate s).ok h
  unfold walk at h
  obtain ⟨h1, h⟩ := require_eq_ok.1 h
  obtain ⟨h2, h⟩ := require_eq_ok.1 h
  obtain ⟨-, h⟩ := require_eq_ok.1 h
  obtain ⟨r, u, hr, h⟩ := Res.bind_eq_ok.1 h
  have hu : s = u := (walkRoot_stays p s).ok hr
  subst hu
  simp only [State.positionOk, decide_eq_true_eq] at h2
  have hc := walkRoot_candidate (Nat.le_of_lt h2) hr
  have hb : t.mf.best = ⟨BitVec.ofNat 9 r.len, BitVec.ofNat 17 r.dist⟩ := by cases h; rfl
  have hl : (BitVec.ofNat 9 r.len).toNat = r.len := by
    rw [BitVec.toNat_ofNat]; have := hc.len_le; unfold lookahead at this; omega
  have hd : (BitVec.ofNat 17 r.dist).toNat = r.dist := by
    rw [BitVec.toNat_ofNat]; have := hc.dist_le.2; unfold windowSize at this; omega
  refine ⟨h1, h2, hof, ?_⟩
  rw [hb]; dsimp only; rw [hl, hd]; exact hc

end Sys2Proof.Machine
end

