-- ==== Sys2Proof/Laws/Window.lean ====
section
/-! SUPPORT. The decoder window: a byte pushed, bytes pushed one after another, and a copy (R193, R194). -/

namespace Sys2Proof.Machine

theorem toNat_outLen_windowPush (b : Byte) {s : State} (h : s.wr.outLen.toNat + 1 < 2 ^ 25) :
    (windowPush b s).wr.outLen.toNat = s.wr.outLen.toNat + 1 := by
  show (s.wr.outLen + 1#25).toNat = _
  rw [BitVec.toNat_add]; simp; omega

theorem toNat_fill_windowPush (b : Byte) (s : State) :
    (windowPush b s).win.fill.toNat = min (s.win.fill.toNat + 1) windowSize := by
  show (if s.win.fill.toNat < windowSize then s.win.fill + 1 else BitVec.ofNat 17 windowSize).toNat = _
  unfold windowSize
  split
  · rename_i h
    have : (s.win.fill + 1#17).toNat = s.win.fill.toNat + 1 := by rw [BitVec.toNat_add]; simp; omega
    show (s.win.fill + 1#17).toNat = _
    omega
  · simp; omega

/-- R193: one byte pushed, where it fits. -/
theorem windowPush_pushed (b : Byte) {s : State} (h : s.wr.outLen.toNat + 1 < 2 ^ 25) :
    Pushed s (windowPush b s) 1 ∧ Memory.read? (windowPush b s).obuf s.wr.outLen.toNat = some b := by
  have hp := s.win.pos.isLt
  have hm : s.win.pos.toNat % windowSize = s.win.pos.toNat := Nat.mod_eq_of_lt (by unfold windowSize; omega)
  refine ⟨⟨windowPush_only b s, toNat_outLen_windowPush b h, rfl, toNat_fill_windowPush b s, ?_, ?_, ?_⟩, ?_⟩
  · intro n hn
    have : n = 0 := by omega
    subst this
    simp [windowPush_obuf, windowPush_bytes, hm]
  · intro k hk
    rw [windowPush_obuf, Memory.read?_write_of_ne _ _ (by omega)]
  · intro j hj
    have h0 := hj 0 (by omega)
    rw [Nat.add_zero, hm] at h0
    rw [windowPush_bytes, Memory.read?_write_of_ne _ _ (Ne.symm h0)]
  · rw [windowPush_obuf, Memory.read?_write_same]

/-- The window index of a byte further on. -/
theorem windowPos_add (p : BitVec 16) (k n : Nat) :
    ((p + BitVec.ofNat 16 k).toNat + n) % windowSize = (p.toNat + (k + n)) % windowSize := by
  rw [BitVec.toNat_add, BitVec.toNat_ofNat]
  unfold windowSize
  omega

/-- Bytes pushed one after another. -/
theorem pushed_trans {s t u : State} {k l : Nat} (h1 : Pushed s t k) (h2 : Pushed t u l) (hw : k + l ≤ windowSize) :
    Pushed s u (k + l) := by
  obtain ⟨o1, n1, p1, f1, b1, ob1, w1⟩ := h1
  obtain ⟨o2, n2, p2, f2, b2, ob2, w2⟩ := h2
  refine ⟨windowFrame.trans o1 o2, by omega, ?_, by rw [f2, f1]; omega, ?_, ?_, ?_⟩
  · rw [p2, p1, BitVec.add_assoc, ← BitVec.ofNat_add]
  · intro n hn
    by_cases hk : n < k
    · rw [w2, b1 n hk, ob2 _ (by omega)]
      intro m hm he
      rw [p1, windowPos_add] at he
      unfold windowSize at *
      omega
    · have := b2 (n - k) (by omega)
      rw [p1, windowPos_add, n1, show k + (n - k) = n by omega, show s.wr.outLen.toNat + k + (n - k) = s.wr.outLen.toNat + n by omega] at this
      exact this
  · intro i hi
    rw [ob2 _ (by omega), ob1 _ (by omega)]
  · intro j hj
    rw [w2, w1]
    · intro n hn; exact hj n (by omega)
    · intro n hn
      rw [p1, windowPos_add]
      exact hj (k + n) (by omega)

theorem pushed_refl {s : State} (h : s.win.fill.toNat ≤ windowSize) : Pushed s s 0 := by
  refine ⟨rfl, rfl, by simp, by omega, fun n hn => by omega, fun _ _ => rfl, fun _ _ => rfl⟩

/-- `d` back from the current index is the index of a byte pushed `d` before. -/
theorem windowBack_add {s : State} {d n : Nat} (hd : n ≤ d) (hW : d ≤ windowSize) :
    (windowBack s d + n) % windowSize = (s.win.pos.toNat + windowSize - (d - n)) % windowSize := by
  have := s.win.pos.isLt
  unfold windowBack windowSize at *
  omega

theorem windowBack_eq (s : State) {d : Nat} (hW : d ≤ windowSize) :
    windowBack s d = (s.win.pos.toNat + windowSize - d) % windowSize := by
  have := s.win.pos.isLt
  unfold windowBack windowSize at *
  omega

/-- A pushed byte keeps the last WIN_FILL slots written. -/
theorem windowOk_of_pushed {s t : State} {l : Nat} (h : WindowOk s) (hp : Pushed s t l)
    (hw : ∀ n, n < l → (Memory.read? t.obuf (s.wr.outLen.toNat + n)).isSome = true) : WindowOk t := by
  obtain ⟨hf, hs⟩ := h
  obtain ⟨-, n1, p1, f1, b1, -, w1⟩ := hp
  refine ⟨by rw [f1]; omega, fun d hd1 hd2 => ?_⟩
  have hW : d ≤ windowSize := by rw [f1] at hd2; omega
  have hidx : windowBack t d = (s.win.pos.toNat + (l + (windowSize - d))) % windowSize := by
    rw [windowBack_eq t hW, p1, BitVec.toNat_add, BitVec.toNat_ofNat]
    have := s.win.pos.isLt
    unfold windowSize at *
    omega
  by_cases hdl : d ≤ l
  · have hn : windowBack t d = (s.win.pos.toNat + (l - d)) % windowSize := by
      rw [hidx]; unfold windowSize at *; omega
    rw [hn, b1 _ (by omega)]
    exact hw _ (by omega)
  · have hd3 : d - l ≤ s.win.fill.toNat := by rw [f1] at hd2; omega
    have hn : windowBack t d = windowBack s (d - l) := by
      rw [hidx, windowBack_eq s (by omega)]
      unfold windowSize at *; omega
    rw [hn, w1]
    · exact hs _ (by omega) hd3
    · intro n hn2 he
      rw [windowBack_eq s (by omega)] at he
      have := s.win.pos.isLt
      unfold windowSize at *
      omega

theorem windowRead_of {s : State} {j : Nat} {b : Byte} (h : Memory.read? s.win.bytes j = some b) :
    windowRead j s = .ok b s := by
  unfold windowRead; rw [h]

/-- R194's loop: it ends, and its bytes are those `d` before them. -/
theorem copyLoop_copied {d n : Nat} {s : State} (hok : WindowOk s) (hd1 : 1 ≤ d) (hd2 : d ≤ s.win.fill.toNat)
    (hn : n ≤ windowSize - 1) (ho : s.wr.outLen.toNat + n < 2 ^ 25) :
    ∃ t, copyLoop d n s = .ok () t ∧ Copied s t n d ∧ WindowOk t := by
  induction n generalizing s with
  | zero => exact ⟨s, rfl, ⟨pushed_refl hok.1, fun n hn => by omega⟩, hok⟩
  | succ n ih =>
    have hfill := hok.1
    obtain ⟨b, hb⟩ := Option.isSome_iff_exists.1 (hok.2 d hd1 hd2)
    obtain ⟨hp, hob⟩ := windowPush_pushed b (s := s) (by omega)
    have hok' : WindowOk (windowPush b s) := by
      refine windowOk_of_pushed hok hp fun m hm => ?_
      have : m = 0 := by omega
      subst this
      rw [Nat.add_zero, hob]; rfl
    obtain ⟨t, ht, ⟨hpt, hct⟩, hokt⟩ := ih hok' (by rw [hp.2.2.2.1]; omega) (by omega) (by rw [hp.2.1]; omega)
    have hall := pushed_trans hp hpt (by omega)
    rw [Nat.add_comm 1 n] at hall
    refine ⟨t, ?_, ⟨hall, fun m hm => ?_⟩, hokt⟩
    · simp only [copyLoop, windowRead_of hb, Res.bind_ok, ht]
    · have hout := hp.2.1
      cases m with
      | zero =>
        have h0 : Memory.read? t.obuf s.wr.outLen.toNat = some b := by
          rw [hpt.2.2.2.2.2.1 _ (by omega), hob]
        have hm2 : windowBack s d % windowSize = windowBack s d := by
          rw [windowBack_eq s (by omega), Nat.mod_mod]
        rw [Nat.add_zero, h0, if_pos (by omega), Nat.add_zero, hm2, hb]
        exact ⟨rfl, rfl⟩
      | succ m =>
        have hc := hct m (by omega)
        rw [hout, Nat.add_assoc, Nat.add_comm 1 m] at hc
        refine ⟨hc.1, ?_⟩
        rw [hc.2]
        by_cases h1 : m + 1 < d
        · rw [if_pos (by omega), if_pos h1]
          have hidx : (windowBack (windowPush b s) d + m) % windowSize = (windowBack s d + (m + 1)) % windowSize := by
            rw [windowBack_eq _ (by omega), windowBack_eq _ (by omega), windowPush_pos, BitVec.toNat_add]
            have := s.win.pos.isLt
            show (((s.win.pos.toNat + 1) % 65536 + windowSize - d) % windowSize + m) % windowSize = _
            unfold windowSize at *
            omega
          rw [hidx, hp.2.2.2.2.2.2]
          intro k hk he
          rw [windowBack_add (by omega) (by omega)] at he
          have := s.win.pos.isLt
          unfold windowSize at *
          omega
        · by_cases h2 : m < d
          · rw [if_pos h2, if_neg h1]
            have hidx : (windowBack (windowPush b s) d + m) % windowSize = (s.win.pos.toNat + 0) % windowSize := by
              rw [windowBack_eq _ (by omega), windowPush_pos, BitVec.toNat_add]
              have := s.win.pos.isLt
              show (((s.win.pos.toNat + 1) % 65536 + windowSize - d) % windowSize + m) % windowSize = _
              unfold windowSize at *
              omega
            rw [hidx, hp.2.2.2.2.1 0 (by omega), Nat.add_zero, show s.wr.outLen.toNat + (m + 1) - d = s.wr.outLen.toNat by omega]
            rw [hpt.2.2.2.2.2.1 _ (by omega)]
          · rw [if_neg h2, if_neg h1]

end Sys2Proof.Machine
end

