-- ==== Sys2Proof/Laws/Writer.lean ====
section
/-! SUPPORT. What the bit writer appends (R90–R92): the bits of a field, of a code, of a list of fields. -/

namespace Sys2Proof.Machine

/-! ## One bit -/

theorem getLsbD_setBit (x : Byte) (i k : Nat) (hi : i < 8) (b : Bool) :
    (setBit x i b).getLsbD k = if k = i then b else x.getLsbD k := by
  unfold setBit
  simp only [BitVec.getLsbD_or, BitVec.getLsbD_and, BitVec.getLsbD_not, BitVec.getLsbD_shiftLeft]
  by_cases hk : k = i
  · subst hk
    cases b <;> simp [hi]
  · rw [if_neg hk]
    by_cases hk8 : k < 8
    · cases b
      · simp [hk8]
        omega
      · simp [hk8]
        have : ¬ (i ≤ k ∧ (1#8).getLsbD (k - i) = true) := by
          rintro ⟨h1, h2⟩
          rw [BitVec.getLsbD_one] at h2
          simp at h2; omega
        rcases Nat.lt_or_ge k i with h | h
        · simp [h]
        · have hz : k - i ≠ 0 := by omega
          simp [hz, Nat.not_lt.2 h]
    · have h1 : x.getLsbD k = false := BitVec.getLsbD_of_ge _ _ (by omega)
      rw [h1]
      cases b <;> simp [hk8]

/-- A bit that does not fill its byte stays pending. -/
theorem appendBit_of_room (b : Bool) {s : State} (h : s.wr.wcnt ≠ 7) :
    appendBit b s =
      { s with wr := { s.wr with wacc := setBit s.wr.wacc s.wr.wcnt.toNat b, wcnt := s.wr.wcnt + 1 } } := by
  unfold appendBit; dsimp only; rw [if_neg h]

/-- The writer's bits lie below 2^28: a bound of OUT_LEN, which the capacity keeps (R22). -/
theorem outLen_toNat_outAppend {s : State} (h : s.wr.outLen.toNat + 1 < 2 ^ 25) (b : Byte) :
    (outAppend b s).wr.outLen.toNat = s.wr.outLen.toNat + 1 := by
  simp only [outAppend_outLen, BitVec.toNat_add]
  simp; omega

theorem writePos_appendBit (b : Bool) {s : State} (h : s.wr.wcnt = 7 → s.wr.outLen.toNat + 1 < 2 ^ 25) :
    (appendBit b s).writePos = s.writePos + 1 := by
  unfold appendBit State.writePos
  dsimp only
  split
  · rename_i h7
    have h7' : s.wr.wcnt.toNat = 7 := by rw [h7]; rfl
    simp only [outLen_toNat_outAppend (h h7)]
    simp; omega
  · rename_i h7
    have hb := s.wr.wcnt.isLt
    have h7' : s.wr.wcnt.toNat ≠ 7 := fun h => h7 (BitVec.eq_of_toNat_eq (by simpa using h))
    have : (s.wr.wcnt + 1#3).toNat = s.wr.wcnt.toNat + 1 := by
      rw [BitVec.toNat_add]; simp; omega
    simp [this]; omega

theorem outLen_appendBit (b : Bool) {s : State} (h : s.wr.wcnt = 7 → s.wr.outLen.toNat + 1 < 2 ^ 25) :
    (appendBit b s).wr.outLen.toNat = s.wr.outLen.toNat + (s.wr.wcnt.toNat + 1) / 8 := by
  unfold appendBit
  dsimp only
  have hb := s.wr.wcnt.isLt
  split
  · rename_i h7
    have h7' : s.wr.wcnt.toNat = 7 := by rw [h7]; rfl
    simp only [outLen_toNat_outAppend (h h7)]
    omega
  · rename_i h7
    have h7' : s.wr.wcnt.toNat ≠ 7 := fun h => h7 (BitVec.eq_of_toNat_eq (by simpa using h))
    simp; omega

theorem read?_obuf_appendBit (b : Bool) (s : State) {i : Nat} (h : i ≠ s.wr.outLen.toNat) :
    Memory.read? (appendBit b s).obuf i = Memory.read? s.obuf i := by
  unfold appendBit
  dsimp only
  split
  · exact Memory.read?_write_of_ne _ _ h
  · rfl

theorem outBit_appendBit (b : Bool) {s : State} (h : s.wr.wcnt = 7 → s.wr.outLen.toNat + 1 < 2 ^ 25) (k : Nat)
    (hk : k ≤ s.writePos) : (appendBit b s).outBit k = if k = s.writePos then some b else s.outBit k := by
  have hp := writePos_appendBit b h
  have hb := s.wr.wcnt.isLt
  unfold State.outBit
  rw [hp]
  have hol := outLen_appendBit b h
  unfold State.writePos at hk ⊢
  by_cases h7 : s.wr.wcnt = 7
  · have h7' : s.wr.wcnt.toNat = 7 := by rw [h7]; rfl
    have hob : (appendBit b s).obuf = Memory.write s.obuf s.wr.outLen.toNat (setBit s.wr.wacc 7 b) := by
      unfold appendBit; simp [h7]
    rw [hol, hob, h7']
    simp only [h7'] at hk
    rw [if_pos (by omega)]
    unfold Memory.bit?
    rw [Memory.read?_write]
    by_cases hlow : k < 8 * s.wr.outLen.toNat
    · rw [if_neg (by omega), if_neg (by omega), if_pos hlow]
    · rw [if_pos (by omega), if_neg hlow]
      simp only [Option.map_some]
      rw [getLsbD_setBit _ _ _ (by omega)]
      by_cases he : k = 8 * s.wr.outLen.toNat + 7
      · rw [if_pos (by omega), if_pos he]
      · rw [if_neg (by omega), if_neg he, if_pos (by omega)]
  · have h7' : s.wr.wcnt.toNat ≠ 7 := fun h => h7 (BitVec.eq_of_toNat_eq (by simpa using h))
    have hob : (appendBit b s).obuf = s.obuf := by rw [appendBit_of_room b h7]
    have hacc : (appendBit b s).wr.wacc = setBit s.wr.wacc s.wr.wcnt.toNat b := by rw [appendBit_of_room b h7]
    have h0 : (s.wr.wcnt.toNat + 1) / 8 = 0 := by omega
    rw [hol, hob, hacc, h0, Nat.add_zero]
    by_cases hlow : k < 8 * s.wr.outLen.toNat
    · rw [if_pos hlow, if_pos hlow, if_neg (by omega)]
    · rw [if_neg hlow, if_neg hlow, if_pos (by omega), getLsbD_setBit _ _ _ hb]
      by_cases he : k = 8 * s.wr.outLen.toNat + s.wr.wcnt.toNat
      · rw [if_pos (by omega), if_pos he]
      · rw [if_neg (by omega), if_neg he, if_pos (by omega)]

@[simp] theorem appendBit_bitsW (b : Bool) (s : State) : (appendBit b s).wr.bitsW = s.wr.bitsW := by
  unfold appendBit; dsimp only; split <;> rfl

/-! ## The bits of a field -/

/-- `t` carries the stream of `s` and then `bs`, as `Appended` says, but for BITS_W. -/
def Extends (s t : State) (bs : List Bool) : Prop :=
  t.writePos = s.writePos + bs.length ∧
  (∀ k, k < s.writePos → t.outBit k = s.outBit k) ∧
  (∀ j, j < bs.length → t.outBit (s.writePos + j) = bs[j]?) ∧
  (∀ i, i < s.wr.outLen.toNat ∨ t.wr.outLen.toNat ≤ i → Memory.read? t.obuf i = Memory.read? s.obuf i)

theorem outLen_eq_writePos (s : State) : s.wr.outLen.toNat = s.writePos / 8 := by
  have := s.wr.wcnt.isLt; unfold State.writePos; omega

theorem Extends.refl (s : State) : Extends s s [] := ⟨rfl, fun _ _ => rfl, fun j hj => by simp at hj, fun _ _ => rfl⟩

theorem Extends.trans {s t u : State} {bs cs : List Bool} (h1 : Extends s t bs) (h2 : Extends t u cs) :
    Extends s u (bs ++ cs) := by
  obtain ⟨p1, k1, n1, f1⟩ := h1
  obtain ⟨p2, k2, n2, f2⟩ := h2
  refine ⟨by rw [p2, p1, List.length_append]; omega, fun k hk => by rw [k2 k (by omega), k1 k hk], ?_, ?_⟩
  · intro j hj
    rw [List.length_append] at hj
    by_cases hb : j < bs.length
    · rw [k2 _ (by omega), n1 j hb, List.getElem?_append_left hb]
    · have := n2 (j - bs.length) (by omega)
      rw [p1, Nat.add_assoc, Nat.add_sub_cancel' (by omega)] at this
      rw [this, List.getElem?_append_right (by omega)]
  · have e1 := outLen_eq_writePos s
    have e2 := outLen_eq_writePos t
    have e3 := outLen_eq_writePos u
    intro i hi
    rw [f2 i (by omega), f1 i (by omega)]

theorem extends_appendBit (b : Bool) {s : State} (h : s.wr.wcnt = 7 → s.wr.outLen.toNat + 1 < 2 ^ 25) :
    Extends s (appendBit b s) [b] := by
  refine ⟨writePos_appendBit b h, fun k hk => by rw [outBit_appendBit b h k (by omega), if_neg (by omega)], ?_, ?_⟩
  · intro j hj
    have : j = 0 := by simpa using hj
    subst this
    rw [outBit_appendBit b h _ (by omega)]; simp
  · intro i hi
    by_cases he : i = s.wr.outLen.toNat
    · have hl := outLen_appendBit b h
      have : s.wr.wcnt ≠ 7 := by
        intro h7
        have h7' : s.wr.wcnt.toNat = 7 := by rw [h7]; rfl
        omega
      rw [appendBit_of_room b this]
    · exact read?_obuf_appendBit b s he

/-- R90's loop appends the low `n` bits of the value, least significant first. -/
theorem extends_appendBits (v n : Nat) {s : State} (h : s.wr.outLen.toNat + (s.wr.wcnt.toNat + n) / 8 < 2 ^ 25) :
    Extends s (appendBits v n s) (toBits v n) := by
  induction n generalizing v s with
  | zero => exact Extends.refl s
  | succ n ih =>
    have hb := s.wr.wcnt.isLt
    have h7 : s.wr.wcnt = 7 → s.wr.outLen.toNat + 1 < 2 ^ 25 := by
      intro h7
      have h7' : s.wr.wcnt.toNat = 7 := by rw [h7]; rfl
      rw [h7'] at h; omega
    have e1 := extends_appendBit (v.testBit 0) h7
    have hw : (appendBit (v.testBit 0) s).writePos = s.writePos + 1 := writePos_appendBit _ h7
    refine e1.trans (ih (v / 2) ?_)
    unfold State.writePos at hw
    omega

@[simp] theorem appendBits_bitsW (v n : Nat) (s : State) : (appendBits v n s).wr.bitsW = s.wr.bitsW := by
  induction n generalizing v s with
  | zero => rfl
  | succ n ih => simp [appendBits, ih]

/-! ## WACC is 0 from bit WCNT on -/

/-- WACC stays 0 from bit WCNT on (R24). -/
abbrev KeepsWacc (s t : State) : Prop :=
  s.wr.wacc.toNat < 2 ^ s.wr.wcnt.toNat → t.wr.wacc.toNat < 2 ^ t.wr.wcnt.toNat

theorem wacc_appendBit (b : Bool) {s : State} (h : s.wr.wacc.toNat < 2 ^ s.wr.wcnt.toNat) :
    (appendBit b s).wr.wacc.toNat < 2 ^ (appendBit b s).wr.wcnt.toNat := by
  unfold appendBit
  dsimp only
  split
  · simp
  · rename_i h7
    have hb := s.wr.wcnt.isLt
    have h7' : s.wr.wcnt.toNat ≠ 7 := fun h => h7 (BitVec.eq_of_toNat_eq (by simpa using h))
    have : (s.wr.wcnt + 1#3).toNat = s.wr.wcnt.toNat + 1 := by
      rw [BitVec.toNat_add]; simp; omega
    dsimp only
    rw [show (s.wr.wcnt + 1 : BitVec 3).toNat = s.wr.wcnt.toNat + 1 from this]
    apply Nat.lt_pow_two_of_testBit
    intro i hi
    rw [BitVec.testBit_toNat, getLsbD_setBit _ _ _ hb, if_neg (by omega), ← BitVec.testBit_toNat]
    exact Nat.testBit_lt_two_pow (Nat.lt_of_lt_of_le h (Nat.pow_le_pow_right (by omega) (by omega)))

theorem wacc_appendBits (v n : Nat) {s : State} : KeepsWacc s (appendBits v n s) := by
  intro h
  induction n generalizing v s with
  | zero => exact h
  | succ n ih => exact ih _ (wacc_appendBit _ h)

/-! ## WriteBits -/

theorem appended_of_extends {s t : State} {bs : List Bool} (h : Extends s t bs)
    (hb : t.wr.bitsW = s.wr.bitsW + BitVec.ofNat 32 bs.length) : Appended s t bs :=
  ⟨h.1, h.2.1, h.2.2.1, hb, h.2.2.2⟩

theorem extends_of_appended {s t : State} {bs : List Bool} (h : Appended s t bs) : Extends s t bs :=
  ⟨h.1, h.2.1, h.2.2.1, h.2.2.2.2⟩

theorem appended_trans {s t u : State} {bs cs : List Bool} (h1 : Appended s t bs) (h2 : Appended t u cs) :
    Appended s u (bs ++ cs) := by
  refine appended_of_extends ((extends_of_appended h1).trans (extends_of_appended h2)) ?_
  rw [h2.2.2.2.1, h1.2.2.2.1, BitVec.add_assoc, ← BitVec.ofNat_add, List.length_append]

theorem appended_refl (s : State) : Appended s s [] := appended_of_extends (Extends.refl s) (by simp)

/-- R90: the low `n` bits of the value are appended where the bytes they complete fit. -/
theorem writeBits_appends {v n : Nat} {s : State} (hp : s.params.ok) (hn : n ≤ 32) (hf : s.BitsFit n) :
    ∃ t, writeBits v n s = .ok () t ∧ OnlyWriter s t ∧ Appended s t (toBits v n) ∧ KeepsWacc s t := by
  refine ⟨countWritten n (appendBits v n s), ?_, ?_, ?_, ?_⟩
  · unfold writeBits
    rw [require_of (by simpa [bitCountOk] using hn), require_of (by simpa [State.outFits] using hf)]
  · have := writeBits_stays v n s
    exact writerFrame.trans (appendBits_only v n s) rfl
  · have hlt : s.wr.outLen.toNat + (s.wr.wcnt.toNat + n) / 8 < 2 ^ 25 := by
      have := hp.2.2.2.1
      have : s.wr.outLen.toNat + (s.wr.wcnt.toNat + n) / 8 ≤ s.params.obufSize := hf
      omega
    have e := extends_appendBits v n hlt
    refine appended_of_extends ⟨e.1, e.2.1, e.2.2.1, e.2.2.2⟩ ?_
    simp
  · exact wacc_appendBits v n

theorem bitsFit_of_appended {s t : State} {bs : List Bool} (ho : OnlyWriter s t) (h : Appended s t bs) {n : Nat}
    (hf : s.BitsFit (bs.length + n)) : t.BitsFit n := by
  have hp : t.params = s.params := by rw [ho]
  have h1 := h.1
  unfold State.writePos at h1
  have hb := t.wr.wcnt.isLt
  have hb' := s.wr.wcnt.isLt
  unfold State.BitsFit at *
  rw [hp]; omega

theorem bitsFit_mono {s : State} {m n : Nat} (h : m ≤ n) (hf : s.BitsFit n) : s.BitsFit m := by
  unfold State.BitsFit at *
  have : (s.wr.wcnt.toNat + m) / 8 ≤ (s.wr.wcnt.toNat + n) / 8 := Nat.div_le_div_right (by omega)
  omega

/-! ## Codes and lists of fields -/

/-- R140: reversing the low `n` bits of a code gives a number of `n` bits. -/
theorem revBits_lt (c n : Nat) : revBits c n < 2 ^ n := by
  induction n generalizing c with
  | zero => simp [revBits]
  | succ n ih =>
    have := ih (c / 2)
    have h2 : c % 2 < 2 := Nat.mod_lt _ (by omega)
    simp only [revBits, Nat.pow_succ]
    rcases Nat.mod_two_eq_zero_or_one c with h | h <;> rw [h] <;> omega

theorem testBit_revBits (c n j : Nat) (h : j < n) : (revBits c n).testBit j = c.testBit (n - 1 - j) := by
  induction n generalizing c j with
  | zero => omega
  | succ n ih =>
    have hlt := revBits_lt (c / 2) n
    have hform : revBits c (n + 1) = 2 ^ n * (c % 2) + revBits (c / 2) n := by simp [revBits, Nat.mul_comm]
    rw [hform, Nat.testBit_two_pow_mul_add _ hlt]
    by_cases hj : j < n
    · rw [if_pos hj, ih _ _ hj]
      rw [show n + 1 - 1 - j = (n - 1 - j) + 1 by omega, Nat.testBit_succ]
    · have : j = n := by omega
      subst this
      rw [if_neg (by omega)]
      simp

theorem getElem?_codePath (c n j : Nat) (h : j < n) : (codePath c n)[j]? = some (c.testBit (n - 1 - j)) := by
  induction n generalizing j with
  | zero => omega
  | succ n ih =>
    cases j with
    | zero => simp [codePath]
    | succ j =>
      simp only [codePath, List.getElem?_cons_succ]
      rw [ih _ (by omega)]
      congr 2; omega

@[simp] theorem length_codePath (c n : Nat) : (codePath c n).length = n := by
  induction n with
  | zero => rfl
  | succ n ih => simp [codePath, ih]

/-- R49, R76: the reversed code, least significant bit first, is the code most significant bit first. -/
theorem toBits_revBits (c n : Nat) : toBits (revBits c n) n = codePath c n := by
  apply List.ext_getElem?
  intro j
  by_cases h : j < n
  · rw [getElem?_toBits _ _ _ h, getElem?_codePath _ _ _ h, testBit_revBits _ _ _ h]
  · rw [List.getElem?_eq_none (by simp; omega), List.getElem?_eq_none (by simp; omega)]

theorem clOf_lt (a : Alphabet) (sym : Nat) (s : State) : clOf a sym s < 32 := (tableGet (s.tab a).cl sym 0).isLt

theorem clOf_onlyWriter {s t : State} (h : OnlyWriter s t) (a : Alphabet) (sym : Nat) : clOf a sym t = clOf a sym s := by
  rw [h]; cases a <;> rfl

theorem codeOf_onlyWriter {s t : State} (h : OnlyWriter s t) (a : Alphabet) (sym : Nat) :
    codeOf a sym t = codeOf a sym s := by
  rw [h]; cases a <;> rfl

/-- R150: a symbol's code is appended, most significant bit first. -/
theorem encodeSymbol_appends {a : Alphabet} {sym : Nat} {s : State} (hp : s.params.ok) (hc : clOf a sym s ≠ 0)
    (hf : s.BitsFit (clOf a sym s)) :
    ∃ t, encodeSymbol a sym s = .ok () t ∧ OnlyWriter s t ∧
      Appended s t (codePath (codeOf a sym s) (clOf a sym s)) ∧ KeepsWacc s t := by
  have hl := clOf_lt a sym s
  obtain ⟨t, ht, ho, ha, hwt⟩ := writeBits_appends (v := revBits (codeOf a sym s) (clOf a sym s)) hp (by omega) hf
  refine ⟨t, ?_, ho, by rw [toBits_revBits] at ha; exact ha, hwt⟩
  unfold encodeSymbol
  rw [require_of (by simpa using hc), ht]

/-- The bits a list of fields comes to, by the tables of a state. -/
abbrev State.fieldBits (s : State) (fs : List Field) : List Bool := fieldsToBits (codeTable s) fs

/-- A field can be written: a number is at most 32 bits wide, and a symbol has a code. -/
def Field.Writable (s : State) : Field → Prop
  | .bits _ n => n ≤ 32
  | .code a sym => clOf a sym s ≠ 0

theorem fieldBits_onlyWriter {s t : State} (h : OnlyWriter s t) (fs : List Field) : t.fieldBits fs = s.fieldBits fs := by
  have : codeTable t = codeTable s := by
    funext a sym; simp only [codeTable, clOf_onlyWriter h, codeOf_onlyWriter h]
  unfold State.fieldBits; rw [this]

theorem fieldBits_cons (s : State) (f : Field) (fs : List Field) :
    s.fieldBits (f :: fs) = Field.toBits (codeTable s) f ++ s.fieldBits fs := by
  simp [State.fieldBits, fieldsToBits]

theorem fieldBits_append (s : State) (fs gs : List Field) :
    s.fieldBits (fs ++ gs) = s.fieldBits fs ++ s.fieldBits gs := by
  simp [State.fieldBits, fieldsToBits]

/-- Fields written one after another are their bits, appended with no gaps (R69). -/
theorem writeFields_appends {fs : List Field} {s : State} (hp : s.params.ok) (hf : ∀ f ∈ fs, Field.Writable s f)
    (hfit : s.BitsFit (s.fieldBits fs).length) :
    ∃ t, writeFields fs s = .ok () t ∧ OnlyWriter s t ∧ Appended s t (s.fieldBits fs) ∧ KeepsWacc s t := by
  induction fs generalizing s with
  | nil => exact ⟨s, rfl, rfl, appended_refl s, id⟩
  | cons f fs ih =>
    rw [fieldBits_cons, List.length_append] at hfit
    have hone : ∃ t, writeField f s = .ok () t ∧ OnlyWriter s t ∧ Appended s t (Field.toBits (codeTable s) f) ∧
        KeepsWacc s t := by
      have hwf := hf f (List.mem_cons_self ..)
      have hfit1 := bitsFit_mono (Nat.le_add_right _ _) hfit
      cases f with
      | bits v n =>
        simp only [Field.toBits, length_toBits] at hfit1
        exact writeBits_appends hp hwf hfit1
      | code a sym =>
        simp only [Field.toBits, codeTable, length_toBits] at hfit1
        obtain ⟨t, h1, h2, h3, h4⟩ := encodeSymbol_appends hp hwf hfit1
        exact ⟨t, h1, h2, by simp only [Field.toBits, codeTable, toBits_revBits]; exact h3, h4⟩
    obtain ⟨t, ht, ho, ha, hwt⟩ := hone
    have hpt : t.params.ok := by rw [show t.params = s.params by rw [ho]]; exact hp
    have hft : ∀ g ∈ fs, Field.Writable t g := by
      intro g hg
      have := hf g (List.mem_cons_of_mem _ hg)
      cases g with
      | bits v n => exact this
      | code a sym => simp only [Field.Writable, clOf_onlyWriter ho]; exact this
    obtain ⟨u, hu, hou, hau, hwu⟩ := ih hpt hft (by
      rw [fieldBits_onlyWriter ho]; exact bitsFit_of_appended ho ha hfit)
    refine ⟨u, ?_, writerFrame.trans ho hou, ?_, fun h => hwu (hwt h)⟩
    · simp only [writeFields, ht, Res.bind_ok, hu]
    · rw [fieldBits_cons]
      rw [fieldBits_onlyWriter ho] at hau
      exact appended_trans ha hau

end Sys2Proof.Machine
end

