-- ==== Sys2Proof/Tests/Slice0.lean ====
section
/-! SUPPORT. Tests. Expected values come from spec/95_test_vectors.md or, where a comment says so, from a rule worked by
hand. The last part shows, for every statement that has hypotheses, a state and operands that meet them. -/

namespace Sys2Proof.Tests

open Sys2Proof.Machine

set_option Elab.async false

/-! ## Small states -/

/-- A block right after reset, with the given buffer sizes and BASE = 0. -/
def bench (i o : Nat) : State := State.resetWith ⟨i, o, 0⟩ ⟨[], 0, 0⟩

/-- The operands ARG0 and ARG1. -/
def args (a0 a1 : Nat) (s : State) : State :=
  { s with ctl := { s.ctl with arg0 := BitVec.ofNat 32 a0, arg1 := BitVec.ofNat 32 a1 } }

/-- The bytes of a memory from index `i` on. -/
def bytesFrom (i : Nat) : List Nat → Memory
  | [] => []
  | b :: bs => (i, BitVec.ofNat 8 b) :: bytesFrom (i + 1) bs

/-- An input in IBUF. -/
def input (bs : List Nat) (s : State) : State :=
  { s with ibuf := bytesFrom 0 bs, ctl := { s.ctl with inLen := BitVec.ofNat 32 bs.length } }

/-- CL entries written. -/
def withCl (a : Alphabet) : List (Nat × Nat) → State → State
  | [], s => s
  | (sym, l) :: rest, s => withCl a rest (setCl a sym l s)

/-- FREQ entries written. -/
def withFreq (a : Alphabet) : List (Nat × Nat) → State → State
  | [], s => s
  | (sym, n) :: rest, s =>
    withFreq a rest (s.setTab a { s.tab a with freq := tableSet (s.tab a).freq sym (BitVec.ofNat 32 n) })

/-- A tree put in by hand: (slot, parent, smaller, larger), slots rising. -/
def tree (rows : List (Nat × Nat × Nat × Nat)) (s : State) : State :=
  { s with mf := { s.mf with
      parent := (rows.map fun r => (r.1, BitVec.ofNat 17 r.2.1)).filter fun e => e.2 != nilLink
      smaller := (rows.map fun r => (r.1, BitVec.ofNat 17 r.2.2.1)).filter fun e => e.2 != nilLink
      larger := (rows.map fun r => (r.1, BitVec.ofNat 17 r.2.2.2)).filter fun e => e.2 != nilLink } }

/-- The writer with OUT_LEN bytes out, WACC and WCNT pending. -/
def writer (outLen wacc wcnt : Nat) (s : State) : State :=
  { s with wr := { s.wr with outLen := BitVec.ofNat 25 outLen, wacc := BitVec.ofNat 8 wacc, wcnt := BitVec.ofNat 3 wcnt } }

/-- The reader's cursor at bit RBIT of byte RPOS. -/
def reader (rpos rbit : Nat) (s : State) : State :=
  { s with rd := { s.rd with rpos := BitVec.ofNat 25 rpos, rbit := BitVec.ofNat 3 rbit } }

/-- A window filled with the given bytes, which are the output too. -/
def window (bs : List Nat) (s : State) : State :=
  { s with win := ⟨BitVec.ofNat 16 bs.length, BitVec.ofNat 17 bs.length, bytesFrom 0 bs⟩
           obuf := bytesFrom 0 bs
           wr := { s.wr with outLen := BitVec.ofNat 25 bs.length } }

/-- A command started. -/
def started (w : Nat) (s : State) : State := s.start (BitVec.ofNat 32 w)

/-- A command in progress at a place of a stream. -/
def inside (w : Nat) (p : StreamPos) (s : State) : State := (started w s).setPos p

/-- A host with these acts to come. -/
def script (acts : List HostAct) (s : State) : State := { s with host := { s.host with todo := acts } }

/-! ## What a step came to -/

/-- The outcome is a next state, and it has the property. -/
def nextIs (o : Host.Outcome State Fault Refusal) (p : State → Bool) : Bool :=
  match o with
  | .next t => p t
  | .fault _ => false
  | .refused _ => false

/-- The command ended well with these results. -/
def gives (r0 r1 r2 : Nat) (t : State) : Bool :=
  t.ctl.cause == 0 && t.ctl.detail == 0 && t.ctl.done && !t.ctl.busy &&
    t.ctl.res0.toNat == r0 && t.ctl.res1.toNat == r1 && t.ctl.res2.toNat == r2

/-- The command ended with this error. -/
def fails (c d : Nat) (t : State) : Bool :=
  t.ctl.cause.toNat == c && t.ctl.detail.toNat == d && t.ctl.done && !t.ctl.busy

/-- The bytes of OBUF. -/
def output (t : State) : List Nat := t.obuf.map fun c => c.2.toNat

theorem exists_of_nextIs {o : Host.Outcome State Fault Refusal} {p : State → Bool} (h : nextIs o p = true) :
    ∃ t, o = .next t ∧ p t = true := by
  cases o with
  | next t => exact ⟨t, rfl, h⟩
  | fault f => cases h
  | refused r => cases h

/-! ## WellFormed -/

/-- R70: the lengths a CLE_SHORT can hold. -/
theorem test_wellFormed_cleShort :
    wellFormed (.cleShort 0) = false ∧ wellFormed (.cleShort 15) = false ∧
    wellFormed (.cleShort 1) = true ∧ wellFormed (.cleShort 14) = true := by decide

/-- R70: `x = 3` is the longer form. -/
theorem test_wellFormed_cleExt1 : wellFormed (.cleExt1 3) = false ∧ wellFormed (.cleExt1 2) = true := by decide

/-- R73, R79: MATCH has a length slot from 1 to 23. -/
theorem test_wellFormed_matchSlot_slot :
    wellFormed (.matchSlot 0 0 0 0) = false ∧ wellFormed (.matchSlot 24 0 0 0) = false ∧
    wellFormed (.matchSlot 1 0 0 0) = true ∧ wellFormed (.matchSlot 23 0 31 16383) = true := by decide

/-- R74: each extra value fits its field. -/
theorem test_wellFormed_matchSlot_extra :
    wellFormed (.matchSlot 8 2 0 0) = false ∧ wellFormed (.matchSlot 8 1 0 0) = true ∧
    wellFormed (.matchSlot 8 0 4 2) = false ∧ wellFormed (.matchSlot 8 0 4 1) = true := by decide

/-! ## Decoding: words written out from R60 and R63 -/

theorem test_decode_pipelines :
    decodeWord 0b00000000000000000000000000000001 = .ok .compress ∧
    decodeWord 0b00000000000000000000000000000010 = .ok .expand := by decide

theorem test_decode_bitstream :
    decodeWord 0b00000000000000000000000000010000 = .ok .bwReset ∧ decodeWord 0x00000011 = .ok .bwWriteBits ∧
    decodeWord 0x00000012 = .ok .bwWriteByte ∧ decodeWord 0x00000013 = .ok .bwWriteEof ∧
    decodeWord 0x00000018 = .ok .brReset ∧ decodeWord 0x00000019 = .ok .brReadBits ∧
    decodeWord 0b00000000000000000000000000011010 = .ok .brReadByte := by decide

theorem test_decode_lookup :
    decodeWord 0b00000000000000000000000000100000 = .ok .lenSlot ∧ decodeWord 0x00000021 = .ok .distSlot ∧
    decodeWord 0x00000022 = .ok .lenRange ∧ decodeWord 0x00000023 = .ok .distRange := by decide

theorem test_decode_finder :
    decodeWord 0b00000000000000000000000000110000 = .ok .mfInit ∧ decodeWord 0x00000031 = .ok .mfInsert ∧
    decodeWord 0x00000032 = .ok .mfProbe ∧ decodeWord 0x00000033 = .ok .mfDelete ∧
    decodeWord 0x00000034 = .ok .mfLongest ∧ decodeWord 0x00000035 = .ok .treeRead := by decide

theorem test_decode_huffman_ll :
    decodeWord 0b00000000000000000000000001000000 = .ok (.freqClear .ll) ∧ decodeWord 0x00000041 = .ok (.freqInc .ll) ∧
    decodeWord 0x00000042 = .ok (.freqRead .ll) ∧ decodeWord 0x00000043 = .ok (.hufBuild .ll) ∧
    decodeWord 0x00000044 = .ok (.hufCanon .ll) ∧ decodeWord 0x00000045 = .ok (.hufSerialize .ll) := by decide

theorem test_decode_huffman_ds :
    decodeWord 0b00000000000000000000000101000110 = .ok (.hufDeserialize .ds) ∧
    decodeWord 0x00000147 = .ok (.hufTrie .ds) ∧ decodeWord 0x00000148 = .ok (.hufDecode .ds) ∧
    decodeWord 0x00000149 = .ok (.hufEncode .ds) ∧ decodeWord 0x0000014A = .ok (.clRead .ds) ∧
    decodeWord 0x0000014B = .ok (.clWrite .ds) := by decide

theorem test_decode_window :
    decodeWord 0b00000000000000000000000001010000 = .ok .winReset ∧ decodeWord 0x00000051 = .ok .winPut ∧
    decodeWord 0x00000052 = .ok .winCopy ∧ decodeWord 0x00000053 = .ok .winRead := by decide

/-- 95_test_vectors.md section 2.11. -/
theorem test_decode_illegal :
    decodeWord 0x00000000 = .reservedOpcode ∧ decodeWord 0x0000007F = .reservedOpcode ∧
    decodeWord 0x000001FF = .reservedOpcode ∧ decodeWord 0x00000101 = .reservedBits ∧
    decodeWord 0x00000210 = .reservedBits ∧ decodeWord 0x80000041 = .reservedBits := by decide

/-- R70, R71, R48: table entries bit by bit, the first bit first on the wire. -/
theorem test_decode_entries_ll :
    (entryParse .ll).onBits [true, false, true, true] = some (.short 13, []) ∧
    (entryParse .ll).onBits [true, true, true, true, false, true] = some (.ext1 2, []) ∧
    (entryParse .ll).onBits [true, true, true, true, true, true, true, false] = some (.ext2 1, []) ∧
    (entryParse .ll).onBits
      [false, false, false, false, true, false, true, true, true, true, false, true] = some (.zrun 189, []) := by decide

/-- R71: a zero run of the distance table has a field of 5 bits. -/
theorem test_decode_entries_ds :
    (entryParse .ds).onBits [false, false, false, false, false, true, true, true, true] = some (.zrun 30, []) ∧
    TableEntry.toInstr .ds (.zrun 30) = .cleZrunD 30 ∧ TableEntry.toInstr .ll (.zrun 189) = .cleZrunLl 189 ∧
    TableEntry.toInstr .ll (.short 13) = .cleShort 13 ∧ TableEntry.toInstr .ds (.ext1 2) = .cleExt1 2 ∧
    TableEntry.toInstr .ds (.ext2 1) = .cleExt2 1 := by decide

/-- 95_test_vectors.md section 1.1: the codes 263 = `0`, 65 = `10`, 256 = `11`; 0 = `0`. -/
def llTrie : DecodeTrie := ⟨.leaf 263, .node (.leaf 65) (.leaf 256)⟩

def dsTrie : DecodeTrie := ⟨.leaf 0, .empty⟩

/-- R73: events bit by bit. -/
theorem test_decode_events :
    (eventParse llTrie dsTrie).onBits [true, false] = some (.lit 65, []) ∧
    (eventParse llTrie dsTrie).onBits [true, true] = some (.eos, []) ∧
    (eventParse llTrie dsTrie).onBits [false, false] = some (.matchSlot 6 0 0 0, []) := by decide

/-- R73 to R75, R110, R111 by hand: symbol 257 and the raw field of distance 4096 - 1; symbol 265 (slot 8) with `e = 1`, distance
slot 4 with `x = 1`. -/
theorem test_decode_matches :
    (eventParse ⟨.leaf 257, .leaf 265⟩ ⟨.empty, .leaf 4⟩).onBits
      [false, true, false, true, true, true, true, true, true, true, true, true, true] = some (.match3 4093, []) ∧
    (eventParse ⟨.leaf 257, .leaf 265⟩ ⟨.empty, .leaf 4⟩).onBits [true, true, true, true] =
      some (.matchSlot 8 1 4 1, []) := by decide

/-- R148: a slot of the trie that no code fills. -/
theorem test_decode_unpopulated : (eventParse DecodeTrie.rootOnly dsTrie).onBits [true] = none := by decide

/-- spec/opcode_table.json: the row CLE_EXT2 `111111YY` with Y = 2, and a command word. -/
theorem test_decodeTableWord :
    decodeTableWord 8 0b11111110 = some (.cleExt2 2) ∧ decodeTableWord 32 0x00000153 = none ∧
    decodeTableWord 32 0x00000053 = some .winRead := by decide

/-- R76, R49: the code `110` on the wire. -/
theorem test_encode_code : Field.toBits (fun _ _ => (3, 6)) (.code .ll 0) = [true, true, false] := by decide

/-! ## Bit stream (95 section 2.1 and 2.2) -/

/-- W1 with something to drop: R95 by hand. -/
theorem test_bwReset :
    nextIs (exec .bwReset (writer 5 3 2 (bench 8 8))) (fun t => gives 0 0 0 t && t.wr == ⟨0, 0, 0, 0⟩) = true := by
  decide +kernel

/-- W3: 5 bits after `5/3` complete the byte FD. -/
theorem test_bwWriteBits :
    nextIs (exec .bwWriteBits (args 0x1F 5 (writer 0 5 3 (bench 8 8))))
      (fun t => gives 0 0 0 t && output t == [0xFD] && t.wr == ⟨1, 0, 0, 5⟩) = true := by decide +kernel

/-- F3: a byte that does not fit; nothing is appended. -/
theorem test_bwWriteBits_full :
    nextIs (exec .bwWriteBits (args 0 7 (writer 1 1 1 (bench 8 1))))
      (fun t => fails 5 0 t && t.wr == ⟨1, 1, 1, 0⟩) = true := by decide +kernel

/-- W7. -/
theorem test_bwWriteByte :
    nextIs (exec .bwWriteByte (args 0xAA 0 (writer 2 0 0 (bench 8 8))))
      (fun t => gives 0 0 0 t && output t == [0xAA] && t.wr == ⟨3, 0, 0, 8⟩) = true := by decide +kernel

/-- F5: ALIGN comes before OUTPUT_FULL. -/
theorem test_bwWriteByte_align :
    nextIs (exec .bwWriteByte (args 0 0 (writer 1 1 1 (bench 8 1)))) (fun t => fails 2 0 t) = true := by decide +kernel

/-- W6: the padding is not counted. -/
theorem test_bwWriteEof :
    nextIs (exec .bwWriteEof (writer 1 3 2 (bench 8 8)))
      (fun t => gives 0 0 0 t && output t == [0x03] && t.wr == ⟨2, 0, 0, 0⟩) = true := by decide +kernel

/-- F4. -/
theorem test_bwWriteEof_full :
    nextIs (exec .bwWriteEof (writer 1 1 1 (bench 8 1))) (fun t => fails 5 0 t) = true := by decide +kernel

/-- B1. -/
theorem test_brReset :
    nextIs (exec .brReset (reader 2 3 (bench 8 8))) (fun t => gives 0 0 0 t && t.rd == ⟨0, 0, 0⟩) = true := by
  decide +kernel

/-- B3. -/
theorem test_brReadBits :
    nextIs (exec .brReadBits (args 0 5 (reader 0 3 (input [0xFD, 0x03, 0xAA] (bench 8 8)))))
      (fun t => gives 0x1F 0 0 t && t.rd == ⟨1, 0, 5⟩) = true := by decide +kernel

/-- A read past the end consumes nothing (section 2.2). -/
theorem test_brReadBits_end :
    nextIs (exec .brReadBits (args 0 9 (input [0x80] (bench 8 8)))) (fun t => fails 1 0 t && t.rd == ⟨0, 0, 0⟩) = true := by
  decide +kernel

/-- B7. -/
theorem test_brReadByte :
    nextIs (exec .brReadByte (reader 2 0 (input [0xFD, 0x03, 0xAA] (bench 8 8))))
      (fun t => gives 0xAA 0 0 t && t.rd == ⟨3, 0, 8⟩) = true := by decide +kernel

/-- R242, 93 I2: a byte nothing has written. -/
theorem test_brReadByte_unwritten :
    (exec .brReadByte { bench 8 8 with ctl := { Ctl.reset with inLen := 1 } } matches .fault .unwrittenInput) = true := by
  decide +kernel

/-! ## Lookups (95 section 2.3) -/

theorem test_lenSlot :
    nextIs (exec .lenSlot (args 257 0 (bench 8 8))) (gives 22 126 7) = true ∧
    nextIs (exec .lenSlot (args 258 0 (bench 8 8))) (gives 23 0 0) = true := by decide +kernel

theorem test_lenSlot_range :
    nextIs (exec .lenSlot (args 2 0 (bench 8 8))) (fails 6 3) = true ∧
    nextIs (exec .lenSlot (args 259 0 (bench 8 8))) (fails 6 3) = true := by decide +kernel

theorem test_distSlot :
    nextIs (exec .distSlot (args 65536 0 (bench 8 8))) (gives 31 16383 14) = true ∧
    nextIs (exec .distSlot (args 4097 0 (bench 8 8))) (gives 24 0 11) = true := by decide +kernel

theorem test_distSlot_range :
    nextIs (exec .distSlot (args 0 0 (bench 8 8))) (fails 6 3) = true ∧
    nextIs (exec .distSlot (args 65537 0 (bench 8 8))) (fails 6 3) = true := by decide +kernel

theorem test_lenRange :
    nextIs (exec .lenRange (args 22 0 (bench 8 8))) (gives 131 257 7) = true ∧
    nextIs (exec .lenRange (args 24 0 (bench 8 8))) (fails 6 3) = true := by decide +kernel

theorem test_distRange :
    nextIs (exec .distRange (args 30 0 (bench 8 8))) (gives 32769 49152 14) = true ∧
    nextIs (exec .distRange (args 32 0 (bench 8 8))) (fails 6 3) = true := by decide +kernel

/-! ## Match finder (95 section 2.8) -/

/-- "banana". -/
def banana : List Nat := [0x62, 0x61, 0x6E, 0x61, 0x6E, 0x61]

/-- V-M1's tree after its six inserts. -/
def bananaTree : State :=
  tree ([(0, 65536, 1, 2), (1, 0, 131071, 3), (2, 0, 131071, 4), (3, 1, 131071, 5), (4, 2, 131071, 131071)] ++
    [(5, 3, 131071, 131071), (65536, 131071, 131071, 0)]) (input banana (bench 8 8))

/-- V-M1's tree after three inserts, by hand from the final one: slots 3, 4 and 5 hang below. -/
def bananaTree3 : State :=
  tree [(0, 65536, 1, 2), (1, 0, 131071, 131071), (2, 0, 131071, 131071), (65536, 131071, 131071, 0)]
    (input banana (bench 8 8))

theorem test_mfInit :
    nextIs (exec .mfInit bananaTree) (fun t => gives 0 0 0 t && t.mf == ⟨[], [], [], ⟨0, 0⟩⟩) = true := by decide +kernel

/-- V-M1: "ana" at distance 2, and slot 3 becomes the larger child of slot 1. -/
theorem test_mfInsert :
    nextIs (exec .mfInsert (args 3 0 bananaTree3))
      (fun t => gives 3 2 0 t && t.mf.par 3 == 1 && t.mf.la 1 == 3 && t.mf.sm 1 == 0x1FFFF) = true := by decide +kernel

theorem test_mfInsert_occupied :
    nextIs (exec .mfInsert (args 5 0 bananaTree)) (fails 4 5) = true := by decide +kernel

theorem test_mfProbe :
    nextIs (exec .mfProbe (args 4 0 (tree [(0, 65536, 1, 2), (1, 0, 131071, 3), (2, 0, 131071, 131071),
        (3, 1, 131071, 131071), (65536, 131071, 131071, 0)] (input banana (bench 8 8)))))
      (fun t => gives 2 2 0 t && !t.mf.inTree 4) = true := by decide +kernel

/-- V-M4: the node stands for a later position. -/
theorem test_mfProbe_treePos :
    nextIs (exec .mfProbe (args 0 0 (tree [(2, 65536, 131071, 131071), (65536, 131071, 131071, 2)]
      (input [0x78, 0x79, 0x7A] (bench 8 8))))) (fails 4 6) = true := by decide +kernel

/-- V-M1: the predecessor, slot 5, takes the place of slot 0. -/
theorem test_mfDelete :
    nextIs (exec .mfDelete (args 0 0 bananaTree))
      (fun t => gives 0 0 0 t && t.mf.par 5 == 0x10000 && t.mf.sm 5 == 1 && t.mf.la 5 == 2 && t.mf.par 1 == 5 &&
        t.mf.par 2 == 5 && t.mf.la 3 == 0x1FFFF && !t.mf.inTree 0 && t.mf.la 65536 == 5) = true := by decide +kernel

/-- V-M1: ARG0 is taken modulo 65536; slot 1 has the one child 3. -/
theorem test_mfDelete_modulo :
    nextIs (exec .mfDelete (args 65537 0 bananaTree))
      (fun t => gives 0 0 0 t && !t.mf.inTree 1 && t.mf.par 3 == 0 && t.mf.sm 0 == 3) = true := by decide +kernel

theorem test_mfLongest :
    nextIs (exec .mfLongest { bananaTree with mf := { bananaTree.mf with best := ⟨1, 2⟩ } }) (gives 1 2 0) = true := by
  decide +kernel

theorem test_treeRead :
    nextIs (exec .treeRead (args 65536 0 bananaTree)) (gives 131071 131071 0) = true ∧
    nextIs (exec .treeRead (args 65537 0 bananaTree)) (fails 6 3) = true := by decide +kernel

/-! ## Huffman (95 sections 2.4 to 2.7) -/

/-- V-F4. -/
theorem test_freqClear :
    nextIs (exec (.freqClear .ds) (withFreq .ds [(31, 5)] (withFreq .ll [(65, 2)] (bench 8 8))))
      (fun t => gives 0 0 0 t && freqOf .ds 31 t == 0 && freqOf .ll 65 t == 2) = true := by decide +kernel

/-- V-F1. -/
theorem test_freqInc :
    nextIs (exec (.freqInc .ll) (args 65 0 (withFreq .ll [(65, 1)] (bench 8 8)))) (gives 2 0 0) = true := by decide +kernel

/-- V-F3. -/
theorem test_freqInc_overflow :
    nextIs (exec (.freqInc .ll) (args 0 0 (withFreq .ll [(0, 0xFFFFFFFF)] (bench 8 8))))
      (fun t => fails 4 7 t && freqOf .ll 0 t == 0xFFFFFFFF) = true := by decide +kernel

theorem test_freqRead :
    nextIs (exec (.freqRead .ll) (args 65 0 (withFreq .ll [(65, 2)] (bench 8 8)))) (gives 2 0 0) = true ∧
    nextIs (exec (.freqRead .ds) (args 32 0 (bench 8 8))) (fails 6 3) = true := by decide +kernel

/-- V-H5: a merged node of weight 2 goes behind the symbol of weight 2. -/
theorem test_hufBuild :
    nextIs (exec (.hufBuild .ll) (withFreq .ll [(10, 2), (20, 1), (30, 1), (40, 1), (50, 1)] (bench 8 8)))
      (fun t => gives 3 5 0 t && [10, 20, 30, 40, 50].map (clOf .ll · t) == [2, 3, 3, 2, 2]) = true := by decide +kernel

/-- V-H8's shape on the distance alphabet: 21 Fibonacci counts need 20 bits. -/
theorem test_hufBuild_overflow :
    nextIs (exec (.hufBuild .ds) (withFreq .ds
        ([(0, 1), (1, 1), (2, 2), (3, 3), (4, 5), (5, 8), (6, 13), (7, 21), (8, 34), (9, 55), (10, 89)] ++
          [(11, 144), (12, 233), (13, 377), (14, 610), (15, 987), (16, 1597), (17, 2584), (18, 4181), (19, 6765)] ++
          [(20, 10946)]) (bench 8 8)))
      (fun t => fails 4 3 t && clOf .ds 0 t == 0) = true := by decide +kernel

/-- V-H1. -/
theorem test_hufCanon :
    nextIs (exec (.hufCanon .ll) (withCl .ll [(0, 3), (1, 3), (2, 2), (3, 1)] (bench 8 8)))
      (fun t => gives 0 0 0 t && [0, 1, 2, 3].map (codeOf .ll · t) == [6, 7, 2, 0]) = true := by decide +kernel

/-- V-H9. -/
theorem test_hufCanon_oversubscribed :
    nextIs (exec (.hufCanon .ll) (withCl .ll [(0, 1), (1, 1), (2, 1)] (bench 8 8))) (fails 3 6) = true := by decide +kernel

/-- V-S1. -/
theorem test_hufSerialize :
    nextIs (exec (.hufSerialize .ds) (withCl .ds [(0, 1), (1, 14), (2, 15), (3, 17), (4, 18), (5, 19)] (bench 8 8)))
      (fun t => gives 45 0 0 t && output t == [0xE1, 0xCF, 0xFB, 0xF3, 0x07] && t.wr == ⟨5, 0x19, 5, 45⟩) = true := by
  decide +kernel

/-- V-S2. -/
theorem test_hufSerialize_overflow :
    nextIs (exec (.hufSerialize .ds) (withCl .ds [(5, 20)] (bench 8 8)))
      (fun t => fails 4 3 t && t.wr == ⟨0, 0, 0, 0⟩) = true := by decide +kernel

/-- V-S7. -/
theorem test_hufDeserialize :
    nextIs (exec (.hufDeserialize .ds) (input [0xEF, 0x07, 0x1D] (bench 8 8)))
      (fun t => gives 21 0 0 t && t.rd.bitsR == 21 && [0, 1, 2].map (clOf .ds · t) == [17, 16, 0]) = true := by decide +kernel

/-- V-S8. -/
theorem test_hufDeserialize_overrun :
    nextIs (exec (.hufDeserialize .ds) (input [0x01, 0x1F] (withCl .ds [(1, 9)] (bench 8 8))))
      (fun t => fails 3 5 t && t.rd.bitsR == 13 && [0, 1].map (clOf .ds · t) == [1, 9]) = true := by decide +kernel

/-- V-T1's lengths and trie. -/
def vt1 : State :=
  let s := withCl .ds [(0, 2), (1, 1), (2, 3), (3, 3)] (input [0xDA, 0x01] (bench 8 8))
  { s with ds := { s.ds with trie := ⟨.leaf 1, .node (.leaf 0) (.node (.leaf 2) (.leaf 3))⟩
                             code := tableOf 32 0 [2, 0, 6, 7] } }

theorem test_hufTrie :
    nextIs (exec (.hufTrie .ds) (withCl .ds [(0, 2), (1, 1), (2, 3), (3, 3)] (bench 8 8)))
      (fun t => gives 0 0 0 t && t.ds.trie == vt1.ds.trie && [0, 1, 2, 3].map (codeOf .ds · t) == [2, 0, 6, 7]) = true := by
  decide +kernel

/-- V-T2: the third symbol. -/
theorem test_hufDecode :
    nextIs (exec (.hufDecode .ds) (reader 0 3 vt1)) (fun t => gives 2 0 0 t && t.rd == ⟨0, 6, 3⟩) = true := by decide +kernel

/-- V-T4. -/
theorem test_hufDecode_unpopulated :
    nextIs (exec (.hufDecode .ll) (input [0x02] (bench 8 8))) (fun t => fails 3 1 t && t.rd.bitsR == 1) = true := by
  decide +kernel

/-- V-T7 on the distance alphabet: the code `110`. -/
theorem test_hufEncode :
    nextIs (exec (.hufEncode .ds) (args 2 0 vt1)) (fun t => gives 3 3 0 t && t.wr == ⟨0, 3, 3, 3⟩) = true := by decide +kernel

/-- V-T6. -/
theorem test_hufEncode_noCode :
    nextIs (exec (.hufEncode .ll) (args 5 0 (bench 8 8))) (fun t => fails 4 4 t && t.wr == ⟨0, 0, 0, 0⟩) = true := by
  decide +kernel

/-- V-T1. -/
theorem test_clRead : nextIs (exec (.clRead .ds) (args 2 0 vt1)) (gives 3 6 3) = true := by decide +kernel

/-- V-T8. -/
theorem test_clWrite :
    nextIs (exec (.clWrite .ll) (args 0 21 (bench 8 8))) (fun t => gives 0 0 0 t && clOf .ll 0 t == 21) = true ∧
    nextIs (exec (.clWrite .ll) (args 0 22 (bench 8 8))) (fails 6 3) = true ∧
    nextIs (exec (.clWrite .ll) (args 281 1 (bench 8 8))) (fails 6 3) = true := by decide +kernel

/-! ## Window (95 section 2.9) -/

theorem test_winReset :
    nextIs (exec .winReset (window [0x41] (bench 8 8)))
      (fun t => gives 0 0 0 t && t.win == ⟨0, 0, bytesFrom 0 [0x41]⟩) = true := by decide +kernel

/-- WI4. -/
theorem test_winPut :
    nextIs (exec .winPut (args 0x42 0 (window [0x41] (bench 8 16))))
      (fun t => gives 0 0 0 t && output t == [0x41, 0x42] && t.win == ⟨2, 2, bytesFrom 0 [0x41, 0x42]⟩) = true := by
  decide +kernel

/-- WI5: the copy reads its own bytes. -/
theorem test_winCopy :
    nextIs (exec .winCopy (args 5 2 (window [0x41, 0x42] (bench 8 16))))
      (fun t => gives 0 0 0 t && output t == [0x41, 0x42, 0x41, 0x42, 0x41, 0x42, 0x41] && t.win.pos == 7 &&
        t.win.fill == 7) = true := by decide +kernel

/-- WI9: all or nothing. -/
theorem test_winCopy_full :
    nextIs (exec .winCopy (args 10 1 (window [0x41, 0x42, 0x41, 0x42, 0x41, 0x42, 0x41] (bench 8 16))))
      (fun t => fails 5 0 t && t.wr.outLen == 7) = true := by decide +kernel

/-- WI10. -/
theorem test_winRead :
    nextIs (exec .winRead (args 3 0 (window [0x41, 0x42, 0x41, 0x42] (bench 8 16)))) (gives 0x42 0 0) = true := by
  decide +kernel

/-- WI11. -/
theorem test_winRead_unwritten :
    (exec .winRead (args 9 0 (window [0x41] (bench 8 16))) matches .fault .unwrittenWindow) = true := by decide +kernel

/-! ## Pipelines (95 section 2.10) -/

/-- V-P2. -/
theorem test_compress :
    nextIs (exec .compress (input [0x41] (bench 16 16)))
      (fun t => gives 1 0 7 t && output t == [0x00, 0x14, 0xD0, 0x1B, 0x70, 0x01, 0x5F] && t.wr.bitsW == 55) = true := by
  decide +kernel

/-- V-P3. -/
theorem test_compress_match :
    nextIs (exec .compress (input (List.replicate 10 0x41) (bench 16 16)))
      (fun t => gives 1 1 10 t &&
        output t == [0x00, 0x24, 0xD0, 0x2B, 0x50, 0x10, 0x00, 0x11, 0xE0, 0x63]) = true := by decide +kernel

/-- 95 section 1.1. -/
theorem test_expand :
    nextIs (exec .expand (input [0x00, 0x24, 0xD0, 0x2B, 0x50, 0x10, 0x00, 0x11, 0xE0, 0x63] (bench 16 16)))
      (fun t => gives 1 1 10 t && output t == List.replicate 10 0x41 && t.rd == ⟨9, 7, 79⟩) = true := by decide +kernel

/-- V-E5: the second event's distance is 2, the window holds 1 byte. -/
theorem test_expand_distance :
    nextIs (exec .expand (input [0x00, 0x24, 0xD0, 0x2B, 0x50, 0x10, 0x00, 0x01, 0x20, 0xA0, 0xC7] (bench 16 16)))
      (fun t => fails 3 7 t && t.wr.outLen == 1 && t.rd.bitsR == 86) = true := by decide +kernel

/-! ## Stream elements: by hand from R70, R71, R144, R199 -/

theorem test_cleShort :
    nextIs (exec (.cleShort 13) (inside 0x46 (.table .ll 7 0) (bench 8 8)))
      (fun t => clOf .ll 7 t == 13 && t.prog.pos == .table .ll 8 0 && t.ctl.busy) = true := by decide +kernel

theorem test_cleExt1 :
    nextIs (exec (.cleExt1 2) (inside 0x146 (.table .ds 0 0) (bench 8 8))) (fun t => clOf .ds 0 t == 17) = true := by
  decide +kernel

theorem test_cleExt2 :
    nextIs (exec (.cleExt2 3) (inside 0x146 (.table .ds 31 0) (bench 8 8)))
      (fun t => clOf .ds 31 t == 21 && t.prog.pos == .table .ds 32 0) = true := by decide +kernel

theorem test_cleZrunLl :
    nextIs (exec (.cleZrunLl 3) (inside 0x46 (.table .ll 277 0) (withCl .ll [(276, 3), (277, 3), (280, 3)] (bench 8 8))))
      (fun t => [276, 277, 280].map (clOf .ll · t) == [3, 0, 0] && t.prog.pos == .table .ll 281 0) = true := by decide +kernel

/-- A run of 32 at symbol 1, as in V-S8. -/
theorem test_cleZrunD_overrun :
    nextIs (exec (.cleZrunD 31) (inside 0x146 (.table .ds 1 0) (bench 8 8))) (fails 3 5) = true := by decide +kernel

theorem test_lit :
    nextIs (exec (.lit 0x42) (inside 2 (.events 1 0) (window [0x41] (bench 8 8))))
      (fun t => output t == [0x41, 0x42] && t.prog.pos == .events 2 0 && t.ctl.busy) = true := by decide +kernel

theorem test_eos :
    nextIs (exec .eos (inside 2 (.events 1 0) (window [0x41] (bench 8 8)))) (gives 1 0 1) = true := by decide +kernel

theorem test_match3 :
    nextIs (exec (.match3 1) (inside 2 (.events 2 0) (window [0x41, 0x42] (bench 8 8))))
      (fun t => output t == [0x41, 0x42, 0x41, 0x42, 0x41] && t.prog.pos == .events 2 1) = true := by decide +kernel

/-- Length slot 6 is length 9, distance slot 0 is distance 1 (95 section 1.1). -/
theorem test_matchSlot :
    nextIs (exec (.matchSlot 6 0 0 0) (inside 2 (.events 1 0) (window [0x41] (bench 8 16))))
      (fun t => output t == List.replicate 10 0x41 && t.prog.pos == .events 1 1) = true := by decide +kernel

/-- Log entry 10: an element where the layout has none. -/
theorem test_element_out_of_place :
    (exec (.lit 0) (bench 8 8) matches .refused .elementOutOfPlace) = true := by decide +kernel

/-! ## The step, the host, reset (95 section 2.12, programs P1 and P6) -/

/-- V-R3: a reserved opcode. -/
theorem test_step_illegal :
    nextIs (step (started 0x7F (bench 8 8))) (fun t => t.statusWord == 0x00010636) = true := by decide +kernel

/-- V-R4: the acknowledgement, from the state V-R3 leaves. -/
theorem test_step_ack :
    nextIs (step (script [.write 8 .w32 0x0A] { bench 8 8 with ctl := { Ctl.reset with done := true, cause := 6, detail := 1 } }))
      (fun t => t.statusWord == 0x00010634) = true := by decide +kernel

/-- V-R6: SRST with IE. -/
theorem test_step_srst :
    nextIs (step (script [.write 4 .w32 3] (writer 1 1 1 (bench 8 8))))
      (fun t => t.ctrlWord == 0 && t.statusWord == 0x30 && t.wstateWord == 0) = true := by decide +kernel

/-- V-R7: ARG0 written while BUSY = 1. -/
theorem test_step_wovr :
    nextIs (step (script [.write 0x10 .w32 7] (started 1 (bench 8 8))))
      (fun t => t.ctl.arg0 == 0 && t.ctl.wovr && t.ctl.busy) = true := by decide +kernel

/-- 93 I5: a read-only register written while BUSY = 1 (log entry 6); R246: a reserved one. -/
theorem test_step_wovr_readOnly :
    nextIs (step (script [.write 0x2C .w32 7] (started 1 (bench 8 8)))) (fun t => t.wr.outLen == 0 && t.ctl.wovr) = true ∧
    nextIs (step (script [.write 0x54 .w32 7] (started 1 (bench 8 8)))) (fun t => !t.ctl.wovr) = true := by decide +kernel

/-- P1: `chk WSTATE, 0x203`. -/
theorem test_step_read :
    nextIs (step (script [.read 0x38 .w32] (writer 1 3 2 (bench 8 8)))) (fun t => t.host.rdata == 0x203) = true := by
  decide +kernel

/-- R45 by hand: a 32-bit write, the least significant byte first. -/
theorem test_step_buffer :
    nextIs (step (script [.write 0x1000004 .w32 0x44332211] (bench 8 8)))
      (fun t => t.ibuf == bytesFrom 4 [0x11, 0x22, 0x33, 0x44]) = true ∧
    (step (script [.read 0x1000002 .w32] (bench 8 8)) matches .refused .busError) = true := by decide +kernel

/-- V-R5: IE set while DONE = 1. -/
theorem test_step_irq :
    nextIs (step (script [.write 4 .w32 1] { bench 8 8 with ctl := { Ctl.reset with done := true } })) State.irq = true := by
  decide +kernel

/-- The instruction placed by withFetchWord is the one the next step runs. -/
theorem test_withFetchWord :
    nextIs (step (State.withFetchWord (bench 8 8) 32 0x20)) (fails 6 3) = true ∧
    nextIs (step (State.withFetchWord (bench 8 8) 8 0b11111110))
      (fun t => clOf .ll 0 t == 20 && t.rd.bitsR == 8) = true := by decide +kernel

/-! ## Witnesses: what the statements assume is met -/

/-- A state in which nothing has happened yet but the reset. -/
def quiet : State := bench 8 8

theorem quiet_params : quiet.params.ok := by decide

/-- An access that has a target is one the address map admits. -/
theorem admitted {i o : Nat} {addr : Nat} {w : Width} (hp : (bench i o).params.ok)
    (h : (targetOf (bench i o).params addr w).isSome = true) : Admitted (bench i o).params addr w :=
  (targetOf_isSome_iff hp addr w).1 h

theorem not_admitted {i o : Nat} {addr : Nat} {w : Width} (hp : (bench i o).params.ok)
    (h : (targetOf (bench i o).params addr w).isSome = false) : ¬ Admitted (bench i o).params addr w :=
  fun ha => by rw [(targetOf_isSome_iff hp addr w).2 ha] at h; cases h

theorem eventCoded_of {code : Alphabet → Nat → Nat × Nat} {e : StreamEvent}
    (h : ∀ f ∈ e.fields, ∀ a sym, f = .code a sym → 0 < (code a sym).1) : eventCoded code e :=
  fun a sym hf => h _ hf a sym rfl

/-- 95 section 1.1: the code lengths of its stream. -/
def vLens : Alphabet → List Nat
  | .ll => List.replicate 65 0 ++ [2] ++ List.replicate 190 0 ++ [2] ++ List.replicate 6 0 ++ [1] ++ List.replicate 17 0
  | .ds => [1] ++ List.replicate 31 0

/-- 95 section 1.1: its codes. -/
def vCodes : Alphabet → List Nat
  | .ll => List.replicate 65 0 ++ [2] ++ List.replicate 190 0 ++ [3] ++ List.replicate 24 0
  | .ds => List.replicate 32 0

/-- Code lengths and codes together. -/
def vTable (a : Alphabet) (sym : Nat) : Nat × Nat := ((vLens a).getD sym 0, (vCodes a).getD sym 0)

theorem vTable_coded : ∀ e ∈ [StreamEvent.lit 65, .matchSlot 6 0 0 0, .eos], eventCoded vTable e := by
  intro e he
  apply eventCoded_of
  have h : (e.fields.all fun f => match f with | .code a sym => decide (0 < (vTable a sym).1) | .bits _ _ => true) = true := by
    simp only [List.mem_cons, List.not_mem_nil, or_false] at he
    rcases he with rfl | rfl | rfl <;> decide
  intro f hf a sym hfe
  have := List.all_eq_true.1 h f hf
  subst hfe
  exact of_decide_eq_true this

theorem test_witness_TableEntryReadsBack :
    entryOk .ll (.zrun 255) = true ∧ entryOk .ds (.zrun 31) = true ∧ entryOk .ll (.short 1) = true ∧
    entryOk .ll (.short 14) = true ∧ entryOk .ds (.ext1 2) = true ∧ entryOk .ds (.ext2 3) = true := by decide

theorem test_witness_EventReadsBack :
    (∀ a, (vLens a).length = a.size ∧ (∀ l ∈ vLens a, l ≤ maxCodeLenDec) ∧ canon (vLens a) = some (vCodes a)) ∧
    wellFormed (StreamEvent.matchSlot 6 0 0 0).toInstr = true ∧ eventCoded vTable (.matchSlot 6 0 0 0) ∧
    wellFormed (StreamEvent.lit 65).toInstr = true ∧ eventCoded vTable (.lit 65) := by
  refine ⟨fun a => ?_, by decide, vTable_coded _ (by simp), by decide, vTable_coded _ (by simp)⟩
  cases a <;> decide +kernel

theorem test_witness_IllegalWordsOnlyFail :
    (∀ w ∈ [0x7F, 0x101, 0x80000041, 0x14B], let s := started w quiet
      s.rstAsserted = false ∧ s.ctl.busy = true ∧ s.prog = Progress.none ∧ s.host.todo = []) ∧
    0x7F ∉ printedOpcodes ∧ (0x101 % 256 ∈ printedOpcodes ∧ 0x101 % 256 ∉ printedAlphabetOpcodes) ∧
    (0x80000041 % 256 ∈ printedOpcodes ∧ 0x80000041 / 512 ≠ 0) ∧
    (0x14B % 256 ∈ printedAlphabetOpcodes ∧ 0x14B / 512 = 0) := by decide +kernel

theorem test_witness_StepRunsDecodedCommand :
    (let s := started 0x20 quiet
     s.rstAsserted = false ∧ s.ctl.busy = true ∧ s.prog.pos = .idle ∧ decodeWord s.ctl.cmd = .ok .lenSlot ∧
       s.host.todo = []) ∧
    (script [.wait] (started 0x20 quiet)).host.todo = .wait :: [] := by decide +kernel

theorem test_witness_StepRunsReadElement :
    (let s := inside 0x46 (.table .ll 280 0) (input [0x0D] quiet)
     s.params.ok ∧ s.rstAsserted = false ∧ s.ctl.busy = true ∧ s.host.todo = [] ∧
       s.InputHas [true, false, true, true] ∧
       (entryParse .ll).onBits [true, false, true, true] = some (.short 13, [])) ∧
    (let s := inside 2 (.events 0 0) { input [0x01] quiet with ll := { quiet.ll with trie := llTrie } }
     s.InputHas [true, false] ∧ (eventParse s.ll.trie s.ds.trie).onBits [true, false] = some (.lit 65, [])) ∧
    (let s := inside 0x146 (.table .ds 32 0) quiet
     s.prog.pos = .table .ds 32 0 ∧ decodeWord s.ctl.cmd = .ok (.hufDeserialize .ds)) ∧
    (let s := inside 2 (.table .ll 281 0) quiet
     s.prog.pos = .table .ll 281 0 ∧ decodeWord s.ctl.cmd = .ok .expand) ∧
    (let s := inside 2 (.table .ds 32 0) quiet
     s.prog.pos = .table .ds 32 0 ∧ decodeWord s.ctl.cmd = .ok .expand) := by decide +kernel

/-- The end of the distance table in EXPAND: two usable tables, and each of them oversubscribed. -/
theorem test_witness_StepRunsReadElement_tables :
    let s := withCl .ds [(0, 1)] (withCl .ll [(256, 1)] quiet)
    let bad := fun a => withCl a [(0, 1), (1, 1), (2, 1)] s
    (LengthsOk .ll s ∧ LengthsOk .ds s ∧ (canon (codeLens .ll s)).isSome = true ∧ (canon (codeLens .ds s)).isSome = true) ∧
    (LengthsOk .ll (bad .ll) ∧ LengthsOk .ds (bad .ll) ∧ canon (codeLens .ll (bad .ll)) = none) ∧
    (LengthsOk .ll (bad .ds) ∧ LengthsOk .ds (bad .ds) ∧ (canon (codeLens .ll (bad .ds))).isSome = true ∧
      canon (codeLens .ds (bad .ds)) = none) := by decide +kernel

theorem test_witness_SoftResetRestoresReset :
    ∀ s ∈ [quiet, started 1 quiet], (script [.write 4 .w32 3] s).rstAsserted = false ∧
      (3 : Word).getLsbD 1 = true ∧ (script [.write 4 .w32 3] s).params.base + 0x004 = 4 := by decide +kernel

theorem test_witness_HardwareReset :
    (script [.assertReset] quiet).host.todo = .assertReset :: [] ∧
    ∀ a ∈ [HostAct.read 0 .w32, .write 4 .w32 2, .wait, .releaseReset],
      let s := script [a] { quiet with rstAsserted := true }
      s.rstAsserted = true ∧ s.host.todo = a :: [] := by decide +kernel

/-- A writer in the middle of a byte, and a command for it. -/
def writing : State := started 0x11 (args 0x1F 5 (writer 0 5 3 quiet))

theorem test_witness_InvariantKept : Inv writing ∧ nextIs (step writing) (fun t => t.wr.outLen == 1) = true := by
  refine ⟨⟨by decide, rfl, rfl, rfl, ⟨rfl, rfl, rfl⟩, by decide, ⟨by decide, ?_⟩, ?_, by decide, rfl⟩, by decide +kernel⟩
  · intro d h1 h2
    have : writing.win.fill.toNat = 0 := rfl
    omega
  · intro a; cases a <;> decide +kernel

theorem emptyTree : TreeInv Finder.reset :=
  treeInv_mk ⟨rfl, rfl, rfl⟩ rfl rfl (fun i h => by cases h) (fun i sd h => absurd (by cases sd <;> rfl) h)
    (fun i _ _ sd => by cases sd <;> rfl) (fun i h => by cases h)

/-- Two zero bytes, the first of them in the tree. -/
def oneNode : State := { input [0, 0] quiet with mf := attach Finder.reset rootIndex .larger 0 }

theorem oneNode_tree : TreeInv oneNode.mf :=
  attach_treeInv emptyTree (.inl ⟨rfl, rfl⟩) rfl (by decide) rfl

theorem test_witness_TreeInvariantKept :
    TreeInv oneNode.mf ∧ nextIs (exec .mfInsert (args 1 0 oneNode)) (fun t => gives 1 1 0 t && t.mf.inTree 1) = true :=
  ⟨oneNode_tree, by decide +kernel⟩

theorem test_witness_CommandStart :
    ∀ s ∈ [quiet, started 1 quiet], let t := script [.write 0x00C .w32 0x10] s
      t.rstAsserted = false ∧ t.host.todo = .write (t.params.base + 0x00C) .w32 0x10 :: [] ∧ t.ctl.busy = s.ctl.busy := by
  decide +kernel

theorem test_witness_AccessesWhileBusy :
    (quiet.params.ok ∧ (started 1 quiet).rstAsserted = false ∧ (started 1 quiet).ctl.busy = true) ∧
    (∀ x ∈ [(0x00C, Width.w32), (0xFFFC, .w32), (0x1000007, .w8), (0x2000004, .w32)],
      Admitted quiet.params x.1 x.2 ∧ x.1 ≠ 0x000 ∧ x.1 ≠ 0x004 ∧ x.1 ≠ 0x008) ∧
    (∀ x ∈ [(0x1000007, Width.w8), (0x2000004, .w32)], 0x10000 ≤ x.1) ∧
    (∀ off ∈ [0x054, 0xFFFC], 0x054 ≤ off ∧ off < 0x10000 ∧ off % 4 = 0) ∧
    (∀ off ∈ [0x00C, 0x000, 0x050, 0x054], let s := script [.write off .w32 0xFFFFFFFD] (started 1 quiet)
      s.host.todo = .write (s.params.base + off) .w32 0xFFFFFFFD :: []) ∧
    (∀ x ∈ [(0x002, Width.w32), (0x000, .w8), (0x10000, .w32), (0x1000008, .w8), (0x1000004, .w16), (0x2000005, .w32)],
      ¬ Admitted quiet.params x.1 x.2) := by
  refine ⟨by decide, ?_, by decide, by decide, by decide, ?_⟩
  · intro x hx
    simp only [List.mem_cons, List.not_mem_nil, or_false] at hx
    rcases hx with rfl | rfl | rfl | rfl <;> exact ⟨admitted quiet_params (by decide), by decide, by decide, by decide⟩
  · intro x hx
    simp only [List.mem_cons, List.not_mem_nil, or_false] at hx
    rcases hx with rfl | rfl | rfl | rfl | rfl | rfl <;> exact not_admitted quiet_params (by decide)

theorem test_witness_BusAccessOutcomes :
    quiet.params.ok ∧ quiet.rstAsserted = false ∧ Admitted quiet.params 0x2000007 .w8 ∧
    nextIs (step (script [.read 0x050 .w32] quiet)) (fun t => t.host.rdata == 8) = true :=
  ⟨quiet_params, rfl, admitted quiet_params (by decide), by decide +kernel⟩

theorem test_witness_RegisterAccesses :
    quiet.rstAsserted = false ∧ quiet.ctl.busy = false ∧ (0x000, 0x4C5A5353) ∈ printedRegisters quiet ∧
    (0x050, 8) ∈ printedRegisters quiet ∧ (2#32).getLsbD 0 = false ∧ (5#32).getLsbD 1 = false ∧
    (∀ off ∈ [0x000, 0x01C, 0x050, 0xFFFC],
      off < 0x10000 ∧ off % 4 = 0 ∧ off ∉ [0x004, 0x008, 0x00C, 0x010, 0x014, 0x018, 0x028]) := by decide +kernel

theorem test_witness_BufferAccesses :
    (let s := input [1, 2, 3, 4, 5, 6, 7, 8] quiet
     s.params.ok ∧ s.rstAsserted = false ∧ s.ctl.busy = false ∧
       (∀ j, j < 4 → Memory.read? s.ibuf (4 + j) = [5#8, 6#8, 7#8, 8#8][j]?)) ∧
    Admitted quiet.params (0x1000000 + 4) .w32 ∧ Admitted quiet.params (0x1000000 + 7) .w8 ∧
    Admitted quiet.params (0x2000000 + 4) .w32 ∧ Admitted quiet.params (0x2000000 + 7) .w8 ∧
    Memory.read? quiet.ibuf 7 = none ∧ Memory.read? (window [1] quiet).obuf 0 = some 1 :=
  ⟨by decide, admitted quiet_params (by decide), admitted quiet_params (by decide), admitted quiet_params (by decide),
    admitted quiet_params (by decide), rfl, rfl⟩

/-- A state in which every command but EXPAND has something to work on. -/
def ready : State := args 0 1 (withCl .ds [(0, 1)] (withFreq .ll [(0, 1)] (window [0x41] (input [0x41, 0x01] quiet))))

/-- The commands of R63 that take an alphabet. -/
def alphabetCommands (a : Alphabet) : List Instr :=
  [.freqClear a, .freqInc a, .freqRead a, .hufBuild a, .hufCanon a, .hufSerialize a, .hufDeserialize a, .hufTrie a,
    .hufDecode a, .hufEncode a, .clRead a, .clWrite a]

/-- The commands of R63 that take none, other than the two pipelines. -/
def simpleCommands : List Instr :=
  [.bwReset, .bwWriteBits, .bwWriteByte, .bwWriteEof, .brReset, .brReadBits, .brReadByte, .lenSlot, .distSlot, .lenRange,
    .distRange, .mfInit, .mfInsert, .mfProbe, .mfDelete, .mfLongest, .treeRead, .winReset, .winPut, .winCopy, .winRead]

/-- The commands of R63 other than the two pipelines, with both alphabets. -/
def plainCommands : List Instr := simpleCommands ++ (alphabetCommands .ll ++ alphabetCommands .ds)

/-- For the statements about every command that answers a next state: InterruptLevel, InstructionsKeepHostSide,
CommandsEndDone, ObservationCommandsFrame, AlphabetsDoNotMix, StreamAndTableCommandsFrame,
FinderAndWindowCommandsFrame. -/
theorem test_witness_commands_answer :
    ready.params.ok ∧ (plainCommands.all fun i => nextIs (exec i ready) fun t => t.ctl.done) = true := by decide +kernel

theorem test_witness_commands_are_commands : ∀ i ∈ plainCommands, IsCommand i := by
  intro i hi
  have h : (plainCommands.all fun i => match encode i with | .word _ => true | .stream _ => false) = true := by decide +kernel
  have := List.all_eq_true.1 h i hi
  cases he : encode i with
  | word w => exact ⟨w, he⟩
  | stream fs => rw [he] at this; cases this

theorem test_witness_AtomicCommandsFailClean :
    IsCommand .bwWriteByte ∧ nextIs (exec .bwWriteByte (writer 0 1 1 quiet)) (fun t => t.ctl.cause != 0) = true ∧
    nextIs (exec .mfInsert (args 0 0 oneNode)) (fun t => t.ctl.cause != 0) = true :=
  ⟨⟨0x12, rfl⟩, by decide +kernel, by decide +kernel⟩

theorem test_witness_PipelinesFrame :
    (bench 16 16).params.ok ∧ (∃ t, exec .compress (input [0x41] (bench 16 16)) = .next t) ∧
    ∃ t, exec .expand (input [0x00, 0x24, 0xD0, 0x2B, 0x50, 0x10, 0x00, 0x11, 0xE0, 0x63] (bench 16 16)) = .next t :=
  ⟨by decide, (exists_of_nextIs test_compress).imp fun _ h => h.1, (exists_of_nextIs test_expand).imp fun _ h => h.1⟩

theorem test_witness_WriteBits :
    quiet.params.ok ∧ 32 < (args 0 33 quiet).a1 ∧ ((args 0 32 (bench 8 3)).a1 ≤ 32 ∧ ¬ (args 0 32 (bench 8 3)).BitsFit 32) ∧
    ((args 0 32 (bench 8 4)).a1 ≤ 32 ∧ (args 0 32 (bench 8 4)).BitsFit 32) ∧ (args 0 0 quiet).BitsFit 0 := by decide

theorem test_witness_WriteByteAndEof :
    (quiet.params.ok ∧ WriterOk quiet ∧ WriterOk (writer 8 1 1 quiet) ∧ WriterOk (writer 7 1 1 quiet)) ∧
    255 < (args 256 0 quiet).a0 ∧ ((args 255 0 quiet).a0 ≤ 255 ∧ (writer 8 1 1 quiet).wr.wcnt ≠ 0) ∧
    (WriterOk (writer 8 0 0 quiet) ∧ (writer 8 0 0 quiet).wr.wcnt = 0 ∧
      (writer 8 0 0 quiet).wr.outLen.toNat = quiet.params.obufSize) ∧
    (WriterOk (writer 7 0 0 quiet) ∧ (writer 7 0 0 quiet).wr.outLen.toNat < quiet.params.obufSize) := by decide

/-- Four bytes, the last of them AA. -/
def four : State := args 0 32 (input [0xFD, 0x03, 0x00, 0xAA] quiet)

theorem test_witness_ReadBits :
    quiet.params.ok ∧ 32 < (args 0 33 quiet).a1 ∧
    quiet.params.ibufSize < (input (List.replicate 9 0) quiet).ctl.inLen.toNat ∧
    (four.a1 ≤ 32 ∧ four.ctl.inLen.toNat ≤ four.params.ibufSize ∧ (reader 0 1 four).avail < four.a1) ∧
    (toBits 0xAA0003FD 32).length = four.a1 ∧ four.InputHas (toBits 0xAA0003FD 32) ∧
    (let s := { four with ibuf := bytesFrom 0 [0xFD, 0x03, 0x00] }
     s.a1 ≤ s.avail ∧ Memory.bit? s.ibuf (s.readPos + 31) = none) := by decide +kernel

theorem test_witness_ReadByte :
    quiet.params.ok ∧ quiet.params.ibufSize < (input (List.replicate 9 0) quiet).ctl.inLen.toNat ∧
    four.ctl.inLen.toNat ≤ four.params.ibufSize ∧ (reader 3 7 four).rd.rbit ≠ 0 ∧
    four.ctl.inLen.toNat ≤ (reader 4 0 four).rd.rpos.toNat ∧
    ((reader 3 0 four).rd.rpos.toNat < four.ctl.inLen.toNat ∧ Memory.read? four.ibuf 3 = some 0xAA) ∧
    Memory.read? quiet.ibuf 3 = none := by decide

theorem test_witness_LengthCommands :
    ¬ (3 ≤ (args 2 0 quiet).a0 ∧ (args 2 0 quiet).a0 ≤ 258) ∧ ¬ (3 ≤ (args 259 0 quiet).a0 ∧ (args 259 0 quiet).a0 ≤ 258) ∧
    (∃ r ∈ printedLenRows, r.2.1 ≤ (args 3 0 quiet).a0 ∧ (args 3 0 quiet).a0 ≤ r.2.2.1) ∧
    (∃ r ∈ printedLenRows, r.2.1 ≤ (args 258 0 quiet).a0 ∧ (args 258 0 quiet).a0 ≤ r.2.2.1) ∧
    23 < (args 24 0 quiet).a0 ∧ (∃ r ∈ printedLenRows, (args 23 0 quiet).a0 = r.1) := by decide

theorem test_witness_DistanceCommands :
    ¬ (1 ≤ (args 0 0 quiet).a0 ∧ (args 0 0 quiet).a0 ≤ 65536) ∧
    ¬ (1 ≤ (args 65537 0 quiet).a0 ∧ (args 65537 0 quiet).a0 ≤ 65536) ∧
    (∃ r ∈ printedDistRows, r.2.1 ≤ (args 1 0 quiet).a0 ∧ (args 1 0 quiet).a0 ≤ r.2.2.1) ∧
    (∃ r ∈ printedDistRows, r.2.1 ≤ (args 65536 0 quiet).a0 ∧ (args 65536 0 quiet).a0 ≤ r.2.2.1) ∧
    31 < (args 32 0 quiet).a0 ∧ (∃ r ∈ printedDistRows, (args 31 0 quiet).a0 = r.1) := by decide

theorem test_witness_FrequencyCommands :
    (Alphabet.ll.size ≤ (args 281 0 quiet).a0 ∧ Alphabet.ds.size ≤ (args 32 0 quiet).a0) ∧
    (let s := args 280 0 (withFreq .ll [(280, 0xFFFFFFFF)] quiet)
     s.a0 < Alphabet.ll.size ∧ freqOf .ll s.a0 s = 0xFFFFFFFF) ∧
    (let s := args 280 0 (withFreq .ll [(280, 0xFFFFFFFE)] quiet)
     s.a0 < Alphabet.ll.size ∧ freqOf .ll s.a0 s ≠ 0xFFFFFFFF) := by decide +kernel

theorem test_witness_CodeLengthCommands :
    (Alphabet.ll.size ≤ (args 281 21 quiet).a0 ∧ (args 280 21 quiet).a0 < Alphabet.ll.size) ∧
    21 < (args 280 22 quiet).a1 ∧ (args 280 21 quiet).a1 ≤ 21 := by decide

/-- 95 section 2.5: V-H7's counts, on the distance alphabet. -/
def fibonacci : State :=
  withFreq .ds ([(0, 1), (1, 1), (2, 2), (3, 3), (4, 5), (5, 8), (6, 13), (7, 21), (8, 34), (9, 55), (10, 89)] ++
    [(11, 144), (12, 233), (13, 377), (14, 610), (15, 987), (16, 1597), (17, 2584), (18, 4181), (19, 6765)]) quiet

theorem test_witness_BuildOfFewSymbols :
    codedCount .ds fibonacci = 20 ∧ nextIs (exec (.hufBuild .ds) fibonacci) (gives 19 20 0) = true ∧
    codedCount .ds (withFreq .ds [(31, 7)] quiet) = 1 ∧ codedCount .ds quiet = 0 := by decide +kernel

/-- R134, R135 by hand: the merged node of weight 2 goes behind the symbol of weight 2. -/
theorem test_witness_BuildGivesCompleteCode :
    let s := withFreq .ds [(10, 2), (20, 1), (30, 1)] quiet
    let q := [(1, MergeTree.leaf 20), (1, .leaf 30), (2, .leaf 10)]
    codedCount .ds s = 3 ∧ InitialList .ds s q ∧ MergesTo q (.node (.leaf 10) (.node (.leaf 20) (.leaf 30))) := by
  have small : ∀ sym < 32, sym ∈ [20, 30, 10] ↔
      freqOf .ds sym (withFreq .ds [(10, 2), (20, 1), (30, 1)] quiet) ≠ 0 := by decide +kernel
  refine ⟨by decide +kernel, ⟨[20, 30, 10], by decide +kernel, fun sym => ⟨fun h => ?_, fun h => (small sym h.1).2 h.2⟩,
    by decide +kernel⟩, ?_⟩
  · have hlt : sym < 32 := by simp only [List.mem_cons, List.not_mem_nil, or_false] at h; omega
    exact ⟨hlt, (small sym hlt).1 h⟩
  · exact .merge (1, .leaf 20) (1, .leaf 30) [(2, .leaf 10)] [] _ (by decide) (by decide)
      (.merge (2, .leaf 10) (2, .node (.leaf 20) (.leaf 30)) [] [] _ (by decide) (by decide) (.one 4 _))

theorem test_witness_CanonGivesCanonicalCodes :
    (let s := withCl .ds [(0, 1), (1, 1), (31, 21)] quiet
     LengthsOk .ds s ∧ 2 ^ 21 < kraft .ds s) ∧
    (let s := withCl .ds [(0, 1), (31, 1)] quiet
     LengthsOk .ds s ∧ kraft .ds s = 2 ^ 21 ∧ clOf .ds 31 s ≠ 0 ∧ clOf .ds 1 s = 0) := by decide +kernel

theorem test_witness_TrieHoldsCanonicalCodes :
    (let s := withCl .ds [(0, 1), (1, 1), (31, 21)] quiet
     LengthsOk .ds s ∧ 2 ^ 21 < kraft .ds s) ∧
    (LengthsOk .ds vt1 ∧ kraft .ds vt1 = 2 ^ 21 ∧ vt1.ds.trie.parse.onBits [true, true, false] = some (2, [])) := by
  decide +kernel

theorem test_witness_SerializeWritesTable :
    quiet.params.ok ∧ (31 < Alphabet.ds.size ∧ 19 < clOf .ds 31 (withCl .ds [(31, 20)] quiet)) ∧
    (∀ sym, sym < Alphabet.ds.size → clOf .ds sym (withCl .ds [(31, 19)] quiet) ≤ 19) ∧
    quiet.BitsFit (entriesBits .ds [.zrun 31]).length ∧
    (let s := withCl .ds [(31, 19)] (bench 8 1)
     let pre := [Field.bits 0 4, .bits 30 5, .bits 15 4, .bits 3 2]
     entriesLens [.zrun 30, .ext2 1] = codeLens .ds s ∧
     [TableEntry.zrun 30, .ext2 1].flatMap (TableEntry.fields .ds) = pre ++ Field.bits 1 2 :: [] ∧
     s.wr.outLen.toNat ≤ s.params.obufSize ∧ s.BitsFit (fieldsToBits (fun _ _ => (0, 0)) pre).length ∧
     ¬ s.BitsFit (fieldsToBits (fun _ _ => (0, 0)) (pre ++ [Field.bits 1 2])).length ∧
     ¬ s.BitsFit (entriesBits .ds [.zrun 30, .ext2 1]).length) := by decide +kernel

theorem test_witness_DeserializeReadsTable :
    quiet.params.ok ∧ (∀ e ∈ [TableEntry.short 1, .zrun 30], entryOk .ds e = true) ∧
    (entriesLens [.short 1, .zrun 30]).length = Alphabet.ds.size ∧
    (input [0x01, 0x1E] quiet).InputHas (entriesBits .ds [.short 1, .zrun 30]) ∧
    quiet.params.ibufSize < (input (List.replicate 9 0) quiet).ctl.inLen.toNat := by decide +kernel

/-- A table that ends inside a zero run's field, and one whose run passes the last symbol (V-S8). -/
theorem test_witness_DeserializeReadsTable_bad :
    (entriesLens [.short 1]).length < Alphabet.ds.size ∧
    (let bits := List.replicate 8 false
     let s := reader 0 4 (input [0x10, 0x00] quiet)
     BadEntry .ds 1 bits (.corrupt .eosInTable) 4 true ∧ s.InputHas (entriesBits .ds [.short 1] ++ bits) ∧
       s.avail = (entriesBits .ds [.short 1] ++ bits).length) ∧
    (let bits := entriesBits .ds [.zrun 31]
     BadEntry .ds 1 bits (.corrupt .tableOverrun) 9 false ∧
       (input [0x01, 0x1F] quiet).InputHas (entriesBits .ds [.short 1] ++ bits)) :=
  ⟨by decide +kernel,
    ⟨.ends (.zrun 30) [.bits 0 4] [] 30 5 (List.replicate 4 false) rfl (by decide), by decide +kernel, by decide +kernel⟩,
    .overrun 31 (by decide) (by decide), by decide +kernel⟩

theorem test_witness_TableRoundTrip :
    let s := withCl .ds [(0, 1)] quiet
    let u := input [0x01, 0x1E] quiet
    s.params.ok ∧ u.params.ok ∧ u.inputOk = true ∧
    nextIs (exec (.hufSerialize .ds) s) (fun t => t.ctl.cause == 0 && decide (t.writePos - s.writePos ≤ u.avail) &&
      decide (∀ j, j < t.writePos - s.writePos → Memory.bit? u.ibuf (u.readPos + j) = t.outBit (s.writePos + j))) = true := by
  decide +kernel

theorem test_witness_DecodeSymbol :
    vt1.params.ok ∧ (vt1.tab .ds).trie.parse.onBits [true, true, false] = some (2, []) ∧
    (reader 0 3 vt1).InputHas [true, true, false] ∧
    quiet.params.ibufSize < (input (List.replicate 9 0) quiet).ctl.inLen.toNat ∧ (reader 2 0 vt1).avail = 0 ∧
    ((input [0x02] quiet).InputHas [false] ∧ (quiet.tab .ll).trie.zero = .empty) := by decide +kernel

/-- V-T1's trie: the input ends, and a slot is unpopulated, below the root. -/
theorem test_witness_DecodeSymbol_depth :
    (let s := reader 0 7 { vt1 with ibuf := bytesFrom 0 [0x80], ctl := { Ctl.reset with inLen := 1 } }
     slotAt .ds s [true] = .node (.leaf 0) (.node (.leaf 2) (.leaf 3)) ∧ s.InputHas [true] ∧ s.avail = 1) ∧
    (let s := input [0x03] { quiet with ds := { quiet.ds with trie := ⟨.leaf 1, .node (.leaf 0) .empty⟩ } }
     slotAt .ds s [true] = .node (.leaf 0) .empty ∧ slotAt .ds s [true, true] = .empty ∧ s.InputHas [true, true]) ∧
    slotAt .ll quiet [] = .node .empty .empty := by decide +kernel

theorem test_witness_EncodeSymbol :
    vt1.params.ok ∧ Alphabet.ds.size ≤ (args 32 0 vt1).a0 ∧ (31 < Alphabet.ds.size ∧ clOf .ds 31 vt1 = 0) ∧
    (clOf .ds 3 vt1 = 3 ∧ ¬ (writer 8 0 5 vt1).BitsFit 3) ∧ (writer 7 0 5 vt1).BitsFit 3 := by decide +kernel

theorem test_witness_FinderInitAndObservation :
    65536 < (args 65537 0 quiet).a0 ∧ (args 65536 0 quiet).a0 ≤ 65536 := by decide

theorem test_witness_InsertAndProbe :
    TreeInv oneNode.mf ∧ oneNode.ctl.inLen.toNat ≤ (args 2 0 oneNode).a0 ∧
    (oneNode.ctl.inLen.toNat ≤ oneNode.params.ibufSize ∧ (args 0 0 oneNode).a0 < oneNode.ctl.inLen.toNat ∧
      oneNode.mf.par 0 ≠ 0x1FFFF) ∧
    ((∀ i, i < oneNode.ctl.inLen.toNat → (Memory.read? oneNode.ibuf i).isSome = true) ∧
      (∀ i, oneNode.mf.inTree i = true → slotDist (args 1 0 oneNode).a0 i ≤ (args 1 0 oneNode).a0) ∧
      oneNode.mf.par ((args 1 0 oneNode).a0 % 65536) = 0x1FFFF) ∧
    (TreeInv quiet.mf ∧ (args 1 0 (input [0, 0] quiet)).a0 < (input [0, 0] quiet).ctl.inLen.toNat ∧
      quiet.mf.la 65536 = 0x1FFFF) := by
  refine ⟨oneNode_tree, by decide, by decide, ⟨by decide, fun i hi => ?_, by decide⟩, emptyTree, by decide, rfl⟩
  by_cases h0 : i = 0
  · subst h0; decide
  · rw [inTree_iff] at hi
    refine absurd ?_ hi
    show (attach Finder.reset rootIndex .larger 0).par i = nilLink
    rw [par_attach emptyTree.links, if_neg h0]; rfl

/-- The walk of position 1 goes to the larger side of slot 0, one byte being equal up to the end of the input; a walk of
position 0 meets slot 2, which stands for a later position (V-M4). -/
theorem test_witness_InsertAndProbe_descents :
    (oneNode.mf.la 65536 = 0 ∧ oneNode.mf.la 65536 ≠ 0x1FFFF ∧
      Descent (args 1 0 oneNode) 1 0 [(1, 1)] (some (.leaf 0 .larger)) ∧ BestOf [(1, 1)] 1 1) ∧
    (let s : State := { input [0x78, 0x79, 0x7A] quiet with mf := attach Finder.reset rootIndex .larger 2 }
     TreeInv s.mf ∧ s.mf.la 65536 = 2 ∧ s.mf.par 0 = 0x1FFFF ∧ s.a0 = 0 ∧ Descent s 0 2 [] none) := by
  refine ⟨⟨by decide, by decide, .leaf 0 1 .larger (by decide) ⟨by decide, fun j hj => ?_, .inl (by decide)⟩ (by decide)
      (.inl (by decide)) (by decide), [], [], rfl, by simp, by simp⟩,
    attach_treeInv emptyTree (.inl ⟨rfl, rfl⟩) rfl (by decide) rfl, by decide, by decide, by decide, .noPosition 2 (by decide)⟩
  obtain rfl : j = 0 := by omega
  decide

theorem test_witness_MatchIsReal :
    nextIs (exec .mfInsert (args 1 0 oneNode)) (fun t => t.ctl.cause == 0 && t.ctl.res0 == 1) = true ∧
    nextIs (exec .mfProbe (args 1 0 oneNode)) (fun t => t.ctl.cause == 0 && t.ctl.res0 == 1) = true := by decide +kernel

theorem test_witness_DeleteTakesSlotOut :
    0 = (args 65536 0 oneNode).a0 % 65536 ∧ TreeInv oneNode.mf ∧ oneNode.mf.par 0 ≠ 0x1FFFF ∧
    (oneNode.mf.la 0 = 0x1FFFF ∧ 0x1FFFF = oneNode.mf.sm 0) ∧ (oneNode.mf.par 1 = 0x1FFFF) :=
  ⟨by decide, oneNode_tree, by decide, by decide, by decide⟩

theorem test_witness_WindowPutAndRead :
    quiet.params.ok ∧ 255 < (args 256 0 quiet).a0 ∧
    ((args 255 0 quiet).a0 ≤ 255 ∧ (bench 8 1).params.obufSize ≤ (window [0x41] (bench 8 1)).wr.outLen.toNat) ∧
    (window [0x41] quiet).wr.outLen.toNat < quiet.params.obufSize ∧ 65535 < (args 65536 0 quiet).a0 ∧
    ((args 0 0 quiet).a0 ≤ 65535 ∧ Memory.read? (window [0x41] quiet).win.bytes 0 = some 0x41) ∧
    ((args 65535 0 quiet).a0 ≤ 65535 ∧ Memory.read? quiet.win.bytes 65535 = none) := by decide

/-- Two bytes in the window, three more fit. -/
def ab : State := window [0x41, 0x42] (bench 8 5)

theorem ab_window : WindowOk ab := by
  refine ⟨by decide, fun d h1 h2 => ?_⟩
  have : ab.win.fill.toNat = 2 := rfl
  obtain rfl | rfl : d = 1 ∨ d = 2 := by omega
  all_goals decide

theorem test_witness_WindowCopy :
    ab.params.ok ∧ WindowOk ab ∧
    ¬ (3 ≤ (args 2 1 ab).a0 ∧ (args 2 1 ab).a0 ≤ 258 ∧ 1 ≤ (args 2 1 ab).a1 ∧ (args 2 1 ab).a1 ≤ 65536) ∧
    (let s := args 258 3 ab
     3 ≤ s.a0 ∧ s.a0 ≤ 258 ∧ 1 ≤ s.a1 ∧ s.a1 ≤ 65536 ∧ s.win.fill.toNat < s.a1) ∧
    (let s := args 4 2 ab
     3 ≤ s.a0 ∧ s.a0 ≤ 258 ∧ 1 ≤ s.a1 ∧ s.a1 ≤ s.win.fill.toNat ∧ s.params.obufSize < s.wr.outLen.toNat + s.a0) ∧
    (let s := args 3 2 ab
     3 ≤ s.a0 ∧ s.a0 ≤ 258 ∧ 1 ≤ s.a1 ∧ s.a1 ≤ s.win.fill.toNat ∧ s.wr.outLen.toNat + s.a0 ≤ s.params.obufSize) :=
  ⟨by decide, ab_window, by decide, by decide, by decide, by decide⟩

theorem test_witness_EventsReplayInput :
    (match generateEvents (input (List.replicate 5 0x41) quiet) with
      | .ok _ t => t.prog.evq == [.lit 0x41, .copy 4 1]
      | .err _ _ => false
      | .fault _ => false) = true := by decide +kernel

theorem test_witness_CompressFailsOnly :
    let s := input [0x41] (bench 16 16)
    s.params.ok ∧ s.inputOk = true ∧ ∀ i, i < s.ctl.inLen.toNat → (Memory.read? s.ibuf i).isSome = true := by decide

theorem test_witness_CompressEmptyInput :
    quiet.params.ibufSize < (input (List.replicate 9 0) quiet).ctl.inLen.toNat ∧
    (bench 8 5).params.ok ∧ (bench 8 5).ctl.inLen = 0 ∧ 5 ≤ (bench 8 5).params.obufSize := by decide

/-- 95 section 1.1: the two tables. -/
def vEntries : Alphabet → List TableEntry
  | .ll => [.zrun 64, .short 2, .zrun 189, .short 2, .zrun 5, .short 1, .zrun 16]
  | .ds => [.short 1, .zrun 30]

/-- 95 section 1.1: ten bytes in. -/
def vStream : State := input [0x00, 0x24, 0xD0, 0x2B, 0x50, 0x10, 0x00, 0x11, 0xE0, 0x63] (bench 16 10)

theorem vEntries_lens : ∀ a, entriesLens (vEntries a) = vLens a := by intro a; cases a <;> decide +kernel

theorem test_witness_ExpandReplaysStream :
    vStream.params.ok ∧
    (∀ a, (∀ e ∈ vEntries a, entryOk a e = true) ∧ (entriesLens (vEntries a)).length = a.size ∧
      canon (entriesLens (vEntries a)) = some (vCodes a)) ∧
    (∀ e ∈ [StreamEvent.lit 65, .matchSlot 6 0 0 0], wellFormed e.toInstr = true ∧ eventCoded vTable e) ∧
    eventCoded vTable .eos ∧
    (resetReader vStream).InputHas (entriesBits .ll (vEntries .ll) ++ entriesBits .ds (vEntries .ds) ++
      fieldsToBits vTable ([StreamEvent.lit 65, .matchSlot 6 0 0 0, .eos].flatMap StreamEvent.fields)) ∧
    replay [.lit 65, .matchSlot 6 0 0 0] [] = some (List.replicate 10 65) ∧
    (List.replicate 10 (65 : Byte)).length ≤ vStream.params.obufSize := by
  refine ⟨by decide, fun a => ?_, fun e he => ⟨?_, vTable_coded e (by simp at he ⊢; tauto)⟩, vTable_coded _ (by simp),
    by decide +kernel, by decide +kernel, by decide⟩
  · cases a <;> decide +kernel
  · simp only [List.mem_cons, List.not_mem_nil, or_false] at he
    rcases he with rfl | rfl <;> decide

/-- In both tables: the literal table ends inside an entry or overruns, the distance table overruns, and three codes of one
bit. -/
theorem test_witness_ExpandReplaysStream_tables :
    (BadEntry .ll 65 (List.replicate 4 false) (.corrupt .eosInTable) 4 true ∧
      (let s := resetReader (input [0x00, 0x04] quiet)
       s.InputHas (entriesBits .ll [.zrun 64] ++ List.replicate 4 false) ∧
         s.avail = (entriesBits .ll [.zrun 64] ++ List.replicate 4 false).length)) ∧
    (BadEntry .ll 256 (entriesBits .ll [.zrun 255]) (.corrupt .tableOverrun) 12 false ∧
      (resetReader (input [0xF0, 0x0F, 0xFF] quiet)).InputHas
        (entriesBits .ll [.zrun 255] ++ entriesBits .ll [.zrun 255])) ∧
    (BadEntry .ds 1 (entriesBits .ds [.zrun 31]) (.corrupt .tableOverrun) 9 false ∧
      (resetReader (input [0x00, 0x24, 0xD0, 0x2B, 0x50, 0x10, 0x00, 0x11, 0xF0, 0x01] (bench 16 10))).InputHas
        (entriesBits .ll (vEntries .ll) ++ entriesBits .ds [.short 1] ++ entriesBits .ds [.zrun 31])) ∧
    (let ll : List TableEntry := [.short 1, .short 1, .short 1, .zrun 255, .zrun 21]
     (entriesLens ll).length = Alphabet.ll.size ∧ canon (entriesLens ll) = none ∧
      (resetReader (input [0x11, 0x01, 0xFF, 0x50, 0x11, 0xE0, 0x01] quiet)).InputHas
        (entriesBits .ll ll ++ entriesBits .ds (vEntries .ds))) :=
  ⟨⟨.ends (.zrun 0) [.bits 0 4] [] 0 8 [] rfl (by decide), by decide +kernel⟩,
    ⟨.overrun 255 (by decide) (by decide), by decide +kernel⟩, ⟨.overrun 31 (by decide) (by decide), by decide +kernel⟩,
    by decide +kernel⟩

/-- 95 section 1.1's tables, then events that go wrong: a code cut short after three literals, and a distance bit that no
code has. -/
theorem test_witness_ExpandReplaysStream_symbols :
    (BadEvent vTable [true] (.corrupt .eosInSymbol) 1 true ∧
      (let s := resetReader (input [0x00, 0x24, 0xD0, 0x2B, 0x50, 0x10, 0x00, 0x11, 0xE0, 0xAB] (bench 16 10))
       let bits := entriesBits .ll (vEntries .ll) ++ entriesBits .ds (vEntries .ds) ++
         fieldsToBits vTable ([StreamEvent.lit 65, .lit 65, .lit 65].flatMap StreamEvent.fields)
       s.InputHas (bits ++ [true]) ∧ s.avail = (bits ++ [true]).length)) ∧
    (BadEvent vTable [false, true] (.corrupt .unpopulated) 2 false ∧
      (resetReader (input [0x00, 0x24, 0xD0, 0x2B, 0x50, 0x10, 0x00, 0x11, 0xE0, 0x13] (bench 16 10))).InputHas
        (entriesBits .ll (vEntries .ll) ++ entriesBits .ds (vEntries .ds) ++
          fieldsToBits vTable ([StreamEvent.lit 65].flatMap StreamEvent.fields) ++ [false, true])) := by
  have short : [true] <+: codePath (vTable .ll 65).2 (vTable .ll 65).1 ∧ 1 < (vTable .ll 65).1 := by decide +kernel
  have small : ∀ sym < 32, 0 < (vTable .ds sym).1 → ¬ [true] <+: codePath (vTable .ds sym).2 (vTable .ds sym).1 := by
    decide +kernel
  have coded := vTable_coded (.matchSlot 6 0 0 0) (by simp)
  refine ⟨⟨.symbol (.lit 65) (by decide) [] [] .ll 65 [true] rfl (by simp) (.inr ⟨65, short⟩), by decide +kernel⟩,
    .slot (.matchSlot 6 0 0 0) (by decide) [.code .ll 263] [] .ds 0 [] true rfl (fun a sym h => coded a sym ?_) (.inl rfl)
      (fun sym h0 => ?_), by decide +kernel⟩
  · simp only [List.mem_cons, List.not_mem_nil, or_false, Field.code.injEq] at h
    obtain ⟨rfl, rfl⟩ := h
    decide
  · by_cases h : sym < 32
    · exact small sym h h0
    · have hl : (vLens .ds).length = 32 := by decide
      exact absurd (List.getD_eq_default _ 0 (by omega : (vLens .ds).length ≤ sym)) (Nat.ne_of_gt h0)

/-- Codes of one bit for the end of stream and for MATCH3, no distance code: the stream ends in the distance's field. -/
theorem test_witness_ExpandReplaysStream_field :
    let ll : List TableEntry := [.zrun 255, .short 1, .short 1, .zrun 22]
    let codes := List.replicate 257 0 ++ [1] ++ List.replicate 23 0
    let code := fun (a : Alphabet) sym => match a with
      | .ll => ((entriesLens ll).getD sym 0, codes.getD sym 0)
      | .ds => ((entriesLens [.zrun 31]).getD sym 0, (List.replicate 32 0).getD sym 0)
    let bits := entriesBits .ll ll ++ entriesBits .ds [.zrun 31]
    let bad := true :: true :: List.replicate 5 false
    let s := resetReader (input [0xF0, 0x1F, 0x01, 0x16, 0xF0, 0x07] quiet)
    (entriesLens ll).length = 281 ∧ canon (entriesLens ll) = some codes ∧
    canon (entriesLens [.zrun 31]) = some (List.replicate 32 0) ∧
    BadEvent code bad (.corrupt .eosInField) 1 true ∧ s.InputHas (bits ++ bad) ∧ s.avail = (bits ++ bad).length := by
  refine ⟨by decide +kernel, by decide +kernel, by decide +kernel,
    .field (.match3 1) (by decide) [.code .ll 257] [] 1 12 (true :: List.replicate 5 false) rfl (fun a sym h => ?_) (by decide),
    by decide +kernel, by decide +kernel⟩
  simp only [List.mem_cons, List.not_mem_nil, or_false, Field.code.injEq] at h
  obtain ⟨rfl, rfl⟩ := h
  decide +kernel

/-- A match before the first byte; and one of nine bytes after one, where nine bytes fit. -/
theorem test_witness_ExpandReplaysStream_output :
    BadOutput (.matchSlot 6 0 0 0) [] 10 (.corrupt .distBeforeStart) ∧
    (resetReader (input [0x00, 0x24, 0xD0, 0x2B, 0x50, 0x10, 0x00, 0x11, 0xE0, 0x01] (bench 16 10))).InputHas
      (entriesBits .ll (vEntries .ll) ++ entriesBits .ds (vEntries .ds) ++
        fieldsToBits vTable (StreamEvent.matchSlot 6 0 0 0).fields) ∧
    BadOutput (.matchSlot 6 0 0 0) [65] 9 .outputFull ∧ [(65 : Byte)].length ≤ (bench 16 9).params.obufSize :=
  ⟨.distance (by decide) (by decide), by decide +kernel, .full (List.replicate 10 65) (by decide) (by decide), by decide⟩

theorem test_witness_CompressExpandRoundTrip :
    let s := input [] quiet
    let u : State := { quiet with ibuf := bytesFrom 0 [0xF0, 0x1F, 0x70, 0x01, 0x1F], ctl := { Ctl.reset with inLen := 5 } }
    s.params.ok ∧ u.params.ok ∧ u.ctl.inLen.toNat ≤ u.params.ibufSize ∧ s.ctl.inLen.toNat ≤ u.params.obufSize ∧
    nextIs (exec .compress s) (fun t => t.ctl.cause == 0 && u.ctl.inLen == t.ctl.res2 &&
      decide (∀ i : Nat, i < u.ctl.inLen.toNat → Memory.read? u.ibuf i = Memory.read? t.obuf i)) = true := by decide +kernel

theorem test_witness_TableElementsInPlace :
    (inside 0x46 (.table .ll 280 0) quiet).prog.pos = .table .ll 280 0 ∧ 280 < Alphabet.ll.size ∧
    Alphabet.ll.size < 280 + ((1 : BitVec 8).toNat + 1) ∧ 280 + ((0 : BitVec 8).toNat + 1) ≤ Alphabet.ll.size ∧
    31 < Alphabet.ds.size ∧ Alphabet.ds.size < 31 + ((1 : BitVec 5).toNat + 1) := by decide

theorem test_witness_SymbolEventsInPlace :
    let s := inside 2 (.events 2 0) ab
    s.prog.pos = .events 2 0 ∧ s.params.ok ∧ WindowOk s ∧ s.wr.outLen.toNat < s.params.obufSize ∧
    (bench 8 1).params.obufSize ≤ (window [0x41] (bench 8 1)).wr.outLen.toNat ∧
    wellFormed (.matchSlot 1 0 1 0) = true ∧ loDist 1 + 0 ≤ s.win.fill.toNat ∧ s.win.fill.toNat < loDist 2 + 0 ∧
    s.params.obufSize < s.wr.outLen.toNat + (loLen 1 + 0) ∧ s.wr.outLen.toNat + 3 ≤ s.params.obufSize :=
  ⟨by decide, by decide, ab_window, by decide, by decide, by decide, by decide, by decide, by decide, by decide⟩

theorem test_witness_ElementsOutOfPlace :
    quiet.prog.pos = .idle ∧ (inside 2 (.events 0 0) quiet).prog.pos = .events 0 0 ∧
    (inside 0x46 (.table .ll 281 0) quiet).prog.pos = .table .ll 281 0 ∧ Alphabet.ll.size ≤ 281 := by decide

end Sys2Proof.Tests
end

section
/-! # The machine's invariant (00_scope.md)

Every primitive keeps the invariant as it stands in the middle of a command, whether it ends well or raises (R216); a
command's end puts it back whole (R215). -/

namespace Sys2Proof.Machine

variable {α : Type}

/-! ## The invariant in the middle of a command -/

/-- The invariant but for the hidden state of the command in progress (R35, R36). -/
abbrev MidInv (s : State) : Prop := Inv { s with prog := Progress.none }

theorem Inv.mid {s : State} (h : Inv s) : MidInv s := { h with idle := rfl }

/-- A change of the state that keeps the invariant. -/
abbrev KeepsInv (s t : State) : Prop := MidInv s → MidInv t

theorem keepsInvFrame : IsFrame KeepsInv := ⟨fun _ h => h, fun h1 h2 h => h2 (h1 h)⟩

theorem keepsInv_of_onlyReader {s t : State} (h : OnlyReader s t) : KeepsInv s t := by
  rw [h]; exact fun hs => { hs with }

theorem keepsInv_prog (p : Progress) (s : State) : KeepsInv s { s with prog := p } := fun hs => { hs with }

/-- Tables whose code lengths are in range (R29). -/
theorem midInv_setTab {a : Alphabet} {s : State} {T : Tables a.size} (hs : MidInv s)
    (hl : ∀ l ∈ T.cl.toList.map BitVec.toNat, l ≤ maxCodeLenDec) : MidInv (s.setTab a T) := by
  cases a with
  | ll => exact { hs with lengths := fun b => by cases b; exacts [hl, hs.lengths .ds] }
  | ds => exact { hs with lengths := fun b => by cases b; exacts [hs.lengths .ll, hl] }

theorem MidInv.lengthsOk {s : State} (hs : MidInv s) (a : Alphabet) :
    ∀ l ∈ (s.tab a).cl.toList.map BitVec.toNat, l ≤ maxCodeLenDec := by
  cases a
  · exact hs.lengths .ll
  · exact hs.lengths .ds

theorem keepsInv_of_onlyFreq {a : Alphabet} {s t : State} (h : OnlyFreq a s t) : KeepsInv s t := by
  rw [h]; exact fun hs => midInv_setTab hs (MidInv.lengthsOk hs a)

theorem keepsInv_of_onlyCode {a : Alphabet} {s t : State} (h : OnlyCode a s t) : KeepsInv s t := by
  rw [h]; exact fun hs => midInv_setTab hs (MidInv.lengthsOk hs a)

theorem keepsInv_of_onlyCodeTrie {a : Alphabet} {s t : State} (h : OnlyCodeTrie a s t) : KeepsInv s t := by
  rw [h]; exact fun hs => midInv_setTab hs (MidInv.lengthsOk hs a)

/-! ## The writer (R22, R24) -/

theorem outLen_outAppend_le (b : Byte) (s : State) : (outAppend b s).wr.outLen.toNat ≤ s.wr.outLen.toNat + 1 := by
  rw [outAppend_outLen, BitVec.toNat_add]; exact Nat.mod_le _ _

theorem outAppend_keepsInv (b : Byte) {s : State} (h : s.outFits 1 = true) : KeepsInv s (outAppend b s) := fun hs =>
  { hs with
    obuf := Memory.wf_write _ b hs.obuf
    writer := ⟨Nat.le_trans (outLen_outAppend_le b s) (of_decide_eq_true h), hs.writer.2⟩ }

theorem countWritten_keepsInv (n : Nat) (s : State) : KeepsInv s (countWritten n s) := fun hs => { hs with }

/-- No bit pending. -/
theorem clearPending_keepsInv (s : State) : KeepsInv s { s with wr := { s.wr with wacc := 0, wcnt := 0 } } := fun hs =>
  { hs with writer := ⟨hs.writer.1, Nat.two_pow_pos 0⟩ }

theorem resetWriter_keepsInv (s : State) : KeepsInv s (resetWriter s) := fun hs =>
  { hs with writer := ⟨Nat.zero_le _, Nat.two_pow_pos 0⟩ }

theorem wf_obuf_appendBit (b : Bool) {s : State} (h : Memory.wf s.obuf = true) : Memory.wf (appendBit b s).obuf = true := by
  unfold appendBit
  dsimp only
  split
  · exact Memory.wf_write _ _ h
  · exact h

theorem wf_obuf_appendBits (v n : Nat) {s : State} (h : Memory.wf s.obuf = true) :
    Memory.wf (appendBits v n s).obuf = true := by
  induction n generalizing v s with
  | zero => exact h
  | succ n ih => exact ih _ (wf_obuf_appendBit _ h)

/-- R90: the bytes that bits complete are the ones the capacity was checked for. -/
theorem outLen_appendBits {v n : Nat} {s : State} (hp : s.params.ok) (hf : s.BitsFit n) :
    (appendBits v n s).wr.outLen.toNat ≤ s.params.obufSize := by
  obtain ⟨-, -, -, hsize, -⟩ := hp
  have hfit : s.wr.outLen.toNat + (s.wr.wcnt.toNat + n) / 8 ≤ s.params.obufSize := hf
  have hpos := (extends_appendBits v n (s := s) (by omega)).1
  rw [length_toBits] at hpos
  rw [outLen_eq_writePos, hpos]
  unfold State.writePos
  omega

theorem appendBits_keepsInv {v n : Nat} {s : State} (hf : s.BitsFit n) : KeepsInv s (appendBits v n s) := by
  intro hs
  have hob := wf_obuf_appendBits v n (s := s) hs.obuf
  have hlen := outLen_appendBits (v := v) (s := s) hs.params hf
  have hacc := wacc_appendBits v n (s := s) hs.writer.2
  rw [appendBits_only v n s]
  exact { hs with obuf := hob, writer := ⟨hlen, hacc⟩ }

theorem writeBits_keepsInv (v n : Nat) (s : State) : (writeBits v n s).Stays KeepsInv s :=
  Res.Stays.require keepsInvFrame fun _ => Res.Stays.require keepsInvFrame fun hf =>
    keepsInvFrame.trans (appendBits_keepsInv (of_decide_eq_true hf)) (countWritten_keepsInv n _)

theorem writeByte_keepsInv (b : Nat) (s : State) : (writeByte b s).Stays KeepsInv s :=
  Res.Stays.require keepsInvFrame fun _ => Res.Stays.require keepsInvFrame fun _ => Res.Stays.require keepsInvFrame fun hf =>
    keepsInvFrame.trans (outAppend_keepsInv _ hf) (countWritten_keepsInv 8 _)

theorem writeEof_keepsInv (s : State) : (writeEof s).Stays KeepsInv s := by
  unfold writeEof
  split
  · exact keepsInvFrame.refl s
  · exact Res.Stays.require keepsInvFrame fun hf =>
      keepsInvFrame.trans (outAppend_keepsInv _ hf) (clearPending_keepsInv _)

theorem encodeSymbol_keepsInv (a : Alphabet) (sym : Nat) (s : State) : (encodeSymbol a sym s).Stays KeepsInv s :=
  Res.Stays.require keepsInvFrame fun _ => writeBits_keepsInv _ _ s

theorem writeField_keepsInv (f : Field) (s : State) : (writeField f s).Stays KeepsInv s := by
  cases f with
  | bits v n => exact writeBits_keepsInv v n s
  | code a sym => exact encodeSymbol_keepsInv a sym s

theorem writeFields_keepsInv (fs : List Field) (s : State) : (writeFields fs s).Stays KeepsInv s := by
  induction fs generalizing s with
  | nil => exact keepsInvFrame.refl s
  | cons f fs ih => exact (writeField_keepsInv f s).bind keepsInvFrame fun _ t _ => ih t

theorem serialize_keepsInv (a : Alphabet) (s : State) : (serialize a s).Stays KeepsInv s := by
  unfold serialize
  exact Res.Stays.require keepsInvFrame fun _ => writeFields_keepsInv _ s

theorem emit_keepsInv (e : Event) (s : State) : (emit e s).Stays KeepsInv s := by
  cases e with
  | lit b => exact writeFields_keepsInv _ s
  | copy l d =>
    simp only [emit]
    split
    · exact keepsInvFrame.refl s
    · refine (writeFields_keepsInv _ s).bind keepsInvFrame fun _ t _ => ?_
      split
      · exact writeBits_keepsInv _ _ t
      · split
        · exact keepsInvFrame.refl t
        · exact writeFields_keepsInv _ t

/-! ## The reader and the code tables (R28 to R31) -/

theorem resetReader_keepsInv (s : State) : KeepsInv s (resetReader s) := keepsInv_of_onlyReader rfl

theorem readBits_keepsInv (n : Nat) (s : State) : (readBits n s).Stays KeepsInv s :=
  (readBits_stays n s).mono fun _ => keepsInv_of_onlyReader

theorem readByte_keepsInv (s : State) : (readByte s).Stays KeepsInv s :=
  (readByte_stays s).mono fun _ => keepsInv_of_onlyReader

theorem runParse_keepsInv (p : Parse α) (s : State) : (runParse p s).Stays KeepsInv s :=
  (runParse_stays p s).mono fun _ => keepsInv_of_onlyReader

theorem clearFreq_keepsInv (a : Alphabet) (s : State) : KeepsInv s (clearFreq a s) :=
  keepsInv_of_onlyFreq (clearFreq_only a s)

theorem bumpFreq_keepsInv (a : Alphabet) (sym : Nat) (s : State) : KeepsInv s (bumpFreq a sym s) :=
  keepsInv_of_onlyFreq (bumpFreq_only a sym s)

theorem hufCanon_keepsInv (a : Alphabet) (s : State) : (hufCanon a s).Stays KeepsInv s :=
  (hufCanon_stays a s).mono fun _ => keepsInv_of_onlyCode

theorem hufTrie_keepsInv (a : Alphabet) (s : State) : (hufTrie a s).Stays KeepsInv s :=
  (hufTrie_stays a s).mono fun _ => keepsInv_of_onlyCodeTrie

theorem toNat_codeLen_le (l : Nat) : (BitVec.ofNat 5 l).toNat ≤ l := by
  rw [BitVec.toNat_ofNat]; exact Nat.mod_le _ _

theorem setCl_keepsInv (a : Alphabet) (sym : Nat) {l : Nat} (hl : l ≤ maxCodeLenDec) (s : State) :
    KeepsInv s (setCl a sym l s) := by
  refine fun hs => midInv_setTab hs fun m hm => ?_
  obtain ⟨x, hx, rfl⟩ := List.mem_map.1 hm
  rw [tableSet, Vector.toList_setIfInBounds] at hx
  rcases List.mem_or_eq_of_mem_set hx with hx | rfl
  · exact MidInv.lengthsOk hs a _ (List.mem_map_of_mem hx)
  · exact Nat.le_trans (toNat_codeLen_le l) hl

theorem clearCls_keepsInv (a : Alphabet) (i r : Nat) (s : State) : KeepsInv s (clearCls a i r s) := by
  induction r generalizing i s with
  | zero => exact keepsInvFrame.refl s
  | succ r ih => exact keepsInvFrame.trans (setCl_keepsInv a i (Nat.zero_le _) s) (ih _ _)

/-- R144, R70: the longest length an entry gives is 18 + 3. -/
theorem applyEntry_keepsInv (a : Alphabet) (i : Nat) (e : TableEntry) (s : State) :
    (applyEntry a i e s).Stays KeepsInv s := by
  have hmax : maxCodeLenDec = 21 := rfl
  cases e with
  | short l => exact setCl_keepsInv a i (by have := l.isLt; omega) s
  | ext1 x => exact setCl_keepsInv a i (by have := x.isLt; omega) s
  | ext2 y => exact setCl_keepsInv a i (by have := y.isLt; omega) s
  | zrun c =>
    unfold applyEntry
    exact Res.Stays.require keepsInvFrame fun _ => clearCls_keepsInv a i (c + 1) s

theorem deserializeFrom_keepsInv (a : Alphabet) (n i : Nat) (s : State) :
    (deserializeFrom a n i s).Stays KeepsInv s := by
  induction n generalizing i s with
  | zero => exact keepsInvFrame.refl s
  | succ n ih =>
    unfold deserializeFrom
    split
    · exact keepsInvFrame.refl s
    · exact (runParse_keepsInv _ s).bind keepsInvFrame fun e t _ =>
        (applyEntry_keepsInv a i e t).bind keepsInvFrame fun j u _ => ih j u

theorem deserialize_keepsInv (a : Alphabet) (s : State) : (deserialize a s).Stays KeepsInv s :=
  deserializeFrom_keepsInv a _ _ s

theorem mem_tableOf {n : Nat} {d x : α} {l : List α} (h : x ∈ (tableOf n d l).toList) : x ∈ l ∨ x = d := by
  rcases List.mem_append.1 (show x ∈ l.take n ++ List.replicate (n - l.length) d from h) with h | h
  · exact .inl (List.mem_of_mem_take h)
  · exact .inr (List.eq_of_mem_replicate h)

theorem le_foldl_max {l : List Nat} {x : Nat} (h : x ∈ l) : x ≤ l.foldl max 0 := by
  rw [List.foldl_max]
  exact Nat.le_trans (List.le_max?_getD_of_mem h) (Nat.le_max_right _ _)

/-- R134, R137: HUF_BUILD stores lengths only when the longest is at most 19. -/
theorem hufBuild_keepsInv (a : Alphabet) (s : State) : (hufBuild a s).Stays KeepsInv s := by
  unfold hufBuild
  refine Res.Stays.require keepsInvFrame fun hmax => ?_
  refine fun hs => midInv_setTab hs fun m hm => ?_
  obtain ⟨x, hx, rfl⟩ := List.mem_map.1 hm
  rcases mem_tableOf hx with hx | rfl
  · obtain ⟨l, hl, rfl⟩ := List.mem_map.1 hx
    calc (BitVec.ofNat 5 l).toNat ≤ l := toNat_codeLen_le l
      _ ≤ _ := le_foldl_max hl
      _ ≤ maxCodeLenEnc := of_decide_eq_true hmax
      _ ≤ maxCodeLenDec := by decide
  · exact Nat.zero_le _

/-! ## The match finder (R32, R33) -/

theorem relink_linksOk {f : Finder} (h : f.LinksOk) (p old : Nat) (v : BitVec 17) : (relink f p old v).LinksOk := by
  rw [relink_eq]; exact linksOk_setChild h _ _ _

theorem replaceNode_linksOk {f : Finder} (h : f.LinksOk) (old new : Nat) : (replaceNode f old new).LinksOk :=
  clearSlot_linksOk (relink_linksOk (adopt_linksOk (adopt_linksOk
    (linksOk_setLa (linksOk_setSm (linksOk_setPar h _ _) _ _) _ _) _ _) _ _) _ _ _) _

theorem deletePredecessor_linksOk {f : Finder} (h : f.LinksOk) (r : Nat) : (deletePredecessor f r).LinksOk := by
  unfold deletePredecessor
  split
  · exact contract_linksOk h _ _
  · exact h

theorem deletePredecessor_best (f : Finder) (r : Nat) : (deletePredecessor f r).best = f.best := by
  unfold deletePredecessor
  split
  · exact contract_best _ _ _
  · rfl

/-- R169: what a deletion leaves, whatever the tree. -/
theorem deleteSlot_linksOk {f g : Finder} (h : f.LinksOk) {s : Nat} (hg : deleteSlot f s = some g) :
    g.LinksOk ∧ g.best = f.best := by
  unfold deleteSlot at hg
  split at hg
  · cases hg; exact ⟨h, rfl⟩
  · split at hg
    · cases hg; exact ⟨contract_linksOk h _ _, contract_best _ _ _⟩
    · split at hg
      · cases hg; exact ⟨contract_linksOk h _ _, contract_best _ _ _⟩
      · obtain ⟨r, -, rfl⟩ := Option.map_eq_some_iff.1 hg
        exact ⟨replaceNode_linksOk (deletePredecessor_linksOk h r) s r,
          (replaceNode_best _ s r).trans (deletePredecessor_best f r)⟩

theorem linkIn_linksOk {f : Finder} (h : f.LinksOk) (stop : WalkEnd) (s : Nat) :
    (linkIn f stop s).LinksOk ∧ (linkIn f stop s).best = f.best := by
  cases stop with
  | leaf t side => exact ⟨attach_linksOk h t side s, by cases side <;> rfl⟩
  | full t => exact ⟨replaceNode_linksOk h t s, replaceNode_best f t s⟩

/-- Other links in their one form, the candidate as before. -/
theorem midInv_setFinder {s : State} (hs : MidInv s) {f : Finder} (hf : f.LinksOk ∧ f.best = s.mf.best) :
    MidInv { s with mf := f } :=
  { hs with links := hf.1, best := by rw [show f.best = s.mf.best from hf.2]; exact hs.best }

theorem deleteAt_keepsInv (slot : Nat) (s : State) : (deleteAt slot s).Stays KeepsInv s := by
  unfold deleteAt
  split
  · rename_i f hf
    exact fun hs => midInv_setFinder hs (deleteSlot_linksOk hs.links hf)
  · exact trivial

theorem setBest_keepsInv {len dist : Nat} (hl : len ≤ lookahead) (hd : dist ≤ windowSize) (s : State) :
    KeepsInv s (setBest len dist s) := fun hs =>
  { hs with
    best := by
      rw [setBest_best, BitVec.toNat_ofNat, BitVec.toNat_ofNat]
      exact ⟨Nat.le_trans (Nat.mod_le _ _) hl, Nat.le_trans (Nat.mod_le _ _) hd⟩ }

theorem initFinder_keepsInv (s : State) : KeepsInv s (initFinder s) := fun hs =>
  { hs with links := ⟨rfl, rfl, rfl⟩, best := ⟨Nat.zero_le _, Nat.zero_le _⟩ }

/-- R163 to R165: a walk that ends leaves a candidate in range; one that raises has written nothing. -/
theorem walk_keepsInv (p : Nat) (mutate : Bool) (s : State) : (walk p mutate s).Stays KeepsInv s := by
  refine Res.Stays.require keepsInvFrame fun _ => Res.Stays.require keepsInvFrame fun hpos =>
    Res.Stays.require keepsInvFrame fun _ => ?_
  refine ((walkRoot_stays p s).of_eq keepsInvFrame).bind keepsInvFrame fun r t hr => ?_
  obtain rfl : s = t := (walkRoot_stays p s).ok hr
  have hc := walkRoot_candidate (Nat.le_of_lt (of_decide_eq_true hpos)) hr
  refine keepsInvFrame.trans ?_ (setBest_keepsInv hc.len_le hc.dist_le.2 _)
  cases mutate with
  | false => exact keepsInvFrame.refl s
  | true => exact fun hs => midInv_setFinder hs (linkIn_linksOk hs.links r.stop _)

/-! ## The window (R25, R34) -/

/-- R193: a byte pushed where it fits. -/
theorem windowPush_keepsInv (b : Byte) {s : State} (h : s.outFits 1 = true) : KeepsInv s (windowPush b s) := by
  intro hs
  have hfit : s.wr.outLen.toNat + 1 ≤ s.params.obufSize := of_decide_eq_true h
  obtain ⟨-, -, -, hsize, -⟩ := hs.params
  obtain ⟨hpush, hread⟩ := windowPush_pushed b (s := s) (Nat.lt_of_le_of_lt (Nat.le_trans hfit hsize) (by decide))
  have hwin : WindowOk (windowPush b s) := windowOk_of_pushed (s := s) hs.window hpush fun n hn => by
    obtain rfl : n = 0 := by omega
    rw [Nat.add_zero, hread]; rfl
  exact { hs with
    obuf := Memory.wf_write _ b hs.obuf
    winBytes := Memory.wf_write _ b hs.winBytes
    writer := ⟨Nat.le_trans (outLen_outAppend_le b s) hfit, hs.writer.2⟩
    window := hwin }

theorem winPut_keepsInv (b : Byte) (s : State) : (winPut b s).Stays KeepsInv s :=
  Res.Stays.require keepsInvFrame fun hf => windowPush_keepsInv b hf

/-- R194's loop, where all its bytes fit. -/
theorem copyLoop_keepsInv (d : Nat) {n : Nat} {s : State} (h : s.outFits n = true) :
    (copyLoop d n s).Stays KeepsInv s := by
  induction n generalizing s with
  | zero => exact keepsInvFrame.refl s
  | succ n ih =>
    refine ((windowRead_stays _ s).of_eq keepsInvFrame).bind keepsInvFrame fun b t ht => ?_
    obtain rfl : s = t := (windowRead_stays _ s).ok ht
    have hfit : s.wr.outLen.toNat + (n + 1) ≤ s.params.obufSize := of_decide_eq_true h
    have hlen : (windowPush b s).wr.outLen.toNat ≤ s.wr.outLen.toNat + 1 := outLen_outAppend_le b s
    exact (ih (decide_eq_true (by rw [windowPush_params]; omega))).after keepsInvFrame
      (windowPush_keepsInv b (decide_eq_true (by omega)))

theorem winCopy_keepsInv (l d : Nat) (s : State) : (winCopy l d s).Stays KeepsInv s :=
  Res.Stays.require keepsInvFrame fun _ => Res.Stays.require keepsInvFrame fun _ =>
    Res.Stays.require keepsInvFrame fun hf => copyLoop_keepsInv d hf

/-- R25: an empty window counts no slot as written. -/
theorem windowOk_empty {s : State} (h : s.win.fill = 0) : WindowOk s := by
  refine ⟨by rw [h]; exact Nat.zero_le _, fun d h1 h2 => ?_⟩
  rw [h] at h2
  exact absurd (Nat.le_trans h1 h2) (by decide)

theorem resetWindow_keepsInv (s : State) : KeepsInv s (resetWindow s) := fun hs =>
  { hs with window := windowOk_empty rfl }

theorem applyEvent_keepsInv (e : StreamEvent) (nl nm : Nat) (s : State) : (applyEvent e nl nm s).Stays KeepsInv s := by
  cases e with
  | lit b => exact (winPut_keepsInv b s).bind keepsInvFrame fun _ t _ => keepsInvFrame.refl t
  | eos => exact keepsInvFrame.refl s
  | match3 d => exact (winCopy_keepsInv _ _ s).bind keepsInvFrame fun _ t _ => keepsInvFrame.refl t
  | matchSlot k e j x => exact (winCopy_keepsInv _ _ s).bind keepsInvFrame fun _ t _ => keepsInvFrame.refl t

/-! ## The pipelines (44_pipelines.md) -/

theorem pushEvent_keepsInv (e : Event) (s : State) : KeepsInv s (pushEvent e s) := keepsInv_prog _ s

theorem takeCandidate_keepsInv (s : State) : KeepsInv s (takeCandidate s) := keepsInv_prog _ s

theorem slideTo_keepsInv (p : Nat) (s : State) : (slideTo p s).Stays KeepsInv s := by
  unfold slideTo
  split
  · refine Res.Stays.bind keepsInvFrame ?_ fun _ t _ =>
      (walk_keepsInv p true t).bind keepsInvFrame fun _ u _ => takeCandidate_keepsInv u
    split
    · exact deleteAt_keepsInv _ s
    · exact keepsInvFrame.refl s
  · exact keepsInvFrame.refl s

theorem slide_keepsInv (k p : Nat) (s : State) : (slide k p s).Stays KeepsInv s := by
  induction k generalizing p s with
  | zero => exact keepsInvFrame.refl s
  | succ k ih => exact (slideTo_keepsInv p s).bind keepsInvFrame fun _ t _ => ih (p + 1) t

theorem lookAhead_keepsInv (cur : Nat) (s : State) : (lookAhead cur s).Stays KeepsInv s := by
  unfold lookAhead
  split
  · exact (walk_keepsInv _ false s).bind keepsInvFrame fun _ t _ => keepsInvFrame.refl t
  · exact keepsInvFrame.refl s

theorem chooseEvent_keepsInv (cur look : Nat) (s : State) : (chooseEvent cur look s).Stays KeepsInv s := by
  unfold chooseEvent
  split
  · exact pushEvent_keepsInv _ s
  · exact ((inByte_stays cur s).of_eq keepsInvFrame).bind keepsInvFrame fun b t _ => pushEvent_keepsInv (.lit b) t

theorem eventLoop_keepsInv (n cur : Nat) (s : State) : (eventLoop n cur s).Stays KeepsInv s := by
  induction n generalizing cur s with
  | zero => exact keepsInvFrame.refl s
  | succ n ih =>
    unfold eventLoop
    split
    · exact keepsInvFrame.refl s
    · exact (lookAhead_keepsInv cur s).bind keepsInvFrame fun look t _ =>
        (chooseEvent_keepsInv cur look t).bind keepsInvFrame fun k u _ =>
          (slide_keepsInv k (cur + 1) u).bind keepsInvFrame fun _ v _ => ih (cur + k) v

theorem generateEvents_keepsInv (s : State) : (generateEvents s).Stays KeepsInv s := by
  unfold generateEvents
  refine Res.Stays.after keepsInvFrame (keepsInvFrame.trans (keepsInv_prog { s.prog with evq := [] } s)
    (initFinder_keepsInv _)) ?_
  dsimp only
  split
  · exact keepsInvFrame.refl _
  · exact (walk_keepsInv 0 true _).bind keepsInvFrame fun _ t _ =>
      (eventLoop_keepsInv _ 0 _).after keepsInvFrame (takeCandidate_keepsInv t)

theorem tally_keepsInv (e : Event) (s : State) : (tally e s).Stays KeepsInv s := by
  cases e with
  | lit b => exact bumpFreq_keepsInv .ll _ s
  | copy l d =>
    simp only [tally]
    split
    · exact keepsInvFrame.refl s
    · rename_i k _
      refine Res.Stays.after keepsInvFrame (bumpFreq_keepsInv .ll (lenSymbol0 + k) s) ?_
      split
      · exact keepsInvFrame.refl _
      · split
        · exact keepsInvFrame.refl _
        · exact bumpFreq_keepsInv .ds _ _

theorem forEvents_keepsInv {f : Event → State → Res Unit} (hf : ∀ e s, (f e s).Stays KeepsInv s) (es : List Event)
    (s : State) : (forEvents f es s).Stays KeepsInv s := by
  induction es generalizing s with
  | nil => exact keepsInvFrame.refl s
  | cons e es ih => exact (hf e s).bind keepsInvFrame fun _ t _ => ih t

theorem compressPass1_keepsInv (s : State) : (compressPass1 s).Stays KeepsInv s := by
  refine Res.Stays.bind keepsInvFrame ?_ fun _ t _ =>
    (forEvents_keepsInv tally_keepsInv _ t).bind keepsInvFrame fun _ u _ => bumpFreq_keepsInv .ll eosSymbol u
  exact (generateEvents_keepsInv _).after keepsInvFrame (keepsInvFrame.trans (resetWriter_keepsInv s)
    (keepsInvFrame.trans (clearFreq_keepsInv .ll _) (clearFreq_keepsInv .ds _)))

theorem compressTables_keepsInv (s : State) : (compressTables s).Stays KeepsInv s :=
  (hufBuild_keepsInv .ll s).bind keepsInvFrame fun _ t _ =>
    (hufBuild_keepsInv .ds t).bind keepsInvFrame fun _ u _ =>
      (hufCanon_keepsInv .ll u).bind keepsInvFrame fun _ v _ =>
        (hufCanon_keepsInv .ds v).bind keepsInvFrame fun _ w _ =>
          (serialize_keepsInv .ll w).bind keepsInvFrame fun _ x _ => serialize_keepsInv .ds x

theorem compressPass2_keepsInv (s : State) : (compressPass2 s).Stays KeepsInv s :=
  (forEvents_keepsInv emit_keepsInv _ s).bind keepsInvFrame fun _ t _ =>
    (encodeSymbol_keepsInv .ll eosSymbol t).bind keepsInvFrame fun _ u _ =>
      (writeEof_keepsInv u).bind keepsInvFrame fun _ v _ => keepsInvFrame.refl v

theorem compress_keepsInv (s : State) : (compress s).Stays KeepsInv s :=
  Res.Stays.require keepsInvFrame fun _ =>
    (compressPass1_keepsInv s).bind keepsInvFrame fun _ t _ =>
      (compressTables_keepsInv t).bind keepsInvFrame fun _ u _ => compressPass2_keepsInv u

theorem expandLoop_keepsInv (n nl nm : Nat) (s : State) : (expandLoop n nl nm s).Stays KeepsInv s := by
  induction n generalizing nl nm s with
  | zero => exact keepsInvFrame.refl s
  | succ n ih =>
    refine (runParse_keepsInv _ s).bind keepsInvFrame fun e t _ =>
      (applyEvent_keepsInv e nl nm t).bind keepsInvFrame fun r u _ => ?_
    cases r with
    | none => exact keepsInvFrame.refl u
    | some c => exact ih c.1 c.2 u

theorem expandTries_keepsInv (s : State) : (expandTries s).Stays KeepsInv s :=
  (hufTrie_keepsInv .ll s).bind keepsInvFrame fun _ t _ => hufTrie_keepsInv .ds t

theorem expandReset_keepsInv (s : State) : KeepsInv s (expandReset s) :=
  keepsInvFrame.trans (resetReader_keepsInv s)
    (keepsInvFrame.trans (resetWriter_keepsInv _) (resetWindow_keepsInv _))

theorem expand_keepsInv (s : State) : (expand s).Stays KeepsInv s :=
  Res.Stays.require keepsInvFrame fun _ =>
    ((deserialize_keepsInv .ll _).after keepsInvFrame (expandReset_keepsInv s)).bind keepsInvFrame fun _ t _ =>
      (deserialize_keepsInv .ds t).bind keepsInvFrame fun _ u _ =>
        (expandTries_keepsInv u).bind keepsInvFrame fun _ v _ => expandLoop_keepsInv _ 0 0 v

/-! ## Every instruction -/

/-- Run between commands, the instruction keeps the invariant. -/
def ExecKeepsInv (i : Instr) : Prop := ∀ s t, Inv s → exec i s = .next t → Inv t

/-- R216: taking an error. -/
theorem fail_inv {s : State} (h : MidInv s) (e : Err) : Inv (s.fail e) := { h with idle := rfl }

/-- R215, R216: a command leaves no hidden state, whether it completes or fails. -/
theorem finish_inv {s t : State} {r : Res Results} (hr : r.Stays KeepsInv s) (hs : Inv s) (h : finish r = .next t) :
    Inv t := by
  rcases finish_eq_next.1 h with ⟨x, u, hu, rfl⟩ | ⟨e, u, hu, rfl⟩
  · exact { hr.ok hu hs.mid with idle := rfl }
  · exact fail_inv (hr.err hu hs.mid) e

theorem ExecKeepsInv.of_finish {i : Instr} {r : State → Res Results} (hi : ∀ s, exec i s = finish (r s))
    (hr : ∀ s, (r s).Stays KeepsInv s) : ExecKeepsInv i := fun s _ hs h => finish_inv (hr s) hs (hi s ▸ h)

theorem ExecKeepsInv.of_ok {i : Instr} {r : State → Results} {f : State → State}
    (hi : ∀ s, exec i s = finish (.ok (r s) (f s))) (hf : ∀ s, KeepsInv s (f s)) : ExecKeepsInv i := .of_finish hi hf

/-- R251: no stream is half read between commands. -/
theorem Inv.pos_idle {s : State} (h : Inv s) : s.prog.pos = .idle := by rw [h.idle]; rfl

/-- Where no stream is half read, a table entry is out of place. -/
theorem ExecKeepsInv.of_entry {i : Instr} (fits : Alphabet → Bool) (e : TableEntry)
    (hi : ∀ s, exec i s = entryStep fits e s) : ExecKeepsInv i := by
  intro s t hs h
  simp only [hi, entryStep, hs.pos_idle] at h
  cases h

/-- Where no stream is half read, an event is out of place. -/
theorem ExecKeepsInv.of_event {i : Instr} (e : StreamEvent) (hi : ∀ s, exec i s = eventStep e s) : ExecKeepsInv i := by
  intro s t hs h
  simp only [hi, eventStep, hs.pos_idle] at h
  cases h

/-- A primitive whose value only gives the results. -/
theorem Res.Stays.results {s : State} {r : Res α} (h : r.Stays KeepsInv s) (k : α → State → Results) :
    (r.bind fun a t => .ok (k a t) t).Stays KeepsInv s := h.bind keepsInvFrame fun _ t _ => keepsInvFrame.refl t

theorem slotResults_keepsInv (rows : List SlotRow) (v : Nat) (e : Err) (s : State) :
    (slotResults rows v e s).Stays KeepsInv s := by
  unfold slotResults
  split
  · split
    · exact keepsInvFrame.refl s
    · exact keepsInvFrame.refl s
  · exact keepsInvFrame.refl s

theorem rangeResults_keepsInv (row : Option SlotRow) (s : State) : (rangeResults row s).Stays KeepsInv s := by
  cases row
  · exact keepsInvFrame.refl s
  · exact keepsInvFrame.refl s

/-- Every instruction keeps the invariant. -/
theorem exec_keepsInv (i : Instr) : ExecKeepsInv i := by
  cases i with
  | compress => exact .of_finish (fun _ => rfl) compress_keepsInv
  | expand => exact .of_finish (fun _ => rfl) expand_keepsInv
  | bwReset => exact .of_ok (fun _ => rfl) resetWriter_keepsInv
  | bwWriteBits => exact .of_finish (fun _ => rfl) fun s => (writeBits_keepsInv s.a0 s.a1 s).results _
  | bwWriteByte => exact .of_finish (fun _ => rfl) fun s => (writeByte_keepsInv s.a0 s).results _
  | bwWriteEof => exact .of_finish (fun _ => rfl) fun s => (writeEof_keepsInv s).results _
  | brReset => exact .of_ok (fun _ => rfl) resetReader_keepsInv
  | brReadBits => exact .of_finish (fun _ => rfl) fun s => (readBits_keepsInv s.a1 s).results _
  | brReadByte => exact .of_finish (fun _ => rfl) fun s => (readByte_keepsInv s).results _
  | lenSlot =>
    exact .of_finish (fun _ => rfl) fun s => Res.Stays.require keepsInvFrame fun _ => slotResults_keepsInv _ _ _ s
  | distSlot =>
    exact .of_finish (fun _ => rfl) fun s => Res.Stays.require keepsInvFrame fun _ => slotResults_keepsInv _ _ _ s
  | lenRange =>
    exact .of_finish (fun _ => rfl) fun s => Res.Stays.require keepsInvFrame fun _ => rangeResults_keepsInv _ s
  | distRange =>
    exact .of_finish (fun _ => rfl) fun s => Res.Stays.require keepsInvFrame fun _ => rangeResults_keepsInv _ s
  | mfInit => exact .of_ok (fun _ => rfl) initFinder_keepsInv
  | mfInsert => exact .of_finish (fun _ => rfl) fun s => (walk_keepsInv s.a0 true s).results _
  | mfProbe => exact .of_finish (fun _ => rfl) fun s => (walk_keepsInv s.a0 false s).results _
  | mfDelete => exact .of_finish (fun _ => rfl) fun s => (deleteAt_keepsInv (slotOf s.a0) s).results _
  | mfLongest => exact .of_ok (fun _ => rfl) keepsInvFrame.refl
  | treeRead =>
    exact .of_finish (fun _ => rfl) fun s => Res.Stays.require keepsInvFrame fun _ => keepsInvFrame.refl s
  | freqClear a => exact .of_ok (fun _ => rfl) (clearFreq_keepsInv a)
  | freqInc a =>
    exact .of_finish (fun _ => rfl) fun s => Res.Stays.require keepsInvFrame fun _ =>
      Res.Stays.require keepsInvFrame fun _ => bumpFreq_keepsInv a s.a0 s
  | freqRead a =>
    exact .of_finish (fun _ => rfl) fun s => Res.Stays.require keepsInvFrame fun _ => keepsInvFrame.refl s
  | hufBuild a => exact .of_finish (fun _ => rfl) fun s => (hufBuild_keepsInv a s).results _
  | hufCanon a => exact .of_finish (fun _ => rfl) fun s => (hufCanon_keepsInv a s).results _
  | hufSerialize a => exact .of_finish (fun _ => rfl) fun s => (serialize_keepsInv a s).results _
  | hufDeserialize a => exact .of_finish (fun _ => rfl) fun s => (deserialize_keepsInv a s).results _
  | hufTrie a => exact .of_finish (fun _ => rfl) fun s => (hufTrie_keepsInv a s).results _
  | hufDecode a => exact .of_finish (fun _ => rfl) fun s => (runParse_keepsInv _ s).results _
  | hufEncode a =>
    exact .of_finish (fun _ => rfl) fun s => Res.Stays.require keepsInvFrame fun _ =>
      (encodeSymbol_keepsInv a s.a0 s).results _
  | clRead a =>
    exact .of_finish (fun _ => rfl) fun s => Res.Stays.require keepsInvFrame fun _ => keepsInvFrame.refl s
  | clWrite a =>
    exact .of_finish (fun _ => rfl) fun s => Res.Stays.require keepsInvFrame fun h =>
      setCl_keepsInv a s.a0 (of_decide_eq_true (Bool.and_eq_true_iff.1 h).2) s
  | winReset => exact .of_ok (fun _ => rfl) resetWindow_keepsInv
  | winPut =>
    exact .of_finish (fun _ => rfl) fun s => Res.Stays.require keepsInvFrame fun _ => (winPut_keepsInv _ s).results _
  | winCopy => exact .of_finish (fun _ => rfl) fun s => (winCopy_keepsInv s.a0 s.a1 s).results _
  | winRead =>
    exact .of_finish (fun _ => rfl) fun s => Res.Stays.require keepsInvFrame fun _ =>
      ((windowRead_stays s.a0 s).of_eq keepsInvFrame).results _
  | cleShort l => exact .of_entry (fun _ => true) (.short l) fun _ => rfl
  | cleExt1 x => exact .of_entry (fun _ => true) (.ext1 x) fun _ => rfl
  | cleExt2 y => exact .of_entry (fun _ => true) (.ext2 y) fun _ => rfl
  | cleZrunLl c => exact .of_entry (· == .ll) (.zrun c.toNat) fun _ => rfl
  | cleZrunD c => exact .of_entry (· == .ds) (.zrun c.toNat) fun _ => rfl
  | lit b => exact .of_event (.lit b) fun _ => rfl
  | eos => exact .of_event .eos fun _ => rfl
  | match3 d => exact .of_event (.match3 d) fun _ => rfl
  | matchSlot k e j x => exact .of_event (.matchSlot k e j x) fun _ => rfl

/-! ## The engine's turn and the host (20_memory.md) -/

/-- CTRL, STATUS, CMD, the operands and results, the reset input and the host are no part of the invariant. -/
theorem inv_hostSide {s : State} (h : Inv s) (c : Ctl) (r : Bool) (hs : HostSide) :
    Inv { s with ctl := c, rstAsserted := r, host := hs } := { h with }

/-- R240: no symbol has a code after reset. -/
theorem lengthsOk_resetWith (p : Params) (h : HostSide) (a : Alphabet) : LengthsOk a (State.resetWith p h) := by
  have hcl : ((State.resetWith p h).tab a).cl = Vector.replicate a.size 0 := by cases a <;> rfl
  intro l hl
  rw [codeLens, hcl] at hl
  obtain ⟨x, hx, rfl⟩ := List.mem_map.1 hl
  obtain rfl := List.eq_of_mem_replicate (Vector.toList_replicate ▸ hx)
  exact Nat.zero_le _

/-- R240, R241: the reset state, whatever the parameters in range. -/
theorem resetWith_inv {p : Params} (hp : p.ok) (h : HostSide) : Inv (State.resetWith p h) where
  params := hp
  ibuf := rfl
  obuf := rfl
  winBytes := rfl
  links := ⟨rfl, rfl, rfl⟩
  writer := ⟨Nat.zero_le _, Nat.two_pow_pos 0⟩
  window := windowOk_empty rfl
  lengths := lengthsOk_resetWith p h
  best := ⟨Nat.zero_le _, Nat.zero_le _⟩
  idle := rfl

theorem blockReset_inv {s : State} (h : Inv s) : Inv s.blockReset := resetWith_inv h.params s.host

theorem execute_inv {s t : State} (hs : Inv s) (h : execute s = .next t) : Inv t := by
  unfold execute at h
  split at h
  · exact exec_keepsInv _ s t hs h
  · cases h; exact fail_inv hs.mid _
  · cases h; exact fail_inv hs.mid _

/-- Between steps the engine stands inside no stream, so its turn is Execute or nothing. -/
theorem engineTurn_inv {s t : State} (hs : Inv s) (h : engineTurn s = .next t) : Inv t := by
  unfold engineTurn at h
  split at h
  · cases h; exact hs
  · simp only [hs.pos_idle] at h
    exact execute_inv hs h

theorem readBuffer_inv {m : Memory} {i : Nat} {w : Width} {f : Fault} {s t : State} (hs : Inv s)
    (h : readBuffer m i w f s = .next t) : Inv t := by
  unfold readBuffer at h
  split at h
  · cases h; exact inv_hostSide hs _ _ _
  · cases h

theorem hostRead_inv {addr : Nat} {w : Width} {s t : State} (hs : Inv s) (h : hostRead addr w s = .next t) : Inv t := by
  unfold hostRead at h
  split at h
  · cases h
  · split at h
    · cases h; exact inv_hostSide hs _ _ _
    · split at h
      · cases h; exact inv_hostSide hs _ _ _
      · exact readBuffer_inv hs h
      · exact readBuffer_inv hs h

/-- R246: a write takes effect or is lost. -/
theorem whenIdle_inv {s t : State} (hs : Inv s) (ht : Inv t) : Inv (whenIdle s t) := by
  unfold whenIdle
  split
  · exact inv_hostSide hs _ _ _
  · exact ht

theorem writeCtrl_inv (v : Word) {s : State} (hs : Inv s) : Inv (writeCtrl v s) := by
  unfold writeCtrl
  split
  · exact blockReset_inv hs
  · exact inv_hostSide hs _ _ _

theorem writeIgnored_inv (off : Nat) {s : State} (hs : Inv s) : Inv (writeIgnored off s) := by
  unfold writeIgnored
  split
  · exact whenIdle_inv hs hs
  · exact hs

theorem writeReg_inv (off : Nat) (v : Word) {s : State} (hs : Inv s) : Inv (writeReg off v s) := by
  unfold writeReg
  split
  · exact writeCtrl_inv v hs
  · exact inv_hostSide hs _ _ _
  · exact whenIdle_inv hs { hs with idle := rfl }
  · exact whenIdle_inv hs (inv_hostSide hs _ _ _)
  · exact whenIdle_inv hs (inv_hostSide hs _ _ _)
  · exact whenIdle_inv hs (inv_hostSide hs _ _ _)
  · exact whenIdle_inv hs (inv_hostSide hs _ _ _)
  · exact writeIgnored_inv off hs

theorem hostWrite_inv {addr : Nat} {w : Width} {v : Word} {s t : State} (hs : Inv s)
    (h : hostWrite addr w v s = .next t) : Inv t := by
  unfold hostWrite at h
  split at h
  · cases h
  · cases h; exact writeReg_inv _ v hs
  · cases h; exact whenIdle_inv hs { hs with ibuf := wf_writeBytes _ _ _ hs.ibuf }
  · cases h; exact whenIdle_inv hs { hs with obuf := wf_writeBytes _ _ _ hs.obuf }

theorem hostAct_inv {a : HostAct} {s t : State} (hs : Inv s) (h : hostAct a s = .next t) : Inv t := by
  cases a with
  | read addr w =>
    simp only [hostAct] at h
    split at h
    · cases h
    · exact hostRead_inv hs h
  | write addr w v =>
    simp only [hostAct] at h
    split at h
    · cases h
    · exact hostWrite_inv hs h
  | wait => cases h; exact hs
  | assertReset => cases h; exact inv_hostSide (blockReset_inv hs) _ _ _
  | releaseReset =>
    cases h
    split
    · exact blockReset_inv hs
    · exact hs

theorem popAct_inv {s : State} (hs : Inv s) (rest : List HostAct) : Inv (s.popAct rest) := inv_hostSide hs _ _ _

/-- R13, R54: the next act of the script, or the engine. -/
theorem step_inv {s t : State} (hs : Inv s) (h : step s = .next t) : Inv t := by
  unfold step at h
  split at h
  · exact engineTurn_inv hs h
  · exact engineTurn_inv (popAct_inv hs _) h
  · exact hostAct_inv (popAct_inv hs _) h
  · exact hostAct_inv (popAct_inv hs _) h
  · exact hostAct_inv (popAct_inv hs _) h
  · exact hostAct_inv (popAct_inv hs _) h

/-! ## At reset -/

/-- The empty tree: no slot has a link. -/
theorem treeInv_finderReset : TreeInv Finder.reset where
  links := ⟨rfl, rfl, rfl⟩
  root := ⟨rfl, rfl⟩
  parent := fun i hi => absurd rfl (inTree_iff.1 hi)
  child := fun i side hne => absurd (by cases side <;> rfl) hne
  outside := fun _ _ _ => ⟨rfl, rfl⟩
  reach := fun i hi => absurd rfl (inTree_iff.1 hi)

/-- Settles O12: every primitive keeps the invariant in the middle of a command, a command's end restores it whole, and a
host's act writes buffers in their one form or resets the block. -/
theorem invariantKept : Obligations.InvariantKept := fun _ _ => step_inv

/-- Settles O9: the reset state of the parameters of Config, and the empty tree. -/
theorem invariantAtReset : Obligations.InvariantAtReset :=
  ⟨resetWith_inv configParams_ok _, treeInv_finderReset⟩

end Sys2Proof.Machine
end

section
/-! # Every instruction and the host's side (10_state.md, 60_exceptions.md)

A command is a sequence of primitives and then its end. No primitive touches a parameter, a register of the host's, IBUF
or the host itself, and the two ends write only STATUS, RES0 to RES2 and the hidden state (R215, R216). -/

namespace Sys2Proof.Machine

variable {α : Type}

/-! ## Frames of the two pipelines (44_pipelines.md) -/

/-- A preorder that holds of every change a part of COMPRESS makes (R190). -/
structure CompressFrame (R : State → State → Prop) : Prop extends IsFrame R where
  finder : ∀ {s t : State}, OnlyFinder s t → R s t
  prog : ∀ (p : Progress) (s : State), R s { s with prog := p }
  writer : ∀ {s t : State}, OnlyWriter s t → R s t
  freq : ∀ {a : Alphabet} {s t : State}, OnlyFreq a s t → R s t
  cl : ∀ {a : Alphabet} {s t : State}, OnlyCl a s t → R s t
  code : ∀ {a : Alphabet} {s t : State}, OnlyCode a s t → R s t

/-- A preorder that holds of every change a part of EXPAND makes (R199). -/
structure ExpandFrame (R : State → State → Prop) : Prop extends IsFrame R where
  reader : ∀ {s t : State}, OnlyReader s t → R s t
  writer : ∀ {s t : State}, OnlyWriter s t → R s t
  window : ∀ {s t : State}, OnlyWindow s t → R s t
  readerCl : ∀ {a : Alphabet} {s t : State}, OnlyReaderCl a s t → R s t
  codeTrie : ∀ {a : Alphabet} {s t : State}, OnlyCodeTrie a s t → R s t

/-- A step for each event keeps what every one of them keeps. -/
theorem forEvents_stays {R : State → State → Prop} (hR : IsFrame R) {f : Event → State → Res Unit}
    (hf : ∀ e s, (f e s).Stays R s) (es : List Event) (s : State) : (forEvents f es s).Stays R s := by
  induction es generalizing s with
  | nil => exact hR.refl s
  | cons e es ih => exact (hf e s).bind hR fun _ t _ => ih t

namespace CompressFrame

variable {R : State → State → Prop} (hR : CompressFrame R)
include hR

theorem walk (p : Nat) (mutate : Bool) (s : State) : (walk p mutate s).Stays R s :=
  (walk_stays p mutate s).mono fun _ => hR.finder

theorem slideTo (p : Nat) (s : State) : (slideTo p s).Stays R s := by
  unfold Machine.slideTo
  split
  · refine Res.Stays.bind hR.toIsFrame ?_ fun _ t _ =>
      (hR.walk p true t).bind hR.toIsFrame fun _ u _ => hR.prog _ u
    split
    · exact (deleteAt_stays _ s).mono fun _ => hR.finder
    · exact hR.refl s
  · exact hR.refl s

theorem slide (k p : Nat) (s : State) : (slide k p s).Stays R s := by
  induction k generalizing p s with
  | zero => exact hR.refl s
  | succ k ih => exact (hR.slideTo p s).bind hR.toIsFrame fun _ t _ => ih (p + 1) t

theorem lookAhead (cur : Nat) (s : State) : (lookAhead cur s).Stays R s := by
  unfold Machine.lookAhead
  split
  · exact (hR.walk _ false s).bind hR.toIsFrame fun _ t _ => hR.refl t
  · exact hR.refl s

theorem chooseEvent (cur look : Nat) (s : State) : (chooseEvent cur look s).Stays R s := by
  unfold Machine.chooseEvent
  split
  · exact hR.prog _ s
  · exact ((inByte_stays cur s).of_eq hR.toIsFrame).bind hR.toIsFrame fun _ t _ => hR.prog _ t

theorem eventLoop (n cur : Nat) (s : State) : (eventLoop n cur s).Stays R s := by
  induction n generalizing cur s with
  | zero => exact hR.refl s
  | succ n ih =>
    unfold Machine.eventLoop
    split
    · exact hR.refl s
    · exact (hR.lookAhead cur s).bind hR.toIsFrame fun look t _ =>
        (hR.chooseEvent cur look t).bind hR.toIsFrame fun k u _ =>
          (hR.slide k (cur + 1) u).bind hR.toIsFrame fun _ v _ => ih (cur + k) v

theorem generateEvents (s : State) : (generateEvents s).Stays R s := by
  have hinit : R s (initFinder { s with prog := { s.prog with evq := [] } }) := hR.trans (hR.prog _ s) (hR.finder rfl)
  refine Res.Stays.after hR.toIsFrame hinit ?_
  unfold Machine.generateEvents
  dsimp only
  split
  · exact hR.refl _
  · exact (hR.walk 0 true _).bind hR.toIsFrame fun _ t _ => (hR.eventLoop _ 0 _).after hR.toIsFrame (hR.prog _ t)

theorem tally (e : Event) (s : State) : (tally e s).Stays R s := by
  cases e with
  | lit b => exact hR.freq (bumpFreq_only .ll _ s)
  | copy l d =>
    simp only [Machine.tally]
    split
    · exact hR.refl s
    · rename_i k _
      refine Res.Stays.after hR.toIsFrame (hR.freq (bumpFreq_only .ll (lenSymbol0 + k) s)) ?_
      split
      · exact hR.refl _
      · split
        · exact hR.refl _
        · exact hR.freq (bumpFreq_only .ds _ _)

theorem pass1 (s : State) : (compressPass1 s).Stays R s := by
  have hclear : R s (clearFreq .ds (clearFreq .ll (resetWriter s))) :=
    hR.trans (hR.writer rfl) (hR.trans (hR.freq (clearFreq_only .ll _)) (hR.freq (clearFreq_only .ds _)))
  exact ((hR.generateEvents _).after hR.toIsFrame hclear).bind hR.toIsFrame fun _ t _ =>
    (forEvents_stays hR.toIsFrame hR.tally _ t).bind hR.toIsFrame fun _ u _ => hR.freq (bumpFreq_only .ll _ u)

theorem tables (s : State) : (compressTables s).Stays R s := by
  have hbuild : ∀ a s, (hufBuild a s).Stays R s := fun a s => (hufBuild_stays a s).mono fun _ => hR.cl
  have hcanon : ∀ a s, (hufCanon a s).Stays R s := fun a s => (hufCanon_stays a s).mono fun _ => hR.code
  have hser : ∀ a s, (serialize a s).Stays R s := fun a s => (serialize_stays a s).mono fun _ => hR.writer
  exact (hbuild .ll s).bind hR.toIsFrame fun _ t _ => (hbuild .ds t).bind hR.toIsFrame fun _ u _ =>
    (hcanon .ll u).bind hR.toIsFrame fun _ v _ => (hcanon .ds v).bind hR.toIsFrame fun _ w _ =>
      (hser .ll w).bind hR.toIsFrame fun _ x _ => hser .ds x

theorem pass2 (s : State) : (compressPass2 s).Stays R s :=
  (forEvents_stays hR.toIsFrame (fun e s => (emit_stays e s).mono fun _ => hR.writer) _ s).bind hR.toIsFrame fun _ t _ =>
    ((encodeSymbol_stays .ll _ t).mono fun _ => hR.writer).bind hR.toIsFrame fun _ u _ =>
      ((writeEof_stays u).mono fun _ => hR.writer).bind hR.toIsFrame fun _ v _ => hR.refl v

/-- R190: COMPRESS keeps what each of its parts keeps. -/
theorem compress (s : State) : (compress s).Stays R s :=
  Res.Stays.require hR.toIsFrame fun _ => (hR.pass1 s).bind hR.toIsFrame fun _ t _ =>
    (hR.tables t).bind hR.toIsFrame fun _ u _ => hR.pass2 u

end CompressFrame

namespace ExpandFrame

variable {R : State → State → Prop} (hR : ExpandFrame R)
include hR

theorem deserialize (a : Alphabet) (s : State) : (deserialize a s).Stays R s :=
  (deserialize_stays a s).mono fun _ => hR.readerCl

theorem tries (s : State) : (expandTries s).Stays R s := by
  have htrie : ∀ a s, (hufTrie a s).Stays R s := fun a s => (hufTrie_stays a s).mono fun _ => hR.codeTrie
  exact (htrie .ll s).bind hR.toIsFrame fun _ t _ => htrie .ds t

theorem loop (n nl nm : Nat) (s : State) : (expandLoop n nl nm s).Stays R s := by
  induction n generalizing nl nm s with
  | zero => exact hR.refl s
  | succ n ih =>
    refine ((runParse_stays _ s).mono fun _ => hR.reader).bind hR.toIsFrame fun e t _ =>
      ((applyEvent_stays e nl nm t).mono fun _ => hR.window).bind hR.toIsFrame fun r u _ => ?_
    cases r with
    | none => exact hR.refl u
    | some c => exact ih c.1 c.2 u

/-- R199: EXPAND keeps what each of its parts keeps. -/
theorem expand (s : State) : (expand s).Stays R s := by
  have hreset : R s (expandReset s) := hR.trans (hR.reader rfl) (hR.trans (hR.writer rfl) (hR.window rfl))
  exact Res.Stays.require hR.toIsFrame fun _ =>
    ((hR.deserialize .ll _).after hR.toIsFrame hreset).bind hR.toIsFrame fun _ t _ =>
      (hR.deserialize .ds t).bind hR.toIsFrame fun _ u _ =>
        (hR.tries u).bind hR.toIsFrame fun _ v _ => hR.loop _ 0 0 v

end ExpandFrame

/-! ## What no primitive touches -/

/-- The parameters, every register of R16 to R21, IBUF, the reset input and the host's side are as before. -/
structure KeepsControl (s t : State) : Prop where
  params : t.params = s.params
  ctl : t.ctl = s.ctl
  ibuf : t.ibuf = s.ibuf
  rstAsserted : t.rstAsserted = s.rstAsserted
  host : t.host = s.host

namespace KeepsControl

theorem frame : IsFrame KeepsControl where
  refl _ := ⟨rfl, rfl, rfl, rfl, rfl⟩
  trans h1 h2 := ⟨h2.params.trans h1.params, h2.ctl.trans h1.ctl, h2.ibuf.trans h1.ibuf,
    h2.rstAsserted.trans h1.rstAsserted, h2.host.trans h1.host⟩

variable {a : Alphabet} {s t : State}

theorem of_setTab (T : Tables a.size) (s : State) : KeepsControl s (s.setTab a T) := by
  constructor <;> simp

theorem of_reader (h : OnlyReader s t) : KeepsControl s t := by rw [h]; exact ⟨rfl, rfl, rfl, rfl, rfl⟩

theorem of_writer (h : OnlyWriter s t) : KeepsControl s t := by rw [h]; exact ⟨rfl, rfl, rfl, rfl, rfl⟩

theorem of_window (h : OnlyWindow s t) : KeepsControl s t := by rw [h]; exact ⟨rfl, rfl, rfl, rfl, rfl⟩

theorem of_finder (h : OnlyFinder s t) : KeepsControl s t := by rw [h]; exact ⟨rfl, rfl, rfl, rfl, rfl⟩

theorem of_prog (p : Progress) (s : State) : KeepsControl s { s with prog := p } := ⟨rfl, rfl, rfl, rfl, rfl⟩

theorem of_freq (h : OnlyFreq a s t) : KeepsControl s t := by rw [h]; exact of_setTab _ s

theorem of_cl (h : OnlyCl a s t) : KeepsControl s t := by rw [h]; exact of_setTab _ s

theorem of_code (h : OnlyCode a s t) : KeepsControl s t := by rw [h]; exact of_setTab _ s

theorem of_codeTrie (h : OnlyCodeTrie a s t) : KeepsControl s t := by rw [h]; exact of_setTab _ s

theorem of_readerCl (h : OnlyReaderCl a s t) : KeepsControl s t := by
  rw [h]; exact frame.trans (of_setTab _ s) (of_reader rfl)

theorem compressFrame : CompressFrame KeepsControl :=
  { frame with finder := of_finder, prog := of_prog, writer := of_writer, freq := of_freq, cl := of_cl, code := of_code }

theorem expandFrame : ExpandFrame KeepsControl :=
  { frame with
    reader := of_reader, writer := of_writer, window := of_window, readerCl := of_readerCl, codeTrie := of_codeTrie }

theorem hostSide (h : KeepsControl s t) : KeepsHostSide s t := by
  obtain ⟨hparams, hctl, hibuf, hrst, hhost⟩ := h
  simp [KeepsHostSide, hparams, hctl, hibuf, hrst, hhost]

/-- R215: a completion writes nothing of the host's side. -/
theorem complete (h : KeepsControl s t) (r0 r1 r2 : Word) : KeepsHostSide s (t.complete r0 r1 r2) := h.hostSide

/-- R216: nor does taking an error. -/
theorem fail (h : KeepsControl s t) (e : Err) : KeepsHostSide s (t.fail e) := h.hostSide

/-- R27, R36: nor does moving on in a stream. -/
theorem setPos (h : KeepsControl s t) (p : StreamPos) : KeepsHostSide s (t.setPos p) := h.hostSide

end KeepsControl

/-! ## The shape of every instruction -/

/-- What an instruction is: a command, primitives that keep the host's side and then a command's end; or an element of a
stream (R60, R69). -/
inductive ExecShape (i : Instr) : Prop
  | command (r : State → Res Results) (hi : ∀ s, exec i s = finish (r s)) (hr : ∀ s, (r s).Stays KeepsControl s)
  | entry (fits : Alphabet → Bool) (e : TableEntry) (hn : ¬ IsCommand i) (hi : ∀ s, exec i s = entryStep fits e s)
  | event (e : StreamEvent) (hn : ¬ IsCommand i) (hi : ∀ s, exec i s = eventStep e s)

theorem not_isCommand_of_stream {i : Instr} {fs : List Field} (h : encode i = .stream fs) : ¬ IsCommand i := by
  rintro ⟨w, hw⟩
  rw [h] at hw
  cases hw

/-- A command that only gives results. -/
theorem ExecShape.of_ok {i : Instr} (r : State → Results) (f : State → State) (hi : ∀ s, exec i s = finish (.ok (r s) (f s)))
    (hf : ∀ s, KeepsControl s (f s)) : ExecShape i := .command _ hi hf

/-- A primitive whose value only gives the results. -/
theorem Res.Stays.andResults {R : State → State → Prop} (hR : IsFrame R) {s : State} {r : Res α} (h : r.Stays R s)
    (k : α → State → Results) : (r.bind fun a t => .ok (k a t) t).Stays R s := h.bind hR fun _ t _ => hR.refl t

/-- A command that is one primitive, whose value gives the results. -/
theorem ExecShape.of_primitive {i : Instr} (r : State → Res α) (k : State → α → State → Results)
    (hi : ∀ s, exec i s = finish ((r s).bind fun a t => .ok (k s a t) t)) (hr : ∀ s, (r s).Stays KeepsControl s) :
    ExecShape i := .command _ hi fun s => (hr s).andResults KeepsControl.frame _

/-- A command that checks its operands first (R64). -/
theorem ExecShape.of_checked {i : Instr} (c : State → Bool) (r : State → Unit → Res Results)
    (hi : ∀ s, exec i s = finish (require (c s) operandRange s (r s))) (hr : ∀ s, (r s ()).Stays KeepsControl s) :
    ExecShape i := .command _ hi fun s => Res.Stays.require KeepsControl.frame fun _ => hr s

theorem slotResults_stays (rows : List SlotRow) (v : Nat) (e : Err) (s : State) : (slotResults rows v e s).Stays Eq s := by
  unfold slotResults
  split
  · split
    · exact rfl
    · exact rfl
  · exact rfl

theorem rangeResults_stays (row : Option SlotRow) (s : State) : (rangeResults row s).Stays Eq s := by
  cases row
  · exact rfl
  · exact rfl

theorem execShape (i : Instr) : ExecShape i := by
  have hframe := KeepsControl.frame
  cases i with
  | compress => exact .command _ (fun _ => rfl) KeepsControl.compressFrame.compress
  | expand => exact .command _ (fun _ => rfl) KeepsControl.expandFrame.expand
  | bwReset => exact .of_ok _ _ (fun _ => rfl) fun _ => .of_writer rfl
  | bwWriteBits => exact .of_primitive _ _ (fun _ => rfl) fun s => (writeBits_stays _ _ s).mono fun _ => .of_writer
  | bwWriteByte => exact .of_primitive _ _ (fun _ => rfl) fun s => (writeByte_stays _ s).mono fun _ => .of_writer
  | bwWriteEof => exact .of_primitive _ _ (fun _ => rfl) fun s => (writeEof_stays s).mono fun _ => .of_writer
  | brReset => exact .of_ok _ _ (fun _ => rfl) fun _ => .of_reader rfl
  | brReadBits => exact .of_primitive _ _ (fun _ => rfl) fun s => (readBits_stays _ s).mono fun _ => .of_reader
  | brReadByte => exact .of_primitive _ _ (fun _ => rfl) fun s => (readByte_stays s).mono fun _ => .of_reader
  | lenSlot => exact .of_checked _ _ (fun _ => rfl) fun s => (slotResults_stays _ _ _ s).of_eq hframe
  | distSlot => exact .of_checked _ _ (fun _ => rfl) fun s => (slotResults_stays _ _ _ s).of_eq hframe
  | lenRange => exact .of_checked _ _ (fun _ => rfl) fun s => (rangeResults_stays _ s).of_eq hframe
  | distRange => exact .of_checked _ _ (fun _ => rfl) fun s => (rangeResults_stays _ s).of_eq hframe
  | mfInit => exact .of_ok _ _ (fun _ => rfl) fun _ => .of_finder rfl
  | mfInsert => exact .of_primitive _ _ (fun _ => rfl) fun s => (walk_stays _ true s).mono fun _ => .of_finder
  | mfProbe => exact .of_primitive _ _ (fun _ => rfl) fun s => (walk_stays _ false s).mono fun _ => .of_finder
  | mfDelete => exact .of_primitive _ _ (fun _ => rfl) fun s => (deleteAt_stays _ s).mono fun _ => .of_finder
  | mfLongest => exact .of_ok _ _ (fun _ => rfl) hframe.refl
  | treeRead => exact .of_checked _ _ (fun _ => rfl) hframe.refl
  | freqClear a => exact .of_ok _ _ (fun _ => rfl) fun s => .of_freq (clearFreq_only a s)
  | freqInc a =>
    exact .of_checked _ _ (fun _ => rfl) fun s => Res.Stays.require hframe fun _ => .of_freq (bumpFreq_only a _ s)
  | freqRead a => exact .of_checked _ _ (fun _ => rfl) hframe.refl
  | hufBuild a => exact .of_primitive _ _ (fun _ => rfl) fun s => (hufBuild_stays a s).mono fun _ => .of_cl
  | hufCanon a => exact .of_primitive _ _ (fun _ => rfl) fun s => (hufCanon_stays a s).mono fun _ => .of_code
  | hufSerialize a => exact .of_primitive _ _ (fun _ => rfl) fun s => (serialize_stays a s).mono fun _ => .of_writer
  | hufDeserialize a =>
    exact .of_primitive _ _ (fun _ => rfl) fun s => (deserialize_stays a s).mono fun _ => .of_readerCl
  | hufTrie a => exact .of_primitive _ _ (fun _ => rfl) fun s => (hufTrie_stays a s).mono fun _ => .of_codeTrie
  | hufDecode a => exact .of_primitive _ _ (fun _ => rfl) fun s => (decodeSymbol_stays a s).mono fun _ => .of_reader
  | hufEncode a =>
    exact .of_checked _ _ (fun _ => rfl) fun s =>
      ((encodeSymbol_stays a _ s).mono fun _ => .of_writer).andResults hframe _
  | clRead a => exact .of_checked _ _ (fun _ => rfl) hframe.refl
  | clWrite a => exact .of_checked _ _ (fun _ => rfl) fun s => .of_cl (setCl_only a _ _ s)
  | winReset => exact .of_ok _ _ (fun _ => rfl) fun _ => .of_window rfl
  | winPut =>
    exact .of_checked _ _ (fun _ => rfl) fun s => ((winPut_stays _ s).mono fun _ => .of_window).andResults hframe _
  | winCopy => exact .of_primitive _ _ (fun _ => rfl) fun s => (winCopy_stays _ _ s).mono fun _ => .of_window
  | winRead =>
    exact .of_checked _ _ (fun _ => rfl) fun s => ((windowRead_stays _ s).of_eq hframe).andResults hframe _
  | cleShort l => exact .entry (fun _ => true) (.short l) (not_isCommand_of_stream rfl) fun _ => rfl
  | cleExt1 x => exact .entry (fun _ => true) (.ext1 x) (not_isCommand_of_stream rfl) fun _ => rfl
  | cleExt2 y => exact .entry (fun _ => true) (.ext2 y) (not_isCommand_of_stream rfl) fun _ => rfl
  | cleZrunLl c => exact .entry (fun a => a == .ll) (.zrun c.toNat) (not_isCommand_of_stream rfl) fun _ => rfl
  | cleZrunD c => exact .entry (fun a => a == .ds) (.zrun c.toNat) (not_isCommand_of_stream rfl) fun _ => rfl
  | lit b => exact .event (.lit b) (not_isCommand_of_stream rfl) fun _ => rfl
  | eos => exact .event .eos (not_isCommand_of_stream rfl) fun _ => rfl
  | match3 d => exact .event (.match3 d) (not_isCommand_of_stream rfl) fun _ => rfl
  | matchSlot k e j x => exact .event (.matchSlot k e j x) (not_isCommand_of_stream rfl) fun _ => rfl

/-! ## The ends of instructions -/

theorem finish_keepsHostSide {s t : State} {r : Res Results} (hr : r.Stays KeepsControl s) (h : finish r = .next t) :
    KeepsHostSide s t := by
  rcases finish_eq_next.1 h with ⟨x, u, hu, rfl⟩ | ⟨e, u, hu, rfl⟩
  · exact (hr.ok hu).complete _ _ _
  · exact (hr.err hu).fail e

/-- R144, R216: a table entry moves the place in the table on, or ends the command. -/
theorem entryStep_keepsHostSide {fits : Alphabet → Bool} {e : TableEntry} {s t : State}
    (h : entryStep fits e s = .next t) : KeepsHostSide s t := by
  unfold entryStep at h
  split at h
  · rename_i a i b0 _
    have hstays : (applyEntry a i e s).Stays KeepsControl s := (applyEntry_stays a i e s).mono fun _ => .of_cl
    split at h
    · split at h
      · rename_i hr; cases h; exact (hstays.ok hr).setPos _
      · rename_i hr; cases h; exact (hstays.err hr).fail _
      · cases h
    · cases h
  · cases h
  · cases h

/-- R199, R216: an event moves the place in the stream on, or ends the command. -/
theorem eventStep_keepsHostSide {e : StreamEvent} {s t : State} (h : eventStep e s = .next t) : KeepsHostSide s t := by
  unfold eventStep at h
  split at h
  · rename_i nl nm _
    have hstays : (applyEvent e nl nm s).Stays KeepsControl s := (applyEvent_stays e nl nm s).mono fun _ => .of_window
    split at h
    · rename_i hr; cases h; exact (hstays.ok hr).complete _ _ _
    · rename_i hr; cases h; exact (hstays.ok hr).setPos _
    · rename_i hr; cases h; exact (hstays.err hr).fail _
    · cases h
  · cases h
  · cases h

/-- Settles O21: no primitive touches the host's side, and neither does a command's end or a move in a stream. -/
theorem instructionsKeepHostSide : Obligations.InstructionsKeepHostSide := by
  intro i s t h
  cases execShape i with
  | command r hi hr => exact finish_keepsHostSide (hr s) (hi s ▸ h)
  | entry fits e _ hi => exact entryStep_keepsHostSide (hi s ▸ h)
  | event e _ hi => exact eventStep_keepsHostSide (hi s ▸ h)

/-- R60: a command's meaning is primitives that keep the host's side and then a command's end. -/
theorem exec_isCommand {i : Instr} (h : IsCommand i) (s : State) :
    ∃ r, exec i s = finish r ∧ r.Stays KeepsControl s := by
  cases execShape i with
  | command r hi hr => exact ⟨r s, hi s, hr s⟩
  | entry fits e hn _ => exact absurd h hn
  | event e hn _ => exact absurd h hn

/-- R210: the CAUSE codes. -/
theorem Err.cause_range (e : Err) : 1 ≤ e.cause.toNat ∧ e.cause.toNat ≤ 6 := by cases e <;> simp [Err.cause]

/-- Settles O22: a command ends in a completion, or in taking an error with RES0 to RES2 as no primitive changes them. -/
theorem commandsEndDone : Obligations.CommandsEndDone := by
  intro i s hi
  obtain ⟨r, hexec, hstays⟩ := exec_isCommand hi s
  rw [hexec]
  refine ⟨finish_ne_refused r, fun t ht => ?_⟩
  rcases finish_eq_next.1 ht with ⟨x, u, -, rfl⟩ | ⟨e, u, hu, rfl⟩
  · exact ⟨rfl, rfl, rfl, .inl ⟨rfl, rfl⟩⟩
  · have hctl := (hstays.err hu).ctl
    obtain ⟨hlow, hhigh⟩ := e.cause_range
    exact ⟨rfl, rfl, rfl, .inr ⟨hlow, hhigh, by simp [hctl], by simp [hctl], by simp [hctl]⟩⟩

end Sys2Proof.Machine
end

section
/-! # The STATUS word (10_state.md R17, 60_exceptions.md R210 to R216) -/

namespace Sys2Proof.Machine

/-! ## Its bits -/

theorem flagBit_getLsbD (b : Bool) {i : Nat} (hi : i < 32) (k : Nat) :
    (flagBit b i).getLsbD k = (b && decide (k = i)) := by
  cases b with
  | false => simp [flagBit]
  | true =>
    have h : BitVec.ofNat 32 (2 ^ i) = BitVec.twoPow 32 i := BitVec.eq_of_toNat_eq (by simp [BitVec.toNat_twoPow])
    simp [flagBit, h, BitVec.getLsbD_twoPow, hi, eq_comm]

/-- A byte at bit `n` of a register. -/
theorem byteField_getLsbD (b : Byte) {n : Nat} (hn : n ≤ 24) (k : Nat) :
    (b.setWidth 32 <<< n).getLsbD k = (decide (n ≤ k) && b.getLsbD (k - n)) := by
  rw [BitVec.getLsbD_shiftLeft, BitVec.getLsbD_setWidth]
  by_cases hk : k < 32
  · rw [decide_eq_true hk, decide_eq_true (show k - n < 32 by omega), ← decide_not, Bool.true_and, Bool.true_and]
    simp only [Nat.not_lt]
  · rw [BitVec.getLsbD_of_ge b (k - n) (by omega)]
    simp

theorem State.statusWord_getLsbD (s : State) (k : Nat) : s.statusWord.getLsbD k =
    (s.ctl.busy && decide (k = 0) || s.ctl.done && decide (k = 1) || s.errFlag && decide (k = 2) ||
      s.ctl.wovr && decide (k = 3) || s.bwAligned && decide (k = 4) || s.brAligned && decide (k = 5) ||
      decide (8 ≤ k) && s.ctl.cause.getLsbD (k - 8) || decide (16 ≤ k) && s.ctl.detail.getLsbD (k - 16)) := by
  simp only [State.statusWord, BitVec.getLsbD_or, flagBit_getLsbD, byteField_getLsbD, Nat.reduceLeDiff, Nat.reduceLT]

/-- Above its flags STATUS holds CAUSE and DETAIL. -/
theorem State.statusWord_getLsbD_of_le (s : State) {k : Nat} (hk : 8 ≤ k) : s.statusWord.getLsbD k =
    (s.ctl.cause.getLsbD (k - 8) || decide (16 ≤ k) && s.ctl.detail.getLsbD (k - 16)) := by
  have hflag : ∀ i, i < 8 → decide (k = i) = false := fun i hi => decide_eq_false (by omega)
  rw [s.statusWord_getLsbD]
  simp [hflag, hk]

theorem State.statusWord_getLsbD_cause (s : State) {k : Nat} (hk : k < 8) :
    s.statusWord.getLsbD (8 + k) = s.ctl.cause.getLsbD k := by
  rw [s.statusWord_getLsbD_of_le (by omega), decide_eq_false (by omega), Nat.add_sub_cancel_left]
  simp

theorem State.statusWord_getLsbD_detail (s : State) {k : Nat} (hk : k < 8) :
    s.statusWord.getLsbD (16 + k) = s.ctl.detail.getLsbD k := by
  rw [s.statusWord_getLsbD_of_le (by omega), BitVec.getLsbD_of_ge s.ctl.cause _ (by omega), decide_eq_true (by omega),
    Nat.add_sub_cancel_left]
  rfl

theorem State.statusWord_getLsbD_top (s : State) (k : Nat) : s.statusWord.getLsbD (24 + k) = false := by
  rw [s.statusWord_getLsbD_of_le (by omega), BitVec.getLsbD_of_ge s.ctl.cause _ (by omega),
    BitVec.getLsbD_of_ge s.ctl.detail _ (by omega)]
  simp

/-- R17: CAUSE stands in bits 15 to 8. -/
theorem State.statusWord_cause (s : State) : s.statusWord.toNat / 256 % 256 = s.ctl.cause.toNat := by
  have h : s.statusWord.extractLsb' 8 8 = s.ctl.cause := BitVec.eq_of_getLsbD_eq fun k hk => by
    rw [BitVec.getLsbD_extractLsb', s.statusWord_getLsbD_cause hk, decide_eq_true hk, Bool.true_and]
  rw [← h, BitVec.extractLsb'_toNat, Nat.shiftRight_eq_div_pow]

/-- R17: DETAIL stands in bits 23 to 16. -/
theorem State.statusWord_detail (s : State) : s.statusWord.toNat / 65536 % 256 = s.ctl.detail.toNat := by
  have h : s.statusWord.extractLsb' 16 8 = s.ctl.detail := BitVec.eq_of_getLsbD_eq fun k hk => by
    rw [BitVec.getLsbD_extractLsb', s.statusWord_getLsbD_detail hk, decide_eq_true hk, Bool.true_and]
  rw [← h, BitVec.extractLsb'_toNat, Nat.shiftRight_eq_div_pow]

theorem toNat_mod_eight (x : Word) :
    x.toNat % 8 = (x.getLsbD 0).toNat + 2 * (x.getLsbD 1).toNat + 4 * (x.getLsbD 2).toNat := by
  simp only [← BitVec.testBit_toNat, Nat.toNat_testBit]
  omega

/-! ## After an error -/

/-- R210: every error is in the tables. -/
theorem mem_printedErrors (e : Err) : e ∈ printedErrors.map Prod.fst := by
  cases e with
  | endOfInput => decide
  | align => decide
  | corrupt d => cases d <;> decide
  | internal d => cases d <;> decide
  | outputFull => decide
  | illegal d => cases d <;> decide

/-- R210 to R213: the codes of the tables are those of the errors. -/
theorem codes_of_printedError : ∀ x ∈ printedErrors, x.1.cause.toNat = x.2.1 ∧ x.1.detail.toNat = x.2.2 := by decide

/-- R216, R17: the STATUS flags after an error: ERR and DONE, not BUSY. -/
theorem State.fail_statusWord_flags (s : State) (e : Err) : (s.fail e).statusWord.toNat % 8 = 6 := by
  have herr : (s.fail e).errFlag = true := bne_iff_ne.2 e.cause_ne_zero
  rw [toNat_mod_eight]
  simp only [State.statusWord_getLsbD, State.fail_busy, State.fail_done, herr]
  simp

/-- Settles O19: the bits of STATUS one by one, and the codes of the tables in it after an error. -/
theorem statusFieldsAndErrors : Obligations.StatusFieldsAndErrors := by
  intro s
  have hbit := s.statusWord_getLsbD
  refine ⟨by rw [hbit]; simp, by rw [hbit]; simp, by rw [hbit]; simp [State.errFlag], by rw [hbit]; simp,
    by rw [hbit]; simp [State.bwAligned], by rw [hbit]; simp [State.brAligned], by rw [hbit]; simp, by rw [hbit]; simp,
    fun k hk => ⟨s.statusWord_getLsbD_cause hk, s.statusWord_getLsbD_detail hk, s.statusWord_getLsbD_top k⟩,
    fun e => List.mem_map.1 (mem_printedErrors e), fun x hx => ?_⟩
  obtain ⟨hcause, hdetail⟩ := codes_of_printedError x hx
  exact ⟨(s.fail x.1).statusWord_cause.trans hcause, (s.fail x.1).statusWord_detail.trans hdetail,
    s.fail_statusWord_flags x.1, rfl, rfl, rfl⟩

end Sys2Proof.Machine
end

section
/-! # The host bus and reset (10_state.md, 20_memory.md, 70_reset_and_hazards.md)

The script's next access reaches its target in one step; each register write takes effect, is lost, or does nothing. -/

namespace Sys2Proof.Machine

/-! ## Targets (R40) -/

/-- R46: the access has no target. -/
theorem targetOf_eq_none {p : Params} (hp : p.ok) {addr : Nat} {w : Width} (h : ¬ Admitted p addr w) :
    targetOf p addr w = none := by
  rw [← targetOf_isSome_iff hp] at h
  exact Option.not_isSome_iff_eq_none.1 h

theorem exists_targetOf {p : Params} (hp : p.ok) {addr : Nat} {w : Width} (h : Admitted p addr w) :
    ∃ t, targetOf p addr w = some t := Option.isSome_iff_exists.1 ((targetOf_isSome_iff hp addr w).2 h)

/-- R40: an access that reaches a register has its address in the register window. -/
theorem addr_of_targetOf_reg {p : Params} {addr off : Nat} {w : Width} (h : targetOf p addr w = some (.reg off)) :
    addr = p.base + off ∧ off < 0x10000 := by
  unfold targetOf at h
  split at h
  · unfold targetAt at h
    split at h
    · split at h
      · obtain rfl : addr - p.base = off := by simpa using h
        omega
      · cases h
    · split at h
      · cases h
      · split at h
        · split at h <;> cases h
        · split at h
          · split at h <;> cases h
          · cases h
  · cases h

/-! ## One access of the script -/

section
variable {s : State} {rest : List HostAct}

/-- R44: the script's next act is a read, and reset is released. -/
theorem step_read {addr : Nat} {w : Width} (hr : s.rstAsserted = false) (h : s.host.todo = .read addr w :: rest) :
    step s = hostRead addr w (s.popAct rest) := by
  simp [step, h, hostAct, hr]

/-- R44: the script's next act is a write, and reset is released. -/
theorem step_write {addr : Nat} {w : Width} {v : Word} (hr : s.rstAsserted = false)
    (h : s.host.todo = .write addr w v :: rest) : step s = hostWrite addr w v (s.popAct rest) := by
  simp [step, h, hostAct, hr]

theorem step_read_busError {addr : Nat} {w : Width} (hp : s.params.ok) (hr : s.rstAsserted = false)
    (h : s.host.todo = .read addr w :: rest) (ha : ¬ Admitted s.params addr w) : step s = .refused .busError := by
  simp [step_read hr h, hostRead, targetOf_eq_none hp ha]

theorem step_write_busError {addr : Nat} {w : Width} {v : Word} (hp : s.params.ok) (hr : s.rstAsserted = false)
    (h : s.host.todo = .write addr w v :: rest) (ha : ¬ Admitted s.params addr w) : step s = .refused .busError := by
  simp [step_write hr h, hostWrite, targetOf_eq_none hp ha]

/-! ## Reads -/

/-- The value of a register does not depend on the script. -/
theorem regValue_popAct (s : State) (rest : List HostAct) (off : Nat) : regValue (s.popAct rest) off = regValue s off := rfl

/-- R44, R246: a register read that is normal returns the register's value. -/
theorem step_readReg {off : Nat} (h1 : off < 0x10000) (h2 : off % 4 = 0) (hr : s.rstAsserted = false)
    (hn : s.ctl.busy = false ∨ readStaysNormal (.reg off) = true)
    (h : s.host.todo = .read (s.params.base + off) .w32 :: rest) :
    step s = .next { s with host := { s.host with todo := rest, rdata := regValue s off } } := by
  have hbusy : (s.ctl.busy && !readStaysNormal (.reg off)) = false := by
    rcases hn with hn | hn
    · simp [hn]
    · simp [hn]
  have htarget := targetOf_reg s.params h1 h2
  simp only [step_read hr h, hostRead, State.popAct_params, State.popAct_ctl, htarget, hbusy, regValue_popAct]
  rfl

/-- R246: a read that is not normal returns a free value. -/
theorem step_read_draws {addr : Nat} {w : Width} {t : Target} (hr : s.rstAsserted = false) (hb : s.ctl.busy = true)
    (ht : targetOf s.params addr w = some t) (hn : readStaysNormal t = false) (h : s.host.todo = .read addr w :: rest) :
    step s = .next (readDraws w (s.popAct rest)) := by
  simp [step_read hr h, hostRead, ht, hb, hn]

/-- R246: the reads that stay normal are those of ID, CTRL and STATUS. -/
theorem readStaysNormal_iff (t : Target) :
    readStaysNormal t = true ↔ ∃ off, t = .reg off ∧ (off = 0x000 ∨ off = 0x004 ∨ off = 0x008) := by
  cases t with
  | reg off => simp [readStaysNormal, or_assoc]
  | ibuf i => simp [readStaysNormal]
  | obuf i => simp [readStaysNormal]

/-! ## Writes -/

theorem whenIdle_busy (h : s.ctl.busy = true) (t : State) : whenIdle s t = lostWrite s := by rw [whenIdle, if_pos h]

theorem whenIdle_idle (h : s.ctl.busy = false) (t : State) : whenIdle s t = t := by simp [whenIdle, h]

/-- R44: a register write. -/
theorem step_writeReg {off : Nat} {v : Word} (h1 : off < 0x10000) (h2 : off % 4 = 0) (hr : s.rstAsserted = false)
    (h : s.host.todo = .write (s.params.base + off) .w32 v :: rest) : step s = .next (writeReg off v (s.popAct rest)) := by
  simp [step_write hr h, hostWrite, targetOf_reg s.params h1 h2]

/-- R14: every offset but those of the seven writable registers. -/
theorem writeReg_ignored {off : Nat} (h : off ∉ [0x004, 0x008, 0x00C, 0x010, 0x014, 0x018, 0x028]) (v : Word)
    (s : State) : writeReg off v s = writeIgnored off s := by
  unfold writeReg
  split
  case h_8 => rfl
  all_goals simp at h

/-- R16: a CTRL write that does not reset stores IE. -/
theorem writeReg_ctrl {v : Word} (h : v.getLsbD 1 = false) (s : State) :
    writeReg 0x004 v s = { s with ctl := { s.ctl with ie := v.getLsbD 0 } } := by
  exact if_neg (Bool.eq_false_iff.1 h)

/-- R16, R241: a CTRL write with SRST = 1 resets the block. -/
theorem writeReg_srst {v : Word} (h : v.getLsbD 1 = true) (s : State) : writeReg 0x004 v s = s.blockReset := if_pos h

/-- R246: CMD, the operands and IN_LEN are writable only while BUSY = 0. -/
theorem writeReg_lost {off : Nat} (h : off ∈ [0x00C, 0x010, 0x014, 0x018, 0x028]) (v : Word) (hb : s.ctl.busy = true) :
    writeReg off v s = lostWrite s := by
  simp only [List.mem_cons, List.not_mem_nil, or_false] at h
  rcases h with rfl | rfl | rfl | rfl | rfl <;> exact whenIdle_busy hb _

/-- R246, 93 I5: so is a read-only register, which no write changes. -/
theorem writeReg_readOnly {off : Nat} (h : off ∈ readOnlyOffsets) (v : Word) (hb : s.ctl.busy = true) :
    writeReg off v s = lostWrite s := by
  have hign : off ∉ [0x004, 0x008, 0x00C, 0x010, 0x014, 0x018, 0x028] := by
    revert off
    decide
  rw [writeReg_ignored hign, writeIgnored_readOnly hb h]

/-- R14: the reserved offsets. -/
theorem writeReg_reserved {off : Nat} (h : 0x054 ≤ off) (v : Word) (s : State) : writeReg off v s = s := by
  rw [writeReg_ignored (by simp; omega), writeIgnored_reserved (by simp [readOnlyOffsets]; omega)]

/-- R246: a buffer write while BUSY = 1 is lost. -/
theorem step_writeBuffer_lost {addr : Nat} {w : Width} {v : Word} {t : Target} (hr : s.rstAsserted = false)
    (hb : s.ctl.busy = true) (ht : targetOf s.params addr w = some t) (hn : s.params.base + 0x10000 ≤ addr)
    (h : s.host.todo = .write addr w v :: rest) : step s = .next (lostWrite (s.popAct rest)) := by
  have hidle := fun u => whenIdle_busy (s := s.popAct rest) hb u
  cases t with
  | reg off => obtain ⟨haddr, hoff⟩ := addr_of_targetOf_reg ht; omega
  | ibuf i => simp [step_write hr h, hostWrite, ht, hidle]
  | obuf i => simp [step_write hr h, hostWrite, ht, hidle]

end

/-! ## Register values (R14 to R26) -/

/-- R24: WACC in the low byte, WCNT above it. -/
theorem State.wstateWord_eq (s : State) : s.wstateWord = BitVec.ofNat 32 (s.wr.wacc.toNat + 256 * s.wr.wcnt.toNat) := by
  have hacc := s.wr.wacc.isLt
  have hcnt := s.wr.wcnt.isLt
  apply BitVec.eq_of_toNat_eq
  calc s.wstateWord.toNat = s.wr.wacc.toNat ||| s.wr.wcnt.toNat <<< 8 := by
        simp only [State.wstateWord, BitVec.toNat_or, BitVec.toNat_setWidth, BitVec.toNat_shiftLeft, Nat.shiftLeft_eq]
        congr 1 <;> omega
    _ = s.wr.wcnt.toNat <<< 8 + s.wr.wacc.toNat := by rw [Nat.or_comm, Nat.shiftLeft_add_eq_or_of_lt hacc]
    _ = _ := by simp only [BitVec.toNat_ofNat, Nat.shiftLeft_eq]; omega

/-- R16: CTRL holds IE alone. -/
theorem State.ctrlWord_eq (s : State) : s.ctrlWord = if s.ctl.ie then 1 else 0 := rfl

/-- R14: the printed registers are at aligned offsets of the register window and have the values printed. -/
theorem regValue_of_printed (s : State) :
    ∀ p ∈ printedRegisters s, p.1 < 0x10000 ∧ p.1 % 4 = 0 ∧ regValue s p.1 = p.2 := by
  simp [printedRegisters, regValue, idValue, State.ctrlWord_eq, State.wstateWord_eq]

/-- R14: reserved offsets read 0. -/
theorem regValue_reserved (s : State) {off : Nat} (h : 0x054 ≤ off) : regValue s off = 0 := by
  unfold regValue
  split
  case h_22 => rfl
  all_goals omega

/-! ## The obligations -/

/-- Settles O17: each access reaches its register, and while BUSY = 0 every write takes effect. -/
theorem registerAccesses : Obligations.RegisterAccesses := by
  intro s rest hr hb
  have hbusy : (s.popAct rest).ctl.busy = false := hb
  have hidle := whenIdle_idle hbusy
  refine ⟨fun p hp h => ?_, fun off h1 h2 h3 h => ?_, fun v hv h => ?_, fun v h => ?_, fun v h => ?_, fun v h => ?_,
    fun v h => ?_, fun v h => ?_, fun off v h1 h2 hoff h => ?_⟩
  · obtain ⟨h1, h2, hval⟩ := regValue_of_printed s p hp
    rw [step_readReg h1 h2 hr (.inl hb) h, hval]
  · rw [step_readReg h2 h3 hr (.inl hb) h, regValue_reserved s h1]
  · rw [step_writeReg (by decide) (by decide) hr h, writeReg_ctrl hv]; rfl
  · rw [step_writeReg (by decide) (by decide) hr h]; rfl
  · rw [step_writeReg (by decide) (by decide) hr h]; exact congrArg _ (hidle _)
  · rw [step_writeReg (by decide) (by decide) hr h]; exact congrArg _ (hidle _)
  · rw [step_writeReg (by decide) (by decide) hr h]; exact congrArg _ (hidle _)
  · rw [step_writeReg (by decide) (by decide) hr h]; exact congrArg _ (hidle _)
  · rw [step_writeReg h1 h2 hr h, writeReg_ignored hoff, writeIgnored_idle hbusy]; rfl

/-- Settles O15: a read is normal or a free value, a write takes effect, is lost or does nothing, by its register; an
access without a target is the bus error. -/
theorem accessesWhileBusy : Obligations.AccessesWhileBusy := by
  intro s rest hp hr hb
  have hbusy : (s.popAct rest).ctl.busy = true := hb
  refine ⟨fun off hoff h => ?_, fun addr w h ha hne => ?_, fun v h hv => ?_, fun v h hv => ?_, fun v h => ?_,
    fun off v hoff h => ?_, fun addr w v h ha hn => ?_, fun off v hoff h => ?_, fun off v h1 h2 h3 h => ?_,
    fun addr w h ha => step_read_busError hp hr h ha, fun addr w v h ha => step_write_busError hp hr h ha⟩
  · exact step_readReg (by omega) (by omega) hr (.inr ((readStaysNormal_iff _).2 ⟨off, rfl, hoff⟩)) h
  · obtain ⟨t, ht⟩ := exists_targetOf hp ha
    have hn : readStaysNormal t = false := by
      refine Bool.eq_false_iff.2 fun hnormal => ?_
      obtain ⟨off, rfl, hoff⟩ := (readStaysNormal_iff t).1 hnormal
      exact hne off hoff (addr_of_targetOf_reg ht).1
    exact ⟨_, _, step_read_draws hr hb ht hn h⟩
  · rw [step_writeReg (by decide) (by decide) hr h, writeReg_ctrl hv]; rfl
  · rw [step_writeReg (by decide) (by decide) hr h, writeReg_srst hv]; rfl
  · rw [step_writeReg (by decide) (by decide) hr h]; rfl
  · have haligned : ∀ off ∈ [0x00C, 0x010, 0x014, 0x018, 0x028], off < 0x10000 ∧ off % 4 = 0 := by decide
    rw [step_writeReg (haligned off hoff).1 (haligned off hoff).2 hr h, writeReg_lost hoff v hbusy]; rfl
  · obtain ⟨t, ht⟩ := exists_targetOf hp ha
    rw [step_writeBuffer_lost hr hb ht hn h]; rfl
  · have haligned : ∀ off ∈ readOnlyOffsets, off < 0x10000 ∧ off % 4 = 0 := by decide
    rw [step_writeReg (haligned off hoff).1 (haligned off hoff).2 hr h, writeReg_readOnly hoff v hbusy]; rfl
  · rw [step_writeReg h2 h3 hr h, writeReg_reserved h1]; rfl

/-- R37, R14: every register after reset. -/
theorem regValue_reset (off : Nat) : regValue State.reset off =
    if off = 0x000 then 0x4C5A5353 else if off = 0x008 then 0x00000030
    else if off = 0x04C then BitVec.ofNat 32 State.reset.params.ibufSize
    else if off = 0x050 then BitVec.ofNat 32 State.reset.params.obufSize else 0 := by
  unfold regValue
  split
  case h_22 =>
    rw [if_neg ‹off = 0x000 → False›, if_neg ‹off = 0x008 → False›, if_neg ‹off = 0x04C → False›,
      if_neg ‹off = 0x050 → False›]
  all_goals rfl

/-- R28 to R30: every table entry after reset. -/
theorem tables_reset (a : Alphabet) (sym : Nat) :
    freqOf a sym State.reset = 0 ∧ clOf a sym State.reset = 0 ∧ codeOf a sym State.reset = 0 := by
  have htab : State.reset.tab a = Tables.reset a.size := by cases a <;> rfl
  simp [freqOf, clOf, codeOf, htab, Tables.reset]

/-- Settles O8: register by register and array by array; with BUSY = 0 and an empty script the engine's turn does
nothing. -/
theorem resetState : Obligations.ResetState := by
  refine ⟨regValue_reset, invariantAtReset.1.params, tables_reset, fun a => ?_, fun _ => ⟨rfl, rfl, rfl⟩, rfl,
    fun _ => ⟨rfl, rfl, rfl⟩, rfl, rfl, rfl, rfl⟩
  cases a
  · rfl
  · rfl

end Sys2Proof.Machine
end

section
/-! # Bus errors and the buffers (20_memory.md R40 to R51)

What an access that has a target comes to: a read returns a value or faults and touches the host's side alone, a write
always has a next state, and a buffer access names its bytes. -/

namespace Sys2Proof.Machine

section
variable {s : State} {rest : List HostAct} {addr i : Nat} {w : Width} {v : Word}

/-! ## Outcomes (R46, R51) -/

theorem readBuffer_ne_refused (m : Memory) (i : Nat) (w : Width) (f : Fault) (s : State) (r : Refusal) :
    readBuffer m i w f s ≠ .refused r := by
  unfold readBuffer
  split <;> exact nofun

/-- R46: a read that has a target returns a value or faults. -/
theorem hostRead_ne_refused {g : Target} (hg : targetOf s.params addr w = some g) (r : Refusal) :
    hostRead addr w s ≠ .refused r := by
  simp only [hostRead, hg]
  split
  · exact nofun
  · cases g with
    | reg off => exact nofun
    | ibuf i => exact readBuffer_ne_refused _ _ _ _ _ _
    | obuf i => exact readBuffer_ne_refused _ _ _ _ _ _

/-- A write that has a target has a next state. -/
theorem hostWrite_next {g : Target} (hg : targetOf s.params addr w = some g) : ∃ t, hostWrite addr w v s = .next t := by
  cases g <;> exact ⟨_, by simp only [hostWrite, hg]; rfl⟩

/-- R51: what a read changes: the host's side, and of it not the script. -/
abbrev OnlyHostValue (s t : State) : Prop := t = { s with host := t.host } ∧ t.host.todo = s.host.todo

theorem onlyHostValue_of_readBuffer {m : Memory} {f : Fault} {t : State} (h : readBuffer m i w f s = .next t) :
    OnlyHostValue s t := by
  unfold readBuffer at h
  split at h
  · cases h; exact ⟨rfl, rfl⟩
  · cases h

/-- R51: a read has no side effect in the block. -/
theorem onlyHostValue_of_hostRead {t : State} (h : hostRead addr w s = .next t) : OnlyHostValue s t := by
  unfold hostRead at h
  split at h
  · cases h
  · split at h
    · cases h; exact ⟨rfl, rfl⟩
    · split at h
      · cases h; exact ⟨rfl, rfl⟩
      · exact onlyHostValue_of_readBuffer h
      · exact onlyHostValue_of_readBuffer h

theorem step_write_next (hp : s.params.ok) (hr : s.rstAsserted = false) (ha : Admitted s.params addr w)
    (h : s.host.todo = .write addr w v :: rest) : ∃ t, step s = .next t := by
  obtain ⟨g, hg⟩ := exists_targetOf hp ha
  rw [step_write hr h]
  exact hostWrite_next hg

theorem step_read_busError_iff (hp : s.params.ok) (hr : s.rstAsserted = false)
    (h : s.host.todo = .read addr w :: rest) : step s = .refused .busError ↔ ¬ Admitted s.params addr w := by
  refine ⟨fun hstep ha => ?_, step_read_busError hp hr h⟩
  obtain ⟨g, hg⟩ := exists_targetOf hp ha
  rw [step_read hr h] at hstep
  exact hostRead_ne_refused (s := s.popAct rest) hg _ hstep

theorem step_write_busError_iff (hp : s.params.ok) (hr : s.rstAsserted = false)
    (h : s.host.todo = .write addr w v :: rest) : step s = .refused .busError ↔ ¬ Admitted s.params addr w := by
  refine ⟨fun hstep ha => ?_, step_write_busError hp hr h⟩
  obtain ⟨t, ht⟩ := step_write_next hp hr ha h
  cases ht.symm.trans hstep

/-! ## Buffer targets (R40, R41, R42) -/

/-- R41: an admitted access that starts inside IBUF reaches it there. -/
theorem targetOf_of_admitted_ibuf {p : Params} (hp : p.ok) (ha : Admitted p (p.base + 0x1000000 + i) w)
    (hi : i < p.ibufSize) : targetOf p (p.base + 0x1000000 + i) w = some (.ibuf i) := by
  obtain ⟨-, hisize, -⟩ := hp
  have hok : bufferOk p.ibufSize i w = true := by
    rw [bufferOk_iff]
    obtain ⟨-, ⟨hreg, -⟩ | ⟨j, hj, hin⟩ | ⟨j, hj, -⟩⟩ := ha
    · omega
    · rwa [show i = j by omega]
    · omega
  exact targetOf_ibuf p (by omega) hok

/-- R42: an admitted access that starts inside OBUF reaches it there. -/
theorem targetOf_of_admitted_obuf {p : Params} (hp : p.ok) (ha : Admitted p (p.base + 0x2000000 + i) w)
    (hi : i < p.obufSize) : targetOf p (p.base + 0x2000000 + i) w = some (.obuf i) := by
  obtain ⟨-, hisize, -, hosize, -⟩ := hp
  have hok : bufferOk p.obufSize i w = true := by
    rw [bufferOk_iff]
    obtain ⟨-, ⟨hreg, -⟩ | ⟨j, hj, hin⟩ | ⟨j, hj, hout⟩⟩ := ha
    · omega
    · omega
    · rwa [show i = j by omega]
  exact targetOf_obuf p (by omega) hok

/-! ## Buffer accesses while BUSY = 0 (R45, R242) -/

/-- R45: the bytes of a read, least significant first. -/
theorem readBuffer_written {m : Memory} {bs : List Byte} (f : Fault) (s : State) (hlen : bs.length = w.bytes)
    (hbs : ∀ j, j < bs.length → Memory.read? m (i + j) = bs[j]?) :
    readBuffer m i w f s = .next (readReturns (BitVec.ofNat 32 (leValue bs)) s) := by
  rw [readBuffer, ← hlen, bytesAt_eq_some hbs]

/-- R242: one unwritten byte is enough for the fault. -/
theorem readBuffer_unwritten {m : Memory} {j : Nat} (f : Fault) (s : State) (hj : j < w.bytes)
    (hm : Memory.read? m (i + j) = none) : readBuffer m i w f s = .fault f := by
  rw [readBuffer, bytesAt_eq_none hj hm]

section
variable (hr : s.rstAsserted = false) (hb : s.ctl.busy = false)
include hr hb

theorem step_read_ibuf (hg : targetOf s.params addr w = some (.ibuf i)) (h : s.host.todo = .read addr w :: rest) :
    step s = readBuffer s.ibuf i w .unwrittenInput (s.popAct rest) := by
  simp [step_read hr h, hostRead, hg, hb]

theorem step_read_obuf (hg : targetOf s.params addr w = some (.obuf i)) (h : s.host.todo = .read addr w :: rest) :
    step s = readBuffer s.obuf i w .unwrittenOutput (s.popAct rest) := by
  simp [step_read hr h, hostRead, hg, hb]

theorem step_write_ibuf (hg : targetOf s.params addr w = some (.ibuf i)) (h : s.host.todo = .write addr w v :: rest) :
    step s = .next { s.popAct rest with ibuf := writeBytes s.ibuf i v.toNat w.bytes } := by
  have hidle := whenIdle_idle (s := s.popAct rest) hb
  simp [step_write hr h, hostWrite, hg, hidle]

theorem step_write_obuf (hg : targetOf s.params addr w = some (.obuf i)) (h : s.host.todo = .write addr w v :: rest) :
    step s = .next { s.popAct rest with obuf := writeBytes s.obuf i v.toNat w.bytes } := by
  have hidle := whenIdle_idle (s := s.popAct rest) hb
  simp [step_write hr h, hostWrite, hg, hidle]

end

end

/-! ## The obligations -/

/-- Settles O16: an access has a target exactly when the map admits it; with one, a read is never refused and changes the
host's side alone, and a write has a next state. -/
theorem busAccessOutcomes : Obligations.BusAccessOutcomes := by
  refine fun s rest hp hr => ⟨fun _ _ => step_read_busError_iff hp hr, fun _ _ _ => step_write_busError_iff hp hr,
    fun _ _ _ => step_write_next hp hr, fun addr w t h hstep => ?_⟩
  rw [step_read hr h] at hstep
  exact onlyHostValue_of_hostRead hstep

/-- Settles O18: the access reaches its buffer; a write's bytes by `read?_writeBytes`, a read's by `readBuffer_written`, the
fault by `readBuffer_unwritten`. -/
theorem bufferAccesses : Obligations.BufferAccesses := by
  intro s rest w i hp hr hb
  refine ⟨fun ha hi => ?_, fun ha hi => ?_⟩
  · have hg := targetOf_of_admitted_ibuf hp ha hi
    refine ⟨fun v h => ?_, fun bs hlen hbs h => ?_, fun j hj hm h => ?_⟩
    · exact ⟨_, step_write_ibuf hr hb hg h, rfl, read?_writeBytes _ _ _ _⟩
    · rw [step_read_ibuf hr hb hg h, readBuffer_written _ _ hlen hbs]; rfl
    · rw [step_read_ibuf hr hb hg h, readBuffer_unwritten _ _ hj hm]
  · have hg := targetOf_of_admitted_obuf hp ha hi
    refine ⟨fun v h => ?_, fun bs hlen hbs h => ?_, fun j hj hm h => ?_⟩
    · exact ⟨_, step_write_obuf hr hb hg h, rfl, read?_writeBytes _ _ _ _⟩
    · rw [step_read_obuf hr hb hg h, readBuffer_written _ _ hlen hbs]; rfl
    · rw [step_read_obuf hr hb hg h, readBuffer_unwritten _ _ hj hm]

end Sys2Proof.Machine
end

section
/-! # Command words (30_encoding.md R60 to R66)

The opcode map and the encoder agree command by command; a word is its opcode, its alphabet bit and its reserved bits. -/

namespace Sys2Proof.Machine

/-! ## The opcode map (R63) -/

/-- A command of the map is encoded with its opcode, and with its alphabet bit where it takes one. -/
theorem encode_of_commandOf {opc : Nat} {a : Alphabet} {usesA : Bool} {i : Instr}
    (h : commandOf opc a = some (usesA, i)) : encode i = .word (wordOf opc (if usesA then a else .ll)) := by
  unfold commandOf at h
  split at h <;> cases h <;> rfl

/-- The opcodes of the map are those R63 prints. -/
theorem commandOf_isSome {opc : Nat} (h : opc ∈ printedOpcodes) (a : Alphabet) : (commandOf opc a).isSome = true := by
  revert opc
  cases a <;> decide

/-- The commands that take an alphabet are those R63 marks "A". -/
theorem mem_printed_of_commandOf {opc : Nat} {a : Alphabet} {usesA : Bool} {i : Instr}
    (h : commandOf opc a = some (usesA, i)) :
    opc ∈ printedOpcodes ∧ (usesA = true ↔ opc ∈ printedAlphabetOpcodes) := by
  unfold commandOf at h
  split at h <;> cases h <;> decide

/-! ## Words (R60) -/

/-- A word without reserved bits is its opcode and its alphabet bit. -/
theorem eq_wordOf {w : Word} (h : reservedOf w = 0) : w = wordOf (opcOf w) (alphabetOf w) := by
  have hbit : w.getLsbD 8 = decide (w.toNat / 256 % 2 = 1) := by
    rw [← BitVec.testBit_toNat, Nat.testBit_eq_decide_div_mod_eq]
  apply BitVec.eq_of_toNat_eq
  unfold reservedOf at h
  unfold wordOf opcOf alphabetOf
  rw [hbit, BitVec.toNat_ofNat]
  by_cases hb : w.toNat / 256 % 2 = 1
  · rw [if_pos (decide_eq_true hb)]; dsimp only; omega
  · rw [if_neg (by simpa using hb)]; dsimp only; omega

/-- R66: what a word that decodes to a command says. -/
theorem decodeWord_eq_ok {w : Word} {i : Instr} (h : decodeWord w = .ok i) :
    ∃ usesA, commandOf (opcOf w) (alphabetOf w) = some (usesA, i) ∧ reservedOf w = 0 ∧
      (w.getLsbD 8 = true → usesA = true) := by
  unfold decodeWord at h
  split at h
  · cases h
  · rename_i usesA j hj
    split at h
    · cases h
    · rename_i hbits
      cases h
      simpa [hj] using hbits

/-- R62: an opcode outside the map. -/
theorem decodeWord_reservedOpcode {w : Word} (h : opcOf w ∉ printedOpcodes) : decodeWord w = .reservedOpcode := by
  have hnone : commandOf (opcOf w) (alphabetOf w) = none := by
    cases hc : commandOf (opcOf w) (alphabetOf w) with
    | none => rfl
    | some p => exact absurd (mem_printed_of_commandOf hc).1 h
  simp [decodeWord, hnone]

/-- R62, R66: an opcode of the map, by the reserved bits and the alphabet bit. -/
theorem decodeWord_of_mem {w : Word} (h : opcOf w ∈ printedOpcodes) :
    ∃ i, decodeWord w = if reservedOf w ≠ 0 ∨ (w.getLsbD 8 = true ∧ opcOf w ∉ printedAlphabetOpcodes) then .reservedBits
      else .ok i := by
  obtain ⟨⟨usesA, i⟩, hc⟩ := Option.isSome_iff_exists.1 (commandOf_isSome h (alphabetOf w))
  refine ⟨i, ?_⟩
  simp [decodeWord, hc, ← (mem_printed_of_commandOf hc).2]

/-! ## The obligations -/

/-- R60, R63: every command's word decodes to it. -/
theorem decodeWord_of_encode {w : Word} {i : Instr} (h : encode i = .word w) : decodeWord w = .ok i := by
  cases i
  case freqClear a | freqInc a | freqRead a | hufBuild a | hufCanon a | hufSerialize a | hufDeserialize a | hufTrie a
    | hufDecode a | hufEncode a | clRead a | clWrite a => cases a <;> cases h <;> rfl
  all_goals cases h <;> rfl

/-- R66: a word that decodes to a command is that command's word. -/
theorem encode_of_decodeWord {w : Word} {i : Instr} (h : decodeWord w = .ok i) : encode i = .word w := by
  obtain ⟨usesA, hc, hres, hbit⟩ := decodeWord_eq_ok h
  have ha : (if usesA then alphabetOf w else .ll) = alphabetOf w := by
    cases usesA with
    | true => rfl
    | false => exact (if_neg fun h8 => Bool.false_ne_true (hbit h8)).symm
  rw [encode_of_commandOf hc, ha, ← eq_wordOf hres]

/-- Settles O2: from a word by its three parts, from an instruction by its opcode in the map. -/
theorem commandDecodeIffEncode : Obligations.CommandDecodeIffEncode := fun _ _ =>
  ⟨encode_of_decodeWord, decodeWord_of_encode⟩

/-- Settles O1: the decoder computed on the ten words. -/
theorem writtenWordsDecode : Obligations.WrittenWordsDecode :=
  ⟨rfl, rfl, rfl, rfl, rfl, rfl, rfl, rfl, rfl, rfl⟩

/-- R54, R214: the engine's turn between streams is Execute. -/
theorem step_execute {s : State} (hr : s.rstAsserted = false) (hb : s.ctl.busy = true) (hp : s.prog.pos = .idle)
    (ht : s.host.todo = []) : step s = execute s := by
  simp [step, ht, engineTurn, hr, hb, hp]

/-- R216: taking an error with no stream in progress. -/
theorem fail_of_prog_none {s : State} (h : s.prog = Progress.none) (e : Err) :
    s.fail e = { s with ctl := { s.ctl with cause := e.cause, detail := e.detail, busy := false, done := true } } := by
  rw [State.fail, ← h]

/-- Settles O5: the step is Execute, which fails by R62 or runs the command, as the word decodes. -/
theorem illegalWordsOnlyFail : Obligations.IllegalWordsOnlyFail := by
  intro s hr hb hp ht
  have hstep := step_execute hr hb (by rw [hp]; rfl) ht
  rw [hstep]
  refine ⟨fun hopc => ?_, fun hopc hbits => ?_, fun hopc hres ha => ?_⟩
  · rw [execute, decodeWord_reservedOpcode hopc]; exact congrArg _ (fail_of_prog_none hp _)
  · obtain ⟨i, hi⟩ := decodeWord_of_mem hopc
    rw [execute, hi.trans (if_pos hbits)]; exact congrArg _ (fail_of_prog_none hp _)
  · obtain ⟨i, hi⟩ := decodeWord_of_mem hopc
    have hok := hi.trans (if_neg (by rintro (h | ⟨h, hn⟩); exacts [h hres, hn (ha h)]))
    exact ⟨i, hok, by rw [execute, hok]⟩

end Sys2Proof.Machine
end

section
/-! # Stream elements (30_encoding.md R69 to R75)

A plan's whole fields are read from a list of bits as the machine reads them; a table is read to its end; what an element
does at its place in a stream, and where it has none. -/

namespace Sys2Proof.Machine

variable {α β : Type}

/-! ## Plans on lists of bits -/

/-- After a plan's whole fields the rest of the plan reads the rest of the bits. -/
theorem Parse.Reads.onBits {p p' : Parse α} {bs : List Bool} (h : Parse.Reads p bs p') (rest : List Bool) :
    p.onBits (bs ++ rest) = p'.onBits rest := by
  induction h with
  | refl p => rfl
  | field pl n k bs cs p' hb h ih =>
    have hlen : ¬ (bs ++ cs ++ rest).length < n := by simp only [List.length_append]; omega
    rw [Parse.onBits, if_neg hlen, List.append_assoc, ← hb, List.take_left, List.drop_left, ih]

/-- Settles O3: the entry's plan reads its bits and is done. -/
theorem tableEntryReadsBack : Obligations.TableEntryReadsBack := fun a e rest h =>
  (entryParse_reads (a := a) (e := e) h).onBits rest

/-! ## A table read to its end (R144, R145) -/

@[simp] theorem length_codeLens (a : Alphabet) (s : State) : (codeLens a s).length = a.size := by simp [codeLens]

/-- CL of an alphabet as a list, symbol by symbol. -/
theorem getElem_codeLens {a : Alphabet} {s : State} {i : Nat} (h : i < (codeLens a s).length) :
    (codeLens a s)[i] = clOf a i s := by
  rw [clOf, tableGet, List.getD_eq_getElem _ _ (by simpa using h)]
  simp [codeLens]

theorem codeLens_eq {a : Alphabet} {s : State} {lens : List Nat} (hlen : lens.length = a.size)
    (h : ∀ sym, sym < a.size → clOf a sym s = lens.getD sym 0) : codeLens a s = lens := by
  refine List.ext_getElem (by rw [length_codeLens, hlen]) fun i h1 h2 => ?_
  rw [getElem_codeLens, h i (by omega), List.getD_eq_getElem _ _ h2]

theorem putLens_zero (lens : List Nat) (k old : Nat) :
    putLens lens 0 k old = if k < lens.length then lens.getD k 0 else old := by simp [putLens]

/-- R144: entries that cover an alphabet exactly are read to the table's end. -/
theorem deserialize_whole {a : Alphabet} {es : List TableEntry} (hes : ∀ e ∈ es, entryOk a e = true) {s : State}
    {rest : List Bool} (hp : s.params.ok) (hl : (entriesLens es).length = a.size)
    (hin : s.InputHas (entriesBits a es ++ rest)) :
    ∃ t, deserialize a s = .ok () t ∧ OnlyReaderCl a s t ∧ Consumed s t (entriesBits a es).length ∧ t.InputHas rest ∧
      codeLens a t = entriesLens es := by
  obtain ⟨m, t, -, ht, hto, htc, hti, htcl⟩ :=
    deserializeFrom_entries hes (n := a.size) (i := 0) hp (by omega) (by omega) hin
  refine ⟨t, ?_, hto, htc, hti, codeLens_eq hl fun sym hsym => ?_⟩
  · have hdone : ∀ m, deserializeFrom a m a.size t = .ok () t := fun m => by
      cases m with
      | zero => rfl
      | succ m => exact if_pos (Nat.le_refl _)
    rw [deserialize, ht, Nat.zero_add, hl, hdone]
  · rw [htcl, putLens_zero, if_pos (by omega)]

/-- R64: a read with IN_LEN out of range is refused before any bit. -/
theorem readBits_operandRange {n : Nat} {s : State} (hn : n ≤ 32) (h : s.inputOk = false) :
    readBits n s = .err operandRange s := by
  have hcount : bitCountOk n = true := decide_eq_true hn
  rw [readBits, require_of hcount, h, require_false]

/-- R144, R64: a table is not begun with IN_LEN out of range. -/
theorem deserialize_operandRange (a : Alphabet) {s : State} (h : s.inputOk = false) :
    deserialize a s = .err operandRange s := by
  have hread : runParse (entryParse a) s = .err operandRange s := by
    rw [entryParse, runParse, readBits_operandRange (by decide) h]; rfl
  obtain ⟨n, hn⟩ : ∃ n, a.size = n + 1 := by cases a <;> exact ⟨_, rfl⟩
  rw [deserialize, hn, deserializeFrom, if_neg (by omega), hread, Res.bind_err]

theorem inputOk_eq_false {s : State} (h : s.params.ibufSize < s.ctl.inLen.toNat) : s.inputOk = false :=
  decide_eq_false (by omega)

theorem bitsR_of_consumed {s t : State} {n : Nat} (h : Consumed s t n) : t.rd.bitsR - s.rd.bitsR = BitVec.ofNat 32 n := by
  rw [h.2, BitVec.add_comm, BitVec.add_sub_cancel]

/-- Settles O43: a whole table by `deserialize_whole`, one that goes wrong by `deserialize_bad`. -/
theorem deserializeReadsTable : Obligations.DeserializeReadsTable := by
  intro a s hp
  have hexec : exec (.hufDeserialize a) s =
      finish ((deserialize a s).bind fun _ t => .ok ⟨t.rd.bitsR - s.rd.bitsR, 0, 0⟩ t) := rfl
  rw [hexec]
  refine ⟨fun h => ?_, fun es hes => ⟨fun hl hin => ?_, fun bits e n atEnd hl hb hin hend => ?_⟩⟩
  · rw [deserialize_operandRange a (inputOk_eq_false h)]; rfl
  · obtain ⟨t, ht, hto, htc, -, hcl⟩ := deserialize_whole hes (rest := []) hp hl (by simpa using hin)
    exact ⟨t, hto, by rw [ht, Res.bind_ok, finish_ok, bitsR_of_consumed htc], htc, hcl⟩
  · obtain ⟨t, ht, hto, htc, hcl⟩ := deserialize_bad hes hp hl hb hin hend
    exact ⟨t, hto, by rw [ht]; rfl, htc, fun sym => by rw [hcl, putLens_zero]⟩

/-! ## A table entry at its place (R144) -/

section
variable {s t : State} {a : Alphabet} {i j : Nat} {b0 : Word} {fits : Alphabet → Bool} {e : TableEntry}

theorem entryStep_ok (hpos : s.prog.pos = .table a i b0) (hf : fits a = true) (hi : i < a.size)
    (h : applyEntry a i e s = .ok j t) : entryStep fits e s = .next (t.setPos (.table a j b0)) := by
  simp [entryStep, hpos, hf, hi, h]

theorem entryStep_err {er : Err} (hpos : s.prog.pos = .table a i b0) (hf : fits a = true) (hi : i < a.size)
    (h : applyEntry a i e s = .err er t) : entryStep fits e s = .next (t.fail er) := by
  simp [entryStep, hpos, hf, hi, h]

/-- R69: where no entry of its kind can stand. -/
theorem entryStep_refused (h : ∀ a i b0, s.prog.pos = .table a i b0 → fits a = false ∨ a.size ≤ i) :
    entryStep fits e s = .refused .elementOutOfPlace := by
  unfold entryStep
  split
  · rename_i a i b0 hpos
    rw [if_neg]
    rcases h a i b0 hpos with hf | hi
    · simp [hf]
    · simp [Nat.not_lt.2 hi]
  · rfl
  · rfl

/-- R144: an entry that fits gives its symbols their lengths and moves past them. -/
theorem entryStep_puts (hpos : s.prog.pos = .table a i b0) (hf : fits a = true)
    (hfit : i + (entryLens e).length ≤ a.size) :
    ∃ t, OnlyCl a s t ∧ entryStep fits e s = .next (t.setPos (.table a (i + (entryLens e).length) b0)) ∧
      ∀ k, clOf a k t = putLens (entryLens e) i k (clOf a k s) := by
  obtain ⟨t, ht, hto, hcl⟩ := applyEntry_eq hfit s
  have := entryLens_pos e
  exact ⟨t, hto, entryStep_ok hpos hf (by omega) ht, hcl⟩

theorem putLens_one (l i k old : Nat) : putLens [l] i k old = if k = i then l else old := by
  unfold putLens
  by_cases hk : k = i
  · simp [hk]
  · rw [if_neg hk, if_neg]
    simp only [List.length_singleton]; omega

theorem putLens_replicate (r i k old : Nat) :
    putLens (List.replicate r 0) i k old = if i ≤ k ∧ k < i + r then 0 else old := by
  unfold putLens
  simp only [List.length_replicate]
  split
  · rw [List.getD_replicate _ (by omega)]
  · rfl

/-- R144: a zero run that passes the last symbol. -/
theorem applyEntry_overrun {c : Nat} (h : a.size < i + (c + 1)) (s : State) :
    applyEntry a i (.zrun c) s = .err (.corrupt .tableOverrun) s := by
  rw [applyEntry, require_of_not]
  simpa using h

end

/-- Settles O58: the element's entry put at its symbols, one or a run. -/
theorem tableElementsInPlace : Obligations.TableElementsInPlace := by
  intro s a i b0 hpos hi
  refine ⟨fun instr len hinstr => ?_, fun instr r hinstr => ?_⟩
  · obtain ⟨e, hexec, hlens⟩ :
        ∃ e, exec instr s = entryStep (fun _ => true) e s ∧ entryLens e = [len] := by
      rcases hinstr with ⟨l, rfl, rfl⟩ | ⟨x, rfl, rfl⟩ | ⟨y, rfl, rfl⟩
      · exact ⟨.short l, rfl, rfl⟩
      · exact ⟨.ext1 x, rfl, rfl⟩
      · exact ⟨.ext2 y, rfl, rfl⟩
    obtain ⟨t, hto, hstep, hcl⟩ := entryStep_puts (fits := fun _ => true) (e := e) hpos rfl (by rw [hlens]; exact hi)
    rw [hlens] at hstep hcl
    exact ⟨t, hto, hexec.trans hstep, fun j => by rw [hcl, putLens_one]⟩
  · obtain ⟨fits, c, hexec, hf, rfl⟩ :
        ∃ fits c, exec instr s = entryStep fits (.zrun c) s ∧ fits a = true ∧ r = c + 1 := by
      rcases hinstr with ⟨c, rfl, rfl, hr⟩ | ⟨c, rfl, rfl, hr⟩
      · exact ⟨fun a => a == .ll, c.toNat, rfl, rfl, hr⟩
      · exact ⟨fun a => a == .ds, c.toNat, rfl, rfl, hr⟩
    refine ⟨fun hover => hexec.trans (entryStep_err hpos hf hi (applyEntry_overrun hover s)), fun hfit => ?_⟩
    have hlens : entryLens (.zrun c) = List.replicate (c + 1) 0 := rfl
    obtain ⟨t, hto, hstep, hcl⟩ := entryStep_puts (e := .zrun c) hpos hf (by simpa [hlens] using hfit)
    rw [hlens, List.length_replicate] at hstep
    exact ⟨t, hto, hexec.trans hstep, fun j => by rw [hcl, hlens, putLens_replicate]⟩

/-! ## A symbol event at its place (R199, R200) -/

/-- R110: the lengths of a slot's row. -/
theorem loLen_range {k : Nat} (hk : k ≤ 23) : 3 ≤ loLen k ∧ loLen k + 2 ^ nbLen k ≤ 259 :=
  (by decide : ∀ k < 24, 3 ≤ loLen k ∧ loLen k + 2 ^ nbLen k ≤ 259) k (by omega)

/-- R111: the distances of a slot's row. -/
theorem loDist_range {j : Nat} (hj : j < 32) : 1 ≤ loDist j ∧ loDist j + 2 ^ nbDist j ≤ 65537 :=
  (by decide : ∀ j < 32, 1 ≤ loDist j ∧ loDist j + 2 ^ nbDist j ≤ 65537) j hj

/-- R73, R74: what well-formedness of a match says. -/
theorem wellFormed_matchSlot {k : BitVec 5} {e : BitVec 7} {j : BitVec 5} {x : BitVec 14}
    (h : wellFormed (.matchSlot k e j x) = true) :
    1 ≤ k.toNat ∧ k.toNat ≤ 23 ∧ e.toNat < 2 ^ nbLen k.toNat ∧ x.toNat < 2 ^ nbDist j.toNat := by
  simpa [wellFormed, and_assoc] using h

/-- R73: what an event copies: its length and its distance. -/
def matchOf : StreamEvent → Option (Nat × Nat)
  | .lit _ => none
  | .eos => none
  | .match3 d => some (thresh, d.toNat + 1)
  | .matchSlot k e j x => some (eventLen k e, eventDist j x)

/-- R199, R200: a match event is a copy. -/
theorem applyEvent_match {e : StreamEvent} {l d : Nat} (h : matchOf e = some (l, d)) (nl nm : Nat) (s : State) :
    applyEvent e nl nm s = (winCopy l d s).bind fun _ t => .ok (some (nl, nm + 1)) t := by
  cases e <;> cases h <;> rfl

/-- R75, R110, R111: the length and the distance of a well-formed match are in range. -/
theorem matchOf_range {e : StreamEvent} {l d : Nat} (h : matchOf e = some (l, d)) (hw : wellFormed e.toInstr = true) :
    3 ≤ l ∧ l ≤ 258 ∧ 1 ≤ d ∧ d ≤ 65536 := by
  cases e with
  | lit b => cases h
  | eos => cases h
  | match3 x =>
    cases h
    have := x.isLt
    unfold thresh
    omega
  | matchSlot k e j x =>
    cases h
    obtain ⟨-, hk, he, hx⟩ := wellFormed_matchSlot hw
    have hlen := loLen_range hk
    have hdist := loDist_range j.isLt
    unfold eventLen eventDist
    omega

section
variable {s : State} {l d : Nat} (hr : 3 ≤ l ∧ l ≤ 258 ∧ 1 ≤ d ∧ d ≤ 65536)
include hr

theorem winCopy_in_range : winCopy l d s = require (d ≤ s.win.fill.toNat) (.corrupt .distBeforeStart) s fun _ =>
    require (s.outFits l) .outputFull s fun _ => copyLoop d l s := by
  rw [winCopy, require_of]
  simpa [matchLenOk, matchDistOk, and_assoc] using hr

/-- R194: the distance reaches before the first byte of the window. -/
theorem winCopy_before_start (h : s.win.fill.toNat < d) : winCopy l d s = .err (.corrupt .distBeforeStart) s := by
  rw [winCopy_in_range hr, require_of_not]
  simpa using h

/-- R194: the bytes do not fit. -/
theorem winCopy_full (hd : d ≤ s.win.fill.toNat) (h : s.params.obufSize < s.wr.outLen.toNat + l) :
    winCopy l d s = .err .outputFull s := by
  rw [winCopy_in_range hr, require_of (decide_eq_true hd), require_of_not]
  simpa [State.outFits] using h

/-- R194: a copy that passes its checks. -/
theorem winCopy_runs (hd : d ≤ s.win.fill.toNat) (h : s.wr.outLen.toNat + l ≤ s.params.obufSize) :
    winCopy l d s = copyLoop d l s := by
  have hfit : s.outFits l = true := decide_eq_true h
  rw [winCopy_in_range hr, require_of (decide_eq_true hd), require_of hfit]

end

/-- R193: a byte that fits, pushed. -/
theorem winPut_fits {b : Byte} {s : State} (h : s.wr.outLen.toNat < s.params.obufSize) :
    winPut b s = .ok () (windowPush b s) := by
  have hfit : s.outFits 1 = true := decide_eq_true (by omega)
  rw [winPut, require_of hfit]

theorem winPut_full {b : Byte} {s : State} (h : s.params.obufSize ≤ s.wr.outLen.toNat) :
    winPut b s = .err .outputFull s := by
  rw [winPut, require_of_not]
  simpa [State.outFits] using h

section
variable {s t : State} {e : StreamEvent} {nl nm : Nat}

theorem eventStep_eos (hpos : s.prog.pos = .events nl nm) :
    eventStep .eos s = finish (.ok (expandResults nl nm s) s) := by
  simp [eventStep, hpos, applyEvent]

theorem eventStep_some {nl' nm' : Nat} (hpos : s.prog.pos = .events nl nm)
    (h : applyEvent e nl nm s = .ok (some (nl', nm')) t) : eventStep e s = .next (t.setPos (.events nl' nm')) := by
  simp [eventStep, hpos, h]

theorem eventStep_err {er : Err} (hpos : s.prog.pos = .events nl nm) (h : applyEvent e nl nm s = .err er t) :
    eventStep e s = .next (t.fail er) := by
  simp [eventStep, hpos, h]

/-- R69: where no event can stand. -/
theorem eventStep_refused (h : ∀ nl nm, s.prog.pos ≠ .events nl nm) :
    eventStep e s = .refused .elementOutOfPlace := by
  unfold eventStep
  split
  · rename_i nl nm hpos
    exact absurd hpos (h nl nm)
  · rfl
  · rfl

end

/-- Settles O59: a literal is a push, a match a copy by `copyLoop_copied`, each with its errors. -/
theorem symbolEventsInPlace : Obligations.SymbolEventsInPlace := by
  intro s nl nm hpos hp hw
  obtain ⟨-, -, -, hsize, -⟩ := hp
  refine ⟨fun b h => ?_, fun b h => ?_, ?_, fun instr l d hinstr => ?_⟩
  · exact eventStep_err (e := .lit b) hpos (by rw [applyEvent, winPut_full h]; rfl)
  · obtain ⟨hpush, hread⟩ := windowPush_pushed b (s := s) (by omega)
    exact ⟨_, eventStep_some (e := .lit b) hpos (by rw [applyEvent, winPut_fits h]; rfl), hpush, hread⟩
  · exact (eventStep_eos hpos).trans (by simp [expandResults, Results.nat])
  · obtain ⟨e, hexec, hmatch, hwf⟩ :
        ∃ e : StreamEvent, exec instr s = eventStep e s ∧ matchOf e = some (l, d) ∧ wellFormed e.toInstr = true := by
      rcases hinstr with ⟨x, rfl, rfl, rfl⟩ | ⟨k, e, j, x, rfl, hwf, rfl, rfl⟩
      · exact ⟨.match3 x, rfl, rfl, rfl⟩
      · exact ⟨.matchSlot k e j x, rfl, rfl, hwf⟩
    have hr := matchOf_range hmatch hwf
    have happly := applyEvent_match hmatch nl nm s
    rw [hexec]
    refine ⟨fun h => eventStep_err hpos ?_, fun hd h => eventStep_err hpos ?_, fun hd h => ?_⟩
    · rw [happly, winCopy_before_start hr h]; rfl
    · rw [happly, winCopy_full hr hd h]; rfl
    · obtain ⟨t, ht, hcopied, -⟩ :=
        copyLoop_copied (n := l) hw hr.2.2.1 hd (by unfold windowSize; omega) (by omega)
      exact ⟨t, eventStep_some hpos (by rw [happly, winCopy_runs hr hd h, ht]; rfl), hcopied⟩

/-! ## Elements out of place (R69) -/

/-- Settles O60: an entry or an event whose place is not one of its kind. -/
theorem elementsOutOfPlace : Obligations.ElementsOutOfPlace := by
  intro s i tableEntry hi
  cases tableEntry with
  | true =>
    rw [if_pos rfl] at hi
    obtain ⟨fits, e, hexec, hll, hds⟩ : ∃ fits e, exec i s = entryStep fits e s ∧
        ((∃ c, i = .cleZrunD c) → fits .ll = false) ∧ ((∃ c, i = .cleZrunLl c) → fits .ds = false) := by
      rcases hi with ⟨l, rfl⟩ | ⟨x, rfl⟩ | ⟨y, rfl⟩ | ⟨c, rfl⟩ | ⟨c, rfl⟩
      · exact ⟨fun _ => true, .short l, rfl, nofun, nofun⟩
      · exact ⟨fun _ => true, .ext1 x, rfl, nofun, nofun⟩
      · exact ⟨fun _ => true, .ext2 y, rfl, nofun, nofun⟩
      · exact ⟨fun a => a == .ll, .zrun c.toNat, rfl, nofun, fun _ => rfl⟩
      · exact ⟨fun a => a == .ds, .zrun c.toNat, rfl, fun _ => rfl, nofun⟩
    rw [hexec]
    refine ⟨fun hpos => ?_, fun nl nm _ hpos => ?_, fun a j b0 hpos hout => ?_⟩
    · exact entryStep_refused (by rw [hpos]; exact nofun)
    · exact entryStep_refused (by rw [hpos]; exact nofun)
    · refine entryStep_refused fun a' i' b0' hpos' => ?_
      cases hpos.symm.trans hpos'
      rcases hout with hfalse | hend | ⟨rfl, hc⟩ | ⟨rfl, hc⟩
      · cases hfalse
      · exact .inr hend
      · exact .inl (hll hc)
      · exact .inl (hds hc)
  | false =>
    rw [if_neg Bool.false_ne_true] at hi
    obtain ⟨e, hexec⟩ : ∃ e, exec i s = eventStep e s := by
      rcases hi with ⟨b, rfl⟩ | rfl | ⟨d, rfl⟩ | ⟨k, e, j, x, rfl⟩
      · exact ⟨.lit b, rfl⟩
      · exact ⟨.eos, rfl⟩
      · exact ⟨.match3 d, rfl⟩
      · exact ⟨.matchSlot k e j x, rfl⟩
    rw [hexec]
    refine ⟨fun hpos => ?_, nofun, fun a j b0 hpos _ => ?_⟩
    · exact eventStep_refused (by rw [hpos]; exact nofun)
    · exact eventStep_refused (by rw [hpos]; exact nofun)

end Sys2Proof.Machine
end

section
/-! # HUF_SERIALIZE (42_huffman.md R142, R143)

The entries spell out CL; their fields are written one after another, as far as they fit. -/

namespace Sys2Proof.Machine

/-! ## Zero runs (R142) -/

theorem zeroRun_le (cap : Nat) (l : List Nat) : zeroRun cap l ≤ cap := by
  induction cap generalizing l with
  | zero => exact Nat.le_refl _
  | succ cap ih =>
    cases l with
    | nil => exact Nat.zero_le _
    | cons x rest =>
      unfold zeroRun
      split
      · exact Nat.succ_le_succ (ih rest)
      · exact Nat.zero_le _

/-- A run is zeros, and what follows is the rest of the list. -/
theorem replicate_zeroRun_append (cap : Nat) (l : List Nat) :
    List.replicate (zeroRun cap l) 0 ++ l.drop (zeroRun cap l) = l := by
  induction cap generalizing l with
  | zero => rfl
  | succ cap ih =>
    cases l with
    | nil => rfl
    | cons x rest =>
      unfold zeroRun
      split
      · subst_vars
        simpa [List.replicate_succ] using ih rest
      · rfl

/-- A run that ends before its largest size ends at a nonzero length or at the end of the list. -/
theorem zeroRun_maximal {cap : Nat} {l : List Nat} (h : (l.drop (zeroRun cap l)).head? = some 0) :
    zeroRun cap l = cap := by
  induction cap generalizing l with
  | zero => rfl
  | succ cap ih =>
    cases l with
    | nil => cases h
    | cons x rest =>
      unfold zeroRun at h ⊢
      split
      · subst_vars
        rw [ih (by simpa using h)]
      · rename_i hx
        rw [if_neg hx] at h
        exact absurd (Option.some.inj h) hx

theorem zeroRun_pos {cap : Nat} (h : 0 < cap) (rest : List Nat) : 1 ≤ zeroRun cap (0 :: rest) := by
  obtain ⟨n, rfl⟩ := Nat.exists_eq_succ_of_ne_zero (Nat.pos_iff_ne_zero.1 h)
  simp [zeroRun]

/-! ## The entries (R70, R71, R142) -/

/-- R70: the entry of a length is one the format admits and stands for that length. -/
theorem lengthEntry_spec {l : Nat} (h0 : l ≠ 0) (h : l ≤ maxCodeLenEnc) (a : Alphabet) :
    entryOk a (lengthEntry l) = true ∧ entryLens (lengthEntry l) = [l] := by
  unfold maxCodeLenEnc at h
  unfold lengthEntry
  split
  · simp [entryOk, entryLens]; omega
  · split
    · simp [entryOk, entryLens]; omega
    · simp [entryOk, entryLens]; omega

theorem lengthEntry_ne_zrun (l c : Nat) : lengthEntry l ≠ .zrun c := by
  unfold lengthEntry
  split
  · exact nofun
  · split <;> exact nofun

theorem length_drop_zeroRun {cap n : Nat} (hcap : 0 < cap) {rest : List Nat} (hn : (0 :: rest).length ≤ n + 1) :
    ((0 :: rest).drop (zeroRun cap (0 :: rest))).length ≤ n := by
  have := zeroRun_pos hcap rest
  rw [List.length_drop]
  omega

/-- R142: the entries are ones the format admits. -/
theorem entryOk_of_mem_tableEntries {a : Alphabet} {n : Nat} {cl : List Nat} (hcl : ∀ l ∈ cl, l ≤ maxCodeLenEnc) :
    ∀ e ∈ tableEntries (2 ^ a.zb) n cl, entryOk a e = true := by
  induction n generalizing cl with
  | zero => exact nofun
  | succ n ih =>
    cases cl with
    | nil => exact nofun
    | cons l rest =>
      unfold tableEntries
      split
      · subst_vars
        have hrun := zeroRun_le (2 ^ a.zb) (0 :: rest)
        have hpos := zeroRun_pos (Nat.two_pow_pos a.zb) rest
        refine List.forall_mem_cons.2 ⟨decide_eq_true (by omega), ih fun l hl => hcl l (List.mem_of_mem_drop hl)⟩
      · obtain ⟨hl, hrest⟩ := List.forall_mem_cons.1 hcl
        exact List.forall_mem_cons.2 ⟨(lengthEntry_spec ‹_› hl a).1, ih hrest⟩

/-- R142: the entries stand for exactly the lengths. -/
theorem entriesLens_tableEntries {cap : Nat} (hcap : 0 < cap) {n : Nat} {cl : List Nat} (hn : cl.length ≤ n)
    (hcl : ∀ l ∈ cl, l ≤ maxCodeLenEnc) : entriesLens (tableEntries cap n cl) = cl := by
  induction n generalizing cl with
  | zero => rw [List.length_eq_zero_iff.1 (Nat.le_zero.1 hn)]; rfl
  | succ n ih =>
    cases cl with
    | nil => rfl
    | cons l rest =>
      unfold tableEntries
      split
      · subst_vars
        have hpos := zeroRun_pos hcap rest
        have hrest := ih (length_drop_zeroRun hcap hn) fun l hl => hcl l (List.mem_of_mem_drop hl)
        dsimp only
        rw [entriesLens_cons, hrest, entryLens, Nat.sub_add_cancel hpos, replicate_zeroRun_append]
      · obtain ⟨hl, hrest⟩ := List.forall_mem_cons.1 hcl
        rw [entriesLens_cons, ih (Nat.le_of_succ_le_succ hn) hrest, (lengthEntry_spec ‹_› hl .ll).2]
        rfl

/-- Only a list that begins with a zero has a zero run for its first entry. -/
theorem head?_of_tableEntries {cap n d : Nat} {cl : List Nat} (h : (tableEntries cap n cl).head? = some (.zrun d)) :
    cl.head? = some 0 := by
  cases n with
  | zero => cases h
  | succ n =>
    cases cl with
    | nil => cases h
    | cons l rest =>
      unfold tableEntries at h
      split at h
      · subst_vars; rfl
      · exact absurd (Option.some.inj h) (lengthEntry_ne_zrun l d)

/-- R142: a zero run followed by another has the largest size. -/
abbrev SplitAt (cap : Nat) (e f : TableEntry) : Prop := ∀ c d, e = .zrun c → f = .zrun d → c + 1 = cap

theorem isChain_tableEntries {cap : Nat} (hcap : 0 < cap) (n : Nat) (cl : List Nat) :
    (tableEntries cap n cl).IsChain (SplitAt cap) := by
  induction n generalizing cl with
  | zero => exact .nil
  | succ n ih =>
    cases cl with
    | nil => exact .nil
    | cons l rest =>
      unfold tableEntries
      split
      · subst_vars
        refine List.isChain_cons.2 ⟨fun f hf c d hc hd => ?_, ih _⟩
        cases hc
        have hfull := zeroRun_maximal (head?_of_tableEntries (hd ▸ hf))
        rw [hfull]
        omega
      · exact List.isChain_cons.2 ⟨fun f _ c d hc _ => absurd hc (lengthEntry_ne_zrun l c), ih rest⟩

/-! ## Fields without codes -/

/-- A number of at most 32 bits, not a code. -/
def Field.IsNumber : Field → Prop
  | .bits _ n => n ≤ 32
  | .code _ _ => False

theorem isNumber_of_mem_fields {a : Alphabet} {es : List TableEntry} :
    ∀ f ∈ es.flatMap (TableEntry.fields a), Field.IsNumber f := by
  intro f hf
  obtain ⟨e, -, hf⟩ := List.mem_flatMap.1 hf
  have hzb : a.zb ≤ 32 := by cases a <;> decide
  have hall : ∀ g ∈ e.fields a, Field.IsNumber g := by
    cases e <;> simp [TableEntry.fields, Field.IsNumber, hzb]
  exact hall f hf

/-- The bits of numbers do not depend on the codes. -/
theorem fieldsToBits_numbers {fs : List Field} (h : ∀ f ∈ fs, Field.IsNumber f) (c d : Alphabet → Nat → Nat × Nat) :
    fieldsToBits c fs = fieldsToBits d fs := by
  induction fs with
  | nil => rfl
  | cons f fs ih =>
    obtain ⟨hf, hfs⟩ := List.forall_mem_cons.1 h
    rw [fieldsToBits_cons, fieldsToBits_cons, ih hfs]
    cases f with
    | bits v n => rfl
    | code a sym => exact hf.elim

theorem writable_of_isNumber {f : Field} (h : Field.IsNumber f) (s : State) : Field.Writable s f := by
  cases f with
  | bits v n => exact h
  | code a sym => exact h.elim

theorem writeFields_append (fs gs : List Field) (s : State) :
    writeFields (fs ++ gs) s = (writeFields fs s).bind fun _ t => writeFields gs t := by
  induction fs generalizing s with
  | nil => rfl
  | cons f fs ih =>
    rw [List.cons_append, writeFields, writeFields]
    cases writeField f s with
    | ok u t => exact ih t
    | err e t => rfl
    | fault f => rfl

/-! ## Writing as far as it fits (R90, R217) -/

/-- What fits after some bits are written is what fitted with them before. -/
theorem bitsFit_iff_of_appended {s t : State} {bs : List Bool} (ho : OnlyWriter s t) (h : Appended s t bs) {n : Nat} :
    t.BitsFit n ↔ s.BitsFit (bs.length + n) := by
  refine ⟨fun hf => ?_, bitsFit_of_appended ho h⟩
  have hp : t.params = s.params := by rw [ho]
  have hpos := h.1
  have ht := t.wr.wcnt.isLt
  have hs := s.wr.wcnt.isLt
  unfold State.writePos at hpos
  unfold State.BitsFit at *
  rw [hp] at hf
  omega

theorem writeBits_full {v n : Nat} {s : State} (hn : n ≤ 32) (h : ¬ s.BitsFit n) :
    writeBits v n s = .err .outputFull s := by
  have hcount : bitCountOk n = true := decide_eq_true hn
  rw [writeBits, require_of hcount, require_of_not]
  simpa [State.outFits] using h

/-- R217: the fields before the first that does not fit are written, and the error is OUTPUT_FULL. -/
theorem writeFields_full {pre post : List Field} {f : Field} {s : State} (hp : s.params.ok)
    (hnum : ∀ g ∈ pre ++ f :: post, Field.IsNumber g) (hfit : s.BitsFit (s.fieldBits pre).length)
    (hfull : ¬ s.BitsFit (s.fieldBits (pre ++ [f])).length) :
    ∃ t, writeFields (pre ++ f :: post) s = .err .outputFull t ∧ OnlyWriter s t ∧ Appended s t (s.fieldBits pre) := by
  obtain ⟨t, ht, hto, hta, -⟩ := writeFields_appends hp
    (fun g hg => writable_of_isNumber (hnum g (List.mem_append_left _ hg)) s) hfit
  refine ⟨t, ?_, hto, hta⟩
  have hf := hnum f (List.mem_append_right _ (List.mem_cons_self ..))
  cases f with
  | code a sym => exact hf.elim
  | bits v n =>
    have hone : (s.fieldBits [.bits v n]).length = n := by simp [State.fieldBits, fieldsToBits, Field.toBits]
    rw [fieldBits_append, List.length_append, hone, ← bitsFit_iff_of_appended hto hta] at hfull
    rw [writeFields_append, ht, Res.bind_ok, writeFields, writeField, writeBits_full hf hfull]
    rfl

/-- What holds of no elements of a list and not of all of them stops at one of them. -/
theorem exists_first_not {α : Type} {P : List α → Prop} (l : List α) (h0 : P []) (h : ¬ P l) :
    ∃ pre x post, l = pre ++ x :: post ∧ P pre ∧ ¬ P (pre ++ [x]) := by
  induction l using List.reverseRecOn with
  | nil => exact absurd h0 h
  | append_singleton l x ih =>
    by_cases hl : P l
    · exact ⟨l, x, [], rfl, hl, h⟩
    · obtain ⟨pre, y, post, rfl, hpre, hnot⟩ := ih hl
      exact ⟨pre, y, post ++ [x], by simp, hpre, hnot⟩

/-! ## The obligation -/

theorem mem_codeLens {a : Alphabet} {s : State} {l : Nat} (h : l ∈ codeLens a s) :
    ∃ sym, sym < a.size ∧ clOf a sym s = l := by
  obtain ⟨i, hi, rfl⟩ := List.mem_iff_getElem.1 h
  exact ⟨i, by simpa using hi, (getElem_codeLens hi).symm⟩

theorem clOf_mem_codeLens {a : Alphabet} {sym : Nat} (h : sym < a.size) (s : State) : clOf a sym s ∈ codeLens a s := by
  rw [← length_codeLens a s] at h
  rw [← getElem_codeLens h]
  exact List.getElem_mem h

theorem bitsW_of_appended {s t : State} {bs : List Bool} (h : Appended s t bs) :
    t.wr.bitsW - s.wr.bitsW = BitVec.ofNat 32 bs.length := by
  obtain ⟨-, -, -, hbits, -⟩ := h
  rw [hbits, BitVec.add_comm, BitVec.add_sub_cancel]

/-- Settles O42: the entries are R142's, and their fields are written as far as they fit. -/
theorem serializeWritesTable : Obligations.SerializeWritesTable := by
  intro a s hp
  have hexec : exec (.hufSerialize a) s =
      finish ((serialize a s).bind fun _ t => .ok ⟨t.wr.bitsW - s.wr.bitsW, 0, 0⟩ t) := rfl
  rw [hexec]
  refine ⟨fun ⟨sym, hsym, hlong⟩ => ?_, fun hlens => ?_⟩
  · rw [serialize, require_of_not]
    · rfl
    · intro hall
      exact absurd (of_decide_eq_true (List.all_eq_true.1 hall _ (clOf_mem_codeLens hsym s))) (Nat.not_le.2 hlong)
  · have hcl : ∀ l ∈ codeLens a s, l ≤ maxCodeLenEnc := fun l hl => by
      obtain ⟨sym, hsym, rfl⟩ := mem_codeLens hl
      exact hlens sym hsym
    have hcap := Nat.two_pow_pos a.zb
    obtain ⟨es, hes⟩ : ∃ es, es = tableEntries (2 ^ a.zb) (codeLens a s).length (codeLens a s) := ⟨_, rfl⟩
    have hserialize : serialize a s = writeFields (es.flatMap (TableEntry.fields a)) s := by
      rw [serialize, require_of (List.all_eq_true.2 fun l hl => decide_eq_true (hcl l hl)), hes]
    have hnum : ∀ f ∈ es.flatMap (TableEntry.fields a), Field.IsNumber f := isNumber_of_mem_fields
    have hbits : ∀ pre post, es.flatMap (TableEntry.fields a) = pre ++ post →
        fieldsToBits (fun _ _ => (0, 0)) pre = s.fieldBits pre := fun pre post h =>
      fieldsToBits_numbers (fun f hf => hnum f (h ▸ List.mem_append_left _ hf)) _ _
    have hall : entriesBits a es = s.fieldBits (es.flatMap (TableEntry.fields a)) := hbits _ [] (by simp)
    rw [hserialize]
    refine ⟨es, hes ▸ entryOk_of_mem_tableEntries hcl, hes ▸ entriesLens_tableEntries hcap (Nat.le_refl _) hcl,
      fun pre c d post h => ?_, fun hfit => ?_, fun pre f post h hfit hfull => ?_, fun hlen hfull => ?_⟩
    · have hchain := hes ▸ isChain_tableEntries hcap (codeLens a s).length (codeLens a s)
      rw [h] at hchain
      exact (List.isChain_cons_cons.1 (List.isChain_append.1 hchain).2.1).1 c d rfl rfl
    · rw [hall] at hfit ⊢
      obtain ⟨t, ht, hto, hta, -⟩ := writeFields_appends hp (fun f hf => writable_of_isNumber (hnum f hf) s) hfit
      exact ⟨t, hto, by rw [ht, Res.bind_ok, finish_ok, bitsW_of_appended hta], hta⟩
    · rw [hbits pre (f :: post) h] at hfit ⊢
      rw [hbits (pre ++ [f]) post (by simpa using h)] at hfull
      rw [h] at hnum ⊢
      obtain ⟨t, ht, hto, hta⟩ := writeFields_full hp hnum hfit hfull
      exact ⟨t, hto, by rw [ht]; rfl, hta⟩
    · refine exists_first_not (P := fun fs => s.BitsFit (fieldsToBits (fun _ _ => (0, 0)) fs).length) _ ?_ hfull
      have := s.wr.wcnt.isLt
      simp only [fieldsToBits_nil, List.length_nil, State.BitsFit]
      omega

end Sys2Proof.Machine
end

section
/-! # Canonical codes and their trie (42_huffman.md R138, R146)

The codes of R138's recurrence: no code begins another, so each code leads to its symbol's leaf in the trie, and bits that
begin no code lead to an unpopulated slot. -/

namespace Sys2Proof.Machine

/-! ## Codes as paths (R146) -/

theorem codePath_add (c m k : Nat) : codePath c (m + k) = codePath (c / 2 ^ k) m ++ codePath c k := by
  induction m with
  | zero => simp [codePath]
  | succ m ih => rw [Nat.succ_add, codePath, codePath, ih, Nat.testBit_div_two_pow]; rfl

theorem codePath_injective {c d l : Nat} (hc : c < 2 ^ l) (hd : d < 2 ^ l) (h : codePath c l = codePath d l) : c = d := by
  refine Nat.eq_of_testBit_eq fun i => ?_
  by_cases hi : i < l
  · have hbit := congrArg (fun p => p[l - 1 - i]?) h
    simp only [getElem?_codePath _ _ _ (show l - 1 - i < l by omega)] at hbit
    rw [show l - 1 - (l - 1 - i) = i by omega] at hbit
    exact Option.some.inj hbit
  · have hle : 2 ^ l ≤ 2 ^ i := Nat.pow_le_pow_right (by decide) (by omega)
    rw [Nat.testBit_lt_two_pow (Nat.lt_of_lt_of_le hc hle), Nat.testBit_lt_two_pow (Nat.lt_of_lt_of_le hd hle)]

/-- A code that begins another is its upper bits. -/
theorem eq_div_of_codePath_prefix {c d l m : Nat} (hc : c < 2 ^ l) (hd : d < 2 ^ m)
    (h : codePath c l <+: codePath d m) : l ≤ m ∧ c = d / 2 ^ (m - l) := by
  have hle : l ≤ m := by simpa using h.length_le
  refine ⟨hle, codePath_injective hc (Nat.div_lt_of_lt_mul ?_) ?_⟩
  · rw [← Nat.pow_add, Nat.sub_add_cancel hle]; exact hd
  · have hsplit : codePath d m = codePath (d / 2 ^ (m - l)) l ++ codePath d (m - l) := by
      rw [← codePath_add, Nat.add_sub_cancel' hle]
    rw [hsplit] at h
    exact (List.prefix_of_prefix_length_le h (List.prefix_append _ _) (by simp)).eq_of_length (by simp)

/-! ## The recurrence (R138) -/

theorem length_firstCodes (cl : List Nat) (k l c : Nat) : (firstCodes cl k l c).length = k := by
  induction k generalizing l c with
  | zero => rfl
  | succ k ih => rw [firstCodes, List.length_cons, ih]

theorem firstCodes_succ (cl : List Nat) {k l c i : Nat} (hi : i + 1 < k) : (firstCodes cl k l c).getD (i + 1) 0 =
    ((firstCodes cl k l c).getD i 0 + if l + i = 0 then 0 else cl.count (l + i)) * 2 := by
  induction k generalizing l c i with
  | zero => omega
  | succ k ih =>
    cases i with
    | zero =>
      obtain ⟨k, rfl⟩ := Nat.exists_eq_succ_of_ne_zero (show k ≠ 0 by omega)
      rfl
    | succ i =>
      rw [firstCodes, List.getD_cons_succ, List.getD_cons_succ, ih (by omega), Nat.add_right_comm l 1 i, Nat.add_assoc l i 1]

/-- The first code of a length (R138). -/
def firstCode (cl : List Nat) (l : Nat) : Nat := (firstCodes cl 32 0 0).getD l 0

theorem firstCode_succ (cl : List Nat) {l : Nat} (h0 : l ≠ 0) (h : l + 1 < 32) :
    firstCode cl (l + 1) = (firstCode cl l + cl.count l) * 2 := by
  rw [firstCode, firstCodes_succ cl h, Nat.zero_add, if_neg h0, firstCode]

/-- The codes of a length leave room, at every longer length, for all codes they begin. -/
theorem firstCode_of_lt (cl : List Nat) {l m : Nat} (h0 : l ≠ 0) (hlm : l < m) (hm : m < 32) :
    (firstCode cl l + cl.count l) * 2 ^ (m - l) ≤ firstCode cl m := by
  induction m, hlm using Nat.le_induction with
  | base => rw [firstCode_succ cl h0 hm, show l.succ - l = 1 by omega, Nat.pow_one]
  | succ m hlm ih =>
    rw [firstCode_succ cl (by omega) hm, Nat.succ_sub (by omega), Nat.pow_succ, ← Nat.mul_assoc]
    exact Nat.mul_le_mul_right 2 (Nat.le_trans (ih (by omega)) (Nat.le_add_right _ _))

/-! ## The assignment (R138, R139) -/

/-- A symbol's code fits its length, and is the next of its length, after those of the symbols before it. -/
theorem assignCodes_spec {cl next codes : List Nat} (hlt : ∀ l ∈ cl, l < next.length)
    (h : assignCodes cl next = some codes) :
    codes.length = cl.length ∧ ∀ i, codes.getD i 0 < 2 ^ cl.getD i 0 ∧ (0 < cl.getD i 0 →
      codes.getD i 0 = next.getD (cl.getD i 0) 0 + (cl.take i).count (cl.getD i 0)) := by
  induction cl generalizing next codes with
  | nil => cases h; exact ⟨rfl, fun i => ⟨by simp, fun hi => by simp at hi⟩⟩
  | cons l rest ih =>
    obtain ⟨hl, hrest⟩ := List.forall_mem_cons.1 hlt
    unfold assignCodes at h
    split at h
    · subst_vars
      obtain ⟨cs, hcs, rfl⟩ := Option.map_eq_some_iff.1 h
      obtain ⟨hlen, hall⟩ := ih hrest hcs
      refine ⟨by rw [List.length_cons, hlen, List.length_cons], fun i => ?_⟩
      cases i with
      | zero => exact ⟨Nat.one_pos, fun hi => absurd hi (Nat.lt_irrefl 0)⟩
      | succ i =>
        refine ⟨(hall i).1, fun hi => ?_⟩
        simp only [List.getD_cons_succ, List.take_succ_cons] at hi ⊢
        rw [List.count_cons_of_ne (by omega)]
        exact (hall i).2 hi
    · dsimp only at h
      split at h
      · cases h
      · rename_i hfit
        obtain ⟨cs, hcs, rfl⟩ := Option.map_eq_some_iff.1 h
        obtain ⟨hlen, hall⟩ := ih (by simpa using hrest) hcs
        refine ⟨by rw [List.length_cons, hlen, List.length_cons], fun i => ?_⟩
        cases i with
        | zero => exact ⟨Nat.lt_of_not_le hfit, fun _ => rfl⟩
        | succ i =>
          refine ⟨(hall i).1, fun hi => ?_⟩
          simp only [List.getD_cons_succ, List.take_succ_cons] at hi ⊢
          rw [(hall i).2 hi]
          by_cases heq : rest.getD i 0 = l
          · rw [heq, List.count_cons_self, List.getD_eq_getElem _ _ (by simpa using hl), List.getElem_set_self]
            omega
          · rw [List.count_cons_of_ne (Ne.symm heq), List.getD_eq_getElem?_getD, List.getElem?_set_ne (Ne.symm heq),
              ← List.getD_eq_getElem?_getD]

theorem getElem_of_getD_pos {cl : List Nat} {i : Nat} (hi : 0 < cl.getD i 0) : ∃ h : i < cl.length, cl[i] = cl.getD i 0 := by
  by_cases h : i < cl.length
  · exact ⟨h, (List.getD_eq_getElem _ _ h).symm⟩
  · rw [List.getD_eq_default _ _ (by omega)] at hi
    omega

theorem getD_lt_of_lens {cl : List Nat} {i : Nat} (hlens : ∀ l ∈ cl, l ≤ maxCodeLenDec) : cl.getD i 0 < 32 := by
  by_cases h : i < cl.length
  · rw [List.getD_eq_getElem _ _ h]
    exact Nat.lt_of_le_of_lt (hlens _ (List.getElem_mem h)) (by decide)
  · rw [List.getD_eq_default _ _ (by omega)]
    decide

/-- A symbol of a length counts among the symbols up to any later place. -/
theorem count_take_lt {cl : List Nat} {i n : Nat} (hi : 0 < cl.getD i 0) (hn : i < n) :
    (cl.take i).count (cl.getD i 0) < (cl.take n).count (cl.getD i 0) := by
  obtain ⟨hlt, hget⟩ := getElem_of_getD_pos hi
  have hnext : (cl.take (i + 1)).count (cl.getD i 0) = (cl.take i).count (cl.getD i 0) + 1 := by
    rw [List.take_succ_eq_append_getElem hlt, hget, List.count_append, List.count_singleton_self]
  have hsub : (cl.take (i + 1)).count (cl.getD i 0) ≤ (cl.take n).count (cl.getD i 0) :=
    (List.take_sublist_take_left hn).count_le _
  omega

section
variable {cl codes : List Nat} (hlens : ∀ l ∈ cl, l ≤ maxCodeLenDec) (hcanon : canon cl = some codes)
include hlens hcanon

/-- R138, R139: the canonical codes, each the first of its length and after it. -/
theorem canon_spec : codes.length = cl.length ∧ ∀ i, codes.getD i 0 < 2 ^ cl.getD i 0 ∧ (0 < cl.getD i 0 →
    codes.getD i 0 = firstCode cl (cl.getD i 0) + (cl.take i).count (cl.getD i 0)) :=
  assignCodes_spec (fun l hl => by
    rw [length_firstCodes]; exact Nat.lt_of_le_of_lt (hlens l hl) (by decide)) hcanon

/-- R138, R139: no code begins another symbol's code. -/
theorem canon_prefixFree {i j : Nat} (hi : 0 < cl.getD i 0) (hj : 0 < cl.getD j 0) (hne : i ≠ j) :
    ¬ codePath (codes.getD i 0) (cl.getD i 0) <+: codePath (codes.getD j 0) (cl.getD j 0) := by
  intro hpre
  obtain ⟨-, hspec⟩ := canon_spec hlens hcanon
  obtain ⟨hlti, hcodei⟩ := hspec i
  obtain ⟨hltj, hcodej⟩ := hspec j
  replace hcodei := hcodei hi
  replace hcodej := hcodej hj
  obtain ⟨hle, hdiv⟩ := eq_div_of_codePath_prefix hlti hltj hpre
  rcases Nat.lt_or_eq_of_le hle with hlt | heq
  · have hcount : (cl.take i).count (cl.getD i 0) < cl.count (cl.getD i 0) := by
      obtain ⟨hin, -⟩ := getElem_of_getD_pos hi
      simpa using count_take_lt hi hin
    have hroom := firstCode_of_lt cl (Nat.pos_iff_ne_zero.1 hi) hlt (getD_lt_of_lens hlens)
    have habove : (codes.getD i 0 + 1) * 2 ^ (cl.getD j 0 - cl.getD i 0) ≤ codes.getD j 0 :=
      calc _ ≤ (firstCode cl (cl.getD i 0) + cl.count (cl.getD i 0)) * 2 ^ (cl.getD j 0 - cl.getD i 0) :=
            Nat.mul_le_mul_right _ (by omega)
        _ ≤ firstCode cl (cl.getD j 0) := hroom
        _ ≤ codes.getD j 0 := by omega
    have := (Nat.le_div_iff_mul_le (Nat.two_pow_pos _)).2 habove
    omega
  · rw [heq, Nat.sub_self, Nat.pow_zero, Nat.div_one] at hdiv
    rw [← heq] at hcodej
    rcases Nat.lt_or_gt_of_ne hne with hij | hij
    · have := count_take_lt hi hij
      omega
    · have := count_take_lt hj hij
      rw [← heq] at this
      omega

end

/-! ## Insertion into a trie (R146) -/

/-- Where the path's symbol stands. -/
theorem slotFrom_trieInsert (sym : Nat) (p : List Bool) (t : Trie) : slotFrom (trieInsert sym p t) p = .leaf sym := by
  induction p generalizing t with
  | nil => rfl
  | cons b bs ih =>
    cases t <;> cases b <;> exact ih _

theorem slotFrom_empty (q : List Bool) : slotFrom .empty q = .empty := by cases q <;> rfl

/-- The slot one bit below a trie's top. -/
theorem slotFrom_cons (t : Trie) (b : Bool) (q : List Bool) : slotFrom t (b :: q) = slotFrom (slotFrom t [b]) q :=
  slotFrom_append t [b] q

/-- An insertion goes into one side of a node and leaves the other. -/
theorem slotFrom_trieInsert_one (sym : Nat) (b c : Bool) (bs : List Bool) (t : Trie) :
    slotFrom (trieInsert sym (b :: bs) t) [c] =
      if c = b then trieInsert sym bs (slotFrom t [b]) else slotFrom t [c] := by
  cases t <;> cases b <;> cases c <;> rfl

/-- An insertion leaves every slot whose path and the symbol's neither begins the other. -/
theorem slotFrom_trieInsert_of_diverge {sym : Nat} {p q : List Bool} (h1 : ¬ p <+: q) (h2 : ¬ q <+: p) (t : Trie) :
    slotFrom (trieInsert sym p t) q = slotFrom t q := by
  induction p generalizing q t with
  | nil => exact absurd (List.nil_prefix) h1
  | cons b bs ih =>
    cases q with
    | nil => exact absurd (List.nil_prefix) h2
    | cons c cs =>
      rw [slotFrom_cons, slotFrom_trieInsert_one, slotFrom_cons t c cs]
      split
      · subst_vars
        rw [List.cons_prefix_cons] at h1 h2
        exact ih (fun h => h1 ⟨rfl, h⟩) (fun h => h2 ⟨rfl, h⟩) _
      · rfl

/-- A slot that is unpopulated, and whose path does not begin the symbol's, stays so. -/
theorem slotFrom_trieInsert_empty {sym : Nat} {p q : List Bool} {t : Trie} (h : ¬ q <+: p)
    (ht : slotFrom t q = .empty) : slotFrom (trieInsert sym p t) q = .empty := by
  by_cases hp : p <+: q
  · obtain ⟨r, rfl⟩ := hp
    rw [slotFrom_append, slotFrom_trieInsert]
    cases r with
    | nil => exact absurd (by simp) h
    | cons b bs => rfl
  · rw [slotFrom_trieInsert_of_diverge hp h, ht]

/-! ## The trie of a table (R146) -/

/-- R31: the root of a decode trie, which is internal. -/
def rootNode (t : DecodeTrie) : Trie := .node t.zero t.one

/-- R148: the descent from the root. -/
theorem parse_rootNode (t : DecodeTrie) : t.parse = (rootNode t).parse := rfl

/-- A symbol's path: its code, the most significant bit first; empty without a code. -/
def pathOf (cl codes : List Nat) (sym : Nat) : List Bool := codePath (codes.getD sym 0) (cl.getD sym 0)

theorem pathOf_cons (l c : Nat) (cl codes : List Nat) (k : Nat) :
    pathOf (l :: cl) (c :: codes) (k + 1) = pathOf cl codes k := rfl

theorem rootNode_rootInsert_codePath (sym c l : Nat) (t : DecodeTrie) : rootNode (rootInsert sym (codePath c l) t) =
    if l = 0 then rootNode t else trieInsert sym (codePath c l) (rootNode t) := by
  cases l with
  | zero => rfl
  | succ l =>
    rw [if_neg (by omega), codePath, rootInsert, rootNode, rootNode, trieInsert]
    split <;> rfl

/-- Bits that begin no code, and that no code begins, lead where they led before. -/
theorem slotFrom_trieFrom_of_diverge {q : List Bool} {i : Nat} {cl codes : List Nat} {t : DecodeTrie}
    (h : ∀ k, 0 < cl.getD k 0 → ¬ pathOf cl codes k <+: q ∧ ¬ q <+: pathOf cl codes k) :
    slotFrom (rootNode (trieFrom i cl codes t)) q = slotFrom (rootNode t) q := by
  induction cl generalizing i codes t with
  | nil => rfl
  | cons l ls ih =>
    cases codes with
    | nil => rfl
    | cons c cs =>
      rw [trieFrom, ih fun k hk => h (k + 1) hk, rootNode_rootInsert_codePath]
      split
      · rfl
      · obtain ⟨h1, h2⟩ := h 0 (Nat.pos_of_ne_zero ‹_›)
        exact slotFrom_trieInsert_of_diverge h1 h2 _

/-- Bits that begin no code lead to an unpopulated slot where they did before. -/
theorem slotFrom_trieFrom_empty {q : List Bool} {i : Nat} {cl codes : List Nat} {t : DecodeTrie}
    (h : ∀ k, 0 < cl.getD k 0 → ¬ q <+: pathOf cl codes k) (ht : slotFrom (rootNode t) q = .empty) :
    slotFrom (rootNode (trieFrom i cl codes t)) q = .empty := by
  induction cl generalizing i codes t with
  | nil => exact ht
  | cons l ls ih =>
    cases codes with
    | nil => exact ht
    | cons c cs =>
      refine ih (fun k hk => h (k + 1) hk) ?_
      rw [rootNode_rootInsert_codePath]
      split
      · exact ht
      · exact slotFrom_trieInsert_empty (h 0 (Nat.pos_of_ne_zero ‹_›)) ht

/-- Where no code begins another, each symbol's path leads to its leaf. -/
theorem slotFrom_trieFrom_leaf {i : Nat} {cl codes : List Nat} {t : DecodeTrie} (hlen : codes.length = cl.length)
    (hfree : ∀ j k, 0 < cl.getD j 0 → 0 < cl.getD k 0 → j ≠ k → ¬ pathOf cl codes j <+: pathOf cl codes k)
    {sym : Nat} (hsym : 0 < cl.getD sym 0) :
    slotFrom (rootNode (trieFrom i cl codes t)) (pathOf cl codes sym) = .leaf (i + sym) := by
  induction cl generalizing i codes t sym with
  | nil => simp at hsym
  | cons l ls ih =>
    cases codes with
    | nil => simp at hlen
    | cons c cs =>
      rw [trieFrom]
      cases sym with
      | zero =>
        have hl : l ≠ 0 := Nat.pos_iff_ne_zero.1 hsym
        rw [slotFrom_trieFrom_of_diverge fun k hk =>
          ⟨hfree (k + 1) 0 hk hsym (by omega), hfree 0 (k + 1) hsym hk (by omega)⟩]
        rw [rootNode_rootInsert_codePath, if_neg hl]
        exact slotFrom_trieInsert i _ _
      | succ sym =>
        rw [pathOf_cons, ih (by simpa using hlen) (fun j k hj hk hne => hfree (j + 1) (k + 1) hj hk (by omega)) hsym]
        congr 1
        omega

/-- R146, R154: the trie of canonical codes has each coded symbol's leaf at its code. -/
theorem slotFrom_buildTrie_leaf {cl codes : List Nat} (hlens : ∀ l ∈ cl, l ≤ maxCodeLenDec)
    (hcanon : canon cl = some codes) {sym : Nat} (hsym : 0 < cl.getD sym 0) :
    slotFrom (rootNode (buildTrie cl codes)) (pathOf cl codes sym) = .leaf sym := by
  rw [buildTrie, slotFrom_trieFrom_leaf (canon_spec hlens hcanon).1
    (fun j k hj hk hne => canon_prefixFree hlens hcanon hj hk hne) hsym, Nat.zero_add]

/-- R146: bits that begin no code lead to an unpopulated slot. -/
theorem slotFrom_buildTrie_empty {cl codes : List Nat} {q : List Bool} (hq : q ≠ [])
    (h : ∀ k, 0 < cl.getD k 0 → ¬ q <+: pathOf cl codes k) :
    slotFrom (rootNode (buildTrie cl codes)) q = .empty := by
  refine slotFrom_trieFrom_empty h ?_
  obtain ⟨b, bs, rfl⟩ := List.exists_cons_of_ne_nil hq
  cases b <;> exact slotFrom_empty bs

/-- R31: what is above a populated slot is an internal node. -/
theorem slotFrom_node_of_append {t : Trie} {q r : List Bool} (hr : r ≠ []) (h : slotFrom t (q ++ r) ≠ .empty) :
    ∃ z o, slotFrom t q = .node z o := by
  obtain ⟨b, bs, rfl⟩ := List.exists_cons_of_ne_nil hr
  rw [slotFrom_append] at h
  cases hq : slotFrom t q with
  | node z o => exact ⟨z, o, rfl⟩
  | leaf x => rw [hq] at h; exact absurd rfl h
  | empty => rw [hq] at h; exact absurd rfl h

/-- R148: the descent along a path to a slot that is populated. -/
theorem reads_of_slotFrom {t : Trie} {bs : List Bool} (h : slotFrom t bs ≠ .empty) :
    Parse.Reads t.parse bs (slotFrom t bs).parse := by
  induction bs generalizing t with
  | nil => exact .refl _
  | cons b bs ih =>
    cases t with
    | empty => exact absurd rfl h
    | leaf x => exact absurd rfl h
    | node z o =>
      have hone := Parse.Reads.one .inSymbol (fun v => if v = 0 then z.parse else o.parse) b
      cases b
      · exact hone.trans (ih (t := z) h)
      · exact hone.trans (ih (t := o) h)

end Sys2Proof.Machine
end

section
/-! # Coded events (30_encoding.md R73 to R76)

A reader's plan follows the fields of an event: each field in turn, each code by its trie. Where the tries hold the codes,
the bits of the fields are read back. -/

namespace Sys2Proof.Machine

/-! ## Codes and tries -/

/-- The trie holds the codes (R146): each leads to its symbol, and bits that begin none lead to an unpopulated slot. -/
structure TrieHolds (code : Nat → Nat × Nat) (t : DecodeTrie) : Prop where
  leaf : ∀ sym, 0 < (code sym).1 → slotFrom (rootNode t) (codePath (code sym).2 (code sym).1) = .leaf sym
  empty : ∀ bits, bits ≠ [] → OutsideCodes code bits → slotFrom (rootNode t) bits = .empty

/-- R154: the trie of canonical codes holds them. -/
theorem trieHolds_buildTrie {cl codes : List Nat} (hlens : ∀ l ∈ cl, l ≤ maxCodeLenDec) (hcanon : canon cl = some codes) :
    TrieHolds (fun sym => (cl.getD sym 0, codes.getD sym 0)) (buildTrie cl codes) where
  leaf _ hsym := slotFrom_buildTrie_leaf hlens hcanon hsym
  empty _ hne hout := slotFrom_buildTrie_empty hne hout

/-- R146, R148: bits that begin a code without being the whole of it lead to an internal node. -/
theorem TrieHolds.node {code : Nat → Nat × Nat} {t : DecodeTrie} (h : TrieHolds code t) {part : List Bool}
    (hin : InsideCode code part) : ∃ z o, slotFrom (rootNode t) part = .node z o := by
  rcases hin with rfl | ⟨sym, ⟨r, hr⟩, hlt⟩
  · exact ⟨_, _, rfl⟩
  · refine slotFrom_node_of_append (r := r) ?_ ?_
    · rintro rfl
      rw [List.append_nil] at hr
      rw [hr, length_codePath] at hlt
      exact Nat.lt_irrefl _ hlt
    · rw [hr, h.leaf sym (by omega)]
      exact nofun

/-- R148: a symbol's code leads the descent to the symbol. -/
theorem TrieHolds.reads {code : Nat → Nat × Nat} {t : DecodeTrie} (h : TrieHolds code t) {sym : Nat}
    (hsym : 0 < (code sym).1) : Parse.Reads t.parse (codePath (code sym).2 (code sym).1) (.done sym) := by
  have hleaf := h.leaf sym hsym
  have hreads := reads_of_slotFrom (t := rootNode t) (bs := codePath (code sym).2 (code sym).1) (by rw [hleaf]; exact nofun)
  rw [hleaf] at hreads
  rw [parse_rootNode]
  exact hreads

/-! ## A plan along a list of fields -/

/-- The plan reads these fields one after another, a code by the trie of its alphabet; then a plan is left. -/
inductive Parse.Follows (trie : Alphabet → DecodeTrie) {α : Type} : Parse α → List Field → Parse α → Prop
  | nil (p : Parse α) : Parse.Follows trie p [] p
  | bits {v n : Nat} {k : Nat → Parse α} {fs : List Field} {q : Parse α} (hv : v < 2 ^ n)
      (h : Parse.Follows trie (k v) fs q) : Parse.Follows trie (.field .inField n k) (.bits v n :: fs) q
  | code {a : Alphabet} {sym : Nat} {k : Nat → Parse α} {fs : List Field} {q : Parse α}
      (h : Parse.Follows trie (k sym) fs q) : Parse.Follows trie ((trie a).parse.bind k) (.code a sym :: fs) q

section
variable {trie : Alphabet → DecodeTrie} {α : Type} {p q : Parse α}

theorem Parse.Follows.split {pre post : List Field} (h : Parse.Follows trie p (pre ++ post) q) :
    ∃ r, Parse.Follows trie p pre r ∧ Parse.Follows trie r post q := by
  induction pre generalizing p with
  | nil => exact ⟨p, .nil p, h⟩
  | cons f pre ih =>
    cases h with
    | bits hv h =>
      obtain ⟨r, h1, h2⟩ := ih h
      exact ⟨r, .bits hv h1, h2⟩
    | code h =>
      obtain ⟨r, h1, h2⟩ := ih h
      exact ⟨r, .code h1, h2⟩

/-- R74: a field that is left out when its width is 0. -/
theorem Parse.Follows.optField {v n : Nat} (hv : v < 2 ^ n) {k : Nat → Parse α} {fs : List Field}
    (h : Parse.Follows trie (k v) fs q) : Parse.Follows trie ((fieldParse n).bind k) (optField v n ++ fs) q := by
  unfold fieldParse Sys2Proof.optField
  split
  · subst_vars
    rw [Nat.lt_one_iff.1 hv] at h
    exact h
  · exact .bits hv h

/-- The bits of the fields, read along the plan. -/
theorem Parse.Follows.reads {code : Alphabet → Nat → Nat × Nat} (hold : ∀ a, TrieHolds (code a) (trie a))
    {fs : List Field} (h : Parse.Follows trie p fs q) (hc : ∀ a sym, Field.code a sym ∈ fs → 0 < (code a sym).1) :
    Parse.Reads p (fieldsToBits code fs) q := by
  induction h with
  | nil p => exact .refl p
  | bits hv h ih =>
    rw [fieldsToBits_cons]
    exact (Parse.Reads.value .inField hv _).trans (ih fun a sym hf => hc a sym (List.mem_cons_of_mem _ hf))
  | @code a sym k fs q h ih =>
    have hsym := ((hold a).reads (hc a sym (List.mem_cons_self ..))).bind k
    rw [fieldsToBits_cons, Field.toBits, toBits_revBits]
    exact hsym.trans (ih fun a sym hf => hc a sym (List.mem_cons_of_mem _ hf))

end

/-! ## The plan of an event (R73, R199) -/

/-- The plan left once a length slot and its extra value have been read (R199, R200). -/
def distPlan (ds : DecodeTrie) (k e : Nat) : Parse StreamEvent :=
  if k = 0 then (fieldParse rawDistBits).bind fun d => .done (.match3 (BitVec.ofNat 12 d))
  else
    ds.parse.bind fun j => (fieldParse (nbDist j)).bind fun x =>
      .done (.matchSlot (BitVec.ofNat 5 k) (BitVec.ofNat 7 e) (BitVec.ofNat 5 j) (BitVec.ofNat 14 x))

/-- The plan left once the literal/length symbol has been read (R199). -/
def symbolPlan (ds : DecodeTrie) (s : Nat) : Parse StreamEvent :=
  if s < eosSymbol then .done (.lit (BitVec.ofNat 8 s))
  else if s = eosSymbol then .done .eos
  else (fieldParse (nbLen (s - lenSymbol0))).bind (distPlan ds (s - lenSymbol0))

theorem eventParse_eq (ll ds : DecodeTrie) : eventParse ll ds = ll.parse.bind (symbolPlan ds) := rfl

theorem symbolPlan_lit (ds : DecodeTrie) (b : Byte) : symbolPlan ds b.toNat = .done (.lit b) := by
  have hb : b.toNat < eosSymbol := b.isLt
  rw [symbolPlan, if_pos hb, BitVec.ofNat_toNat, BitVec.setWidth_eq]

theorem symbolPlan_len (ds : DecodeTrie) (k : Nat) :
    symbolPlan ds (lenSymbol0 + k) = (fieldParse (nbLen k)).bind (distPlan ds k) := by
  unfold symbolPlan
  rw [if_neg (by unfold lenSymbol0 eosSymbol; omega), if_neg (by unfold lenSymbol0 eosSymbol; omega),
    Nat.add_sub_cancel_left]

theorem distPlan_match (ds : DecodeTrie) {k : BitVec 5} (hk : k.toNat ≠ 0) (e : BitVec 7) :
    distPlan ds k.toNat e.toNat = ds.parse.bind fun j => (fieldParse (nbDist j)).bind fun x =>
      .done (.matchSlot k e (BitVec.ofNat 5 j) (BitVec.ofNat 14 x)) := by
  rw [distPlan, if_neg hk]
  simp only [BitVec.ofNat_toNat, BitVec.setWidth_eq]

/-- R73: the plan follows the fields of every well-formed event. -/
theorem eventParse_follows (trie : Alphabet → DecodeTrie) {e : StreamEvent} (hw : wellFormed e.toInstr = true) :
    Parse.Follows trie (eventParse (trie .ll) (trie .ds)) e.fields (.done e) := by
  rw [eventParse_eq]
  cases e with
  | lit b =>
    refine .code (a := .ll) ?_
    rw [symbolPlan_lit]
    exact .nil _
  | eos => exact .code (a := .ll) (.nil _)
  | match3 d =>
    refine .code (a := .ll) ?_
    have hd : Parse.Follows trie (distPlan (trie .ds) 0 0) [.bits d.toNat rawDistBits] (.done (.match3 d)) := by
      refine Parse.Follows.optField (n := rawDistBits) d.isLt ?_
      rw [BitVec.ofNat_toNat, BitVec.setWidth_eq]
      exact .nil _
    exact symbolPlan_len _ 0 ▸ Parse.Follows.optField (v := 0) (n := nbLen 0) (by decide) hd
  | matchSlot k e j x =>
    obtain ⟨hk, -, he, hx⟩ := wellFormed_matchSlot hw
    refine .code (a := .ll) ?_
    rw [symbolPlan_len]
    refine .optField he ?_
    rw [distPlan_match _ (Nat.pos_iff_ne_zero.1 hk)]
    refine .code (a := .ds) ?_
    rw [← List.append_nil (optField _ _)]
    refine .optField hx ?_
    rw [BitVec.ofNat_toNat, BitVec.ofNat_toNat, BitVec.setWidth_eq, BitVec.setWidth_eq]
    exact .nil _

/-- R73 to R76: where the tries hold the codes, a coded event's bits are read as the event. -/
theorem eventParse_reads {trie : Alphabet → DecodeTrie} {code : Alphabet → Nat → Nat × Nat}
    (hold : ∀ a, TrieHolds (code a) (trie a)) {e : StreamEvent} (hw : wellFormed e.toInstr = true)
    (hc : eventCoded code e) :
    Parse.Reads (eventParse (trie .ll) (trie .ds)) (fieldsToBits code e.fields) (.done e) :=
  (eventParse_follows trie hw).reads hold hc

/-- Settles O4: the tries hold the codes, so the event's plan reads the bits of its fields. -/
theorem eventReadsBack : Obligations.EventReadsBack := by
  intro cl codes hcl e rest hw hc
  have hold : ∀ a, TrieHolds (fun sym => ((cl a).getD sym 0, (codes a).getD sym 0)) (buildTrie (cl a) (codes a)) :=
    fun a => trieHolds_buildTrie (hcl a).2.1 (hcl a).2.2
  exact (eventParse_reads (trie := fun a => buildTrie (cl a) (codes a))
    (code := fun a sym => ((cl a).getD sym 0, (codes a).getD sym 0)) hold hw hc).onBits rest

end Sys2Proof.Machine
end

section
/-! # The engine's turn inside a stream (R69, R147, R199)

A turn reads one element and runs it; past a table's end it goes on, at the symbol stream with the tries built. -/

namespace Sys2Proof.Machine

/-! ## The turn by the place in the stream -/

section
variable {s : State} (hr : s.rstAsserted = false) (hb : s.ctl.busy = true) (ht : s.host.todo = [])
include hr hb ht

theorem step_runEntry {a : Alphabet} {i : Nat} {b0 : Word} (hpos : s.prog.pos = .table a i b0) (hi : i < a.size) :
    step s = runEntry a s := by
  simp [step, ht, engineTurn, hr, hb, hpos, Nat.not_le.2 hi]

theorem step_tableDone {a : Alphabet} {i : Nat} {b0 : Word} (hpos : s.prog.pos = .table a i b0) (hi : a.size ≤ i) :
    step s = tableDone a b0 s := by
  simp [step, ht, engineTurn, hr, hb, hpos, hi]

theorem step_runEvent {nl nm : Nat} (hpos : s.prog.pos = .events nl nm) : step s = runEvent s := by
  simp [step, ht, engineTurn, hr, hb, hpos]

end

/-- R145: the table of HUF_DESERIALIZE has been read. -/
theorem tableDone_deserialize {a : Alphabet} {b : Alphabet} {s : State} (h : decodeWord s.ctl.cmd = .ok (.hufDeserialize b))
    (b0 : Word) : tableDone a b0 s = .next (s.complete (s.rd.bitsR - b0) 0 0) :=
  if_neg (by rw [h]; exact nofun)

/-- R199: inside EXPAND the distance table follows the literal/length table. -/
theorem tableDone_expand_ll {s : State} (h : decodeWord s.ctl.cmd = .ok .expand) (b0 : Word) :
    tableDone .ll b0 s = .next (s.setPos (.table .ds 0 s.rd.bitsR)) := if_pos h

/-- R199: inside EXPAND the symbol stream follows both tables, once their tries are built. -/
theorem tableDone_expand_ds {s t : State} (h : decodeWord s.ctl.cmd = .ok .expand) (ht : expandTries s = .ok () t)
    (b0 : Word) : tableDone .ds b0 s = .next (t.setPos (.events 0 0)) := by
  simp [tableDone, h, ht]

/-- R139, R216: or the command ends. -/
theorem tableDone_expand_err {s t : State} {e : Err} (h : decodeWord s.ctl.cmd = .ok .expand)
    (ht : expandTries s = .err e t) (b0 : Word) : tableDone .ds b0 s = .next (t.fail e) := by
  simp [tableDone, h, ht]

/-! ## HUF_TRIE's effect (R147) -/

/-- The state with the codes of an alphabet and their trie (R141, R146). -/
def withTrie (a : Alphabet) (codes : List Nat) (s : State) : State :=
  s.setTab a
    { s.tab a with code := tableOf a.size 0 (codes.map (BitVec.ofNat 21)), trie := buildTrie (codeLens a s) codes }

theorem hufTrie_of_canon {a : Alphabet} {s : State} {codes : List Nat} (h : canon (codeLens a s) = some codes) :
    hufTrie a s = .ok () (withTrie a codes s) := by
  simp [hufTrie, h, withTrie, setCodes]

theorem hufTrie_of_none {a : Alphabet} {s : State} (h : canon (codeLens a s) = none) :
    hufTrie a s = .err (.corrupt .oversubscribed) s := by
  simp [hufTrie, h]

section
variable (a b : Alphabet) (codes : List Nat) (s : State)

theorem withTrie_only : OnlyCodeTrie a s (withTrie a codes s) := by
  unfold OnlyCodeTrie withTrie
  simp

@[simp] theorem withTrie_trie : ((withTrie a codes s).tab a).trie = buildTrie (codeLens a s) codes := by
  simp [withTrie]

@[simp] theorem withTrie_code :
    ((withTrie a codes s).tab a).code = tableOf a.size 0 (codes.map (BitVec.ofNat 21)) := by
  simp [withTrie]

@[simp] theorem codeLens_withTrie : codeLens b (withTrie a codes s) = codeLens b s := by
  cases a <;> cases b <;> rfl

end

/-- R141: the codes stored are the canonical codes; none has more than 21 bits. -/
theorem codeOf_withTrie {a : Alphabet} {s : State} {codes : List Nat} (hlens : LengthsOk a s)
    (h : canon (codeLens a s) = some codes) (sym : Nat) : codeOf a sym (withTrie a codes s) = codes.getD sym 0 := by
  obtain ⟨hlen, hspec⟩ := canon_spec hlens h
  have hlt : codes.getD sym 0 < 2 ^ 21 := by
    refine Nat.lt_of_lt_of_le (hspec sym).1 (Nat.pow_le_pow_right (by decide) ?_)
    by_cases hsym : sym < (codeLens a s).length
    · rw [List.getD_eq_getElem _ _ hsym]
      exact hlens _ (List.getElem_mem hsym)
    · rw [List.getD_eq_default _ _ (by omega)]
      exact Nat.zero_le _
  have hzero : (0 : BitVec 21) = BitVec.ofNat 21 0 := rfl
  rw [codeOf, withTrie_code, tableGet_tableOf _ _ (by rw [List.length_map, hlen, length_codeLens]), hzero, List.getD_map,
    BitVec.toNat_ofNat, Nat.mod_eq_of_lt hlt]

/-- R199: the tries of both tables. -/
theorem expandTries_of_canon {s : State} {codes : Alphabet → List Nat}
    (h : ∀ a, canon (codeLens a s) = some (codes a)) :
    expandTries s = .ok () (withTrie .ds (codes .ds) (withTrie .ll (codes .ll) s)) := by
  rw [expandTries, hufTrie_of_canon (h .ll), Res.bind_ok, hufTrie_of_canon (by rw [codeLens_withTrie]; exact h .ds)]

/-- R139, R199: a table without canonical codes; the literal/length table is the first. -/
theorem expandTries_of_none {s : State} :
    (canon (codeLens .ll s) = none → expandTries s = .err (.corrupt .oversubscribed) s) ∧
    (∀ codes, canon (codeLens .ll s) = some codes → canon (codeLens .ds s) = none →
      expandTries s = .err (.corrupt .oversubscribed) (withTrie .ll codes s)) := by
  refine ⟨fun h => ?_, fun codes h hds => ?_⟩
  · rw [expandTries, hufTrie_of_none h, Res.bind_err]
  · rw [expandTries, hufTrie_of_canon h, Res.bind_ok, hufTrie_of_none (by rw [codeLens_withTrie]; exact hds)]

/-! ## The obligation -/

/-- Settles O7: the turn at each place of a stream; the element's bits by `runParse_onBits`, the tries by `hufTrie`. -/
theorem stepRunsReadElement : Obligations.StepRunsReadElement := by
  intro s hp hr hb ht
  refine ⟨fun a i b0 bs e hpos hi hin hbits => ?_, fun nl nm bs e hpos hin hbits => ?_, fun a i b0 hpos hi hcmd => ?_,
    fun i b0 hpos hi hcmd => ?_, fun i b0 hpos hi hcmd hlens => ?_⟩
  · obtain ⟨t, hrun, hto, -, htc, -⟩ := runParse_onBits (entryParse_narrow a) hp hin hbits
    exact ⟨t, hto, htc, by rw [step_runEntry hr hb ht hpos hi, runEntry, hrun]⟩
  · obtain ⟨t, hrun, hto, -, htc, -⟩ := runParse_onBits (eventParse_narrow _ _) hp hin hbits
    exact ⟨t, hto, htc, by rw [step_runEvent hr hb ht hpos, runEvent, readEvent, hrun]⟩
  · rw [step_tableDone hr hb ht hpos hi, tableDone_deserialize hcmd]
  · rw [step_tableDone hr hb ht hpos hi, tableDone_expand_ll hcmd]
  · rw [step_tableDone hr hb ht hpos hi]
    refine ⟨fun hll => tableDone_expand_err hcmd (expandTries_of_none.1 hll) b0, fun codes hll hds => ?_,
      fun codes hcodes => ?_⟩
    · exact ⟨withTrie .ll codes s, withTrie_only _ _ _, tableDone_expand_err hcmd (expandTries_of_none.2 codes hll hds) b0,
        withTrie_trie .ll _ _, fun sym _ => codeOf_withTrie (hlens .ll) hll sym⟩
    · refine ⟨withTrie .ds (codes .ds) (withTrie .ll (codes .ll) s), rfl,
        tableDone_expand_ds hcmd (expandTries_of_canon hcodes) b0, fun a => ?_⟩
      cases a with
      | ll => exact ⟨withTrie_trie .ll _ _, fun sym _ => codeOf_withTrie (hlens .ll) (hcodes .ll) sym⟩
      | ds => exact ⟨withTrie_trie .ds _ _, fun sym _ => codeOf_withTrie (s := s) (hlens .ds) (hcodes .ds) sym⟩

end Sys2Proof.Machine
end

section
/-! # Events and their output (44_pipelines.md R193, R194, R199)

The machine's appends and copies make the output the events stand for; an event whose bits or whose output go wrong is its
error. -/

namespace Sys2Proof.Machine

/-! ## The output so far (R193, R194) -/

/-- The output so far is `out`: it stands in OBUF, of which nothing else has changed since it was `m`, and the window is at
its end and holds its last bytes. -/
structure Output (m : Memory) (t : State) (out : List Byte) : Prop where
  holds : Memory.Holds t.obuf out
  len : t.wr.outLen.toNat = out.length
  rest : ∀ k, out.length ≤ k → Memory.read? t.obuf k = Memory.read? m k
  pos : t.win.pos.toNat = out.length % windowSize
  fill : t.win.fill.toNat = min out.length windowSize
  back : ∀ d, 1 ≤ d → d ≤ min out.length windowSize →
    Memory.read? t.win.bytes (windowBack t d) = some (out.getD (out.length - d) 0)

section
variable {m : Memory} {t : State} {out : List Byte}

theorem Output.of_reader {u : State} (h : Output m t out) (ho : OnlyReader t u) : Output m u out := by
  rw [ho]; exact { h with }

/-- The index one byte further is that of one byte less back. -/
theorem windowBack_windowPush (b : Byte) (t : State) {d : Nat} (h1 : 1 ≤ d) (hd : d ≤ windowSize) :
    windowBack (windowPush b t) d = (t.win.pos.toNat + windowSize - (d - 1)) % windowSize := by
  have hpos : (windowPush b t).win.pos.toNat = (t.win.pos.toNat + 1) % windowSize := BitVec.toNat_add ..
  have := t.win.pos.isLt
  rw [windowBack_eq _ hd, hpos]
  unfold windowSize at *
  omega

theorem Output.push (h : Output m t out) (hlt : out.length + 1 < 2 ^ 25) (b : Byte) :
    Output m (windowPush b t) (out ++ [b]) := by
  have hlen := h.len
  have hlast : (out ++ [b]).length = out.length + 1 := by simp
  refine ⟨fun i hi => ?_, ?_, fun k hk => ?_, ?_, ?_, fun d h1 hd => ?_⟩
  · rw [windowPush_obuf, Memory.read?_write, hlen]
    split
    · subst_vars; simp
    · rw [h.holds i (by omega), List.getElem?_append_left (by omega)]
  · rw [toNat_outLen_windowPush b (by omega), hlen, hlast]
  · rw [windowPush_obuf, Memory.read?_write_of_ne _ _ (by omega), h.rest k (by omega)]
  · have hpos : (windowPush b t).win.pos.toNat = (t.win.pos.toNat + 1) % windowSize := BitVec.toNat_add ..
    rw [hpos, h.pos, hlast, Nat.mod_add_mod]
  · rw [toNat_fill_windowPush, h.fill, hlast]
    omega
  · have hW : d ≤ windowSize := by omega
    have hpos := t.win.pos.isLt
    rw [windowBack_windowPush b t h1 hW, windowPush_bytes, Memory.read?_write, hlast]
    by_cases hone : d = 1
    · subst hone
      rw [if_pos (by unfold windowSize at *; omega)]
      simp
    · rw [if_neg (by unfold windowSize at *; omega), ← windowBack_eq t (by omega), h.back (d - 1) (by omega) (by omega),
        List.getD_eq_getElem?_getD, List.getD_eq_getElem?_getD, List.getElem?_append_left (by omega)]
      congr 3
      omega

theorem length_copyBack (d n : Nat) (out : List Byte) : (copyBack d n out).length = out.length + n := by
  induction n generalizing out with
  | zero => rfl
  | succ n ih => rw [copyBack, ih, List.length_append, List.length_singleton]; omega

/-- R194: the machine's copy makes the copy's output. -/
theorem Output.copy {d n : Nat} (h : Output m t out) (h1 : 1 ≤ d) (hd : d ≤ min out.length windowSize)
    (hlt : out.length + n < 2 ^ 25) : ∃ u, copyLoop d n t = .ok () u ∧ Output m u (copyBack d n out) := by
  induction n generalizing t out with
  | zero => exact ⟨t, rfl, h⟩
  | succ n ih =>
    have hlast : (out ++ [out.getD (out.length - d) 0]).length = out.length + 1 := by simp
    obtain ⟨u, hu, hout⟩ := ih (h.push (by omega) (out.getD (out.length - d) 0)) (by omega) (by omega)
    exact ⟨u, by rw [copyLoop, windowRead_of (h.back d h1 hd), Res.bind_ok, hu], hout⟩

end

/-! ## Events and their output (R199, R200) -/

/-- An event is a literal, the end of stream or a match. -/
theorem lit_or_eos_or_match (e : StreamEvent) :
    (∃ b, e = .lit b) ∨ e = .eos ∨ ∃ l d, matchOf e = some (l, d) := by
  cases e with
  | lit b => exact .inl ⟨b, rfl⟩
  | eos => exact .inr (.inl rfl)
  | match3 d => exact .inr (.inr ⟨_, _, rfl⟩)
  | matchSlot k e j x => exact .inr (.inr ⟨_, _, rfl⟩)

theorem replay_match {e : StreamEvent} {l d : Nat} (h : matchOf e = some (l, d)) (es : List StreamEvent)
    (out : List Byte) : replay (e :: es) out = (replayCopy l d out).bind (replay es) := by
  cases e <;> cases h <;> rfl

theorem replay_cons (e : StreamEvent) (es : List StreamEvent) (out : List Byte) :
    replay (e :: es) out = (replay [e] out).bind (replay es) := by
  rcases lit_or_eos_or_match e with ⟨b, rfl⟩ | rfl | ⟨l, d, h⟩
  · rfl
  · rfl
  · rw [replay_match h, replay_match h]
    cases replayCopy l d out <;> rfl

theorem replayCopy_eq_some {l d : Nat} {out out' : List Byte} (h : replayCopy l d out = some out') :
    d ≤ min out.length windowSize ∧ out' = copyBack d l out := by
  unfold replayCopy at h
  split at h
  · exact ⟨‹_›, (Option.some.inj h).symm⟩
  · cases h

theorem replayCopy_eq_none {l d : Nat} {out : List Byte} (h : replayCopy l d out = none) :
    min out.length windowSize < d := by
  unfold replayCopy at h
  split at h
  · cases h
  · omega

theorem length_le_of_replay {es : List StreamEvent} {out out' : List Byte} (h : replay es out = some out') :
    out.length ≤ out'.length := by
  induction es generalizing out with
  | nil => cases h; exact Nat.le_refl _
  | cons e es ih =>
    rcases lit_or_eos_or_match e with ⟨b, rfl⟩ | rfl | ⟨l, d, hm⟩
    · exact Nat.le_trans (by simp) (ih h)
    · cases h
    · rw [replay_match hm] at h
      obtain ⟨mid, hmid, h⟩ := Option.bind_eq_some_iff.1 h
      obtain ⟨-, rfl⟩ := replayCopy_eq_some hmid
      exact Nat.le_trans (by rw [length_copyBack]; omega) (ih h)

theorem streamLits_cons (e : StreamEvent) (es : List StreamEvent) :
    streamLits (e :: es) = streamLits [e] + streamLits es := by
  cases e <;> simp [streamLits, Nat.add_comm]

theorem streamLits_le (es : List StreamEvent) : streamLits es ≤ es.length := List.length_filter_le _ _

theorem streamLits_match {e : StreamEvent} {l d : Nat} (h : matchOf e = some (l, d)) : streamLits [e] = 0 := by
  cases e <;> cases h <;> rfl

section
variable {m : Memory} {t : State} {out : List Byte} {e : StreamEvent} (hp : t.params.ok) (hout : Output m t out)
  (hw : wellFormed e.toInstr = true)
include hp hout hw

/-- R199: an event whose output fits makes it. -/
theorem applyEvent_replay {out' : List Byte} (hrep : replay [e] out = some out')
    (hfit : out'.length ≤ t.params.obufSize) (nl nm : Nat) :
    ∃ u, applyEvent e nl nm t = .ok (some (nl + streamLits [e], nm + (1 - streamLits [e]))) u ∧ OnlyWindow t u ∧
      Output m u out' := by
  obtain ⟨-, -, -, hsize, -⟩ := hp
  have hlen := hout.len
  rcases lit_or_eos_or_match e with ⟨b, rfl⟩ | rfl | ⟨l, d, hm⟩
  · cases hrep
    rw [List.length_append, List.length_singleton] at hfit
    exact ⟨windowPush b t, by rw [applyEvent, winPut_fits (by omega)]; rfl, windowPush_only b t,
      hout.push (by omega) b⟩
  · cases hrep
  · rw [replay_match hm] at hrep
    obtain ⟨mid, hmid, hrep⟩ := Option.bind_eq_some_iff.1 hrep
    cases hrep
    obtain ⟨hd, rfl⟩ := replayCopy_eq_some hmid
    rw [length_copyBack] at hfit
    have hr := matchOf_range hm hw
    obtain ⟨u, hu, hou⟩ := hout.copy (n := l) hr.2.2.1 hd (by omega)
    have hcopy : winCopy l d t = .ok () u := by
      rw [winCopy_runs hr (by rw [hout.fill]; exact hd) (by omega), hu]
    refine ⟨u, ?_, (copyLoop_stays d l t).ok hu, hou⟩
    rw [applyEvent_match hm, hcopy, streamLits_match hm]
    rfl

omit hp in
/-- R199, R194, R193: an event whose output goes wrong changes nothing. -/
theorem applyEvent_bad {er : Err} (hbad : BadOutput e out t.params.obufSize er) (nl nm : Nat) :
    applyEvent e nl nm t = .err er t := by
  have hlen := hout.len
  rcases lit_or_eos_or_match e with ⟨b, rfl⟩ | rfl | ⟨l, d, hm⟩
  · cases hbad with
    | distance h _ => cases h
    | full out' h hf =>
      cases h
      rw [List.length_append, List.length_singleton] at hf
      rw [applyEvent, winPut_full (by omega)]
      rfl
  · cases hbad with
    | distance _ hne => exact absurd rfl hne
    | full out' h _ => cases h
  · have hr := matchOf_range hm hw
    rw [applyEvent_match hm]
    cases hbad with
    | distance h _ =>
      rw [replay_match hm] at h
      have hnone : replayCopy l d out = none := by
        cases hc : replayCopy l d out with
        | none => rfl
        | some mid => rw [hc] at h; cases h
      rw [winCopy_before_start hr (by rw [hout.fill]; exact replayCopy_eq_none hnone)]
      rfl
    | full out' h hf =>
      rw [replay_match hm] at h
      obtain ⟨mid, hmid, h⟩ := Option.bind_eq_some_iff.1 h
      cases h
      obtain ⟨hd, rfl⟩ := replayCopy_eq_some hmid
      rw [length_copyBack] at hf
      rw [winCopy_full hr (by rw [hout.fill]; exact hd) (by omega)]
      rfl

end

/-! ## Reading an event that goes wrong (R148, R199) -/

theorem consumed_trans {s t u : State} {k n : Nat} (h1 : Consumed s t k) (h2 : Consumed t u n) :
    Consumed s u (k + n) := by
  refine ⟨by rw [h2.1, h1.1, Nat.add_assoc], ?_⟩
  rw [h2.2, h1.2, BitVec.add_assoc, ← BitVec.ofNat_add]

/-- R148: from an internal node one bit leads to an unpopulated slot. -/
theorem reads_unpopulated {t z o : Trie} {bs : List Bool} {b : Bool} (h : slotFrom t bs = .node z o)
    (hempty : slotFrom t (bs ++ [b]) = .empty) : Parse.Reads t.parse (bs ++ [b]) .unpopulated := by
  have hnode := slotFrom_reads h
  rw [h] at hnode
  rw [slotFrom_append, h] at hempty
  have hbit := Parse.Reads.one .inSymbol (fun v => if v = 0 then z.parse else o.parse) b
  cases b
  · obtain rfl : z = .empty := hempty
    exact hnode.trans hbit
  · obtain rfl : o = .empty := hempty
    exact hnode.trans hbit

/-- R199, R148: an event whose bits go wrong is its error, after the bits that were read. -/
theorem readEvent_bad {code : Alphabet → Nat → Nat × Nat} {bad : List Bool} {er : Err} {n : Nat} {atEnd : Bool}
    (hbad : BadEvent code bad er n atEnd) {t : State} (hold : ∀ a, TrieHolds (code a) (t.tab a).trie) (hp : t.params.ok)
    (hin : t.InputHas bad) (hend : atEnd = true → t.avail = bad.length) :
    ∃ u, readEvent t = .err er u ∧ OnlyReader t u ∧ Consumed t u n := by
  have hnar := eventParse_narrow t.ll.trie t.ds.trie
  have hfollows := fun e hw => eventParse_follows (fun a => (t.tab a).trie) (e := e) hw
  cases hbad with
  | field e hw pre post v w part hf hc hpart =>
    obtain ⟨r, hpre, hpost⟩ := (hf ▸ hfollows e hw).split
    cases hpost
    obtain ⟨hr, u, hu, huo, huc, hui⟩ := runParse_reads (hpre.reads hold hc) hnar hp hin
    refine ⟨u, hu.trans (runParse_short hr.1 hui.1 ?_), huo, huc⟩
    have hav := hend rfl
    rw [List.length_append] at hav
    rw [avail_consumed huo huc]
    omega
  | symbol e hw pre post a sym part hf hc hi =>
    obtain ⟨r, hpre, hpost⟩ := (hf ▸ hfollows e hw).split
    cases hpost with
    | @code _ _ k _ _ _ =>
      obtain ⟨z, o, hnode⟩ := (hold a).node hi
      have hpart := (slotFrom_reads hnode).bind k
      rw [hnode] at hpart
      obtain ⟨-, u, hu, huo, huc, hui⟩ :=
        runParse_reads (rest := []) ((hpre.reads hold hc).trans hpart) hnar hp (by simpa using hin)
      refine ⟨u, hu.trans (runParse_short (by decide) hui.1 ?_), huo, huc⟩
      rw [avail_consumed huo huc, hend rfl]
      omega
  | slot e hw pre post a sym part b hf hc hi ho =>
    obtain ⟨r, hpre, hpost⟩ := (hf ▸ hfollows e hw).split
    cases hpost with
    | @code _ _ k _ _ _ =>
      obtain ⟨z, o, hnode⟩ := (hold a).node hi
      have hpart := (reads_unpopulated hnode ((hold a).empty _ (by simp) ho)).bind k
      obtain ⟨-, u, hu, huo, huc, -⟩ :=
        runParse_reads (rest := []) ((hpre.reads hold hc).trans hpart) hnar hp (by simpa using hin)
      exact ⟨u, hu, huo, huc⟩

end Sys2Proof.Machine
end

section
/-! # EXPAND (44_pipelines.md R199 to R201)

The two tables, then the symbol stream event by event: at each point the output so far is the events', and the reader is
just after what has been read. -/

namespace Sys2Proof.Machine

/-! ## Inside the symbol stream -/

/-- EXPAND of `s` stands at `t` in the symbol stream: both tables read and their tries built, `n` bits read since the
stream began, and the output so far is `out`. -/
structure InStream (s t : State) (es : Alphabet → List TableEntry) (code : Alphabet → Nat → Nat × Nat)
    (out : List Byte) (n : Nat) : Prop where
  params : t.params = s.params
  ctl : t.ctl = s.ctl
  lens : ∀ a, codeLens a t = entriesLens (es a)
  tries : ∀ a, TrieHolds (code a) (t.tab a).trie
  consumed : Consumed (resetReader s) t n
  output : Output s.obuf t out

theorem tab_of_onlyReader {s t : State} (h : OnlyReader s t) (a : Alphabet) : t.tab a = s.tab a := by
  rw [h]; cases a <;> rfl

theorem tab_of_onlyWindow {s t : State} (h : OnlyWindow s t) (a : Alphabet) : t.tab a = s.tab a := by
  rw [h]; cases a <;> rfl

theorem inputHas_of_onlyWindow {s t : State} {bs : List Bool} (h : OnlyWindow s t) (hin : s.InputHas bs) :
    t.InputHas bs := by
  rw [h]; exact hin

section
variable {s t u : State} {es : Alphabet → List TableEntry} {code : Alphabet → Nat → Nat × Nat} {out : List Byte} {n : Nat}

/-- The place in the stream after a primitive that leaves the parameters, the registers of R16 to R21 and the tables. -/
theorem InStream.move {out' : List Byte} {n' : Nat} (h : InStream s t es code out n) (hpar : u.params = t.params)
    (hctl : u.ctl = t.ctl) (htab : ∀ a, u.tab a = t.tab a) (hc : Consumed (resetReader s) u n')
    (hout : Output s.obuf u out') : InStream s u es code out' n' :=
  ⟨hpar.trans h.params, hctl.trans h.ctl, fun a => by rw [codeLens, htab]; exact h.lens a,
    fun a => by rw [htab]; exact h.tries a, hc, hout⟩

theorem InStream.read {k : Nat} (h : InStream s t es code out n) (ho : OnlyReader t u) (hc : Consumed t u k) :
    InStream s u es code out (n + k) :=
  h.move (by rw [ho]) (by rw [ho]) (tab_of_onlyReader ho) (consumed_trans h.consumed hc) (h.output.of_reader ho)

theorem InStream.window {out' : List Byte} (h : InStream s t es code out n) (ho : OnlyWindow t u)
    (hout : Output s.obuf u out') : InStream s u es code out' n :=
  h.move (by rw [ho]) (by rw [ho]) (tab_of_onlyWindow ho) (by rw [ho]; exact h.consumed) hout

section
variable (hp : s.params.ok)
include hp

/-- R73, R199: a coded event is read. -/
theorem InStream.readEvent {e : StreamEvent} {rest : List Bool} (h : InStream s t es code out n)
    (hw : wellFormed e.toInstr = true) (hc : eventCoded code e) (hin : t.InputHas (fieldsToBits code e.fields ++ rest)) :
    ∃ u, Machine.readEvent t = .ok e u ∧ InStream s u es code out (n + (fieldsToBits code e.fields).length) ∧
      u.InputHas rest := by
  obtain ⟨-, u, hu, huo, huc, hui⟩ := runParse_reads (eventParse_reads h.tries hw hc)
    (eventParse_narrow t.ll.trie t.ds.trie) (by rw [h.params]; exact hp) hin
  exact ⟨u, hu, h.read huo huc, hui⟩

/-- R199: a round of the loop for an event whose output fits. -/
theorem InStream.event {e : StreamEvent} {rest : List Bool} {out' : List Byte} (h : InStream s t es code out n)
    (hw : wellFormed e.toInstr = true) (hc : eventCoded code e) (hin : t.InputHas (fieldsToBits code e.fields ++ rest))
    (hrep : replay [e] out = some out') (hfit : out'.length ≤ s.params.obufSize) (nl nm : Nat) :
    ∃ u, (∀ k, expandLoop (k + 1) nl nm t = expandLoop k (nl + streamLits [e]) (nm + (1 - streamLits [e])) u) ∧
      InStream s u es code out' (n + (fieldsToBits code e.fields).length) ∧ u.InputHas rest := by
  obtain ⟨v, hv, hvs, hvi⟩ := h.readEvent hp hw hc hin
  obtain ⟨u, hu, huo, hout⟩ := applyEvent_replay (by rw [hvs.params]; exact hp) hvs.output hw hrep
    (by rw [hvs.params]; exact hfit) nl nm
  exact ⟨u, fun k => by rw [expandLoop, hv, Res.bind_ok, hu, Res.bind_ok], hvs.window huo hout,
    inputHas_of_onlyWindow huo hvi⟩

/-- R199: the loop goes through coded events whose output fits. -/
theorem InStream.events {evs : List StreamEvent} {rest : List Bool} {out' : List Byte} (h : InStream s t es code out n)
    (hevs : ∀ e ∈ evs, wellFormed e.toInstr = true ∧ eventCoded code e)
    (hin : t.InputHas (fieldsToBits code (evs.flatMap StreamEvent.fields) ++ rest)) (hrep : replay evs out = some out')
    (hfit : out'.length ≤ s.params.obufSize) (nl nm : Nat) :
    ∃ u, (∀ k, expandLoop (evs.length + k) nl nm t =
        expandLoop k (nl + streamLits evs) (nm + (evs.length - streamLits evs)) u) ∧
      InStream s u es code out' (n + (fieldsToBits code (evs.flatMap StreamEvent.fields)).length) ∧ u.InputHas rest := by
  induction evs generalizing t out n nl nm with
  | nil =>
    cases hrep
    exact ⟨t, fun k => by rw [List.length_nil, Nat.zero_add]; rfl, h, hin⟩
  | cons e evs ih =>
    obtain ⟨⟨hw, hc⟩, hevs⟩ := List.forall_mem_cons.1 hevs
    rw [List.flatMap_cons, fieldsToBits_append, List.append_assoc] at hin
    rw [replay_cons] at hrep
    obtain ⟨mid, hmid, hrep⟩ := Option.bind_eq_some_iff.1 hrep
    obtain ⟨v, hv, hvs, hvi⟩ := h.event hp hw hc hin hmid (Nat.le_trans (length_le_of_replay hrep) hfit) nl nm
    obtain ⟨u, hu, hus, hui⟩ := ih hvs hevs hvi hrep (nl + streamLits [e]) (nm + (1 - streamLits [e]))
    refine ⟨u, fun k => ?_, ?_, hui⟩
    · have h1 := streamLits_le [e]
      have h2 := streamLits_le evs
      rw [List.length_singleton] at h1
      rw [List.length_cons, Nat.add_right_comm, hv, hu, streamLits_cons e evs]
      congr 1 <;> omega
    · rw [List.flatMap_cons, fieldsToBits_append, List.length_append, ← Nat.add_assoc]
      exact hus

end

end

/-! ## The tables (R80, R199) -/

/-- The output and the window are as before. -/
structure SameOutput (s t : State) : Prop where
  wr : t.wr = s.wr
  obuf : t.obuf = s.obuf
  win : t.win = s.win

theorem SameOutput.trans {s t u : State} (h1 : SameOutput s t) (h2 : SameOutput t u) : SameOutput s u :=
  ⟨h2.wr.trans h1.wr, h2.obuf.trans h1.obuf, h2.win.trans h1.win⟩

theorem sameOutput_setTab {a : Alphabet} (T : Tables a.size) (s : State) : SameOutput s (s.setTab a T) :=
  ⟨State.setTab_wr s a T, State.setTab_obuf s a T, State.setTab_win s a T⟩

theorem sameOutput_of_readerCl {a : Alphabet} {s t : State} (h : OnlyReaderCl a s t) : SameOutput s t := by
  rw [h]
  exact ⟨State.setTab_wr s a _, State.setTab_obuf s a _, State.setTab_win s a _⟩

theorem tab_of_readerCl {a b : Alphabet} (hne : a ≠ b) {s t : State} (h : OnlyReaderCl a s t) : t.tab b = s.tab b := by
  have hb := s.tab_setTab_of_ne hne { s.tab a with cl := (t.tab a).cl }
  rw [h]
  rw [← hb]
  cases b <;> rfl

theorem avail_of_consumed {s t : State} {n : Nat} (hctl : t.ctl = s.ctl) (h : Consumed s t n) : t.avail = s.avail - n := by
  rw [State.avail, h.1, hctl, State.avail]
  omega

theorem expand_eq {s : State} (h : s.inputOk = true) : expand s =
    (deserialize .ll (expandReset s)).bind fun _ s => (deserialize .ds s).bind fun _ s =>
      (expandTries s).bind fun _ s => expandLoop (8 * s.ctl.inLen.toNat) 0 0 s := require_of h _ _ _

section
variable {s : State} {es : Alphabet → List TableEntry} (hp : s.params.ok)
  (hes : ∀ a, ∀ e ∈ es a, entryOk a e = true)
include hp hes

/-- R199: the literal/length table, read whole. -/
theorem readFirstTable {rest : List Bool} (hlen : (entriesLens (es .ll)).length = Alphabet.ll.size)
    (hin : (resetReader s).InputHas (entriesBits .ll (es .ll) ++ rest)) :
    ∃ t, deserialize .ll (expandReset s) = .ok () t ∧ KeepsControl s t ∧ SameOutput (expandReset s) t ∧
      t.tab .ds = s.tab .ds ∧ Consumed (resetReader s) t (entriesBits .ll (es .ll)).length ∧ t.InputHas rest ∧
      codeLens .ll t = entriesLens (es .ll) := by
  obtain ⟨t, ht, hto, htc, hti, hcl⟩ := deserialize_whole (s := expandReset s) (hes .ll) hp hlen hin
  have hkeeps := KeepsControl.of_readerCl hto
  exact ⟨t, ht, ⟨hkeeps.params, hkeeps.ctl, hkeeps.ibuf, hkeeps.rstAsserted, hkeeps.host⟩, sameOutput_of_readerCl hto,
    tab_of_readerCl (a := .ll) (b := .ds) (s := expandReset s) (by decide) hto, htc, hti, hcl⟩

/-- R199: both tables, read whole. -/
theorem readBothTables {rest : List Bool} (hlen : ∀ a, (entriesLens (es a)).length = a.size)
    (hin : (resetReader s).InputHas (entriesBits .ll (es .ll) ++ entriesBits .ds (es .ds) ++ rest)) :
    ∃ t, expand s = ((expandTries t).bind fun _ t => expandLoop (8 * t.ctl.inLen.toNat) 0 0 t) ∧ KeepsControl s t ∧
      SameOutput (expandReset s) t ∧
      Consumed (resetReader s) t (entriesBits .ll (es .ll) ++ entriesBits .ds (es .ds)).length ∧ t.InputHas rest ∧
      ∀ a, codeLens a t = entriesLens (es a) := by
  rw [List.append_assoc] at hin
  obtain ⟨t, ht, htk, hts, -, htc, hti, htl⟩ := readFirstTable hp hes (hlen .ll) hin
  obtain ⟨u, hu, huo, huc, hui, hul⟩ := deserialize_whole (hes .ds) (by rw [htk.params]; exact hp) (hlen .ds) hti
  have htab := tab_of_readerCl (a := .ds) (b := .ll) (by decide) huo
  refine ⟨u, by rw [expand_eq (s := s) hin.1, ht, Res.bind_ok, hu, Res.bind_ok], KeepsControl.frame.trans htk (.of_readerCl huo),
    hts.trans (sameOutput_of_readerCl huo), ?_, hui, fun a => ?_⟩
  · rw [List.length_append]
    exact consumed_trans htc huc
  · cases a with
    | ll => rw [codeLens, htab]; exact htl
    | ds => exact hul

/-- R144, R199: a table that goes wrong ends EXPAND with its error. -/
theorem expand_badTable {a : Alphabet} {before bits : List Bool} {e : Err} {n : Nat} {atEnd : Bool}
    (hbefore : (a = .ll ∧ before = []) ∨
      (a = .ds ∧ before = entriesBits .ll (es .ll) ∧ (entriesLens (es .ll)).length = Alphabet.ll.size))
    (hl : (entriesLens (es a)).length < a.size) (hb : BadEntry a (entriesLens (es a)).length bits e n atEnd)
    (hin : (resetReader s).InputHas (before ++ entriesBits a (es a) ++ bits))
    (hend : atEnd = true → (resetReader s).avail = (before ++ entriesBits a (es a) ++ bits).length) :
    ∃ t, expand s = .err e t ∧ SameOutput (expandReset s) t ∧
      Consumed (resetReader s) t ((before ++ entriesBits a (es a)).length + n) ∧
      (a = .ds → codeLens .ll t = entriesLens (es .ll)) ∧
      ∀ sym, clOf a sym t = putLens (entriesLens (es a)) 0 sym (clOf a sym s) := by
  rcases hbefore with ⟨rfl, rfl⟩ | ⟨rfl, rfl, hlen⟩
  · obtain ⟨t, ht, hto, htc, hcl⟩ := deserialize_bad (s := expandReset s) (hes .ll) hp hl hb hin hend
    exact ⟨t, by rw [expand_eq (s := s) hin.1, ht, Res.bind_err], sameOutput_of_readerCl hto, htc, nofun, hcl⟩
  · rw [List.append_assoc] at hin hend
    obtain ⟨t, ht, htk, hts, htab, htc, hti, htl⟩ := readFirstTable hp hes hlen hin
    obtain ⟨u, hu, huo, huc, hcl⟩ :=
      deserialize_bad (s := t) (hes .ds) (by rw [htk.params]; exact hp) hl hb hti (fun h => by
        have hav := hend h
        rw [List.length_append] at hav
        rw [avail_of_consumed (s := resetReader s) htk.ctl htc, hav]
        omega)
    have huab := tab_of_readerCl (a := .ds) (b := .ll) (by decide) huo
    refine ⟨u, by rw [expand_eq (s := s) hin.1, ht, Res.bind_ok, hu, Res.bind_err], hts.trans (sameOutput_of_readerCl huo), ?_,
      fun _ => by rw [codeLens, huab]; exact htl, fun sym => ?_⟩
    · rw [List.length_append, Nat.add_assoc]
      exact consumed_trans htc huc
    · rw [hcl, clOf, htab, ← clOf]

/-- R139, R199: a table without canonical codes ends EXPAND. -/
theorem expand_oversubscribed (hlen : ∀ a, (entriesLens (es a)).length = a.size)
    (hnone : ∃ a, canon (entriesLens (es a)) = none)
    (hin : (resetReader s).InputHas (entriesBits .ll (es .ll) ++ entriesBits .ds (es .ds))) :
    ∃ t, expand s = .err (.corrupt .oversubscribed) t ∧ SameOutput (expandReset s) t ∧
      Consumed (resetReader s) t (entriesBits .ll (es .ll) ++ entriesBits .ds (es .ds)).length ∧
      ∀ a, codeLens a t = entriesLens (es a) := by
  obtain ⟨t, ht, -, hts, htc, -, hcl⟩ := readBothTables hp hes (rest := []) hlen (by simpa using hin)
  obtain ⟨hfirst, hsecond⟩ := expandTries_of_none (s := t)
  simp only [← hcl] at hnone
  cases hll : canon (codeLens .ll t) with
  | none => exact ⟨t, by rw [ht, hfirst hll, Res.bind_err], hts, htc, hcl⟩
  | some codes =>
    have hds : canon (codeLens .ds t) = none := by
      obtain ⟨a, ha⟩ := hnone
      cases a with
      | ll => rw [hll] at ha; cases ha
      | ds => exact ha
    refine ⟨withTrie .ll codes t, by rw [ht, hsecond codes hll hds, Res.bind_err], hts.trans (sameOutput_setTab _ t), htc,
      fun a => ?_⟩
    rw [codeLens_withTrie, hcl]

end

/-! ## From the tables into the stream (R199) -/

theorem one_le_length_entriesBits {a : Alphabet} {es : List TableEntry} (h : es ≠ []) : 1 ≤ (entriesBits a es).length := by
  obtain ⟨e, es, rfl⟩ := List.exists_cons_of_ne_nil h
  rw [entriesBits_cons, List.length_append]
  cases e <;> simp [entriesBits, TableEntry.fields, fieldsToBits, Field.toBits] <;> omega

/-- R76: every coded event takes at least one bit. -/
theorem length_le_fieldsToBits {code : Alphabet → Nat → Nat × Nat} {evs : List StreamEvent}
    (h : ∀ e ∈ evs, eventCoded code e) : evs.length ≤ (fieldsToBits code (evs.flatMap StreamEvent.fields)).length := by
  have hfirst : ∀ e : StreamEvent, ∃ sym fs, e.fields = .code .ll sym :: fs := fun e => by
    cases e <;> exact ⟨_, _, rfl⟩
  induction evs with
  | nil => exact Nat.zero_le _
  | cons e evs ih =>
    obtain ⟨he, hevs⟩ := List.forall_mem_cons.1 h
    obtain ⟨sym, fs, hfs⟩ := hfirst e
    have hpos := he .ll sym (by rw [hfs]; exact List.mem_cons_self ..)
    have hrest := ih hevs
    rw [List.flatMap_cons, fieldsToBits_append, List.length_append, hfs, fieldsToBits_cons, List.length_append,
      Field.toBits, length_toBits, List.length_cons]
    omega

/-- R70: the lengths of a table's entries are in the range of R29. -/
theorem le_of_mem_entriesLens {es : List TableEntry} : ∀ l ∈ entriesLens es, l ≤ maxCodeLenDec := by
  intro l hl
  obtain ⟨e, -, he⟩ := List.mem_flatMap.1 hl
  unfold maxCodeLenDec
  cases e with
  | short x => obtain rfl := List.mem_singleton.1 he; have := x.isLt; omega
  | ext1 x => obtain rfl := List.mem_singleton.1 he; have := x.isLt; omega
  | ext2 y => obtain rfl := List.mem_singleton.1 he; have := y.isLt; omega
  | zrun c => rw [List.eq_of_mem_replicate he]; omega

/-- The output is empty where EXPAND begins (R195, R199). -/
theorem output_expandReset {s t : State} (h : SameOutput (expandReset s) t) : Output s.obuf t [] := by
  obtain ⟨hwr, hob, hwin⟩ := h
  refine ⟨fun i hi => absurd hi (Nat.not_lt_zero i), ?_, fun k _ => by rw [hob]; rfl, ?_, ?_, fun d h1 hd => ?_⟩
  · rw [hwr]; rfl
  · rw [hwin]; rfl
  · rw [hwin]; rfl
  · rw [List.length_nil] at hd
    omega

section
variable {s : State} {es : Alphabet → List TableEntry} {codes : Alphabet → List Nat} {code : Alphabet → Nat → Nat × Nat}
  (hp : s.params.ok) (hes : ∀ a, ∀ e ∈ es a, entryOk a e = true)
  (htables : ∀ a, (entriesLens (es a)).length = a.size ∧ canon (entriesLens (es a)) = some (codes a))
  (hcode : code = fun a sym => ((entriesLens (es a)).getD sym 0, (codes a).getD sym 0))
include hp hes htables hcode

/-- R199: after two usable tables EXPAND is the loop over the symbol stream. -/
theorem expand_startsStream {rest : List Bool}
    (hin : (resetReader s).InputHas (entriesBits .ll (es .ll) ++ entriesBits .ds (es .ds) ++ rest)) :
    ∃ t, expand s = expandLoop (8 * s.ctl.inLen.toNat) 0 0 t ∧ t.InputHas rest ∧
      InStream s t es code [] (entriesBits .ll (es .ll) ++ entriesBits .ds (es .ds)).length := by
  obtain ⟨t, ht, htk, hts, htc, hti, hcl⟩ := readBothTables hp hes (fun a => (htables a).1) hin
  have htries := expandTries_of_canon (s := t) (codes := codes) fun a => by rw [hcl]; exact (htables a).2
  have hctl : (withTrie .ds (codes .ds) (withTrie .ll (codes .ll) t)).ctl = s.ctl := htk.ctl
  refine ⟨withTrie .ds (codes .ds) (withTrie .ll (codes .ll) t), by rw [ht, htries, Res.bind_ok, hctl], hti,
    htk.params, hctl, fun a => by rw [codeLens_withTrie, codeLens_withTrie, hcl], fun a => ?_, htc, ?_⟩
  · have htrie : ((withTrie .ds (codes .ds) (withTrie .ll (codes .ll) t)).tab a).trie =
        buildTrie (entriesLens (es a)) (codes a) := by
      rw [← hcl a]
      cases a <;> rfl
    rw [htrie, hcode]
    exact trieHolds_buildTrie le_of_mem_entriesLens (htables a).2
  · have hsame : SameOutput t (withTrie .ds (codes .ds) (withTrie .ll (codes .ll) t)) := ⟨rfl, rfl, rfl⟩
    exact output_expandReset (hts.trans hsame)

/-- R199: after coded events whose output fits, EXPAND is the loop from there on, with rounds left. -/
theorem expand_afterEvents {evs : List StreamEvent} {rest : List Bool} {out : List Byte}
    (hevs : ∀ e ∈ evs, wellFormed e.toInstr = true ∧ eventCoded code e) (hrep : replay evs [] = some out)
    (hfit : out.length ≤ s.params.obufSize)
    (hin : (resetReader s).InputHas (entriesBits .ll (es .ll) ++ entriesBits .ds (es .ds) ++
      fieldsToBits code (evs.flatMap StreamEvent.fields) ++ rest)) :
    ∃ k t, expand s = expandLoop (k + 1) (streamLits evs) (evs.length - streamLits evs) t ∧ t.InputHas rest ∧
      InStream s t es code out (entriesBits .ll (es .ll) ++ entriesBits .ds (es .ds) ++
        fieldsToBits code (evs.flatMap StreamEvent.fields)).length := by
  have havail := hin.2.1
  obtain ⟨v, hv, hvi, hvs⟩ := expand_startsStream hp hes htables hcode (by rw [List.append_assoc] at hin; exact hin)
  obtain ⟨t, ht, hts, hti⟩ := hvs.events hp hevs hvi hrep hfit 0 0
  have hrounds : evs.length + 1 ≤ 8 * s.ctl.inLen.toNat := by
    have hne : es .ll ≠ [] := fun h => by
      have hsize := (htables .ll).1
      rw [h] at hsize
      exact absurd hsize (by decide)
    have h1 := one_le_length_entriesBits (a := .ll) hne
    have h2 := length_le_fieldsToBits fun e he => (hevs e he).2
    have h3 : (resetReader s).avail ≤ 8 * s.ctl.inLen.toNat := Nat.sub_le _ _
    simp only [List.length_append] at havail
    omega
  obtain ⟨k, hk⟩ := Nat.exists_eq_add_of_le hrounds
  refine ⟨k, t, ?_, hti, by rw [List.length_append]; exact hts⟩
  rw [hv, hk, Nat.add_assoc, Nat.add_comm 1 k, ht, Nat.zero_add, Nat.zero_add]

end

/-! ## The obligation -/

/-- The finder and the frequencies are as before. -/
abbrev KeepsFinderAndFreqs (s t : State) : Prop := t.mf = s.mf ∧ KeepsFreqs s t

/-- R199: no part of EXPAND touches the finder or a frequency. -/
theorem expandFrame_keepsFinderAndFreqs : ExpandFrame KeepsFinderAndFreqs where
  refl _ := ⟨rfl, rfl, rfl⟩
  trans h1 h2 := ⟨h2.1.trans h1.1, h2.2.1.trans h1.2.1, h2.2.2.trans h1.2.2⟩
  reader h := by rw [h]; exact ⟨rfl, rfl, rfl⟩
  writer h := by rw [h]; exact ⟨rfl, rfl, rfl⟩
  window h := by rw [h]; exact ⟨rfl, rfl, rfl⟩
  readerCl {a _ _} h := by rw [h]; cases a <;> exact ⟨rfl, rfl, rfl⟩
  codeTrie {a _ _} h := by rw [h]; cases a <;> exact ⟨rfl, rfl, rfl⟩

theorem InStream.expanded {s t : State} {es : Alphabet → List TableEntry} {code : Alphabet → Nat → Nat × Nat}
    {out : List Byte} {n : Nat} (h : InStream s t es code out n) (hk : KeepsFinderAndFreqs s t) : Expanded s t es out n :=
  ⟨h.output.holds, h.output.len, h.output.rest, h.consumed, h.lens, hk⟩

/-- R199, R216: EXPAND ends with an error where its loop's round does. -/
theorem InStream.fails {s t : State} {es : Alphabet → List TableEntry} {code : Alphabet → Nat → Nat × Nat}
    {out : List Byte} {n : Nat} {er : Err} (h : InStream s t es code out n) (herr : expand s = .err er t) :
    ∃ t, exec .expand s = .next (t.fail er) ∧ Expanded s t es out n :=
  ⟨t, by rw [show exec .expand s = finish (expand s) from rfl, herr]; rfl,
    h.expanded ((expandFrame_keepsFinderAndFreqs.expand s).err herr)⟩

/-- Settles O56: the tables, then the events, each to its end or to where it goes wrong. -/
theorem expandReplaysStream : Obligations.ExpandReplaysStream := by
  intro s es hp hes
  have hexec : exec .expand s = finish (expand s) := rfl
  refine ⟨fun a before bits e n atEnd hbefore hl hb hin hend => ?_, fun hlen hnone hin => ?_,
    fun codes evs out code bits htables hcode hevs hbits hrep hfit => ?_⟩
  · obtain ⟨t, ht, hts, htc, hll, hcl⟩ := expand_badTable hp hes hbefore hl hb hin hend
    exact ⟨t, by rw [hexec, ht]; rfl, hts.wr, fun k => by rw [hts.obuf]; rfl, htc, hll, fun sym => by
      rw [hcl, putLens_zero]⟩
  · obtain ⟨t, ht, hts, htc, hcl⟩ := expand_oversubscribed hp hes hlen hnone hin
    exact ⟨t, by rw [hexec, ht]; rfl, hts.wr, fun k => by rw [hts.obuf]; rfl, htc, hcl⟩
  · subst hbits
    refine ⟨fun heos hin => ?_, fun bad e n atEnd hbad hin hend => ?_, fun ev e hw hc hbad hin => ?_⟩
    · obtain ⟨k, t, ht, hti, hts⟩ := expand_afterEvents hp hes htables hcode hevs hrep hfit hin
      obtain ⟨u, hu, hus, -⟩ := hts.readEvent (rest := []) hp rfl heos (by simpa using hti)
      have hok : expand s = .ok (expandResults (streamLits evs) (evs.length - streamLits evs) u) u := by
        rw [ht, expandLoop, hu, Res.bind_ok, applyEvent, Res.bind_ok]
      refine ⟨u, ?_, ?_⟩
      · rw [hexec, hok, expandResults, hus.output.len]; rfl
      · rw [List.length_append]
        exact hus.expanded ((expandFrame_keepsFinderAndFreqs.expand s).ok hok)
    · obtain ⟨k, t, ht, hti, hts⟩ := expand_afterEvents hp hes htables hcode hevs hrep hfit hin
      obtain ⟨u, hu, huo, huc⟩ := readEvent_bad hbad hts.tries (by rw [hts.params]; exact hp) hti fun h => by
        have hav := hend h
        rw [List.length_append] at hav
        rw [avail_of_consumed (s := resetReader s) hts.ctl hts.consumed, hav, Nat.add_sub_cancel_left]
      exact (hts.read huo huc).fails (by rw [ht, expandLoop, hu, Res.bind_err])
    · obtain ⟨k, t, ht, hti, hts⟩ := expand_afterEvents hp hes htables hcode hevs hrep hfit hin
      obtain ⟨u, hu, hus, -⟩ := hts.readEvent (rest := []) hp hw hc (by simpa using hti)
      rw [List.length_append]
      refine hus.fails ?_
      rw [ht, expandLoop, hu, Res.bind_ok, applyEvent_bad hus.output hw (by rw [hus.params]; exact hbad), Res.bind_err]

end Sys2Proof.Machine
end

section
/-! # Bit stream commands (40_bitstream.md R90 to R101)

The frame of the bit stream and Huffman commands, with every byte of OBUF; what each writer and each reader does on every
operand; and the three commands that start a stream or a window. -/

namespace Sys2Proof.Machine

variable {α : Type}

/-! ## Commands by what they touch -/

/-- The instruction is a command whose primitives keep a relation, and then a command's end (R215, R216). -/
def CommandKeeps (R : State → State → Prop) (i : Instr) : Prop := ∀ s, ∃ r, exec i s = finish r ∧ r.Stays R s

namespace CommandKeeps

variable {R : State → State → Prop} {i : Instr}

/-- A command that is one update. -/
theorem of_ok (f : State → State) (r : State → Results) (hi : ∀ s, exec i s = finish (.ok (r s) (f s)))
    (hf : ∀ s, R s (f s)) : CommandKeeps R i := fun s => ⟨_, hi s, hf s⟩

/-- A command that is one primitive, whose value gives the results. -/
theorem of_primitive (hR : IsFrame R) (r : State → Res α) (k : State → α → State → Results)
    (hi : ∀ s, exec i s = finish ((r s).bind fun a t => .ok (k s a t) t)) (hr : ∀ s, (r s).Stays R s) : CommandKeeps R i :=
  fun s => ⟨_, hi s, (hr s).andResults hR _⟩

/-- A command that checks its operands first (R64). -/
theorem of_checked (hR : IsFrame R) (c : State → Bool) (r : State → Unit → Res Results)
    (hi : ∀ s, exec i s = finish (require (c s) operandRange s (r s))) (hr : ∀ s, (r s ()).Stays R s) : CommandKeeps R i :=
  fun s => ⟨_, hi s, Res.Stays.require hR fun _ => hr s⟩

/-- A command's end writes STATUS and the results, and nothing is in progress after it. -/
theorem next (h : CommandKeeps R i) {s t : State} (ht : exec i s = .next t) :
    ∃ u c, R s u ∧ t = { u with ctl := c, prog := Progress.none } := by
  obtain ⟨r, hr, hstays⟩ := h s
  rcases finish_eq_next.1 (hr ▸ ht) with ⟨x, u, hu, rfl⟩ | ⟨e, u, hu, rfl⟩
  · exact ⟨u, _, hstays.ok hu, rfl⟩
  · exact ⟨u, _, hstays.err hu, rfl⟩

end CommandKeeps

theorem freqFrame (a : Alphabet) : IsFrame (OnlyFreq a) :=
  ⟨fun _ => by cases a <;> rfl, fun h1 h2 => Eq.trans h2 (by rw [h1]; cases a <;> rfl)⟩

theorem codeFrame (a : Alphabet) : IsFrame (OnlyCode a) :=
  ⟨fun _ => by cases a <;> rfl, fun h1 h2 => Eq.trans h2 (by rw [h1]; cases a <;> rfl)⟩

theorem codeTrieFrame (a : Alphabet) : IsFrame (OnlyCodeTrie a) :=
  ⟨fun _ => by cases a <;> rfl, fun h1 h2 => Eq.trans h2 (by rw [h1]; cases a <;> rfl)⟩

/-! ## The bytes of OBUF a writer writes (R22, R42) -/

/-- OUT_LEN does not fall, and the bytes of OBUF outside the ones appended stay. -/
structure KeepsOutside (s t : State) : Prop where
  grows : s.wr.outLen.toNat ≤ t.wr.outLen.toNat
  outside : ∀ k, ¬ (s.wr.outLen.toNat ≤ k ∧ k < t.wr.outLen.toNat) → Memory.read? t.obuf k = Memory.read? s.obuf k

/-- Nothing but the writer and the bytes it appends to OBUF, where the capacity of R8 keeps OUT_LEN from wrapping. -/
structure AppendsOnly (s t : State) : Prop where
  only : OnlyWriter s t
  keeps : s.params.ok → KeepsOutside s t

theorem appendsFrame : IsFrame AppendsOnly where
  refl s := ⟨rfl, fun _ => ⟨Nat.le_refl _, fun _ _ => rfl⟩⟩
  trans {s t u} h1 h2 := by
    refine ⟨writerFrame.trans h1.only h2.only, fun hp => ?_⟩
    obtain ⟨hst, hs⟩ := h1.keeps hp
    obtain ⟨htu, ht⟩ := h2.keeps (by rw [h1.only]; exact hp)
    exact ⟨Nat.le_trans hst htu, fun k hk => by rw [ht k (by omega), hs k (by omega)]⟩

theorem Extends.keepsOutside {s t : State} {bs : List Bool} (h : Extends s t bs) : KeepsOutside s t := by
  obtain ⟨hpos, -, -, hrest⟩ := h
  have hs := outLen_eq_writePos s
  have ht := outLen_eq_writePos t
  exact ⟨by omega, fun k hk => hrest k (by omega)⟩

/-- R22: a byte that fits raises OUT_LEN by one. -/
theorem outLen_outAppend_of_fits {s : State} (hp : s.params.ok) (h : s.wr.outLen.toNat < s.params.obufSize) (b : Byte) :
    (outAppend b s).wr.outLen.toNat = s.wr.outLen.toNat + 1 := by
  obtain ⟨-, -, -, hsize, -⟩ := hp
  exact outLen_toNat_outAppend (by omega) b

theorem outFits_one_iff {s : State} : s.outFits 1 = true ↔ s.wr.outLen.toNat < s.params.obufSize := decide_eq_true_iff

theorem outAppend_keepsOutside {s : State} (hp : s.params.ok) (h : s.outFits 1 = true) (b : Byte) :
    KeepsOutside s (outAppend b s) := by
  have hlen := outLen_outAppend_of_fits hp (outFits_one_iff.1 h) b
  exact ⟨by omega, fun k hk => Memory.read?_write_of_ne _ _ (by omega)⟩

theorem writeBits_appendsOnly (v n : Nat) (s : State) : (writeBits v n s).Stays AppendsOnly s := by
  refine Res.Stays.require appendsFrame fun _ => Res.Stays.require appendsFrame fun hfit =>
    ⟨writerFrame.trans (appendBits_only v n s) rfl, fun hp => ?_⟩
  obtain ⟨-, -, -, hsize, -⟩ := hp
  have hle : s.wr.outLen.toNat + (s.wr.wcnt.toNat + n) / 8 ≤ s.params.obufSize := of_decide_eq_true hfit
  obtain ⟨hgrows, houtside⟩ := (extends_appendBits v n (s := s) (by omega)).keepsOutside
  exact ⟨hgrows, houtside⟩

theorem writeByte_appendsOnly (b : Nat) (s : State) : (writeByte b s).Stays AppendsOnly s := by
  refine Res.Stays.require appendsFrame fun _ => Res.Stays.require appendsFrame fun _ =>
    Res.Stays.require appendsFrame fun hfit => ⟨rfl, fun hp => ?_⟩
  obtain ⟨hgrows, houtside⟩ := outAppend_keepsOutside hp hfit (BitVec.ofNat 8 b)
  exact ⟨hgrows, houtside⟩

theorem writeEof_appendsOnly (s : State) : (writeEof s).Stays AppendsOnly s := by
  unfold writeEof
  split
  · exact appendsFrame.refl s
  · refine Res.Stays.require appendsFrame fun hfit => ⟨rfl, fun hp => ?_⟩
    obtain ⟨hgrows, houtside⟩ := outAppend_keepsOutside hp hfit s.wr.wacc
    exact ⟨hgrows, houtside⟩

theorem encodeSymbol_appendsOnly (a : Alphabet) (sym : Nat) (s : State) : (encodeSymbol a sym s).Stays AppendsOnly s :=
  Res.Stays.require appendsFrame fun _ => writeBits_appendsOnly _ _ s

theorem writeFields_appendsOnly (fs : List Field) (s : State) : (writeFields fs s).Stays AppendsOnly s := by
  induction fs generalizing s with
  | nil => exact appendsFrame.refl s
  | cons f fs ih =>
    have hone : (writeField f s).Stays AppendsOnly s := by
      cases f with
      | bits v n => exact writeBits_appendsOnly v n s
      | code a sym => exact encodeSymbol_appendsOnly a sym s
    exact hone.bind appendsFrame fun _ t _ => ih t

theorem serialize_appendsOnly (a : Alphabet) (s : State) : (serialize a s).Stays AppendsOnly s := by
  unfold serialize
  exact Res.Stays.require appendsFrame fun _ => writeFields_appendsOnly _ s

/-! ## The frame of each command -/

section
variable {i : Instr} {a : Alphabet}

theorem writer_keeps (h : i ∈ [.bwWriteBits, .bwWriteByte, .bwWriteEof, .hufSerialize a, .hufEncode a]) :
    CommandKeeps AppendsOnly i := by
  simp only [List.mem_cons, List.not_mem_nil, or_false] at h
  rcases h with rfl | rfl | rfl | rfl | rfl
  · exact .of_primitive appendsFrame _ _ (fun _ => rfl) fun s => writeBits_appendsOnly _ _ s
  · exact .of_primitive appendsFrame _ _ (fun _ => rfl) fun s => writeByte_appendsOnly _ s
  · exact .of_primitive appendsFrame _ _ (fun _ => rfl) writeEof_appendsOnly
  · exact .of_primitive appendsFrame _ _ (fun _ => rfl) (serialize_appendsOnly a)
  · exact .of_checked appendsFrame _ _ (fun _ => rfl) fun s => (encodeSymbol_appendsOnly a _ s).andResults appendsFrame _

theorem bwReset_keeps : CommandKeeps (fun s t => t = resetWriter s) .bwReset :=
  .of_ok _ _ (fun _ => rfl) fun _ => rfl

theorem reader_keeps (h : i ∈ [.brReset, .brReadBits, .brReadByte, .hufDecode a]) : CommandKeeps OnlyReader i := by
  simp only [List.mem_cons, List.not_mem_nil, or_false] at h
  rcases h with rfl | rfl | rfl | rfl
  · exact .of_ok _ _ (fun _ => rfl) fun _ => rfl
  · exact .of_primitive readerFrame _ _ (fun _ => rfl) fun s => readBits_stays _ s
  · exact .of_primitive readerFrame _ _ (fun _ => rfl) readByte_stays
  · exact .of_primitive readerFrame _ _ (fun _ => rfl) (decodeSymbol_stays a)

theorem hufDeserialize_keeps : CommandKeeps (OnlyReaderCl a) (.hufDeserialize a) :=
  .of_primitive (readerClFrame a) _ _ (fun _ => rfl) (deserialize_stays a)

theorem freq_keeps (h : i ∈ [.freqClear a, .freqInc a]) : CommandKeeps (OnlyFreq a) i := by
  simp only [List.mem_cons, List.not_mem_nil, or_false] at h
  rcases h with rfl | rfl
  · exact .of_ok _ _ (fun _ => rfl) (clearFreq_only a)
  · exact .of_checked (freqFrame a) _ _ (fun _ => rfl) fun s =>
      Res.Stays.require (freqFrame a) fun _ => bumpFreq_only a _ s

theorem cl_keeps (h : i ∈ [.hufBuild a, .clWrite a]) : CommandKeeps (OnlyCl a) i := by
  simp only [List.mem_cons, List.not_mem_nil, or_false] at h
  rcases h with rfl | rfl
  · exact .of_primitive (clFrame a) _ _ (fun _ => rfl) (hufBuild_stays a)
  · exact .of_checked (clFrame a) _ _ (fun _ => rfl) fun s => setCl_only a _ _ s

theorem hufCanon_keeps : CommandKeeps (OnlyCode a) (.hufCanon a) :=
  .of_primitive (codeFrame a) _ _ (fun _ => rfl) (hufCanon_stays a)

theorem hufTrie_keeps : CommandKeeps (OnlyCodeTrie a) (.hufTrie a) :=
  .of_primitive (codeTrieFrame a) _ _ (fun _ => rfl) (hufTrie_stays a)

end

/-- Settles O26: each command by the relation its primitives keep; OBUF by `AppendsOnly`, or as BW_RESET leaves it. -/
theorem streamAndTableCommandsFrame : Obligations.StreamAndTableCommandsFrame := by
  intro i a s t hp h
  refine ⟨fun hi => ?_, fun hi => ?_, fun hi => ?_, fun hi => ?_, fun hi => ?_, fun hi => ?_, fun hi => ?_⟩
  · rcases List.mem_cons.1 hi with rfl | hi
    · obtain ⟨u, c, rfl, rfl⟩ := bwReset_keeps.next h
      exact ⟨rfl, fun _ _ => rfl⟩
    · obtain ⟨u, c, hu, rfl⟩ := (writer_keeps hi).next h
      exact ⟨by rw [hu.only], (hu.keeps hp).outside⟩
  · obtain ⟨u, c, hu, rfl⟩ := (reader_keeps hi).next h
    rw [hu]
  · subst hi
    obtain ⟨u, c, hu, rfl⟩ := hufDeserialize_keeps.next h
    rw [hu]; cases a <;> rfl
  · obtain ⟨u, c, hu, rfl⟩ := (freq_keeps hi).next h
    rw [hu]; cases a <;> rfl
  · obtain ⟨u, c, hu, rfl⟩ := (cl_keeps hi).next h
    rw [hu]; cases a <;> rfl
  · subst hi
    obtain ⟨u, c, hu, rfl⟩ := hufCanon_keeps.next h
    rw [hu]; cases a <;> rfl
  · subst hi
    obtain ⟨u, c, hu, rfl⟩ := hufTrie_keeps.next h
    rw [hu]; cases a <;> rfl

/-! ## BW_WRITE_BITS (R90, R96) -/

theorem writeBits_operandRange {v n : Nat} {s : State} (hn : 32 < n) : writeBits v n s = .err operandRange s := by
  rw [writeBits, require_of_not]
  simpa [bitCountOk] using hn

/-- Settles O30: too many bits, bits that do not fit, bits that are appended. -/
theorem writeBitsCommand : Obligations.WriteBits := by
  intro s hp
  have hexec : exec .bwWriteBits s = finish ((writeBits s.a0 s.a1 s).bind fun _ t => .ok Results.zero t) := rfl
  rw [hexec]
  refine ⟨fun hn => ?_, fun hn hfull => ?_, fun hn hfit => ?_⟩
  · rw [writeBits_operandRange hn]; rfl
  · rw [writeBits_full hn hfull]; rfl
  · obtain ⟨t, ht, hto, hta, -⟩ := writeBits_appends (v := s.a0) hp hn hfit
    exact ⟨t, hto, by rw [ht]; rfl, hta⟩

/-! ## BW_WRITE_BYTE and BW_WRITE_EOF (R91, R92, R97, R98) -/

/-- A byte has gone out to OBUF and no bit is pending. -/
structure ByteOut (b : Byte) (s t : State) : Prop where
  outLen : t.wr.outLen.toNat = s.wr.outLen.toNat + 1
  wcnt : t.wr.wcnt = 0
  obuf : t.obuf = Memory.write s.obuf s.wr.outLen.toNat b

section
variable {b : Byte} {s t : State} (h : ByteOut b s t)
include h

theorem ByteOut.writePos : t.writePos = 8 * s.wr.outLen.toNat + 8 := by
  rw [State.writePos, h.outLen, h.wcnt]; rfl

theorem ByteOut.read? {i : Nat} (hi : i ≠ s.wr.outLen.toNat) : Memory.read? t.obuf i = Memory.read? s.obuf i := by
  rw [h.obuf, Memory.read?_write_of_ne _ _ hi]

theorem ByteOut.outBit_before {k : Nat} (hk : k < 8 * s.wr.outLen.toNat) : t.outBit k = s.outBit k := by
  have hlen := h.outLen
  rw [State.outBit, State.outBit, if_pos (by omega), if_pos hk, Memory.bit?, Memory.bit?, h.read? (by omega)]

theorem ByteOut.outBit_byte {j : Nat} (hj : j < 8) : t.outBit (8 * s.wr.outLen.toNat + j) = some (b.getLsbD j) := by
  have hlen := h.outLen
  have hdiv : (8 * s.wr.outLen.toNat + j) / 8 = s.wr.outLen.toNat := by omega
  have hmod : (8 * s.wr.outLen.toNat + j) % 8 = j := by omega
  rw [State.outBit, if_pos (by omega), Memory.bit?, hdiv, hmod, h.obuf, Memory.read?_write, if_pos rfl, Option.map_some]

end

/-- R24: WACC is 0 from bit WCNT on. -/
theorem getLsbD_wacc {s : State} (h : WriterOk s) {i : Nat} (hi : s.wr.wcnt.toNat ≤ i) : s.wr.wacc.getLsbD i = false := by
  rw [← BitVec.testBit_toNat]
  exact Nat.testBit_lt_two_pow (Nat.lt_of_lt_of_le h.2 (Nat.pow_le_pow_right (by omega) hi))

/-- A pending bit of the stream is a bit of WACC (R24). -/
theorem outBit_pending {s : State} {j : Nat} (hj : j < s.wr.wcnt.toNat) :
    s.outBit (8 * s.wr.outLen.toNat + j) = some (s.wr.wacc.getLsbD j) := by
  have hcnt := s.wr.wcnt.isLt
  have hmod : (8 * s.wr.outLen.toNat + j) % 8 = j := by omega
  rw [State.outBit, if_neg (by omega), if_pos (by rw [State.writePos]; omega), hmod]

theorem bwAligned_iff {s : State} : s.bwAligned = true ↔ s.wr.wcnt = 0 := beq_iff_eq

section
variable {s : State} {v : Nat}

theorem writeByte_operandRange (hv : 255 < v) : writeByte v s = .err operandRange s := by
  rw [writeByte, require_of_not]
  simpa [byteOk] using hv

theorem writeByte_checked (hv : v ≤ 255) : writeByte v s = require s.bwAligned .align s fun _ =>
    require (s.outFits 1) .outputFull s fun _ => .ok () (countWritten 8 (outAppend (BitVec.ofNat 8 v) s)) :=
  require_of (decide_eq_true hv) _ _ _

theorem writeByte_misaligned (hv : v ≤ 255) (h0 : s.wr.wcnt ≠ 0) : writeByte v s = .err .align s := by
  rw [writeByte_checked hv, require_of_not (mt bwAligned_iff.1 h0)]

theorem writeByte_full (hv : v ≤ 255) (h0 : s.wr.wcnt = 0) (h : s.params.obufSize ≤ s.wr.outLen.toNat) :
    writeByte v s = .err .outputFull s := by
  rw [writeByte_checked hv, require_of (bwAligned_iff.2 h0), require_of_not (mt outFits_one_iff.1 (by omega))]

/-- R91: the eight bits of the byte are appended. -/
theorem writeByte_appends (hp : s.params.ok) (hv : v ≤ 255) (h0 : s.wr.wcnt = 0)
    (h : s.wr.outLen.toNat < s.params.obufSize) :
    ∃ t, writeByte v s = .ok () t ∧ OnlyWriter s t ∧ Appended s t (toBits v 8) := by
  have hout : ByteOut (BitVec.ofNat 8 v) s (countWritten 8 (outAppend (BitVec.ofNat 8 v) s)) :=
    ⟨outLen_outAppend_of_fits hp h (BitVec.ofNat 8 v), h0, rfl⟩
  have hpos : s.writePos = 8 * s.wr.outLen.toNat := by rw [State.writePos, h0]; rfl
  refine ⟨_, ?_, rfl, ?_, fun k hk => hout.outBit_before (hpos ▸ hk), fun j hj => ?_, by rw [length_toBits]; rfl,
    fun i hi => hout.read? (by rw [hout.outLen] at hi; omega)⟩
  · rw [writeByte_checked hv, require_of (bwAligned_iff.2 h0), require_of (outFits_one_iff.2 h)]
  · rw [hout.writePos, hpos, length_toBits]
  · rw [length_toBits] at hj
    rw [hpos, hout.outBit_byte hj, getElem?_toBits _ _ _ hj, BitVec.getLsbD_ofNat]
    simp [hj]

theorem writeEof_aligned (h0 : s.wr.wcnt = 0) : writeEof s = .ok () s := by
  rw [writeEof, if_pos (bwAligned_iff.2 h0)]

theorem writeEof_misaligned (h0 : s.wr.wcnt ≠ 0) : writeEof s = require (s.outFits 1) .outputFull s fun _ =>
    .ok () { outAppend s.wr.wacc s with wr := { (outAppend s.wr.wacc s).wr with wacc := 0, wcnt := 0 } } := by
  rw [writeEof, if_neg (mt bwAligned_iff.1 h0)]

theorem writeEof_full (h0 : s.wr.wcnt ≠ 0) (h : s.params.obufSize ≤ s.wr.outLen.toNat) :
    writeEof s = .err .outputFull s := by
  rw [writeEof_misaligned h0, require_of_not (mt outFits_one_iff.1 (by omega))]

/-- R92: the partial byte goes out. -/
theorem writeEof_out (hp : s.params.ok) (h0 : s.wr.wcnt ≠ 0) (h : s.wr.outLen.toNat < s.params.obufSize) :
    ∃ t, writeEof s = .ok () t ∧ OnlyWriter s t ∧ ByteOut s.wr.wacc s t ∧ t.wr.wacc = 0 ∧ t.wr.bitsW = s.wr.bitsW :=
  ⟨{ outAppend s.wr.wacc s with wr := { (outAppend s.wr.wacc s).wr with wacc := 0, wcnt := 0 } },
    by rw [writeEof_misaligned h0, require_of (outFits_one_iff.2 h)],
    rfl, ⟨outLen_outAppend_of_fits hp h s.wr.wacc, rfl, rfl⟩, rfl, rfl⟩

/-- R92: the partial byte keeps the pending bits of the stream. -/
theorem ByteOut.outBit_kept {t : State} (h : ByteOut s.wr.wacc s t) {k : Nat} (hk : k < s.writePos) :
    t.outBit k = s.outBit k := by
  rw [State.writePos] at hk
  have hcnt := s.wr.wcnt.isLt
  by_cases hlow : k < 8 * s.wr.outLen.toNat
  · exact h.outBit_before hlow
  · obtain ⟨j, rfl⟩ := Nat.exists_eq_add_of_le (Nat.le_of_not_lt hlow)
    rw [h.outBit_byte (by omega), outBit_pending (by omega)]

/-- R92, R24: the partial byte is filled up with zero bits. -/
theorem ByteOut.outBit_padding {t : State} (h : ByteOut s.wr.wacc s t) (hw : WriterOk s) {k : Nat} (hk : s.writePos ≤ k)
    (ht : k < t.writePos) : t.outBit k = some false := by
  rw [h.writePos] at ht
  rw [State.writePos] at hk
  obtain ⟨j, rfl⟩ := Nat.exists_eq_add_of_le (show 8 * s.wr.outLen.toNat ≤ k by omega)
  rw [h.outBit_byte (by omega), getLsbD_wacc hw (by omega)]

end

/-- Settles O31: the errors in the order of their checks, then the byte that goes out. -/
theorem writeByteAndEof : Obligations.WriteByteAndEof := by
  intro s hp hw
  have hbyte : exec .bwWriteByte s = finish ((writeByte s.a0 s).bind fun _ t => .ok Results.zero t) := rfl
  have heof : exec .bwWriteEof s = finish ((writeEof s).bind fun _ t => .ok Results.zero t) := rfl
  rw [hbyte, heof]
  refine ⟨fun hv => ?_, fun hv h0 => ?_, fun hv h0 hfull => ?_, fun hv h0 hfit => ?_, fun h0 => ?_, fun h0 hfull => ?_,
    fun h0 hfit => ?_⟩
  · rw [writeByte_operandRange hv]; rfl
  · rw [writeByte_misaligned hv h0]; rfl
  · rw [writeByte_full hv h0 (Nat.le_of_eq hfull.symm)]; rfl
  · obtain ⟨t, ht, hto, hta⟩ := writeByte_appends hp hv h0 hfit
    exact ⟨t, hto, by rw [ht]; rfl, hta⟩
  · rw [writeEof_aligned h0]; rfl
  · rw [writeEof_full h0 (Nat.le_of_eq hfull.symm)]; rfl
  · obtain ⟨t, ht, hto, hout, hacc, hbits⟩ := writeEof_out hp h0 hfit
    exact ⟨t, hto, by rw [ht]; rfl, hout.outLen, hout.wcnt, hacc, hbits, fun k hk => hout.outBit_kept hk,
      fun k hk ht => hout.outBit_padding hw hk ht, fun i hi => hout.read? hi⟩

/-! ## BR_READ_BITS (R93, R100) -/

theorem inByte_unwritten {p : Nat} {s : State} (h : Memory.read? s.ibuf p = none) : inByte p s = .fault .unwrittenInput := by
  rw [inByte, h]

/-- R242: R93's loop stops at a bit that was never written. -/
theorem takeBits_unwritten {n j : Nat} {s : State} (hj : j < n) (hw : s.readPos + n < 2 ^ 28)
    (h : Memory.bit? s.ibuf (s.readPos + j) = none) : takeBits n s = .fault .unwrittenInput := by
  induction n generalizing j s with
  | zero => omega
  | succ n ih =>
    rw [takeBits]
    cases hb : Memory.read? s.ibuf s.rd.rpos.toNat with
    | none => rw [inByte_unwritten hb]; rfl
    | some b =>
      cases j with
      | zero =>
        rw [Nat.add_zero, bit?_readPos, hb] at h
        cases h
      | succ j =>
        have hpos := readPos_nextBit s (by omega)
        have hib : (nextBit s).ibuf = s.ibuf := by rw [nextBit_only s]
        have hrest := ih (s := nextBit s) (j := j) (by omega) (by omega)
          (by rw [hpos, hib, Nat.add_assoc, Nat.add_comm 1 j]; exact h)
        rw [inByte_eq_ok.2 ⟨hb, rfl⟩, Res.bind_ok, hrest]; rfl

section
variable {s : State} {n : Nat}

theorem inputOk_eq_true (h : s.ctl.inLen.toNat ≤ s.params.ibufSize) : s.inputOk = true := decide_eq_true h

theorem readBits_tooMany (hn : 32 < n) : readBits n s = .err operandRange s := by
  rw [readBits, require_of_not]
  simpa [bitCountOk] using hn

theorem readBits_unwritten {j : Nat} (hp : s.params.ok) (hn : n ≤ 32) (hin : s.ctl.inLen.toNat ≤ s.params.ibufSize)
    (hav : n ≤ s.avail) (hj : j < n) (h : Memory.bit? s.ibuf (s.readPos + j) = none) :
    readBits n s = .fault .unwrittenInput := by
  obtain ⟨-, hsize, -⟩ := hp
  have hcount : bitCountOk n = true := decide_eq_true hn
  have hpos : s.readPos + n < 2 ^ 28 := by rw [State.avail] at hav; omega
  rw [readBits, require_of hcount, require_of (inputOk_eq_true hin), require_of (decide_eq_true hav),
    takeBits_unwritten hj hpos h]
  rfl

end

/-- Settles O32: the errors in the order of their checks, the bits by `readBits_bits`, or the fault of R242. -/
theorem readBitsCommand : Obligations.ReadBits := by
  intro s hp
  have hexec : exec .brReadBits s = finish ((readBits s.a1 s).bind fun v t => .ok (Results.nat v 0 0) t) := rfl
  rw [hexec]
  refine ⟨fun h => ?_, fun hn hin hav => ?_, fun bs hbs hn hin => ?_, fun j hj hn hin hav h => ?_⟩
  · have herr : readBits s.a1 s = .err operandRange s := by
      by_cases hn : s.a1 ≤ 32
      · exact readBits_operandRange hn (inputOk_eq_false (by omega))
      · exact readBits_tooMany (by omega)
    rw [herr]; rfl
  · rw [readBits_short hn (inputOk_eq_true hin) hav]; rfl
  · rw [← hbs] at hn ⊢
    obtain ⟨t, ht, hto, htc⟩ := readBits_bits hp hn hin
    exact ⟨t, hto, by rw [ht]; rfl, htc⟩
  · rw [readBits_unwritten hp hn hin hav hj h]; rfl

/-! ## BR_READ_BYTE (R94, R101) -/

section
variable {s : State}

theorem brAligned_iff : s.brAligned = true ↔ s.rd.rbit = 0 := beq_iff_eq

theorem readByte_operandRange (h : s.params.ibufSize < s.ctl.inLen.toNat) : readByte s = .err operandRange s := by
  rw [readByte, inputOk_eq_false h, require_false]

section
variable (hin : s.ctl.inLen.toNat ≤ s.params.ibufSize)
include hin

theorem readByte_misaligned (h0 : s.rd.rbit ≠ 0) : readByte s = .err .align s := by
  rw [readByte, require_of (inputOk_eq_true hin), require_of_not (mt brAligned_iff.1 h0)]

variable (h0 : s.rd.rbit = 0)
include h0

theorem readByte_exhausted (h : s.ctl.inLen.toNat ≤ s.rd.rpos.toNat) : readByte s = .err .endOfInput s := by
  rw [readByte, require_of (inputOk_eq_true hin), require_of (brAligned_iff.2 h0), require_of_not]
  simpa using h

theorem readByte_inside (h : s.rd.rpos.toNat < s.ctl.inLen.toNat) : readByte s = (inByte s.rd.rpos.toNat s).bind fun b t =>
    .ok b.toNat (countRead 8 { t with rd := { t.rd with rpos := t.rd.rpos + 1 } }) := by
  rw [readByte, require_of (inputOk_eq_true hin), require_of (brAligned_iff.2 h0), require_of (decide_eq_true h)]

/-- R94: the byte at RPOS is read, and the cursor moves on by its 8 bits. -/
theorem readByte_byte {b : Byte} (hp : s.params.ok) (h : s.rd.rpos.toNat < s.ctl.inLen.toNat)
    (hb : Memory.read? s.ibuf s.rd.rpos.toNat = some b) :
    ∃ t, readByte s = .ok b.toNat t ∧ OnlyReader s t ∧ Consumed s t 8 := by
  obtain ⟨-, hsize, -⟩ := hp
  have hpos : (s.rd.rpos + 1).toNat = s.rd.rpos.toNat + 1 := by
    rw [BitVec.toNat_add, show (1 : BitVec 25).toNat = 1 from rfl]; omega
  refine ⟨countRead 8 { s with rd := { s.rd with rpos := s.rd.rpos + 1 } }, ?_, rfl, ?_, rfl⟩
  · rw [readByte_inside hin h0 h, inByte_eq_ok.2 ⟨hb, rfl⟩, Res.bind_ok]
  · simp only [State.readPos, countRead_rpos, countRead_rbit, hpos]; omega

theorem readByte_unwritten (h : s.rd.rpos.toNat < s.ctl.inLen.toNat)
    (hb : Memory.read? s.ibuf s.rd.rpos.toNat = none) : readByte s = .fault .unwrittenInput := by
  rw [readByte_inside hin h0 h, inByte_unwritten hb, Res.bind_fault]

end

end

/-- Settles O33: the errors in the order of their checks, the byte, or the fault of R242. -/
theorem readByteCommand : Obligations.ReadByte := by
  intro s hp
  have hexec : exec .brReadByte s = finish ((readByte s).bind fun b t => .ok (Results.nat b 0 0) t) := rfl
  rw [hexec]
  refine ⟨fun h => ?_, fun hin h0 => ?_, fun hin h0 h => ?_, fun b hin h0 h hb => ?_, fun hin h0 h hb => ?_⟩
  · rw [readByte_operandRange h]; rfl
  · rw [readByte_misaligned hin h0]; rfl
  · rw [readByte_exhausted hin h0 h]; rfl
  · obtain ⟨t, ht, hto, htc⟩ := readByte_byte hin h0 hp h hb
    exact ⟨t, hto, by rw [ht]; rfl, htc⟩
  · rw [readByte_unwritten hin h0 h hb]; rfl

/-! ## BW_RESET, BR_RESET, WIN_RESET (R95, R99, R195) -/

/-- Settles O29: each command is one update of the state, and an aligned cursor shows in STATUS. -/
theorem resettingCommands : Obligations.ResettingCommands := fun s =>
  ⟨⟨resetWriter s, rfl, rfl, rfl, fun _ => rfl, by rw [State.statusWord_getLsbD]; simp [State.bwAligned]⟩,
    ⟨resetReader s, rfl, rfl, rfl, by rw [State.statusWord_getLsbD]; simp [State.brAligned]⟩,
    ⟨resetWindow s, rfl, rfl, rfl, rfl, fun _ => rfl⟩⟩

end Sys2Proof.Machine
end

section
/-! # Lookup and observation commands (41_alphabet.md R110 to R118)

What these commands leave unchanged; and the slot and range lookups, over any table whose rows lie end to end. -/

namespace Sys2Proof.Machine

/-! ## The frame (R227) -/

/-- R115 to R118, R133, R152, R174, R175, R198: none of their primitives changes the state. -/
theorem observation_keeps {i : Instr}
    (h : i ∈ [.lenSlot, .distSlot, .lenRange, .distRange, .mfLongest, .treeRead, .winRead] ∨
      ∃ a, i = .freqRead a ∨ i = .clRead a) : CommandKeeps Eq i := by
  simp only [List.mem_cons, List.not_mem_nil, or_false] at h
  rcases h with (rfl | rfl | rfl | rfl | rfl | rfl | rfl) | ⟨a, rfl | rfl⟩
  · exact .of_checked eqFrame _ _ (fun _ => rfl) fun s => slotResults_stays _ _ _ s
  · exact .of_checked eqFrame _ _ (fun _ => rfl) fun s => slotResults_stays _ _ _ s
  · exact .of_checked eqFrame _ _ (fun _ => rfl) fun s => rangeResults_stays _ s
  · exact .of_checked eqFrame _ _ (fun _ => rfl) fun s => rangeResults_stays _ s
  · exact .of_ok _ _ (fun _ => rfl) eqFrame.refl
  · exact .of_checked eqFrame _ _ (fun _ => rfl) eqFrame.refl
  · exact .of_checked eqFrame _ _ (fun _ => rfl) fun s => (windowRead_stays _ s).andResults eqFrame _
  · exact .of_checked eqFrame _ _ (fun _ => rfl) eqFrame.refl
  · exact .of_checked eqFrame _ _ (fun _ => rfl) eqFrame.refl

/-- Settles O24: no primitive changes the state, and a command's end writes STATUS and the results alone. -/
theorem observationCommandsFrame : Obligations.ObservationCommandsFrame := by
  intro i s t hi h
  refine ⟨?_, instructionsKeepHostSide i s t h⟩
  obtain ⟨u, c, rfl, rfl⟩ := (observation_keeps hi).next h
  rfl

/-! ## Tables of slots (R110 to R114) -/

/-- The rows' ranges lie end to end, from the value `lo` up to the value `hi`. -/
def tiles : List SlotRow → Nat → Nat → Bool
  | [], lo, hi => lo == hi + 1
  | r :: rs, lo, hi => r.lo == lo && lo ≤ r.hi && tiles rs (r.hi + 1) hi

theorem tiles_lenRows : tiles lenRows 3 258 = true := by decide

theorem tiles_distRows : tiles distRows 1 65536 = true := by decide +kernel

theorem tiles_cons {r : SlotRow} {rs : List SlotRow} {lo hi : Nat} :
    tiles (r :: rs) lo hi = true ↔ r.lo = lo ∧ lo ≤ r.hi ∧ tiles rs (r.hi + 1) hi = true := by
  simp [tiles, and_assoc]

theorem le_of_tiles {rows : List SlotRow} {lo hi : Nat} (ht : tiles rows lo hi = true) : lo ≤ hi + 1 := by
  induction rows generalizing lo with
  | nil => exact (beq_iff_eq.1 ht).le
  | cons r rs ih =>
    obtain ⟨-, hle, hrs⟩ := tiles_cons.1 ht
    have := ih hrs
    omega

/-- Every row lies inside the table's range. -/
theorem row_inside {rows : List SlotRow} {lo hi : Nat} (ht : tiles rows lo hi = true) {r : SlotRow} (hr : r ∈ rows) :
    lo ≤ r.lo ∧ r.hi ≤ hi := by
  induction rows generalizing lo with
  | nil => cases hr
  | cons q rs ih =>
    obtain ⟨hlo, hle, hrs⟩ := tiles_cons.1 ht
    rcases List.mem_cons.1 hr with rfl | hr
    · have := le_of_tiles hrs
      omega
    · have := ih hrs hr
      omega

/-- Every value of the table's range has a row. -/
theorem exists_row {rows : List SlotRow} {lo hi v : Nat} (ht : tiles rows lo hi = true) (hlo : lo ≤ v) (hhi : v ≤ hi) :
    ∃ r ∈ rows, r.lo ≤ v ∧ v ≤ r.hi := by
  induction rows generalizing lo with
  | nil =>
    have : lo = hi + 1 := beq_iff_eq.1 ht
    omega
  | cons r rs ih =>
    obtain ⟨rfl, -, hrs⟩ := tiles_cons.1 ht
    by_cases hv : v ≤ r.hi
    · exact ⟨r, List.mem_cons_self, hlo, hv⟩
    · obtain ⟨q, hq, hin⟩ := ih hrs (by omega)
      exact ⟨q, List.mem_cons_of_mem r hq, hin⟩

/-- R112, R113: the slot of a value is the number of the one row that holds it. -/
theorem slotIn_eq_of_row {rows : List SlotRow} {lo hi v k : Nat} {r : SlotRow} (ht : tiles rows lo hi = true)
    (hk : rows[k]? = some r) (hlo : r.lo ≤ v) (hhi : v ≤ r.hi) : slotIn rows v = some k := by
  induction rows generalizing lo k with
  | nil => cases hk
  | cons q rs ih =>
    obtain ⟨-, -, hrs⟩ := tiles_cons.1 ht
    cases k with
    | zero =>
      obtain rfl : q = r := by simpa using hk
      simp [slotIn, List.findIdx?_cons, hlo, hhi]
    | succ k =>
      have hk : rs[k]? = some r := by simpa using hk
      have hpast : q.hi < r.lo := (row_inside hrs (List.mem_of_getElem? hk)).1
      have hrest : rs.findIdx? (fun r => r.lo ≤ v && v ≤ r.hi) = some k := ih hrs hk
      simp [slotIn, List.findIdx?_cons, hrest, show ¬ v ≤ q.hi by omega]

/-! ## The lookups, by the printed rows (R115 to R118) -/

/-- A row as the spec prints it: slot, bounds, number of extra bits. -/
def printedRow (k : Nat) (r : SlotRow) : Nat × Nat × Nat × Nat := (k, r.lo, r.hi, r.nb)

theorem printedLenRows_eq : printedLenRows = lenRows.mapIdx printedRow := by decide

theorem printedDistRows_eq : printedDistRows = distRows.mapIdx printedRow := by decide +kernel

/-- R64: a lookup of an operand out of range. -/
theorem finish_operandRange {c : Bool} (h : ¬ c = true) (s : State) {k : Unit → Res Results} :
    finish (require c operandRange s k) = .next (s.fail (.illegal .operandRange)) := by
  rw [require_of_not h]; rfl

section
variable {rows : List SlotRow} {lo hi v : Nat}

theorem mem_printed {p : Nat × Nat × Nat × Nat} :
    p ∈ rows.mapIdx printedRow ↔ ∃ k r, rows[k]? = some r ∧ printedRow k r = p := by
  simp [List.mem_mapIdx, List.getElem?_eq_some_iff]

theorem exists_printed (ht : tiles rows lo hi = true) (hlo : lo ≤ v) (hhi : v ≤ hi) :
    ∃ p ∈ rows.mapIdx printedRow, p.2.1 ≤ v ∧ v ≤ p.2.2.1 := by
  obtain ⟨r, hr, hin⟩ := exists_row ht hlo hhi
  obtain ⟨k, hk⟩ := List.mem_iff_getElem?.1 hr
  exact ⟨printedRow k r, mem_printed.2 ⟨k, r, hk, rfl⟩, hin⟩

variable {c : Bool} {p : Nat × Nat × Nat × Nat} (hp : p ∈ rows.mapIdx printedRow) (s : State)
include hp

/-- R115, R116: the slot lookup of a value in a printed row. -/
theorem finish_slotResults (ht : tiles rows lo hi = true) (hc : lo ≤ v ∧ v ≤ hi → c = true) (e : Err)
    (hlo : p.2.1 ≤ v) (hhi : v ≤ p.2.2.1) :
    finish (require c operandRange s fun _ => slotResults rows v e s) =
      .next (s.complete (BitVec.ofNat 32 p.1) (BitVec.ofNat 32 (v - p.2.1)) (BitVec.ofNat 32 p.2.2.2)) := by
  obtain ⟨k, r, hk, rfl⟩ := mem_printed.1 hp
  obtain ⟨hrlo, hrhi⟩ := row_inside ht (List.mem_of_getElem? hk)
  have hslot : slotIn rows v = some k := slotIn_eq_of_row ht hk hlo hhi
  rw [require_of (hc ⟨hrlo.trans hlo, hhi.trans hrhi⟩)]
  simp [slotResults, hslot, hk, printedRow, Results.nat]

/-- R117, R118: the range lookup of a printed row's slot. -/
theorem finish_rangeResults {k : Nat} (hc : k < rows.length → c = true) (hk : k = p.1) :
    finish (require c operandRange s fun _ => rangeResults rows[k]? s) =
      .next (s.complete (BitVec.ofNat 32 p.2.1) (BitVec.ofNat 32 p.2.2.1) (BitVec.ofNat 32 p.2.2.2)) := by
  obtain ⟨j, r, hj, rfl⟩ := mem_printed.1 hp
  obtain rfl : k = j := hk
  rw [require_of (hc (List.getElem?_eq_some_iff.1 hj).1), hj]
  rfl

end

theorem matchLenOk_iff {l : Nat} : matchLenOk l = true ↔ 3 ≤ l ∧ l ≤ 258 := by simp [matchLenOk]

theorem matchDistOk_iff {d : Nat} : matchDistOk d = true ↔ 1 ≤ d ∧ d ≤ 65536 := by simp [matchDistOk]

theorem lenSlotOk_of_lt {k : Nat} (h : k < lenRows.length) : lenSlotOk k = true := by
  simpa [lenSlotOk, lenRows, Nat.lt_succ_iff] using h

theorem distSlotOk_of_lt {j : Nat} (h : j < distRows.length) : distSlotOk j = true := by
  simpa [distSlotOk, distRows, Nat.lt_succ_iff] using h

/-- Settles O34: the two lookups over the length table, whose rows lie end to end from 3 to 258. -/
theorem lengthCommands : Obligations.LengthCommands := by
  intro s
  rw [printedLenRows_eq]
  refine ⟨fun h => ?_, fun p hp hlo hhi => ?_, exists_printed tiles_lenRows, fun h => ?_, fun p hp hk => ?_⟩
  · exact finish_operandRange (mt matchLenOk_iff.1 h) s
  · exact finish_slotResults hp s tiles_lenRows matchLenOk_iff.2 _ hlo hhi
  · exact finish_operandRange (by simpa [lenSlotOk] using h) s
  · exact finish_rangeResults hp s lenSlotOk_of_lt hk

/-- Settles O35: the two lookups over the distance table, whose rows lie end to end from 1 to 65536. -/
theorem distanceCommands : Obligations.DistanceCommands := by
  intro s
  rw [printedDistRows_eq]
  refine ⟨fun h => ?_, fun p hp hlo hhi => ?_, exists_printed tiles_distRows, fun h => ?_, fun p hp hk => ?_⟩
  · exact finish_operandRange (mt matchDistOk_iff.1 h) s
  · exact finish_slotResults hp s tiles_distRows matchDistOk_iff.2 _ hlo hhi
  · exact finish_operandRange (by simpa [distSlotOk] using h) s
  · exact finish_rangeResults hp s distSlotOk_of_lt hk

end Sys2Proof.Machine
end

section
/-! # Canonical codes in closed form (42_huffman.md R138, R139, R146, R154)

The codes of a length, with those that shorter codes begin, take up a known part of the length's code space: from it the
closed form of a code, the Kraft test, and the bits that lead to a leaf. -/

namespace Sys2Proof.Machine

/-! ## The code space taken up (R139) -/

/-- How many bit strings of length `l` begin with the code of a symbol of length at most `l`. -/
def codeSpace (cl : List Nat) (l : Nat) : Nat := ((cl.filter fun x => 0 < x ∧ x ≤ l).map fun x => 2 ^ (l - x)).sum

theorem codeSpace_zero (cl : List Nat) : codeSpace cl 0 = 0 := by
  rw [codeSpace, List.filter_eq_nil_iff.2 fun x _ => by simp; omega]
  rfl

theorem codeSpace_append (cl dl : List Nat) (l : Nat) : codeSpace (cl ++ dl) l = codeSpace cl l + codeSpace dl l := by
  simp [codeSpace]

theorem sum_map_filter_singleton (p : Nat → Prop) [DecidablePred p] (f : Nat → Nat) (x : Nat) :
    (([x].filter fun y => p y).map f).sum = if p x then f x else 0 := by
  by_cases h : p x <;> simp [h]

theorem codeSpace_singleton (x l : Nat) : codeSpace [x] l = if 0 < x ∧ x ≤ l then 2 ^ (l - x) else 0 :=
  sum_map_filter_singleton (fun x => 0 < x ∧ x ≤ l) _ x

theorem codeSpace_cons (x : Nat) (cl : List Nat) (l : Nat) : codeSpace (x :: cl) l = codeSpace [x] l + codeSpace cl l :=
  codeSpace_append [x] cl l

/-- One bit more doubles the strings, and the codes of the longer length join them. -/
theorem codeSpace_succ (cl : List Nat) (l : Nat) : codeSpace cl (l + 1) = 2 * codeSpace cl l + cl.count (l + 1) := by
  induction cl with
  | nil => rfl
  | cons x cl ih =>
    rw [codeSpace_cons, ih, codeSpace_cons x cl l, codeSpace_singleton, codeSpace_singleton, List.count_cons]
    by_cases hx : 0 < x ∧ x ≤ l
    · rw [if_pos hx, if_pos (by omega), if_neg (by simp; omega), Nat.succ_sub hx.2, Nat.pow_succ]
      omega
    · rw [if_neg hx]
      by_cases heq : x = l + 1
      · rw [if_pos (by omega), if_pos (by simpa using heq), heq, Nat.sub_self]
        omega
      · rw [if_neg (by omega), if_neg (by simpa using heq)]
        omega

theorem codeSpace_mul_le (cl : List Nat) {l m : Nat} (h : l ≤ m) : codeSpace cl l * 2 ^ (m - l) ≤ codeSpace cl m := by
  induction m, h using Nat.le_induction with
  | base => simp
  | succ m hlm ih =>
    rw [codeSpace_succ, Nat.succ_sub hlm, Nat.pow_succ, ← Nat.mul_assoc]
    omega

/-- The Kraft sum is the code space that all codes take up. -/
theorem kraft_eq_codeSpace {a : Alphabet} {s : State} (hlens : LengthsOk a s) :
    kraft a s = codeSpace (codeLens a s) maxCodeLenDec := by
  rw [kraft, codeSpace, List.filter_congr fun l hl => decide_eq_decide.2 (and_iff_left (hlens l hl)).symm]

/-! ## The recurrence (R138) -/

theorem firstCode_succ_eq (cl : List Nat) {l : Nat} (h : l + 1 < 32) : firstCode cl (l + 1) = 2 * codeSpace cl l := by
  induction l with
  | zero => rw [codeSpace_zero]; rfl
  | succ l ih =>
    rw [firstCode_succ cl (Nat.succ_ne_zero l) h, ih (by omega), codeSpace_succ, Nat.mul_comm]

/-- R138: the codes of a length end where the code space taken up ends. -/
theorem firstCode_add_count (cl : List Nat) {l : Nat} (h0 : l ≠ 0) (h : l < 32) :
    firstCode cl l + cl.count l = codeSpace cl l := by
  obtain ⟨l, rfl⟩ := Nat.exists_eq_succ_of_ne_zero h0
  rw [firstCode_succ_eq cl h, codeSpace_succ]

/-! ## When there are codes (R139) -/

/-- R138, R139: the assignment goes through exactly where each length has room for all its codes. -/
theorem assignCodes_isSome_iff {cl next : List Nat} (hlt : ∀ l ∈ cl, l < next.length) :
    (assignCodes cl next).isSome = true ↔ ∀ l ∈ cl, l ≠ 0 → next.getD l 0 + cl.count l ≤ 2 ^ l := by
  induction cl generalizing next with
  | nil => simp [assignCodes]
  | cons l rest ih =>
    obtain ⟨hl, hrest⟩ := List.forall_mem_cons.1 hlt
    unfold assignCodes
    by_cases h0 : l = 0
    · rw [if_pos h0, Option.isSome_map, ih hrest, List.forall_mem_cons]
      refine ⟨fun h => ⟨fun hne => absurd h0 hne, fun m hm hm0 => ?_⟩, fun ⟨_, h⟩ m hm hm0 => ?_⟩
      · rw [List.count_cons_of_ne (by omega)]; exact h m hm hm0
      · have := h m hm hm0
        rwa [List.count_cons_of_ne (by omega)] at this
    · have hset : ∀ m, (next.set l (next.getD l 0 + 1)).getD m 0 + rest.count m =
          next.getD m 0 + (l :: rest).count m := fun m => by
        by_cases hm : l = m
        · subst hm
          rw [List.getD_eq_getElem _ _ (by simpa using hl), List.getElem_set_self, List.count_cons_self]
          omega
        · rw [List.getD_eq_getElem?_getD, List.getElem?_set_ne hm, ← List.getD_eq_getElem?_getD,
            List.count_cons_of_ne hm]
      have hrec := ih (next := next.set l (next.getD l 0 + 1)) (by simpa using hrest)
      simp only [hset] at hrec
      rw [if_neg h0]
      dsimp only
      split
      · rename_i hfull
        refine ⟨nofun, fun h => ?_⟩
        have := h l List.mem_cons_self h0
        rw [List.count_cons_self] at this
        omega
      · rename_i hroom
        rw [Option.isSome_map, hrec, List.forall_mem_cons]
        refine ⟨fun h => ⟨fun _ => ?_, h⟩, fun h => h.2⟩
        by_cases hmem : l ∈ rest
        · exact h l hmem h0
        · rw [List.count_cons_self, List.count_eq_zero.2 hmem]
          omega

/-- R139: a code space that holds the codes of every length that occurs holds them all. -/
theorem codeSpace_le_iff {cl : List Nat} {n : Nat} (hlens : ∀ l ∈ cl, l ≤ n) :
    (∀ l ∈ cl, l ≠ 0 → codeSpace cl l ≤ 2 ^ l) ↔ codeSpace cl n ≤ 2 ^ n := by
  refine ⟨fun h => ?_, fun h l hl _ => ?_⟩
  · have hall : ∀ m, codeSpace cl m ≤ 2 ^ m := fun m => by
      induction m with
      | zero => rw [codeSpace_zero]; exact Nat.zero_le _
      | succ m ih =>
        by_cases hm : m + 1 ∈ cl
        · exact h _ hm (Nat.succ_ne_zero m)
        · rw [codeSpace_succ, List.count_eq_zero.2 hm, Nat.pow_succ]
          omega
    exact hall n
  · have hsplit : 2 ^ n = 2 ^ l * 2 ^ (n - l) := by rw [← Nat.pow_add, Nat.add_sub_cancel' (hlens l hl)]
    rw [hsplit] at h
    exact Nat.le_of_mul_le_mul_right (Nat.le_trans (codeSpace_mul_le cl (hlens l hl)) h) (Nat.two_pow_pos _)

/-- R139: the canonical codes exist exactly where the Kraft inequality holds. -/
theorem canon_isSome_iff {cl : List Nat} (hlens : ∀ l ∈ cl, l ≤ maxCodeLenDec) :
    (canon cl).isSome = true ↔ codeSpace cl maxCodeLenDec ≤ 2 ^ maxCodeLenDec := by
  have hlt : ∀ l ∈ cl, l < 32 := fun l hl => Nat.lt_of_le_of_lt (hlens l hl) (by decide)
  rw [canon, assignCodes_isSome_iff (by simpa [length_firstCodes] using hlt), ← codeSpace_le_iff hlens]
  refine forall₃_congr fun l hl h0 => ?_
  rw [← firstCode_add_count cl h0 (hlt l hl), firstCode]

theorem canon_eq_none {a : Alphabet} {s : State} (hlens : LengthsOk a s) (h : 2 ^ 21 < kraft a s) :
    canon (codeLens a s) = none := by
  rw [kraft_eq_codeSpace hlens] at h
  rw [← Option.not_isSome_iff_eq_none, canon_isSome_iff hlens]
  exact Nat.not_le.2 h

theorem exists_canon {a : Alphabet} {s : State} (hlens : LengthsOk a s) (h : kraft a s ≤ 2 ^ 21) :
    ∃ codes, canon (codeLens a s) = some codes := by
  rw [kraft_eq_codeSpace hlens] at h
  exact Option.isSome_iff_exists.1 ((canon_isSome_iff hlens).2 h)

/-! ## The closed form (R138) -/

theorem clOf_eq_getD (a : Alphabet) (sym : Nat) (s : State) : clOf a sym s = (codeLens a s).getD sym 0 := by
  by_cases h : sym < (codeLens a s).length
  · rw [List.getD_eq_getElem _ _ h, getElem_codeLens]
  · rw [List.getD_eq_default _ _ (by omega), clOf, tableGet_of_le _ (by simpa using h)]
    rfl

/-- The codes of length `l` before the code of symbol `sym`, of the first `n` symbols: those that shorter codes begin, and
those of its own length. -/
theorem sum_preceding (cl : List Nat) (l sym : Nat) {n : Nat} (hn : n ≤ cl.length) :
    (((List.range n).filter fun x =>
        0 < cl.getD x 0 ∧ (cl.getD x 0 < l + 1 ∨ (cl.getD x 0 = l + 1 ∧ x < sym))).map fun x =>
      2 ^ (l + 1 - cl.getD x 0)).sum = 2 * codeSpace (cl.take n) l + (cl.take (min n sym)).count (l + 1) := by
  induction n with
  | zero => simp [codeSpace]
  | succ n ih =>
    have hlt : n < cl.length := hn
    have htake : cl.take (n + 1) = cl.take n ++ [cl[n]] := List.take_succ_eq_append_getElem hlt
    rw [List.range_succ, List.filter_append, List.map_append, List.sum_append, ih (by omega), htake, codeSpace_append,
      sum_map_filter_singleton, codeSpace_singleton, List.getD_eq_getElem _ _ hlt]
    have hcount : (cl.take (min (n + 1) sym)).count (l + 1) =
        (cl.take (min n sym)).count (l + 1) + if cl[n] = l + 1 ∧ n < sym then 1 else 0 := by
      by_cases hs : n < sym
      · rw [Nat.min_eq_left hs, Nat.min_eq_left hs.le, htake, List.count_append, List.count_singleton]
        simp [hs]
      · rw [Nat.min_eq_right (by omega), Nat.min_eq_right (by omega), if_neg (fun h => hs h.2)]
        rfl
    rw [hcount]
    by_cases hshort : 0 < cl[n] ∧ cl[n] ≤ l
    · rw [if_pos hshort, if_pos (by omega), if_neg (by omega), Nat.succ_sub hshort.2, Nat.pow_succ]
      omega
    · rw [if_neg hshort]
      by_cases hown : cl[n] = l + 1 ∧ n < sym
      · rw [if_pos hown, if_pos (by omega), hown.1, Nat.sub_self]
        omega
      · rw [if_neg hown, if_neg (by omega)]
        rfl

/-- R138: the closed form of a code, by the recurrence. -/
theorem canonicalCode_eq {a : Alphabet} {s : State} {sym : Nat} (hsym : sym < a.size) (h0 : clOf a sym s ≠ 0) :
    canonicalCode a s sym =
      firstCode (codeLens a s) (clOf a sym s) + ((codeLens a s).take sym).count (clOf a sym s) := by
  have hlt := clOf_lt a sym s
  have hsum := sum_preceding (codeLens a s) (clOf a sym s - 1) sym (n := a.size) (by simp)
  rw [Nat.sub_add_cancel (Nat.pos_of_ne_zero h0), Nat.min_eq_right hsym.le, List.take_of_length_le (by simp),
    ← firstCode_succ_eq _ (by omega), Nat.sub_add_cancel (Nat.pos_of_ne_zero h0)] at hsum
  simp only [← clOf_eq_getD] at hsum
  exact hsum

section
variable {a : Alphabet} {s : State} {codes : List Nat} (hlens : LengthsOk a s)
  (hcanon : canon (codeLens a s) = some codes)
include hlens hcanon

/-- R138: the code of a symbol is the closed form and fits its length. -/
theorem canon_eq_canonicalCode {sym : Nat} (hsym : sym < a.size) :
    codes.getD sym 0 = (if clOf a sym s = 0 then 0 else canonicalCode a s sym) ∧
      codes.getD sym 0 < 2 ^ clOf a sym s := by
  obtain ⟨hfits, hcode⟩ := (canon_spec hlens hcanon).2 sym
  rw [← clOf_eq_getD] at hfits hcode
  refine ⟨?_, hfits⟩
  split
  · rename_i h0
    rw [h0] at hfits
    omega
  · rename_i h0
    rw [hcode (Nat.pos_of_ne_zero h0), canonicalCode_eq hsym h0]

/-- R141: the codes HUF_CANON stores. -/
theorem codeOf_setCodes (sym : Nat) : codeOf a sym (setCodes a codes s) = codes.getD sym 0 := by
  rw [← codeOf_withTrie hlens hcanon]
  cases a <;> rfl

end

theorem setCodes_only (a : Alphabet) (codes : List Nat) (s : State) : OnlyCode a s (setCodes a codes s) := by
  cases a <;> rfl

theorem hufCanon_of_canon {a : Alphabet} {s : State} {codes : List Nat} (h : canon (codeLens a s) = some codes) :
    hufCanon a s = .ok () (setCodes a codes s) := by
  rw [hufCanon, h]

theorem hufCanon_of_none {a : Alphabet} {s : State} (h : canon (codeLens a s) = none) :
    hufCanon a s = .err (.corrupt .oversubscribed) s := by
  rw [hufCanon, h]

/-- Settles O40: there are codes exactly where the code space holds them, and each is the closed form. -/
theorem canonGivesCanonicalCodes : Obligations.CanonGivesCanonicalCodes := by
  intro a s hlens
  have hexec : exec (.hufCanon a) s = finish ((hufCanon a s).bind fun _ t => .ok Results.zero t) := rfl
  rw [hexec]
  refine ⟨fun h => ?_, fun h => ?_⟩
  · rw [hufCanon_of_none (canon_eq_none hlens h)]; rfl
  · obtain ⟨codes, hcanon⟩ := exists_canon hlens h
    refine ⟨setCodes a codes s, setCodes_only a codes s, by rw [hufCanon_of_canon hcanon]; rfl, fun sym hsym => ?_⟩
    obtain ⟨hcode, hfits⟩ := canon_eq_canonicalCode hlens hcanon hsym
    rw [codeOf_setCodes hlens hcanon]
    exact ⟨fun h0 => by rw [hcode, if_pos h0], fun h0 => ⟨by rw [hcode, if_neg h0], hfits⟩⟩

/-! ## The leaves of the trie (R146, R148, R154) -/

/-- R148: the bits a trie's descent reads as a symbol are those that lead to the symbol's leaf. -/
theorem parse_onBits_iff {t : Trie} {bs : List Bool} {sym : Nat} :
    t.parse.onBits bs = some (sym, []) ↔ slotFrom t bs = .leaf sym := by
  induction bs generalizing t with
  | nil => cases t <;> simp [Trie.parse, Parse.onBits, slotFrom]
  | cons b bs ih =>
    cases t with
    | empty => exact ⟨nofun, nofun⟩
    | leaf x => simp [Trie.parse, Parse.onBits, slotFrom]
    | node z o =>
      have hread := (Parse.Reads.one .inSymbol (fun v => if v = 0 then z.parse else o.parse) b).onBits bs
      rw [List.singleton_append] at hread
      rw [Trie.parse, hread]
      cases b
      · exact ih (t := z)
      · exact ih (t := o)

/-- R146, R154: a trie that holds codes has a leaf at each code and nowhere else. -/
theorem TrieHolds.leaf_iff {code : Nat → Nat × Nat} {t : DecodeTrie} (h : TrieHolds code t) {bs : List Bool}
    {sym : Nat} :
    slotFrom (rootNode t) bs = .leaf sym ↔ 0 < (code sym).1 ∧ bs = codePath (code sym).2 (code sym).1 := by
  refine ⟨fun hleaf => ?_, fun ⟨hsym, hbs⟩ => hbs ▸ h.leaf sym hsym⟩
  have hinside : ¬ InsideCode code bs := fun hin => by
    obtain ⟨z, o, hnode⟩ := h.node hin
    rw [hleaf] at hnode
    cases hnode
  have houtside : ¬ OutsideCodes code bs := fun hout => by
    rw [h.empty bs (fun hnil => hinside (.inl hnil)) hout] at hleaf
    cases hleaf
  obtain ⟨k, hk, hpre⟩ : ∃ k, 0 < (code k).1 ∧ bs <+: codePath (code k).2 (code k).1 := by
    simpa [OutsideCodes] using houtside
  have hwhole : bs = codePath (code k).2 (code k).1 := by
    refine hpre.eq_of_length (Nat.le_antisymm hpre.length_le ?_)
    rw [length_codePath]
    exact Nat.not_lt.1 fun hlt => hinside (.inr ⟨k, hpre, hlt⟩)
  have hsame := h.leaf k hk
  rw [← hwhole, hleaf] at hsame
  cases hsame
  exact ⟨hk, hwhole⟩

/-- Settles O41: the trie holds the canonical codes, so its leaves are at them; none begins another. -/
theorem trieHoldsCanonicalCodes : Obligations.TrieHoldsCanonicalCodes := by
  intro a s hlens
  have hexec : exec (.hufTrie a) s = finish ((hufTrie a s).bind fun _ t => .ok Results.zero t) := rfl
  rw [hexec]
  refine ⟨fun h => ?_, fun h => ?_⟩
  · rw [hufTrie_of_none (canon_eq_none hlens h)]; rfl
  · obtain ⟨codes, hcanon⟩ := exists_canon hlens h
    refine ⟨withTrie a codes s, withTrie_only a codes s, by rw [hufTrie_of_canon hcanon]; rfl, ?_⟩
    simp only [codeOf_withTrie hlens hcanon, withTrie_trie]
    refine ⟨fun sym hsym => (canon_eq_canonicalCode hlens hcanon hsym).1, fun bs sym => ?_,
      fun x y _ _ hx hy hne => ?_⟩
    · rw [parse_rootNode, parse_onBits_iff, (trieHolds_buildTrie hlens hcanon).leaf_iff, ← clOf_eq_getD,
        Nat.pos_iff_ne_zero]
      refine ⟨fun ⟨h0, hbs⟩ => ⟨?_, h0, hbs⟩, fun ⟨_, h0, hbs⟩ => ⟨h0, hbs⟩⟩
      by_contra hsym
      exact h0 (by rw [clOf, tableGet_of_le _ (Nat.not_lt.1 hsym)]; rfl)
    · rw [clOf_eq_getD, ← Nat.pos_iff_ne_zero] at hx hy
      rw [clOf_eq_getD, clOf_eq_getD]
      exact canon_prefixFree hlens hcanon hx hy hne

end Sys2Proof.Machine
end

section
/-! # HUF_BUILD (42_huffman.md R134 to R137)

The leaves are put in order, the two first nodes merged until one tree is left; a symbol's length is its depth there, and
the depths of a binary tree give a complete code. -/

namespace Sys2Proof.Machine

/-! ## Insertion (R134, R135) -/

/-- R135: the new node goes behind every node of equal or lower weight. -/
theorem insertNode_split (z : Nat × MergeTree) (q : List (Nat × MergeTree)) :
    ∃ before after, q = before ++ after ∧ insertNode z q = before ++ z :: after ∧
      (∀ x ∈ before, x.1 ≤ z.1) ∧ ∀ x ∈ after.head?, z.1 < x.1 := by
  induction q with
  | nil => exact ⟨[], [], rfl, rfl, nofun, nofun⟩
  | cons p rest ih =>
    unfold insertNode
    split
    · rename_i hlt
      exact ⟨[], p :: rest, rfl, rfl, nofun, fun x hx => Option.some.inj hx ▸ hlt⟩
    · rename_i hle
      obtain ⟨before, after, rfl, hinsert, hbefore, hafter⟩ := ih
      exact ⟨p :: before, after, rfl, by rw [hinsert]; rfl,
        List.forall_mem_cons.2 ⟨Nat.le_of_not_lt hle, hbefore⟩, hafter⟩

/-! ## The initial list (R134, R135) -/

section
variable (freq : List Nat)

/-- The leaf of a symbol, with its frequency for weight. -/
def leafOf (sym : Nat) : Nat × MergeTree := (freq.getD sym 0, .leaf sym)

/-- The order of the initial list: by frequency, then by symbol. -/
def Precedes (x y : Nat) : Prop :=
  freq.getD x 0 < freq.getD y 0 ∨ (freq.getD x 0 = freq.getD y 0 ∧ x < y)

/-- The symbols that occur, in ascending order. -/
def occurring : List Nat := (List.range freq.length).filter fun sym => freq.getD sym 0 ≠ 0

end

section
variable {freq : List Nat}

theorem mem_occurring {sym : Nat} : sym ∈ occurring freq ↔ freq.getD sym 0 ≠ 0 := by
  simp only [occurring, List.mem_filter, List.mem_range, decide_eq_true_eq]
  refine and_iff_right_of_imp fun h => ?_
  by_contra hlen
  exact h (List.getD_eq_default _ _ (Nat.not_lt.1 hlen))

theorem nodup_occurring : (occurring freq).Nodup := List.nodup_range.filter _

/-- The leaves as the model lists them are those of the symbols that occur. -/
theorem leavesFrom_eq (rest : List Nat) (i : Nat) (h : ∀ k, rest.getD k 0 = freq.getD (i + k) 0) :
    leavesFrom i rest =
      ((List.range' i rest.length).filter fun sym => freq.getD sym 0 ≠ 0).map (leafOf freq) := by
  induction rest generalizing i with
  | nil => rfl
  | cons f rest ih =>
    have hf : f = freq.getD i 0 := h 0
    have hrest := ih (i + 1) fun k => by rw [Nat.add_assoc, Nat.add_comm 1 k]; exact h (k + 1)
    rw [leavesFrom, hrest, List.length_cons, List.range'_succ, List.filter_cons, ← hf]
    by_cases h0 : f = 0
    · simp [h0]
    · rw [if_neg h0, if_pos (by simpa using h0), List.map_cons, leafOf, ← hf]

/-- R135: a symbol above all listed ones goes to its place in the order. -/
theorem insertNode_leafOf {syms : List Nat} {sym : Nat} (hsort : syms.Pairwise (Precedes freq))
    (hlt : ∀ x ∈ syms, x < sym) :
    ∃ syms' : List Nat, insertNode (leafOf freq sym) (syms.map (leafOf freq)) = syms'.map (leafOf freq) ∧
      syms'.Perm (sym :: syms) ∧ syms'.Pairwise (Precedes freq) := by
  obtain ⟨before, after, hsplit, hinsert, hbefore, hafter⟩ :=
    insertNode_split (leafOf freq sym) (syms.map (leafOf freq))
  obtain ⟨xs, ys, rfl, rfl, rfl⟩ := List.map_eq_append_iff.1 hsplit
  rw [List.forall_mem_map] at hbefore
  obtain ⟨hxs, hys, hcross⟩ := List.pairwise_append.1 hsort
  have hfirst : ∀ x ∈ xs, Precedes freq x sym := fun x hx =>
    (Nat.lt_or_eq_of_le (hbefore x hx)).imp id fun heq => ⟨heq, hlt x (List.mem_append_left _ hx)⟩
  have hlast : ∀ y ∈ ys, Precedes freq sym y := by
    cases ys with
    | nil => exact nofun
    | cons y ys =>
      have hy : freq.getD sym 0 < freq.getD y 0 := hafter _ rfl
      refine List.forall_mem_cons.2 ⟨.inl hy, fun z hz => .inl ?_⟩
      rcases (List.pairwise_cons.1 hys).1 z hz with h | h
      · exact hy.trans h
      · exact h.1 ▸ hy
  refine ⟨xs ++ sym :: ys, by rw [hinsert]; simp, List.perm_middle, List.pairwise_append.2 ⟨hxs, ?_, ?_⟩⟩
  · exact List.pairwise_cons.2 ⟨hlast, hys⟩
  · exact fun x hx => List.forall_mem_cons.2 ⟨hfirst x hx, hcross x hx⟩

/-- R135: the sort of ascending leaves, some already in order. -/
theorem foldl_insertNode_leafOf {syms rest : List Nat} (hsort : syms.Pairwise (Precedes freq))
    (hrest : rest.Pairwise (· < ·)) (hlt : ∀ x ∈ syms, ∀ y ∈ rest, x < y) :
    ∃ syms' : List Nat, (rest.map (leafOf freq)).foldl (fun acc z => insertNode z acc) (syms.map (leafOf freq)) =
        syms'.map (leafOf freq) ∧ syms'.Perm (syms ++ rest) ∧ syms'.Pairwise (Precedes freq) := by
  induction rest generalizing syms with
  | nil => exact ⟨syms, rfl, by simp, hsort⟩
  | cons sym rest ih =>
    obtain ⟨hhead, htail⟩ := List.pairwise_cons.1 hrest
    obtain ⟨syms₁, hinsert, hperm₁, hsort₁⟩ :=
      insertNode_leafOf hsort fun x hx => hlt x hx sym List.mem_cons_self
    have hlt₁ : ∀ x ∈ syms₁, ∀ y ∈ rest, x < y := fun x hx => by
      rcases List.mem_cons.1 (hperm₁.mem_iff.1 hx) with rfl | hx
      · exact hhead
      · exact fun y hy => hlt x hx y (List.mem_cons_of_mem _ hy)
    obtain ⟨syms₂, hfold, hperm₂, hsort₂⟩ := ih hsort₁ htail hlt₁
    refine ⟨syms₂, by rw [List.map_cons, List.foldl_cons, hinsert, hfold], ?_, hsort₂⟩
    exact hperm₂.trans ((hperm₁.append_right rest).trans List.perm_middle.symm)

/-- R134, R135: the initial list: a leaf for every symbol that occurs, in the order. -/
theorem exists_sortLeaves (freq : List Nat) :
    ∃ syms : List Nat, sortLeaves (leavesFrom 0 freq) = syms.map (leafOf freq) ∧
      syms.Perm (occurring freq) ∧ syms.Pairwise (Precedes freq) := by
  have hlist : leavesFrom 0 freq = (occurring freq).map (leafOf freq) := by
    rw [leavesFrom_eq (freq := freq) freq 0 fun k => by rw [Nat.zero_add], ← List.range_eq_range']
    rfl
  rw [sortLeaves, hlist]
  exact foldl_insertNode_leafOf (syms := []) .nil (List.pairwise_lt_range.filter _) nofun

end

/-! ## Merging (R134) -/

/-- R134: with enough rounds one tree is left, and it is the one the list merges to. -/
theorem mergeAll_mergesTo {n : Nat} {q : List (Nat × MergeTree)} (hq : q ≠ []) (hn : q.length ≤ n + 1) :
    ∃ w tree, mergeAll n q = [(w, tree)] ∧ MergesTo q tree := by
  induction n generalizing q with
  | zero =>
    obtain ⟨z, rfl⟩ := List.length_eq_one_iff.1 (Nat.le_antisymm hn (List.length_pos_iff.2 hq))
    exact ⟨z.1, z.2, rfl, .one z.1 z.2⟩
  | succ n ih =>
    match q with
    | [z] => exact ⟨z.1, z.2, rfl, .one z.1 z.2⟩
    | x :: y :: rest =>
      obtain ⟨before, after, rfl, hinsert, hbefore, hafter⟩ := insertNode_split (x.1 + y.1, .node x.2 y.2) rest
      obtain ⟨w, tree, hmerge, htree⟩ := ih (q := before ++ (x.1 + y.1, .node x.2 y.2) :: after) (by simp) (by
        simp only [List.length_cons, List.length_append] at hn ⊢; omega)
      exact ⟨w, tree, by rw [mergeAll, hinsert, hmerge], .merge x y before after tree hbefore hafter htree⟩

/-! ## Trees (R134) -/

/-- The symbols of a tree's leaves, from left to right. -/
def MergeTree.leaves : MergeTree → List Nat
  | .leaf sym => [sym]
  | .node x y => x.leaves ++ y.leaves

theorem MergeTree.leaves_pos (t : MergeTree) : 0 < t.leaves.length := by
  induction t with
  | leaf sym => exact Nat.one_pos
  | node x y hx hy => rw [leaves, List.length_append]; omega

theorem MergeTree.map_fst_depths (t : MergeTree) (d : Nat) : (t.depths d).map Prod.fst = t.leaves := by
  induction t generalizing d with
  | leaf sym => rfl
  | node x y hx hy => rw [depths, List.map_append, hx, hy, leaves]

theorem MergeTree.le_depth {t : MergeTree} {d : Nat} {x : Nat × Nat} (hx : x ∈ t.depths d) : d ≤ x.2 := by
  induction t generalizing d with
  | leaf sym => obtain rfl := List.mem_singleton.1 hx; exact Nat.le_refl d
  | node y z hy hz =>
    rcases List.mem_append.1 hx with h | h
    · exact Nat.le_of_succ_le (hy h)
    · exact Nat.le_of_succ_le (hz h)

/-- R137: a leaf lies less deep than there are leaves. -/
theorem MergeTree.depth_lt {t : MergeTree} {d : Nat} {x : Nat × Nat} (hx : x ∈ t.depths d) :
    x.2 < d + t.leaves.length := by
  induction t generalizing d with
  | leaf sym => obtain rfl := List.mem_singleton.1 hx; exact Nat.lt_succ_self d
  | node y z hy hz =>
    rw [leaves, List.length_append]
    have := y.leaves_pos
    have := z.leaves_pos
    rcases List.mem_append.1 hx with h | h
    · have := hy h; omega
    · have := hz h; omega

/-- R139: the depths of a binary tree meet the Kraft inequality with equality. -/
theorem MergeTree.kraft_depths {t : MergeTree} {d n : Nat} (h : ∀ x ∈ t.depths d, x.2 ≤ n) :
    (((t.depths d).map Prod.snd).map fun l => 2 ^ (n - l)).sum = 2 ^ (n - d) := by
  induction t generalizing d with
  | leaf sym => simp [depths]
  | node x y hx hy =>
    rw [depths, List.forall_mem_append] at h
    obtain ⟨z, hz⟩ := List.exists_mem_of_length_pos (l := x.depths (d + 1))
      (by rw [← List.length_map Prod.fst, map_fst_depths]; exact x.leaves_pos)
    have hd : d < n := Nat.lt_of_lt_of_le (Nat.lt_of_succ_le (le_depth hz)) (h.1 z hz)
    rw [depths, List.map_append, List.map_append, List.sum_append, hx h.1, hy h.2, ← Nat.two_mul, ← Nat.pow_succ']
    congr 1
    omega

/-- R134: merging keeps the leaves. -/
theorem MergesTo.leaves_perm {q : List (Nat × MergeTree)} {t : MergeTree} (h : MergesTo q t) :
    t.leaves.Perm (q.flatMap fun z => z.2.leaves) := by
  induction h with
  | one w t => simp
  | merge x y before after t hb ha h ih =>
    refine ih.trans ?_
    simp only [List.flatMap_append, List.flatMap_cons, MergeTree.leaves, ← List.append_assoc]
    refine List.Perm.append_right _ ?_
    rw [List.append_assoc]
    exact List.perm_append_comm

/-! ## The depths of the symbols (R134, R136) -/

/-- R136: the depth a tree's top counts as: 1 for a symbol alone. -/
def topDepth (n : Nat) : Nat := if n = 1 then 1 else 0

section
variable {freq : List Nat}

theorem leafDepths_of_none (h : occurring freq = []) : leafDepths freq = [] := by
  obtain ⟨syms, hq, hperm, -⟩ := exists_sortLeaves freq
  rw [h, List.perm_nil] at hperm
  rw [leafDepths, hq, hperm]
  rfl

theorem occurring_ne_nil_of_mem {x : Nat × Nat} (hx : x ∈ leafDepths freq) : occurring freq ≠ [] := fun h => by
  rw [leafDepths_of_none h] at hx
  cases hx

/-- R134, R136: the depths are those of the tree the initial list merges to. -/
theorem exists_tree (h : occurring freq ≠ []) : ∃ tree, MergesTo (sortLeaves (leavesFrom 0 freq)) tree ∧
    leafDepths freq = tree.depths (topDepth (occurring freq).length) ∧ tree.leaves.Perm (occurring freq) := by
  obtain ⟨syms, hq, hperm, -⟩ := exists_sortLeaves freq
  have hlen : (sortLeaves (leavesFrom 0 freq)).length = (occurring freq).length := by
    rw [hq, List.length_map, hperm.length_eq]
  have hleaves : ∀ tree, MergesTo (sortLeaves (leavesFrom 0 freq)) tree → tree.leaves.Perm (occurring freq) :=
    fun tree htree => by
      refine htree.leaves_perm.trans ?_
      rw [hq, List.flatMap_map]
      simpa [leafOf, MergeTree.leaves] using hperm
  rw [← hlen, leafDepths]
  rw [← List.length_pos_iff, ← hlen] at h
  generalize hgen : sortLeaves (leavesFrom 0 freq) = q at *
  match q with
  | [z] => exact ⟨z.2, .one z.1 z.2, rfl, hleaves _ (.one z.1 z.2)⟩
  | x :: y :: rest =>
    obtain ⟨w, tree, hmerge, htree⟩ :=
      mergeAll_mergesTo (n := (x :: y :: rest).length) (List.cons_ne_nil x (y :: rest)) (Nat.le_succ _)
    exact ⟨tree, htree, by simp only [hmerge]; rfl, hleaves _ htree⟩

theorem map_fst_leafDepths (freq : List Nat) : ((leafDepths freq).map Prod.fst).Perm (occurring freq) := by
  by_cases h : occurring freq = []
  · rw [leafDepths_of_none h, h]; rfl
  · obtain ⟨tree, -, hdepths, hleaves⟩ := exists_tree h
    rw [hdepths, MergeTree.map_fst_depths]
    exact hleaves

/-- R134, R136: every depth of a symbol is a length. -/
theorem leafDepths_pos {x : Nat × Nat} (hx : x ∈ leafDepths freq) : 0 < x.2 := by
  obtain ⟨tree, -, hdepths, hleaves⟩ := exists_tree (occurring_ne_nil_of_mem hx)
  rw [hdepths] at hx
  cases tree with
  | leaf sym =>
    rw [← hleaves.length_eq] at hx
    exact MergeTree.le_depth (d := 1) hx
  | node y z =>
    rcases List.mem_append.1 hx with hx | hx
    · exact Nat.zero_lt_of_lt (MergeTree.le_depth hx)
    · exact Nat.zero_lt_of_lt (MergeTree.le_depth hx)

/-- R137: few symbols have short lengths. -/
theorem leafDepths_le {x : Nat × Nat} (hx : x ∈ leafDepths freq) : x.2 ≤ max 1 ((occurring freq).length - 1) := by
  obtain ⟨tree, -, hdepths, hleaves⟩ := exists_tree (occurring_ne_nil_of_mem hx)
  rw [hdepths] at hx
  have hlt := MergeTree.depth_lt hx
  rw [hleaves.length_eq, topDepth] at hlt
  split at hlt
  · omega
  · omega

/-- R139: the depths' Kraft sum, in units of `2 ^ -n`. -/
theorem kraft_leafDepths {n : Nat} (h : occurring freq ≠ []) (hle : ∀ x ∈ leafDepths freq, x.2 ≤ n) :
    (((leafDepths freq).map Prod.snd).map fun l => 2 ^ (n - l)).sum = 2 ^ (n - topDepth (occurring freq).length) := by
  obtain ⟨tree, -, hdepths, -⟩ := exists_tree h
  rw [hdepths] at hle ⊢
  exact MergeTree.kraft_depths hle

/-! ## The lengths of the symbols (R134) -/

theorem length_buildLengths (freq : List Nat) : (buildLengths freq).length = freq.length := by simp [buildLengths]

/-- A symbol's length is its depth. -/
theorem getD_buildLengths_of_mem {x : Nat × Nat} (hx : x ∈ leafDepths freq) :
    (buildLengths freq).getD x.1 0 = x.2 := by
  have hnodup : ((leafDepths freq).map Prod.fst).Nodup := (map_fst_leafDepths freq).nodup_iff.2 nodup_occurring
  have hlt : x.1 < freq.length := by
    have hocc : x.1 ∈ occurring freq := (map_fst_leafDepths freq).mem_iff.1 (List.mem_map_of_mem hx)
    exact List.mem_range.1 (List.mem_of_mem_filter hocc)
  obtain ⟨xs, ys, hsplit⟩ := List.append_of_mem hx
  have hlookup : (leafDepths freq).lookup x.1 = some x.2 := by
    refine List.lookup_eq_some_iff.2 ⟨xs, ys, hsplit, fun p hp => bne_iff_ne.2 ?_⟩
    rw [hsplit, List.map_append, List.nodup_append] at hnodup
    exact (hnodup.2.2 p.1 (List.mem_map_of_mem hp) x.1 (by simp)).symm
  rw [List.getD_eq_getElem _ _ (by rwa [length_buildLengths])]
  simp [buildLengths, hlookup]

theorem mem_leafDepths_of_ne_zero {sym : Nat} (h : freq.getD sym 0 ≠ 0) :
    (sym, (buildLengths freq).getD sym 0) ∈ leafDepths freq := by
  obtain ⟨x, hx, rfl⟩ := List.mem_map.1 ((map_fst_leafDepths freq).mem_iff.2 (mem_occurring.2 h))
  rw [getD_buildLengths_of_mem hx]
  exact hx

/-- R134: exactly the symbols that occur get a length. -/
theorem getD_buildLengths_eq_zero_iff {sym : Nat} : (buildLengths freq).getD sym 0 = 0 ↔ freq.getD sym 0 = 0 := by
  refine ⟨fun h => ?_, fun h => ?_⟩
  · by_contra hne
    exact Nat.ne_of_gt (leafDepths_pos (mem_leafDepths_of_ne_zero hne)) h
  · have hnone : (leafDepths freq).lookup sym = none := List.lookup_eq_none_iff.2 fun p hp => by
      rw [bne_iff_ne]
      rintro rfl
      exact mem_occurring.1 ((map_fst_leafDepths freq).mem_iff.1 (List.mem_map_of_mem hp)) h
    by_cases hlt : sym < (buildLengths freq).length
    · rw [List.getD_eq_getElem _ _ hlt]
      simp [buildLengths, hnone]
    · exact List.getD_eq_default _ _ (Nat.not_lt.1 hlt)

/-- The lengths of the symbols that get one are the depths of the tree. -/
theorem filter_pos_buildLengths (freq : List Nat) :
    ((buildLengths freq).filter fun l => 0 < l).Perm ((leafDepths freq).map Prod.snd) := by
  have hlist : buildLengths freq = (List.range freq.length).map fun sym => (buildLengths freq).getD sym 0 := by
    refine List.ext_getElem (by simp [length_buildLengths]) fun i h1 h2 => ?_
    simp [h1]
  have hpos : (fun l => decide (0 < l)) ∘ (fun sym => (buildLengths freq).getD sym 0) =
      fun sym => decide (freq.getD sym 0 ≠ 0) := by
    funext sym
    simp [Nat.pos_iff_ne_zero, getD_buildLengths_eq_zero_iff, -List.getD_eq_getElem?_getD]
  rw [hlist, List.filter_map, hpos]
  refine ((map_fst_leafDepths freq).map _).symm.trans ?_
  rw [List.map_map]
  exact List.Perm.of_eq (List.map_congr_left fun x hx => getD_buildLengths_of_mem hx)

theorem mem_buildLengths_iff {l : Nat} (h0 : 0 < l) : l ∈ buildLengths freq ↔ ∃ x ∈ leafDepths freq, x.2 = l := by
  have hmem := (filter_pos_buildLengths freq).mem_iff (a := l)
  simpa [h0] using hmem

end

/-! ## The command's effect (R137) -/

/-- FREQ[A] as naturals. -/
def freqs (a : Alphabet) (s : State) : List Nat := (s.tab a).freq.toList.map BitVec.toNat

/-- The state with other code lengths for an alphabet. -/
def withLens (a : Alphabet) (lens : List Nat) (s : State) : State :=
  s.setTab a { s.tab a with cl := tableOf a.size 0 (lens.map (BitVec.ofNat 5)) }

theorem length_freqs (a : Alphabet) (s : State) : (freqs a s).length = a.size := by simp [freqs]

theorem getD_freqs (a : Alphabet) (sym : Nat) (s : State) : (freqs a s).getD sym 0 = (freqOf a sym s).toNat :=
  List.getD_map _ 0 BitVec.toNat

theorem getD_freqs_eq_zero_iff {a : Alphabet} {sym : Nat} {s : State} :
    (freqs a s).getD sym 0 = 0 ↔ freqOf a sym s = 0 := by
  rw [getD_freqs, BitVec.toNat_eq]
  rfl

theorem length_occurring_freqs (a : Alphabet) (s : State) : (occurring (freqs a s)).length = codedCount a s := by
  have hlist : (s.tab a).freq.toList = (List.range a.size).map fun sym => freqOf a sym s := by
    refine List.ext_getElem (by simp) fun i h1 h2 => ?_
    rw [List.getElem_map, List.getElem_range, freqOf, tableGet, List.getD_eq_getElem _ _ h1]
  rw [codedCount, hlist, List.filter_map, List.length_map, occurring, length_freqs]
  congr 1
  refine List.filter_congr fun sym _ => decide_eq_decide.2 ?_
  exact not_congr getD_freqs_eq_zero_iff

theorem withLens_only (a : Alphabet) (lens : List Nat) (s : State) : OnlyCl a s (withLens a lens s) := by
  cases a <;> rfl

/-- R29: lengths of at most 5 bits are stored as they are. -/
theorem clOf_withLens {a : Alphabet} {lens : List Nat} (hlen : lens.length = a.size) (hlt : ∀ l ∈ lens, l < 32)
    (sym : Nat) (s : State) : clOf a sym (withLens a lens s) = lens.getD sym 0 := by
  have hsmall : lens.getD sym 0 < 2 ^ 5 := by
    by_cases h : sym < lens.length
    · rw [List.getD_eq_getElem _ _ h]; exact hlt _ (List.getElem_mem h)
    · rw [List.getD_eq_default _ _ (Nat.not_lt.1 h)]; decide
  have hzero : (0 : BitVec 5) = BitVec.ofNat 5 0 := rfl
  rw [clOf, withLens, State.tab_setTab, tableGet_tableOf _ _ (by rw [List.length_map, hlen]), hzero, List.getD_map,
    BitVec.toNat_ofNat, Nat.mod_eq_of_lt hsmall]

/-- The longest length HUF_BUILD gives (R137). -/
def longestLength (a : Alphabet) (s : State) : Nat := (buildLengths (freqs a s)).foldl max 0

section
variable {a : Alphabet} {s : State}

theorem longestLength_mem : longestLength a s = 0 ∨ longestLength a s ∈ buildLengths (freqs a s) := by
  refine List.foldlRecOn (motive := fun m => m = 0 ∨ m ∈ buildLengths (freqs a s)) _ max (.inl rfl)
    fun m hm l hl => ?_
  rcases Nat.le_total m l with h | h
  · rw [Nat.max_eq_right h]; exact .inr hl
  · rw [Nat.max_eq_left h]; exact hm

theorem longestLength_le_iff {n : Nat} : longestLength a s ≤ n ↔ ∀ x ∈ leafDepths (freqs a s), x.2 ≤ n := by
  refine ⟨fun h x hx => ?_, fun h => ?_⟩
  · exact (le_foldl_max ((mem_buildLengths_iff (leafDepths_pos hx)).2 ⟨x, hx, rfl⟩)).trans h
  · rcases Nat.eq_zero_or_pos (longestLength a s) with h0 | hpos
    · rw [h0]; exact Nat.zero_le n
    · obtain ⟨x, hx, heq⟩ := (mem_buildLengths_iff hpos).1 (longestLength_mem.resolve_left hpos.ne')
      exact heq ▸ h x hx

theorem length_filter_pos_buildLengths :
    ((buildLengths (freqs a s)).filter (0 < ·)).length = codedCount a s := by
  rw [(filter_pos_buildLengths _).length_eq, List.length_map, ← List.length_map Prod.fst,
    (map_fst_leafDepths _).length_eq, length_occurring_freqs]

theorem hufBuild_eq : hufBuild a s =
    require (longestLength a s ≤ 19) (.internal .codelenOverflow) s fun _ =>
      .ok (longestLength a s, ((buildLengths (freqs a s)).filter (0 < ·)).length)
        (withLens a (buildLengths (freqs a s)) s) := rfl

/-- R137: HUF_BUILD where no length exceeds 19. -/
theorem exec_hufBuild_of_le (h : longestLength a s ≤ 19) : exec (.hufBuild a) s =
    .next ((withLens a (buildLengths (freqs a s)) s).complete (BitVec.ofNat 32 (longestLength a s))
      (BitVec.ofNat 32 (codedCount a s)) 0) := by
  rw [exec, execHufBuild, hufBuild_eq, require_of (decide_eq_true h), length_filter_pos_buildLengths]
  rfl

/-- R137: HUF_BUILD where a length exceeds 19. -/
theorem exec_hufBuild_of_gt (h : 19 < longestLength a s) :
    exec (.hufBuild a) s = .next (s.fail (.internal .codelenOverflow)) := by
  rw [exec, execHufBuild, hufBuild_eq, require_of_not fun hle => Nat.not_le.2 h (of_decide_eq_true hle)]
  rfl

/-- R137: the length HUF_BUILD stores for each symbol. -/
theorem clOf_built (h : longestLength a s ≤ 19) (sym : Nat) :
    clOf a sym (withLens a (buildLengths (freqs a s)) s) = (buildLengths (freqs a s)).getD sym 0 :=
  clOf_withLens (by rw [length_buildLengths, length_freqs])
    (fun l hl => Nat.lt_of_le_of_lt ((le_foldl_max hl).trans h) (by decide)) sym s

theorem clOf_built_le (h : longestLength a s ≤ 19) (sym : Nat) :
    clOf a sym (withLens a (buildLengths (freqs a s)) s) ≤ longestLength a s := by
  rw [clOf_built h]
  by_cases hlt : sym < (buildLengths (freqs a s)).length
  · rw [List.getD_eq_getElem _ _ hlt]; exact le_foldl_max (List.getElem_mem hlt)
  · rw [List.getD_eq_default _ _ (Nat.not_lt.1 hlt)]; exact Nat.zero_le _

theorem clOf_built_eq_zero_iff (h : longestLength a s ≤ 19) (sym : Nat) :
    clOf a sym (withLens a (buildLengths (freqs a s)) s) = 0 ↔ freqOf a sym s = 0 := by
  rw [clOf_built h, getD_buildLengths_eq_zero_iff, getD_freqs_eq_zero_iff]

/-- R139: the Kraft sum of the lengths HUF_BUILD stores, by the number of symbols that occur. -/
theorem kraft_built (h : longestLength a s ≤ 19) :
    (2 ≤ codedCount a s → kraft a (withLens a (buildLengths (freqs a s)) s) = 2 ^ 21) ∧
    (codedCount a s = 1 → kraft a (withLens a (buildLengths (freqs a s)) s) = 2 ^ 20) ∧
    (codedCount a s = 0 → kraft a (withLens a (buildLengths (freqs a s)) s) = 0) := by
  have hlens : codeLens a (withLens a (buildLengths (freqs a s)) s) = buildLengths (freqs a s) :=
    codeLens_eq (by rw [length_buildLengths, length_freqs]) fun sym _ => clOf_built h sym
  rw [kraft, hlens, ((filter_pos_buildLengths _).map _).sum_eq, ← length_occurring_freqs]
  by_cases hnone : occurring (freqs a s) = []
  · rw [leafDepths_of_none hnone, hnone]
    exact ⟨nofun, nofun, fun _ => rfl⟩
  · have hlen := List.length_pos_iff.2 hnone
    rw [maxCodeLenDec, kraft_leafDepths hnone fun x hx => (longestLength_le_iff.1 h x hx).trans (by decide), topDepth]
    refine ⟨fun hn => ?_, fun hn => ?_, fun hn => ?_⟩
    · rw [if_neg (by omega)]
    · rw [if_pos hn]
    · omega

/-! ## The obligations -/

/-- Settles O38: at most 20 leaves lie at most 19 deep. -/
theorem buildOfFewSymbols : Obligations.BuildOfFewSymbols := by
  intro a s hfew
  have hle : ∀ x ∈ leafDepths (freqs a s), x.2 ≤ max 1 (codedCount a s - 1) := fun x hx => by
    rw [← length_occurring_freqs]; exact leafDepths_le hx
  have hlong : longestLength a s ≤ max 1 (codedCount a s - 1) := longestLength_le_iff.2 hle
  have h19 : longestLength a s ≤ 19 := by omega
  refine ⟨withLens a (buildLengths (freqs a s)) s, longestLength a s, withLens_only a _ s, exec_hufBuild_of_le h19, h19,
    clOf_built_le h19, longestLength_mem.imp id fun hmem => ?_, clOf_built_eq_zero_iff h19, fun hone => ?_⟩
  · obtain ⟨sym, hsym, heq⟩ := List.mem_iff_getElem.1 hmem
    exact ⟨sym, by rw [clOf_built h19, List.getD_eq_getElem _ _ hsym, heq]⟩
  · obtain ⟨sym, hsym⟩ := List.exists_mem_of_length_pos (l := occurring (freqs a s))
      (by rw [length_occurring_freqs]; omega)
    have hx := mem_leafDepths_of_ne_zero (mem_occurring.1 hsym)
    have hpos := leafDepths_pos hx
    have := longestLength_le_iff.1 (Nat.le_refl _) _ hx
    omega

/-- R134, R135: HUF_BUILD's initial list is the sorted list of leaves. -/
theorem initialList_sortLeaves (a : Alphabet) (s : State) : InitialList a s (sortLeaves (leavesFrom 0 (freqs a s))) ∧
    (sortLeaves (leavesFrom 0 (freqs a s))).length = codedCount a s := by
  obtain ⟨syms, hq, hperm, hsort⟩ := exists_sortLeaves (freqs a s)
  refine ⟨⟨syms, ?_, fun sym => ?_, ?_⟩, ?_⟩
  · rw [hq]
    exact List.map_congr_left fun sym _ => by rw [leafOf, getD_freqs]
  · rw [hperm.mem_iff, mem_occurring, Ne, getD_freqs_eq_zero_iff]
    refine (and_iff_right_of_imp fun h => ?_).symm
    by_contra hsize
    exact h (tableGet_of_le _ (Nat.not_lt.1 hsize) _)
  · refine hsort.imp fun {x y} h => ?_
    rwa [Precedes, getD_freqs, getD_freqs] at h
  · rw [hq, List.length_map, hperm.length_eq, length_occurring_freqs]

/-- R134: the tree of two or more symbols, with its depths. -/
theorem exists_tree_of_two (h : 2 ≤ codedCount a s) :
    ∃ tree, MergesTo (sortLeaves (leavesFrom 0 (freqs a s))) tree ∧ leafDepths (freqs a s) = tree.depths 0 := by
  rw [← length_occurring_freqs] at h
  obtain ⟨tree, htree, hdepths, -⟩ := exists_tree (freq := freqs a s) (List.length_pos_iff.1 (by omega))
  rw [topDepth, if_neg (by omega)] at hdepths
  exact ⟨tree, htree, hdepths⟩

/-- Settles O39: the lengths are the depths of the tree the initial list merges to, or the longest is too long. -/
theorem buildGivesCompleteCode : Obligations.BuildGivesCompleteCode := by
  intro a s
  obtain ⟨hlist, hcount⟩ := initialList_sortLeaves a s
  by_cases h : longestLength a s ≤ 19
  · refine ⟨_, exec_hufBuild_of_le h, .inr ⟨rfl, fun sym => (clOf_built_le h sym).trans h, clOf_built_eq_zero_iff h,
      kraft_built h⟩, _, hlist, hcount, fun hn => ?_⟩
    obtain ⟨tree, htree, hdepths⟩ := exists_tree_of_two (hcount ▸ hn)
    refine ⟨tree, htree, hdepths ▸ ⟨nofun, fun ⟨x, hx, hlong⟩ => ?_⟩, hdepths ▸ fun _ x hx => ?_⟩
    · exact absurd (longestLength_le_iff.1 h x hx) (Nat.not_le.2 hlong)
    · exact (clOf_built h x.1).trans (getD_buildLengths_of_mem hx)
  · refine ⟨_, exec_hufBuild_of_gt (Nat.lt_of_not_le h), .inl ⟨rfl, rfl, rfl⟩, _, hlist, hcount, fun hn => ?_⟩
    obtain ⟨tree, htree, hdepths⟩ := exists_tree_of_two (hcount ▸ hn)
    refine ⟨tree, htree, hdepths ▸ ⟨fun _ => ?_, fun _ => rfl⟩, nofun⟩
    rw [longestLength_le_iff] at h
    simpa using h

end

end Sys2Proof.Machine
end

section
/-! # Huffman commands on symbols and tables (42_huffman.md R130 to R133, R143 to R154)

The tables of the other alphabet; the frequency and code-length commands on every operand; one symbol decoded and encoded;
a written table read back. -/

namespace Sys2Proof.Machine

/-! ## The other alphabet (R130) -/

/-- The tables of an alphabet are as before. -/
abbrev KeepsTables (b : Alphabet) (s t : State) : Prop := t.tab b = s.tab b

theorem CommandKeeps.mono {R S : State → State → Prop} {i : Instr} (h : CommandKeeps R i)
    (hrs : ∀ s t, R s t → S s t) : CommandKeeps S i := fun s =>
  let ⟨r, hr, hstays⟩ := h s
  ⟨r, hr, hstays.mono (hrs s)⟩

/-- Tables of one alphabet put in place leave those of the other. -/
theorem keepsTables_of_setTab {a b : Alphabet} (hne : a ≠ b) {s t : State} {T : Tables a.size} (h : t = s.setTab a T) :
    KeepsTables b s t := h ▸ State.tab_setTab_of_ne s hne T

theorem keepsTables_of_writer {b : Alphabet} {s t : State} (h : OnlyWriter s t) : KeepsTables b s t := by
  rw [h]; cases b <;> rfl

/-- R130: a command's end leaves the tables its primitives leave. -/
theorem CommandKeeps.tab_eq {b : Alphabet} {i : Instr} (h : CommandKeeps (KeepsTables b) i) {s t : State}
    (ht : exec i s = .next t) : t.tab b = s.tab b := by
  obtain ⟨u, c, hu, rfl⟩ := h.next ht
  exact hu

/-- R130: what each command of the family touches is no table of the other alphabet. -/
theorem huffman_keepsTables {a b : Alphabet} (hne : a ≠ b) {i : Instr}
    (hi : i ∈ [.freqClear a, .freqInc a, .freqRead a, .hufBuild a, .hufCanon a, .hufSerialize a, .hufDeserialize a,
      .hufTrie a, .hufDecode a, .hufEncode a, .clRead a, .clWrite a]) : CommandKeeps (KeepsTables b) i := by
  simp only [List.mem_cons, List.not_mem_nil, or_false] at hi
  rcases hi with rfl | rfl | rfl | rfl | rfl | rfl | rfl | rfl | rfl | rfl | rfl | rfl
  · exact (freq_keeps (a := a) (by simp)).mono fun _ _ => keepsTables_of_setTab hne
  · exact (freq_keeps (a := a) (by simp)).mono fun _ _ => keepsTables_of_setTab hne
  · exact (observation_keeps (.inr ⟨a, .inl rfl⟩)).mono fun _ _ h => h ▸ rfl
  · exact (cl_keeps (a := a) (by simp)).mono fun _ _ => keepsTables_of_setTab hne
  · exact hufCanon_keeps.mono fun _ _ => keepsTables_of_setTab hne
  · exact (writer_keeps (a := a) (by simp)).mono fun _ _ h => keepsTables_of_writer h.only
  · exact hufDeserialize_keeps.mono fun _ _ => tab_of_readerCl hne
  · exact hufTrie_keeps.mono fun _ _ => keepsTables_of_setTab hne
  · exact (reader_keeps (a := a) (by simp)).mono fun _ _ h => tab_of_onlyReader h b
  · exact (writer_keeps (a := a) (by simp)).mono fun _ _ h => keepsTables_of_writer h.only
  · exact (observation_keeps (.inr ⟨a, .inr rfl⟩)).mono fun _ _ h => h ▸ rfl
  · exact (cl_keeps (a := a) (by simp)).mono fun _ _ => keepsTables_of_setTab hne

/-- Settles O25: none of the commands' primitives touches the other alphabet's tables, and neither does a command's end. -/
theorem alphabetsDoNotMix : Obligations.AlphabetsDoNotMix :=
  fun _ _ _ _ _ hne hi h => (huffman_keepsTables hne hi).tab_eq h

/-! ## Frequencies (R131 to R133) -/

theorem symbolOk_iff {a : Alphabet} {sym : Nat} : symbolOk a sym = true ↔ sym < a.size := decide_eq_true_iff

theorem freqOf_clearFreq (a : Alphabet) (sym : Nat) (s : State) : freqOf a sym (clearFreq a s) = 0 := by
  rw [freqOf, clearFreq, State.tab_setTab, tableGet_replicate]

theorem freqOf_bumpFreq {a : Alphabet} {sym : Nat} (h : sym < a.size) (k : Nat) (s : State) :
    freqOf a k (bumpFreq a sym s) = if k = sym then freqOf a k s + 1 else freqOf a k s := by
  rw [freqOf, bumpFreq, State.tab_setTab, tableGet_tableSet]
  by_cases hk : k = sym
  · rw [if_pos ⟨hk, h⟩, if_pos hk, hk]
  · rw [if_neg fun hand => hk hand.1, if_neg hk, freqOf]

/-- Settles O36: a symbol outside the alphabet, a counter that is saturated, a counter that rises. -/
theorem frequencyCommands : Obligations.FrequencyCommands := by
  intro a s
  refine ⟨⟨clearFreq a s, clearFreq_only a s, rfl, fun sym => freqOf_clearFreq a sym s⟩, fun hout => ?_,
    fun hin hfull => ?_, fun hin hroom => ?_, fun hin => ?_⟩
  · have hbad : ¬ symbolOk a s.a0 = true := mt symbolOk_iff.1 (Nat.not_lt.2 hout)
    exact ⟨finish_operandRange hbad s, finish_operandRange hbad s⟩
  · rw [exec, execFreqInc, require_of (symbolOk_iff.2 hin), require_of_not (by simpa using hfull)]
    rfl
  · refine ⟨bumpFreq a s.a0 s, bumpFreq_only a s.a0 s, ?_, fun sym => freqOf_bumpFreq hin sym s⟩
    rw [exec, execFreqInc, require_of (symbolOk_iff.2 hin), require_of (by simpa using hroom)]
    dsimp only
    rw [freqOf_bumpFreq hin, if_pos rfl]
    rfl
  · rw [exec, execFreqRead, require_of (symbolOk_iff.2 hin)]
    rfl

/-! ## Code lengths (R152, R153) -/

/-- R140: the bits of a reversed code, as a register holds them. -/
theorem getLsbD_revBits {c l : Nat} (hl : l ≤ 32) (j : Nat) :
    (BitVec.ofNat 32 (revBits c l)).getLsbD j = (decide (j < l) && c.testBit (l - 1 - j)) := by
  rw [BitVec.getLsbD_ofNat]
  by_cases hj : j < l
  · rw [testBit_revBits c l j hj, decide_eq_true hj, decide_eq_true (by omega : j < 32)]
  · have hhigh : revBits c l < 2 ^ j :=
      Nat.lt_of_lt_of_le (revBits_lt c l) (Nat.pow_le_pow_right (by decide) (Nat.not_lt.1 hj))
    rw [Nat.testBit_lt_two_pow hhigh, decide_eq_false hj, Bool.and_false, Bool.false_and]

theorem codeLenOk_iff {l : Nat} : codeLenOk l = true ↔ l ≤ 21 := decide_eq_true_iff

/-- Settles O37: a symbol outside the alphabet, a length out of range, the symbol's entry. -/
theorem codeLengthCommands : Obligations.CodeLengthCommands := by
  intro a s
  refine ⟨fun hout => ?_, fun hin => ?_, fun hout => ?_, fun hin hlen => ?_⟩
  · exact finish_operandRange (mt symbolOk_iff.1 (Nat.not_lt.2 hout)) s
  · refine ⟨_, ?_, getLsbD_revBits (Nat.le_of_lt (clOf_lt a s.a0 s))⟩
    rw [exec, execClRead, require_of (symbolOk_iff.2 hin)]
    rfl
  · refine finish_operandRange ?_ s
    rw [Bool.and_eq_true, symbolOk_iff, codeLenOk_iff]
    omega
  · refine ⟨setCl a s.a0 s.a1 s, setCl_only a s.a0 s.a1 s, ?_, fun sym => ?_⟩
    · rw [exec, execClWrite, require_of (by rw [Bool.and_eq_true, symbolOk_iff, codeLenOk_iff]; exact ⟨hin, hlen⟩)]
      rfl
    · simp only [clOf_setCl, Nat.mod_eq_of_lt (show s.a1 < 32 by omega), and_iff_left hin]

/-! ## One symbol (R148 to R151) -/

/-- R148: the next bits are a symbol's path. -/
theorem decodeSymbol_symbol {a : Alphabet} {s : State} {bs : List Bool} {sym : Nat} (hp : s.params.ok)
    (h : (s.tab a).trie.parse.onBits bs = some (sym, [])) (hin : s.InputHas bs) :
    ∃ t, decodeSymbol a s = .ok sym t ∧ OnlyReader s t ∧ Consumed s t bs.length := by
  obtain ⟨t, ht, hto, -, htc, -⟩ := runParse_onBits (DecodeTrie.parse_narrow _) hp hin h
  exact ⟨t, ht, hto, htc⟩

theorem decodeSymbol_operandRange (a : Alphabet) {s : State} (h : s.inputOk = false) :
    decodeSymbol a s = .err operandRange s := by
  rw [decodeSymbol, DecodeTrie.parse, runParse, readBits_operandRange (by decide) h]
  rfl

/-- Settles O45: the symbol, IN_LEN out of range, the end of the input, an unpopulated slot. -/
theorem decodeSymbolCommand : Obligations.DecodeSymbol := by
  intro a s hp
  have hexec : exec (.hufDecode a) s = finish ((decodeSymbol a s).bind fun sym t => .ok (Results.nat sym 0 0) t) := rfl
  rw [hexec]
  refine ⟨fun bs sym h hin => ?_, fun h => ?_, fun bs z o h hin hend => ?_, fun bs b z o h hslot hin => ?_⟩
  · obtain ⟨t, ht, hto, htc⟩ := decodeSymbol_symbol hp h hin
    exact ⟨t, hto, by rw [ht]; rfl, htc⟩
  · rw [decodeSymbol_operandRange a (inputOk_eq_false h)]; rfl
  · obtain ⟨t, ht, hto, htc⟩ := decodeSymbol_ends hp h hin hend
    exact ⟨t, hto, by rw [ht]; rfl, htc⟩
  · obtain ⟨t, ht, hto, htc⟩ := decodeSymbol_unpopulated hp h hslot hin
    exact ⟨t, hto, by rw [ht]; rfl, htc⟩

theorem encodeSymbol_noCode {a : Alphabet} {sym : Nat} {s : State} (h : clOf a sym s = 0) :
    encodeSymbol a sym s = .err (.internal .noCode) s := by
  rw [encodeSymbol, require_of_not (by simpa using h)]

theorem encodeSymbol_full {a : Alphabet} {sym : Nat} {s : State} (h0 : clOf a sym s ≠ 0)
    (h : ¬ s.BitsFit (clOf a sym s)) : encodeSymbol a sym s = .err .outputFull s := by
  rw [encodeSymbol, require_of (by simpa using h0), writeBits_full (Nat.le_of_lt (clOf_lt a sym s)) h]

/-- Settles O46: a symbol outside the alphabet, one without a code, a code that does not fit, a code appended. -/
theorem encodeSymbolCommand : Obligations.EncodeSymbol := by
  intro a s hp
  have hexec (hin : s.a0 < a.size) : exec (.hufEncode a) s = finish ((encodeSymbol a s.a0 s).bind fun _ t =>
      .ok (Results.nat (clOf a s.a0 s) (revBits (codeOf a s.a0 s) (clOf a s.a0 s)) 0) t) := by
    rw [exec, execHufEncode, require_of (symbolOk_iff.2 hin)]
  refine ⟨fun hout => ?_, fun hin h0 => ?_, fun hin h0 hfull => ?_, fun hin h0 hfit => ?_⟩
  · exact finish_operandRange (mt symbolOk_iff.1 (Nat.not_lt.2 hout)) s
  · rw [hexec hin, encodeSymbol_noCode h0]; rfl
  · rw [hexec hin, encodeSymbol_full h0 hfull]; rfl
  · obtain ⟨t, ht, hto, hta, -⟩ := encodeSymbol_appends hp h0 hfit
    exact ⟨t, hto, by rw [hexec hin, ht]; rfl, hta⟩

/-! ## A table written and read back (R143, R145, R154) -/

/-- R90: a value that has been written is appended. -/
theorem appended_of_writeBits {v n : Nat} {s t : State} (hp : s.params.ok) (h : writeBits v n s = .ok () t) :
    OnlyWriter s t ∧ Appended s t (toBits v n) := by
  obtain ⟨hn, hrest⟩ := require_eq_ok.1 h
  obtain ⟨hfit, -⟩ := require_eq_ok.1 hrest
  obtain ⟨u, hu, huo, hua, -⟩ := writeBits_appends (v := v) hp (of_decide_eq_true hn) (of_decide_eq_true hfit)
  cases h.symm.trans hu
  exact ⟨huo, hua⟩

/-- R69: numbers that have been written are appended, with no gaps. -/
theorem appended_of_writeFields {fs : List Field} (hnum : ∀ f ∈ fs, Field.IsNumber f) {s t : State} (hp : s.params.ok)
    (h : writeFields fs s = .ok () t) : Appended s t (s.fieldBits fs) := by
  induction fs generalizing s with
  | nil => cases h; exact appended_refl _
  | cons f fs ih =>
    obtain ⟨hf, hfs⟩ := List.forall_mem_cons.1 hnum
    obtain ⟨⟨⟩, u, hu, hrest⟩ := Res.bind_eq_ok.1 h
    cases f with
    | code a sym => exact hf.elim
    | bits v n =>
      obtain ⟨huo, hua⟩ := appended_of_writeBits hp hu
      have htail := ih hfs (by rw [huo]; exact hp) hrest
      rw [fieldBits_onlyWriter huo] at htail
      rw [fieldBits_cons]
      exact appended_trans hua htail

/-- R142, R143: a table that has been written is the bits of entries that spell out CL. -/
theorem appended_of_serialize {a : Alphabet} {s t : State} (hp : s.params.ok) (h : serialize a s = .ok () t) :
    ∃ es : List TableEntry, (∀ e ∈ es, entryOk a e = true) ∧ entriesLens es = codeLens a s ∧
      Appended s t (entriesBits a es) := by
  rw [serialize] at h
  obtain ⟨hshort, hwrite⟩ := require_eq_ok.1 h
  have hcl : ∀ l ∈ codeLens a s, l ≤ maxCodeLenEnc := fun l hl => of_decide_eq_true (List.all_eq_true.1 hshort l hl)
  refine ⟨tableEntries (2 ^ a.zb) (codeLens a s).length (codeLens a s), entryOk_of_mem_tableEntries hcl,
    entriesLens_tableEntries (Nat.two_pow_pos a.zb) (Nat.le_refl _) hcl, ?_⟩
  rw [entriesBits, fieldsToBits_numbers isNumber_of_mem_fields _ (codeTable s)]
  exact appended_of_writeFields isNumber_of_mem_fields hp hwrite

/-- The input holds the bits another state has appended to its output. -/
theorem inputHas_of_appended {s t u : State} {bs : List Bool} (h : Appended s t bs) (hin : u.inputOk = true)
    (hlen : bs.length ≤ u.avail)
    (hbits : ∀ j, j < bs.length → Memory.bit? u.ibuf (u.readPos + j) = t.outBit (s.writePos + j)) : u.InputHas bs := by
  obtain ⟨-, -, hout, -⟩ := h
  exact ⟨hin, hlen, fun j hj => (hbits j hj).trans (hout j hj)⟩

/-- Settles O44: the bits appended are those of entries that stand for CL, and they are read back as these entries. -/
theorem tableRoundTrip : Obligations.TableRoundTrip := by
  intro a s t u hps hpu hexec hcause hin hlen hbits
  have hwrite : exec (.hufSerialize a) s =
      finish ((serialize a s).bind fun _ t => .ok ⟨t.wr.bitsW - s.wr.bitsW, 0, 0⟩ t) := rfl
  have hread : exec (.hufDeserialize a) u =
      finish ((deserialize a u).bind fun _ v => .ok ⟨v.rd.bitsR - u.rd.bitsR, 0, 0⟩ v) := rfl
  rw [hwrite, finish_eq_next] at hexec
  rcases hexec with ⟨r, w, hw, rfl⟩ | ⟨e, w, -, rfl⟩
  · obtain ⟨⟨⟩, w', hser, hres⟩ := Res.bind_eq_ok.1 hw
    cases hres
    obtain ⟨es, hes, hlens, happ⟩ := appended_of_serialize hps hser
    have hcount : (w.complete (w.wr.bitsW - s.wr.bitsW) 0 0).writePos - s.writePos = (entriesBits a es).length :=
      Nat.sub_eq_of_eq_add' happ.1
    rw [hcount] at hlen hbits
    have hhas := inputHas_of_appended (u := u) happ hin hlen hbits
    obtain ⟨v, hv, -, hvc, -, hvcl⟩ := deserialize_whole hes (rest := []) hpu
      (by rw [hlens, length_codeLens]) (by rwa [List.append_nil])
    refine ⟨v.complete (v.rd.bitsR - u.rd.bitsR) 0 0, by rw [hread, hv]; rfl, rfl, hvcl.trans hlens, ?_⟩
    exact (bitsR_of_consumed hvc).trans (bitsW_of_appended happ).symm
  · exact absurd hcause (Err.cause_ne_zero e)

end Sys2Proof.Machine
end

section
/-! # The tree over every instruction (43_match_finder.md R176)

A primitive whose faults are unwritten bytes and that leaves the finder keeps the tree; a walk and a deletion keep it by
`walk_treeInv` and `deleteAt_treeInv`. A command is a sequence of these (R163, R169, R186). -/

namespace Sys2Proof.Machine

variable {α β : Type}

/-! ## Primitives after each other -/

/-- R176: from a well-formed tree the result is no cycle fault, and the state it leaves has a well-formed tree. -/
def Res.KeepsTree (s : State) (r : Res α) : Prop :=
  TreeInv s.mf → r ≠ .fault .treeCycle ∧ r.Stays (fun _ t => TreeInv t.mf) s

namespace Res.KeepsTree

variable {s t : State}

/-- A value, with the finder as before. -/
theorem ok {a : α} (h : t.mf = s.mf) : (Res.ok a t).KeepsTree s := fun hs =>
  ⟨nofun, show TreeInv t.mf from h ▸ hs⟩

/-- An error, with the finder as before. -/
theorem err {e : Err} (h : t.mf = s.mf) : (Res.err e t : Res α).KeepsTree s := fun hs =>
  ⟨nofun, show TreeInv t.mf from h ▸ hs⟩

/-- A fault that is no cycle. -/
theorem fault {f : Fault} (h : f ≠ .treeCycle) : (Res.fault f : Res α).KeepsTree s := fun _ =>
  ⟨fun he => h (by cases he; rfl), trivial⟩

theorem require {c : Bool} {e : Err} {k : Unit → Res α} (h : (k ()).KeepsTree s) :
    (Sys2Proof.Machine.require c e s k).KeepsTree s := by
  cases c with
  | false => exact err rfl
  | true => exact h

theorem bind {r : Res α} {k : α → State → Res β} (h : r.KeepsTree s) (hk : ∀ a t, (k a t).KeepsTree t) :
    (r.bind k).KeepsTree s := by
  intro hs
  obtain ⟨hcycle, hstays⟩ := h hs
  cases r with
  | ok a t => exact hk a t hstays
  | err e t => exact ⟨nofun, hstays⟩
  | fault f => exact fault (fun he => hcycle (he ▸ rfl)) hs

/-- A change that leaves the finder, and then a primitive. -/
theorem after {r : Res α} (hr : r.KeepsTree t) (h : t.mf = s.mf) : r.KeepsTree s := fun hs => hr (h ▸ hs)

/-- A primitive, and then results. -/
theorem results {r : Res α} (h : r.KeepsTree s) (k : α → State → Results) :
    (r.bind fun a t => .ok (k a t) t).KeepsTree s := h.bind fun _ _ => ok rfl

end Res.KeepsTree

/-! ## The reader and the writer (R90 to R94) -/

theorem inByte_keepsTree (p : Nat) (s : State) : (inByte p s).KeepsTree s := by
  unfold inByte
  split
  · exact .ok rfl
  · exact .fault nofun

theorem nextBit_mf (s : State) : (nextBit s).mf = s.mf := by rw [nextBit_only s]

theorem takeBits_keepsTree (n : Nat) (s : State) : (takeBits n s).KeepsTree s := by
  induction n generalizing s with
  | zero => exact .ok rfl
  | succ n ih =>
    exact (inByte_keepsTree _ s).bind fun _ t => .bind (.after (ih (nextBit t)) (nextBit_mf t)) fun _ u => .ok rfl

theorem readBits_keepsTree (n : Nat) (s : State) : (readBits n s).KeepsTree s :=
  .require (.require (.require ((takeBits_keepsTree n s).bind fun _ _ => .ok rfl)))

theorem readByte_keepsTree (s : State) : (readByte s).KeepsTree s :=
  .require (.require (.require ((inByte_keepsTree _ s).bind fun _ _ => .ok rfl)))

theorem eosBecomes_keepsTree {s : State} (p : Place) {r : Res α} (h : r.KeepsTree s) :
    (eosBecomes p r).KeepsTree s := by
  cases r with
  | ok a t => exact h
  | fault f => exact h
  | err e t =>
    intro hs
    have ht : TreeInv t.mf := (h hs).2
    cases e <;> exact ⟨nofun, ht⟩

theorem runParse_keepsTree (p : Parse α) (s : State) : (runParse p s).KeepsTree s := by
  induction p generalizing s with
  | done a => exact .ok rfl
  | unpopulated => exact .err rfl
  | field pl n k ih =>
    have h := eosBecomes_keepsTree pl (readBits_keepsTree n s)
    unfold runParse
    cases hr : eosBecomes pl (readBits n s) with
    | ok v t => exact fun hs => ih v t ((hr ▸ h) hs).2
    | err e t => exact fun hs => ⟨nofun, ((hr ▸ h) hs).2⟩
    | fault f => exact fun hs => ⟨fun he => (h hs).1 (by rw [hr]; cases he; rfl), trivial⟩

theorem writeBits_keepsTree (v n : Nat) (s : State) : (writeBits v n s).KeepsTree s :=
  have hmf : (appendBits v n s).mf = s.mf := by rw [appendBits_only v n s]
  .require (.require (.ok hmf))

theorem writeByte_keepsTree (b : Nat) (s : State) : (writeByte b s).KeepsTree s :=
  .require (.require (.require (.ok rfl)))

theorem writeEof_keepsTree (s : State) : (writeEof s).KeepsTree s := by
  unfold writeEof
  split
  · exact .ok rfl
  · exact .require (.ok rfl)

theorem encodeSymbol_keepsTree (a : Alphabet) (sym : Nat) (s : State) : (encodeSymbol a sym s).KeepsTree s :=
  .require (writeBits_keepsTree _ _ s)

theorem writeFields_keepsTree (fs : List Field) (s : State) : (writeFields fs s).KeepsTree s := by
  induction fs generalizing s with
  | nil => exact .ok rfl
  | cons f fs ih =>
    have hone : (writeField f s).KeepsTree s := by
      cases f with
      | bits v n => exact writeBits_keepsTree v n s
      | code a sym => exact encodeSymbol_keepsTree a sym s
    exact hone.bind fun _ t => ih t

theorem serialize_keepsTree (a : Alphabet) (s : State) : (serialize a s).KeepsTree s := by
  unfold serialize
  exact .require (writeFields_keepsTree _ s)

/-! ## The tables (R130 to R153) -/

theorem clearFreq_mf (a : Alphabet) (s : State) : (clearFreq a s).mf = s.mf := State.setTab_mf s a _

theorem bumpFreq_mf (a : Alphabet) (sym : Nat) (s : State) : (bumpFreq a sym s).mf = s.mf := State.setTab_mf s a _

theorem setCl_mf (a : Alphabet) (sym l : Nat) (s : State) : (setCl a sym l s).mf = s.mf := State.setTab_mf s a _

theorem hufBuild_keepsTree (a : Alphabet) (s : State) : (hufBuild a s).KeepsTree s := by
  unfold hufBuild
  exact .require (.ok (State.setTab_mf s a _))

theorem hufCanon_keepsTree (a : Alphabet) (s : State) : (hufCanon a s).KeepsTree s := by
  unfold hufCanon
  split
  · exact .err rfl
  · exact .ok (State.setTab_mf s a _)

theorem hufTrie_keepsTree (a : Alphabet) (s : State) : (hufTrie a s).KeepsTree s := by
  unfold hufTrie
  split
  · exact .err rfl
  · exact .ok ((State.setTab_mf _ a _).trans (State.setTab_mf s a _))

theorem applyEntry_keepsTree (a : Alphabet) (i : Nat) (e : TableEntry) (s : State) :
    (applyEntry a i e s).KeepsTree s := by
  cases e with
  | short l => exact .ok (setCl_mf a _ _ s)
  | ext1 x => exact .ok (setCl_mf a _ _ s)
  | ext2 y => exact .ok (setCl_mf a _ _ s)
  | zrun c =>
    have hmf : (clearCls a i (c + 1) s).mf = s.mf := by rw [clearCls_only a i (c + 1) s, State.setTab_mf]
    unfold applyEntry
    exact .require (.ok hmf)

theorem deserialize_keepsTree (a : Alphabet) (s : State) : (deserialize a s).KeepsTree s := by
  have key : ∀ n i s, (deserializeFrom a n i s).KeepsTree s := by
    intro n
    induction n with
    | zero => exact fun i s => .ok rfl
    | succ n ih =>
      intro i s
      unfold deserializeFrom
      split
      · exact .ok rfl
      · exact (runParse_keepsTree _ s).bind fun e t => (applyEntry_keepsTree a i e t).bind fun j u => ih j u
  exact key _ _ s

theorem slotResults_keepsTree (rows : List SlotRow) (v : Nat) (e : Err) (s : State) :
    (slotResults rows v e s).KeepsTree s := by
  unfold slotResults
  split
  · split
    · exact .ok rfl
    · exact .err rfl
  · exact .err rfl

theorem rangeResults_keepsTree (row : Option SlotRow) (s : State) : (rangeResults row s).KeepsTree s := by
  cases row with
  | none => exact .err rfl
  | some r => exact .ok rfl

/-! ## The window and EXPAND (R193 to R199) -/

theorem windowRead_keepsTree (j : Nat) (s : State) : (windowRead j s).KeepsTree s := by
  unfold windowRead
  split
  · exact .ok rfl
  · exact .fault nofun

theorem copyLoop_keepsTree (d n : Nat) (s : State) : (copyLoop d n s).KeepsTree s := by
  induction n generalizing s with
  | zero => exact .ok rfl
  | succ n ih => exact (windowRead_keepsTree _ s).bind fun b t => .after (ih (windowPush b t)) (windowPush_mf t b)

theorem winPut_keepsTree (b : Byte) (s : State) : (winPut b s).KeepsTree s := .require (.ok (windowPush_mf s b))

theorem winCopy_keepsTree (l d : Nat) (s : State) : (winCopy l d s).KeepsTree s :=
  .require (.require (.require (copyLoop_keepsTree d l s)))

theorem applyEvent_keepsTree (e : StreamEvent) (nl nm : Nat) (s : State) : (applyEvent e nl nm s).KeepsTree s := by
  cases e with
  | lit b => exact (winPut_keepsTree b s).bind fun _ _ => .ok rfl
  | eos => exact .ok rfl
  | match3 d => exact (winCopy_keepsTree _ _ s).bind fun _ _ => .ok rfl
  | matchSlot k e j x => exact (winCopy_keepsTree _ _ s).bind fun _ _ => .ok rfl

theorem expandLoop_keepsTree (n nl nm : Nat) (s : State) : (expandLoop n nl nm s).KeepsTree s := by
  induction n generalizing nl nm s with
  | zero => exact .err rfl
  | succ n ih =>
    refine (runParse_keepsTree _ s).bind fun e t => (applyEvent_keepsTree e nl nm t).bind fun r u => ?_
    cases r with
    | none => exact .ok rfl
    | some c => exact ih c.1 c.2 u

/-- R199: EXPAND leaves the finder. -/
theorem expand_keepsTree (s : State) : (expand s).KeepsTree s := by
  have htries : ∀ u, (expandTries u).KeepsTree u := fun u =>
    (hufTrie_keepsTree .ll u).bind fun _ v => hufTrie_keepsTree .ds v
  exact .require (.bind (.after (deserialize_keepsTree .ll (expandReset s)) rfl) fun _ t =>
    (deserialize_keepsTree .ds t).bind fun _ u => (htries u).bind fun _ v => expandLoop_keepsTree _ 0 0 v)

/-! ## The finder and COMPRESS (R163, R169, R186 to R191) -/

theorem walk_keepsTree (p : Nat) (mutate : Bool) (s : State) : (walk p mutate s).KeepsTree s := walk_treeInv

theorem slotOf_lt (p : Nat) : slotOf p < windowSize := Nat.mod_lt _ (by decide)

theorem deleteAt_keepsTree (p : Nat) (s : State) : (deleteAt (slotOf p) s).KeepsTree s := by
  intro hs
  obtain ⟨t, ht, -, htree, -⟩ := deleteAt_treeInv hs (slotOf_lt p)
  rw [ht]
  exact ⟨nofun, htree⟩

theorem slideTo_keepsTree (p : Nat) (s : State) : (slideTo p s).KeepsTree s := by
  unfold slideTo
  split
  · refine .bind ?_ fun _ t => (walk_keepsTree p true t).bind fun _ u => .ok rfl
    split
    · exact deleteAt_keepsTree _ s
    · exact .ok rfl
  · exact .ok rfl

theorem slide_keepsTree (k p : Nat) (s : State) : (slide k p s).KeepsTree s := by
  induction k generalizing p s with
  | zero => exact .ok rfl
  | succ k ih => exact (slideTo_keepsTree p s).bind fun _ t => ih (p + 1) t

theorem lookAhead_keepsTree (cur : Nat) (s : State) : (lookAhead cur s).KeepsTree s := by
  unfold lookAhead
  split
  · exact (walk_keepsTree _ false s).bind fun _ t => .ok rfl
  · exact .ok rfl

theorem chooseEvent_keepsTree (cur look : Nat) (s : State) : (chooseEvent cur look s).KeepsTree s := by
  unfold chooseEvent
  split
  · exact .ok rfl
  · exact (inByte_keepsTree cur s).bind fun _ t => .ok rfl

theorem eventLoop_keepsTree (n cur : Nat) (s : State) : (eventLoop n cur s).KeepsTree s := by
  induction n generalizing cur s with
  | zero => exact .ok rfl
  | succ n ih =>
    unfold eventLoop
    split
    · exact .ok rfl
    · exact (lookAhead_keepsTree cur s).bind fun look t => (chooseEvent_keepsTree cur look t).bind fun k u =>
        (slide_keepsTree k (cur + 1) u).bind fun _ v => ih (cur + k) v

/-- R186: the events are generated from the empty tree on. -/
theorem generateEvents_keepsTree (s : State) : (generateEvents s).KeepsTree s := by
  have hloop : ∀ n t, (eventLoop n 0 (takeCandidate t)).KeepsTree t := fun n t =>
    .after (eventLoop_keepsTree n 0 (takeCandidate t)) rfl
  intro _
  have hinit : TreeInv (initFinder { s with prog := { s.prog with evq := [] } }).mf := treeInv_finderReset
  unfold generateEvents
  dsimp only
  split
  · exact ⟨nofun, hinit⟩
  · exact ((walk_keepsTree 0 true _).bind fun _ t => hloop _ t) hinit

theorem tally_keepsTree (e : Event) (s : State) : (tally e s).KeepsTree s := by
  cases e with
  | lit b => exact .ok (bumpFreq_mf .ll _ s)
  | copy l d =>
    simp only [tally]
    split
    · exact .err rfl
    · rename_i k _
      refine .after ?_ (bumpFreq_mf .ll (lenSymbol0 + k) s)
      split
      · exact .ok rfl
      · split
        · exact .err rfl
        · exact .ok (bumpFreq_mf .ds _ _)

theorem emit_keepsTree (e : Event) (s : State) : (emit e s).KeepsTree s := by
  cases e with
  | lit b => exact writeFields_keepsTree _ s
  | copy l d =>
    simp only [emit]
    split
    · exact .err rfl
    · refine (writeFields_keepsTree _ s).bind fun _ t => ?_
      split
      · exact writeBits_keepsTree _ _ t
      · split
        · exact .err rfl
        · exact writeFields_keepsTree _ t

theorem forEvents_keepsTree {f : Event → State → Res Unit} (hf : ∀ e s, (f e s).KeepsTree s) (es : List Event)
    (s : State) : (forEvents f es s).KeepsTree s := by
  induction es generalizing s with
  | nil => exact .ok rfl
  | cons e es ih => exact (hf e s).bind fun _ t => ih t

theorem compressPass1_keepsTree (s : State) : (compressPass1 s).KeepsTree s :=
  .bind (.after (generateEvents_keepsTree _) ((clearFreq_mf .ds _).trans (clearFreq_mf .ll _))) fun _ t =>
    (forEvents_keepsTree tally_keepsTree _ t).bind fun _ u => .ok (bumpFreq_mf .ll _ u)

theorem compressTables_keepsTree (s : State) : (compressTables s).KeepsTree s :=
  (hufBuild_keepsTree .ll s).bind fun _ t => (hufBuild_keepsTree .ds t).bind fun _ u =>
    (hufCanon_keepsTree .ll u).bind fun _ v => (hufCanon_keepsTree .ds v).bind fun _ w =>
      (serialize_keepsTree .ll w).bind fun _ x => serialize_keepsTree .ds x

theorem compressPass2_keepsTree (s : State) : (compressPass2 s).KeepsTree s :=
  (forEvents_keepsTree emit_keepsTree _ s).bind fun _ t => (encodeSymbol_keepsTree .ll _ t).bind fun _ u =>
    (writeEof_keepsTree u).bind fun _ _ => .ok rfl

/-- R190: COMPRESS builds its tree by walks and deletions alone. -/
theorem compress_keepsTree (s : State) : (compress s).KeepsTree s :=
  .require ((compressPass1_keepsTree s).bind fun _ t => (compressTables_keepsTree t).bind fun _ u =>
    compressPass2_keepsTree u)

/-! ## Every instruction -/

/-- What `Obligations.TreeInvariantKept` says of one instruction. -/
def ExecKeepsTree (i : Instr) : Prop :=
  ∀ s, TreeInv s.mf → exec i s ≠ .fault .treeCycle ∧ ∀ t, exec i s = .next t → TreeInv t.mf

namespace ExecKeepsTree

variable {i : Instr}

/-- A command's end writes no link (R215, R216). -/
theorem of_finish {r : State → Res Results} (hi : ∀ s, exec i s = finish (r s)) (hr : ∀ s, (r s).KeepsTree s) :
    ExecKeepsTree i := by
  intro s hs
  obtain ⟨hcycle, hstays⟩ := hr s hs
  rw [hi]
  refine ⟨fun hf => hcycle (finish_eq_fault.1 hf), fun t ht => ?_⟩
  exact hstays.finish (fun _ _ _ _ h => h) (fun _ _ h => h) ht

/-- A command that is one update, which leaves the finder. -/
theorem of_ok {r : State → Results} {f : State → State} (hi : ∀ s, exec i s = finish (.ok (r s) (f s)))
    (hf : ∀ s, (f s).mf = s.mf) : ExecKeepsTree i := .of_finish hi fun s => .ok (hf s)

/-- A command that is one primitive, whose value gives the results. -/
theorem of_primitive {r : State → Res α} {k : State → α → State → Results}
    (hi : ∀ s, exec i s = finish ((r s).bind fun a t => .ok (k s a t) t)) (hr : ∀ s, (r s).KeepsTree s) :
    ExecKeepsTree i := .of_finish hi fun s => (hr s).results (k s)

/-- A command that checks its operands first (R64). -/
theorem of_checked {c : State → Bool} {r : State → Unit → Res Results}
    (hi : ∀ s, exec i s = finish (require (c s) operandRange s (r s))) (hr : ∀ s, (r s ()).KeepsTree s) :
    ExecKeepsTree i := .of_finish hi fun s => .require (hr s)

/-- R144, R216: a table entry moves on in the table or ends the command. -/
theorem of_entry (fits : Alphabet → Bool) (e : TableEntry) (hi : ∀ s, exec i s = entryStep fits e s) :
    ExecKeepsTree i := by
  intro s hs
  rw [hi, entryStep]
  split
  · rename_i a i b0 _
    obtain ⟨hcycle, hstays⟩ := applyEntry_keepsTree a i e s hs
    generalize applyEntry a i e s = r at hcycle hstays
    split
    · cases r with
      | ok j t => exact ⟨nofun, fun u hu => by cases hu; exact hstays⟩
      | err e t => exact ⟨nofun, fun u hu => by cases hu; exact hstays⟩
      | fault f => exact ⟨fun hf => hcycle (by cases hf; rfl), nofun⟩
    · exact ⟨nofun, nofun⟩
  · exact ⟨nofun, nofun⟩
  · exact ⟨nofun, nofun⟩

/-- R199, R216: an event moves on in the stream or ends the command. -/
theorem of_event (e : StreamEvent) (hi : ∀ s, exec i s = eventStep e s) : ExecKeepsTree i := by
  intro s hs
  rw [hi, eventStep]
  split
  · rename_i nl nm _
    obtain ⟨hcycle, hstays⟩ := applyEvent_keepsTree e nl nm s hs
    generalize applyEvent e nl nm s = r at hcycle hstays
    cases r with
    | ok c t => cases c <;> exact ⟨nofun, fun u hu => by cases hu; exact hstays⟩
    | err e t => exact ⟨nofun, fun u hu => by cases hu; exact hstays⟩
    | fault f => exact ⟨fun hf => hcycle (by cases hf; rfl), nofun⟩
  · exact ⟨nofun, nofun⟩
  · exact ⟨nofun, nofun⟩

end ExecKeepsTree

theorem exec_keepsTree (i : Instr) : ExecKeepsTree i := by
  cases i with
  | compress => exact .of_finish (fun _ => rfl) compress_keepsTree
  | expand => exact .of_finish (fun _ => rfl) expand_keepsTree
  | bwReset => exact .of_ok (fun _ => rfl) fun _ => rfl
  | bwWriteBits => exact .of_primitive (fun _ => rfl) fun s => writeBits_keepsTree _ _ s
  | bwWriteByte => exact .of_primitive (fun _ => rfl) fun s => writeByte_keepsTree _ s
  | bwWriteEof => exact .of_primitive (fun _ => rfl) writeEof_keepsTree
  | brReset => exact .of_ok (fun _ => rfl) fun _ => rfl
  | brReadBits => exact .of_primitive (fun _ => rfl) fun s => readBits_keepsTree _ s
  | brReadByte => exact .of_primitive (fun _ => rfl) readByte_keepsTree
  | lenSlot => exact .of_checked (fun _ => rfl) fun s => slotResults_keepsTree _ _ _ s
  | distSlot => exact .of_checked (fun _ => rfl) fun s => slotResults_keepsTree _ _ _ s
  | lenRange => exact .of_checked (fun _ => rfl) fun s => rangeResults_keepsTree _ s
  | distRange => exact .of_checked (fun _ => rfl) fun s => rangeResults_keepsTree _ s
  | mfInit =>
    exact .of_finish (r := fun s => .ok Results.zero (initFinder s)) (fun _ => rfl) fun _ _ => ⟨nofun, treeInv_finderReset⟩
  | mfInsert => exact .of_primitive (fun _ => rfl) fun s => walk_keepsTree _ true s
  | mfProbe => exact .of_primitive (fun _ => rfl) fun s => walk_keepsTree _ false s
  | mfDelete => exact .of_primitive (fun _ => rfl) fun s => deleteAt_keepsTree _ s
  | mfLongest => exact .of_ok (fun _ => rfl) fun _ => rfl
  | treeRead => exact .of_checked (fun _ => rfl) fun _ => .ok rfl
  | freqClear a => exact .of_ok (fun _ => rfl) (clearFreq_mf a)
  | freqInc a => exact .of_checked (fun _ => rfl) fun s => .require (.ok (bumpFreq_mf a _ s))
  | freqRead a => exact .of_checked (fun _ => rfl) fun _ => .ok rfl
  | hufBuild a => exact .of_primitive (fun _ => rfl) (hufBuild_keepsTree a)
  | hufCanon a => exact .of_primitive (fun _ => rfl) (hufCanon_keepsTree a)
  | hufSerialize a => exact .of_primitive (fun _ => rfl) (serialize_keepsTree a)
  | hufDeserialize a => exact .of_primitive (fun _ => rfl) (deserialize_keepsTree a)
  | hufTrie a => exact .of_primitive (fun _ => rfl) (hufTrie_keepsTree a)
  | hufDecode a => exact .of_primitive (fun _ => rfl) fun s => runParse_keepsTree _ s
  | hufEncode a => exact .of_checked (fun _ => rfl) fun s => (encodeSymbol_keepsTree a _ s).results _
  | clRead a => exact .of_checked (fun _ => rfl) fun _ => .ok rfl
  | clWrite a => exact .of_checked (fun _ => rfl) fun s => .ok (setCl_mf a _ _ s)
  | winReset => exact .of_ok (fun _ => rfl) fun _ => rfl
  | winPut => exact .of_checked (fun _ => rfl) fun s => (winPut_keepsTree _ s).results _
  | winCopy => exact .of_primitive (fun _ => rfl) fun s => winCopy_keepsTree _ _ s
  | winRead => exact .of_checked (fun _ => rfl) fun s => (windowRead_keepsTree _ s).results _
  | cleShort l => exact .of_entry (fun _ => true) (.short l) fun _ => rfl
  | cleExt1 x => exact .of_entry (fun _ => true) (.ext1 x) fun _ => rfl
  | cleExt2 y => exact .of_entry (fun _ => true) (.ext2 y) fun _ => rfl
  | cleZrunLl c => exact .of_entry (· == .ll) (.zrun c.toNat) fun _ => rfl
  | cleZrunD c => exact .of_entry (· == .ds) (.zrun c.toNat) fun _ => rfl
  | lit b => exact .of_event (.lit b) fun _ => rfl
  | eos => exact .of_event .eos fun _ => rfl
  | match3 d => exact .of_event (.match3 d) fun _ => rfl
  | matchSlot k e j x => exact .of_event (.matchSlot k e j x) fun _ => rfl

/-- Settles O13: COMPRESS, MF_INSERT and MF_DELETE change the tree by walks and deletions, which keep it; MF_INIT empties
it; no other instruction touches it. -/
theorem treeInvariantKept : Obligations.TreeInvariantKept := exec_keepsTree

end Sys2Proof.Machine
end

section
/-! # Match-finder commands (43_match_finder.md R160 to R176)

A walk by its checks and by the descent that it follows; what an insert and a deletion make of the links; and the
commands on every operand. -/

namespace Sys2Proof.Machine

/-! ## MF_INIT, MF_LONGEST, TREE_READ (R170, R174, R175) -/

theorem treeIndexOk_iff {i : Nat} : treeIndexOk i = true ↔ i ≤ 65536 := decide_eq_true_iff

/-- Settles O47: the empty finder has no links, and the two observations read registers of the finder. -/
theorem finderInitAndObservation : Obligations.FinderInitAndObservation := by
  intro s
  have hread : exec .treeRead s = finish (require (treeIndexOk s.a0) operandRange s fun _ =>
    .ok (Results.nat (s.mf.par s.a0).toNat (s.mf.sm s.a0).toNat (s.mf.la s.a0).toNat) s) := rfl
  refine ⟨⟨initFinder s, rfl, rfl, rfl, fun _ => ⟨rfl, rfl, rfl⟩⟩, rfl, fun h => ?_, fun h => ?_⟩
  · rw [hread, require_of_not (mt treeIndexOk_iff.1 (Nat.not_le.2 h))]; rfl
  · rw [hread, require_of (treeIndexOk_iff.2 h)]; rfl

/-! ## The two commands of a walk (R171, R172) -/

/-- MF_INSERT or MF_PROBE. -/
def walkCommand : Bool → Instr
  | true => .mfInsert
  | false => .mfProbe

theorem exec_walkCommand (mutate : Bool) (s : State) :
    exec (walkCommand mutate) s = finish ((walk s.a0 mutate s).bind fun _ t => .ok (bestResults t) t) := by
  cases mutate <;> rfl

theorem exec_walk_err {mutate : Bool} {s t : State} {e : Err} (h : walk s.a0 mutate s = .err e t) :
    exec (walkCommand mutate) s = .next (t.fail e) := by rw [exec_walkCommand, h]; rfl

/-- R171, R172: a walk that ends gives its candidate as results. -/
theorem exec_walk_ok {mutate : Bool} {s t : State} (h : walk s.a0 mutate s = .ok () t) :
    exec (walkCommand mutate) s = .next (t.complete (BitVec.ofNat 32 t.mf.best.len.toNat)
      (BitVec.ofNat 32 t.mf.best.dist.toNat) 0) := by rw [exec_walkCommand, h]; rfl

/-- R215, R216: CAUSE is 0 only after a walk that ended. -/
theorem walk_of_cause_zero {mutate : Bool} {s t : State} (h : exec (walkCommand mutate) s = .next t)
    (hcause : t.ctl.cause = 0) : ∃ u, walk s.a0 mutate s = .ok () u ∧
      t = u.complete (BitVec.ofNat 32 u.mf.best.len.toNat) (BitVec.ofNat 32 u.mf.best.dist.toNat) 0 := by
  cases hw : walk s.a0 mutate s with
  | ok x u => rw [exec_walk_ok hw] at h; cases h; exact ⟨u, rfl, rfl⟩
  | err e u => rw [exec_walk_err hw] at h; cases h; exact absurd hcause (Err.cause_ne_zero e)
  | fault f => rw [exec_walkCommand, hw] at h; cases h

/-- Settles O49: the candidate of a walk is real by `walk_candidate`, and the results are the candidate. -/
theorem matchIsReal : Obligations.MatchIsReal := by
  intro s t h hcause
  obtain ⟨mutate, hexec⟩ : ∃ mutate, exec (walkCommand mutate) s = .next t := h.elim (⟨true, ·⟩) (⟨false, ·⟩)
  obtain ⟨u, hw, rfl⟩ := walk_of_cause_zero hexec hcause
  obtain ⟨-, -, -, hcand⟩ := walk_candidate hw
  have hlen : (BitVec.ofNat 32 u.mf.best.len.toNat).toNat = u.mf.best.len.toNat := by
    rw [BitVec.toNat_ofNat]; have := u.mf.best.len.isLt; omega
  have hdist : (BitVec.ofNat 32 u.mf.best.dist.toNat).toNat = u.mf.best.dist.toNat := by
    rw [BitVec.toNat_ofNat]; have := u.mf.best.dist.isLt; omega
  simp only [State.complete_res0, State.complete_res1, State.complete_mf, hlen, hdist]
  exact ⟨by simp, hcand.len_le, hcand.dist_le.2, hcand.inside, hcand.dist_pos, hcand.dist_le.1, hcand.same, hcand.near⟩

/-! ## A walk by its checks (R163) -/

theorem slotFree_iff {f : Finder} {i : Nat} : f.inTree i = false ↔ f.par i = 0x1FFFF := not_inTree_iff

section
variable {s : State} {p : Nat} {mutate : Bool}

theorem walk_operandRange (h : s.params.ibufSize < s.ctl.inLen.toNat ∨ s.ctl.inLen.toNat ≤ p) :
    walk p mutate s = .err operandRange s := by
  rw [walk]
  by_cases hin : s.inputOk = true
  · rw [require_of hin, require_of_not]
    have hle : s.ctl.inLen.toNat ≤ s.params.ibufSize := of_decide_eq_true hin
    simp only [State.positionOk, decide_eq_true_eq]
    omega
  · rw [require_of_not hin]

variable (hin : s.ctl.inLen.toNat ≤ s.params.ibufSize) (hp : p < s.ctl.inLen.toNat)
include hin hp

/-- R163: with the operands in range, the slot is checked before the walk. -/
theorem walk_in_range : walk p mutate s =
    require (!(mutate && s.mf.inTree (slotOf p))) (.internal .slotOccupied) s fun _ =>
      (walkRoot p s).bind fun r s =>
        .ok () (setBest r.len r.dist (if mutate then { s with mf := linkIn s.mf r.stop (slotOf p) } else s)) := by
  have hpos : s.positionOk p = true := decide_eq_true hp
  rw [walk, require_of (inputOk_eq_true hin), require_of hpos]

theorem walk_slotOccupied (h : s.mf.par (slotOf p) ≠ 0x1FFFF) :
    walk p true s = .err (.internal .slotOccupied) s := by
  rw [walk_in_range hin hp, inTree_iff.2 h]; rfl

variable (hfree : mutate = true → s.mf.par (slotOf p) = 0x1FFFF)
include hfree

/-- R163: the checks pass. -/
theorem walk_runs : walk p mutate s = (walkRoot p s).bind fun r s =>
    .ok () (setBest r.len r.dist (if mutate then { s with mf := linkIn s.mf r.stop (slotOf p) } else s)) := by
  rw [walk_in_range hin hp, require_of]
  cases mutate with
  | false => rfl
  | true => simp [slotFree_iff.2 (hfree rfl)]

theorem walk_err {e : Err} (h : walkRoot p s = .err e s) : walk p mutate s = .err e s := by
  rw [walk_runs hin hp hfree, h]; rfl

theorem walk_ok {r : WalkResult} (h : walkRoot p s = .ok r s) : walk p mutate s =
    .ok () (setBest r.len r.dist (if mutate then { s with mf := linkIn s.mf r.stop (slotOf p) } else s)) := by
  rw [walk_runs hin hp hfree, h]; rfl

end

/-- A length and a distance in their ranges are the ones MF_BEST holds (R33). -/
theorem results_of_candidate {s : State} {p len dist : Nat} (h : Candidate s p len dist) :
    (BitVec.ofNat 9 len).toNat = len ∧ (BitVec.ofNat 17 dist).toNat = dist := by
  have hlen : len ≤ 256 := h.len_le
  have hdist : dist ≤ 65536 := h.dist_le.2
  rw [BitVec.toNat_ofNat, BitVec.toNat_ofNat]
  omega

section
variable {s : State} {r : WalkResult} (hin : s.ctl.inLen.toNat ≤ s.params.ibufSize) (hp : s.a0 < s.ctl.inLen.toNat)
  (hroot : walkRoot s.a0 s = .ok r s)
include hin hp hroot

/-- R172: MF_PROBE writes the candidate and nothing else. -/
theorem mfProbe_of_walkRoot : ∃ t, OnlyFinder s t ∧
    t.mf = { s.mf with best := ⟨BitVec.ofNat 9 r.len, BitVec.ofNat 17 r.dist⟩ } ∧
    exec .mfProbe s = .next (t.complete (BitVec.ofNat 32 r.len) (BitVec.ofNat 32 r.dist) 0) := by
  obtain ⟨hlen, hdist⟩ := results_of_candidate (walkRoot_candidate (Nat.le_of_lt hp) hroot)
  have h := exec_walk_ok (walk_ok (mutate := false) hin hp nofun hroot)
  rw [setBest_best, hlen, hdist] at h
  exact ⟨_, rfl, rfl, h⟩

/-- R171: MF_INSERT on a free slot writes the candidate and links the slot in. -/
theorem mfInsert_of_walkRoot (hfree : s.mf.par (slotOf s.a0) = 0x1FFFF) : ∃ t, OnlyFinder s t ∧
    t.mf = { linkIn s.mf r.stop (slotOf s.a0) with best := ⟨BitVec.ofNat 9 r.len, BitVec.ofNat 17 r.dist⟩ } ∧
    exec .mfInsert s = .next (t.complete (BitVec.ofNat 32 r.len) (BitVec.ofNat 32 r.dist) 0) := by
  obtain ⟨hlen, hdist⟩ := results_of_candidate (walkRoot_candidate (Nat.le_of_lt hp) hroot)
  have h := exec_walk_ok (walk_ok (mutate := true) hin hp (fun _ => hfree) hroot)
  rw [setBest_best, hlen, hdist] at h
  exact ⟨_, rfl, rfl, h⟩

end

/-! ## The walk and its descent (R163 to R166) -/

section
variable {s : State} (htree : TreeInv s.mf)
include htree

theorem rootChild_inTree (hla : s.mf.la 65536 ≠ 0x1FFFF) : s.mf.inTree (s.mf.la 65536).toNat = true :=
  treeInv_child_inTree htree (i := rootIndex) (sd := .larger) hla

theorem rootChild_depth (hla : s.mf.la 65536 ≠ 0x1FFFF) : DepthIs s.mf (s.mf.la 65536).toNat 1 :=
  depthIs_child htree (i := rootIndex) (sd := .larger) (.inl rfl) ⟨rfl, fun j hj => absurd hj (Nat.not_lt_zero j)⟩ hla

/-- R163: the walk is what the descent from the top node decides. -/
theorem walkRoot_of_descent (hla : s.mf.la 65536 ≠ 0x1FFFF) {p : Nat} {path : List (Nat × Nat)} {e : Option WalkEnd}
    (h : Descent s p (s.mf.la 65536).toNat path e) : walkRoot p s = descentResult s (0, 0) path e := by
  have hne := walkFrom_ne_treeCycle (p := p) (m := compareLimit p s) (n := treeFuel) (bl := 0) (bd := 0) htree
    (rootChild_inTree htree hla) (rootChild_depth htree hla) (by decide)
  rw [walkRoot, if_neg (show ¬ s.mf.la rootIndex = nilLink from hla)]
  exact walkFrom_descent h hne

/-- R32, R176: without a top node the tree is empty. -/
theorem treeInv_empty (hla : s.mf.la 65536 = 0x1FFFF) (i : Nat) : s.mf.par i = 0x1FFFF := by
  have hnone : ∀ k i, climb s.mf k i = rootIndex → s.mf.inTree i = false := by
    intro k
    induction k with
    | zero => rintro i rfl; exact treeInv_root_out htree
    | succ k ih =>
      intro i hk
      by_contra hi
      rw [Bool.not_eq_false] at hi
      rcases treeInv_parent htree hi with hpar | hpar
      · have hchild := treeInv_is_child htree hi hpar
        have hnil : s.mf.child rootIndex (sideOf s.mf i) = nilLink := by
          cases sideOf s.mf i
          · exact htree.root.2
          · exact hla
        exact link_ne_nil (Nat.le_of_lt (treeInv_slot_lt htree hi)) (hchild.symm.trans hnil)
      · rw [ih _ hk] at hpar; cases hpar
  by_contra hi
  have hin : s.mf.inTree i = true := inTree_iff.2 hi
  obtain ⟨k, hk⟩ := htree.reach i hin
  rw [hnone k i hk] at hin; cases hin

end

/-- A descent that ends has compared. -/
theorem Descent.path_ne_nil {s : State} {p t : Nat} {path : List (Nat × Nat)} {stop : WalkEnd}
    (h : Descent s p t path (some stop)) : path ≠ [] := by
  cases h <;> simp

theorem child_withBest (f : Finder) (b : Best) (i : Nat) (sd : Side) : { f with best := b }.child i sd = f.child i sd := by
  cases sd <;> rfl

/-- MF_BEST is no link (R163, R166, R167). -/
theorem LinkedIn.withBest {f g : Finder} {n : Nat} {stop : WalkEnd} (h : LinkedIn f g n stop) (b : Best) :
    LinkedIn f { g with best := b } n stop := by
  cases stop with
  | leaf t side => exact fun i => ⟨(h i).1, fun sd => (child_withBest g b i sd).trans ((h i).2 sd)⟩
  | full t => exact fun i => ⟨(h i).1, fun sd => (child_withBest g b i sd).trans ((h i).2 sd)⟩

/-- R163: a slot attached to ROOT in the empty tree has no children, and every other link stays. -/
theorem attach_root_links {f : Finder} (h : TreeInv f) {n : Nat} (hn : f.inTree n = false) (hlt : n < windowSize) (i : Nat) :
    (attach f rootIndex .larger n).par i = (if i = n then link rootIndex else f.par i) ∧
    (attach f rootIndex .larger n).sm i = f.sm i ∧
    (attach f rootIndex .larger n).la i = if i = rootIndex then link n else f.la i := by
  have hroot : n ≠ rootIndex := Nat.ne_of_lt hlt
  have hchild := child_attach h.links rootIndex .larger n i
  have hsm : (attach f rootIndex .larger n).sm i = _ := hchild .smaller
  have hla : (attach f rootIndex .larger n).la i = _ := hchild .larger
  obtain ⟨hnsm, hnla⟩ := h.outside n hroot hn
  refine ⟨par_attach h.links _ _ n i, ?_, ?_⟩
  · rw [hsm]
    by_cases hi : i = n
    · rw [if_pos hi, hi, hnsm]
    · rw [if_neg hi, if_neg (by simp)]; rfl
  · rw [hla]
    by_cases hi : i = n
    · rw [if_pos hi, if_neg (hi ▸ hroot), hi, hnla]
    · simp only [if_neg hi, and_true]; rfl

/-- Settles O48: the checks in their order; on a tree with nodes the walk follows the descent from the top node; in the
empty tree it ends at ROOT. -/
theorem insertAndProbe : Obligations.InsertAndProbe := by
  intro s htree
  refine ⟨fun h => ⟨exec_walk_err (walk_operandRange (mutate := true) h),
      exec_walk_err (walk_operandRange (mutate := false) h)⟩,
    fun hin hp hocc => exec_walk_err (mutate := true) (walk_slotOccupied hin hp hocc),
    fun hin hp hla => ⟨fun path hd => ?_, fun path stop hd => ?_, fun hw => ?_⟩, fun hin hp hla => ?_⟩
  · have hroot := walkRoot_of_descent htree hla hd
    exact ⟨exec_walk_err (walk_err (mutate := false) hin hp nofun hroot),
      fun hfree => exec_walk_err (walk_err (mutate := true) hin hp (fun _ => hfree) hroot)⟩
  · have hroot := walkRoot_of_descent htree hla hd
    refine ⟨_, _, updateBest_bestOf hd.path_ne_nil, mfProbe_of_walkRoot hin hp hroot, fun hfree => ?_⟩
    obtain ⟨t, ht, hmf, hexec⟩ := mfInsert_of_walkRoot hin hp hroot hfree
    have hlinked := linkIn_linkedIn htree (walkRoot_fits htree hroot) (slotOf_lt s.a0) (slotFree_iff.2 hfree)
    exact ⟨t, ht, by rw [hmf], hexec, hmf ▸ hlinked.withBest _⟩
  · exact exists_descent htree hw (rootChild_inTree htree hla) (rootChild_depth htree hla)
  · have hroot : walkRoot s.a0 s = .ok ⟨0, 0, .leaf rootIndex .larger⟩ s := if_pos hla
    have hfree := treeInv_empty htree hla (slotOf s.a0)
    obtain ⟨t, ht, htmf, hprobe⟩ := mfProbe_of_walkRoot hin hp hroot
    obtain ⟨u, hu, humf, hinsert⟩ := mfInsert_of_walkRoot hin hp hroot hfree
    refine ⟨⟨t, ht, hprobe, htmf⟩, ⟨u, hu, hinsert, by rw [humf]; rfl, fun i => ?_⟩⟩
    rw [humf]
    exact attach_root_links htree (slotFree_iff.2 hfree) (slotOf_lt s.a0) i

/-! ## MF_DELETE (R168, R169, R173) -/

theorem larger_eq_sideOf {f : Finder} {x : Nat} : .larger = sideOf f x ↔ f.la (f.par x).toNat = link x := by
  unfold sideOf
  split <;> simp [*]

theorem smaller_eq_sideOf {f : Finder} {x : Nat} : .smaller = sideOf f x ↔ f.la (f.par x).toNat ≠ link x := by
  unfold sideOf
  split <;> simp [*]

/-- R168: the links after the slot `x` has been contracted, each of them: its parent leads to `c` in its place. -/
theorem contract_links {f : Finder} (h : f.LinksOk) {x i : Nat} (hi : i ≠ x) (c : BitVec 17) :
    (contract f x c).par i = (if c ≠ nilLink ∧ i = c.toNat then f.par x else f.par i) ∧
    (contract f x c).la i = (if i = (f.par x).toNat ∧ f.la i = link x then c else f.la i) ∧
    (contract f x c).sm i = (if i = (f.par x).toNat ∧ f.la i ≠ link x then c else f.sm i) := by
  have hla : (contract f x c).la i = _ := child_contract h x c i .larger
  have hsm : (contract f x c).sm i = _ := child_contract h x c i .smaller
  rw [par_contract h, hla, hsm, if_neg hi, if_neg hi, if_neg hi]
  exact ⟨rfl, if_congr (and_congr_right fun hp => by rw [hp]; exact larger_eq_sideOf) rfl rfl,
    if_congr (and_congr_right fun hp => by rw [hp]; exact smaller_eq_sideOf) rfl rfl⟩

/-- R169: a slot of the tree with at most one child is contracted. -/
theorem deleteSlot_eq_contract {f : Finder} {x : Nat} {c : BitVec 17} (hx : f.inTree x = true)
    (hc : (f.la x = nilLink ∧ c = f.sm x) ∨ (f.la x ≠ nilLink ∧ f.sm x = nilLink ∧ c = f.la x)) :
    deleteSlot f x = some (contract f x c) := by
  rw [deleteSlot, hx]
  rcases hc with ⟨hla, rfl⟩ | ⟨hla, hsm, rfl⟩
  · simp [hla]
  · simp [hla, hsm]

theorem deleteSlot_outside {f : Finder} {x : Nat} (hx : f.inTree x = false) : deleteSlot f x = some f := by
  rw [deleteSlot, hx]; rfl

theorem exec_mfDelete {s t : State} (h : deleteAt (slotOf s.a0) s = .ok () t) :
    exec .mfDelete s = .next (t.complete 0 0 0) := by
  have hexec : exec .mfDelete s = finish ((deleteAt (slotOf s.a0) s).bind fun _ t => .ok Results.zero t) := rfl
  rw [hexec, h]; rfl

/-- Settles O50: `deleteAt_treeInv` for any slot, `contract_links` for one with at most one child. -/
theorem deleteTakesSlotOut : Obligations.DeleteTakesSlotOut := by
  rintro s x rfl
  refine ⟨fun hx => exec_mfDelete ?_, fun htree => ?_⟩
  · rw [deleteAt, show deleteSlot s.mf (slotOf s.a0) = some s.mf from deleteSlot_outside (slotFree_iff.2 hx)]
  have hlt := slotOf_lt s.a0
  obtain ⟨t, ht, honly, htree', hbest, hin⟩ := deleteAt_treeInv htree hlt
  have hout : t.mf.inTree (slotOf s.a0) = false := by rw [hin]; simp
  obtain ⟨hsm, hla⟩ := htree'.outside _ (Nat.ne_of_lt hlt) hout
  refine ⟨t, honly, exec_mfDelete ht, hbest, slotFree_iff.1 hout, hsm, hla, fun i hi => ?_, fun c hx hc i hi => ?_⟩
  · rw [hin]
    have : (i != slotOf s.a0) = true := bne_iff_ne.2 hi
    rw [this, Bool.and_true]
  · have hdel := deleteSlot_eq_contract (inTree_iff.2 hx) hc
    rw [deleteAt, show deleteSlot s.mf (slotOf s.a0) = _ from hdel] at ht
    cases ht
    exact contract_links htree.links hi c

end Sys2Proof.Machine
end

section
/-! # Frame of the match-finder and window commands (43_match_finder.md, 44_pipelines.md R193 to R197) -/

namespace Sys2Proof.Machine

/-! ## The finder (R170 to R173) -/

/-- Nothing but MF_BEST. -/
abbrev OnlyBest (s t : State) : Prop := t = { s with mf := { s.mf with best := t.mf.best } }

/-- Nothing but the links. -/
abbrev OnlyLinks (s t : State) : Prop := OnlyFinder s t ∧ t.mf.best = s.mf.best

theorem bestFrame : IsFrame OnlyBest := ⟨fun _ => rfl, fun h1 h2 => Eq.trans h2 (by rw [h1])⟩

theorem linksFrame : IsFrame OnlyLinks where
  refl _ := ⟨rfl, rfl⟩
  trans h1 h2 := ⟨finderFrame.trans h1.1 h2.1, h2.2.trans h1.2⟩

/-- R172: a probe links nothing in. -/
theorem probe_stays (p : Nat) (s : State) : (walk p false s).Stays OnlyBest s :=
  Res.Stays.require bestFrame fun _ => Res.Stays.require bestFrame fun _ => Res.Stays.require bestFrame fun _ =>
    ((walkRoot_stays p s).of_eq bestFrame).bind bestFrame fun _ _ _ => rfl

/-- R169: a deletion leaves the candidate, whatever the tree. -/
theorem deleteSlot_best {f g : Finder} {x : Nat} (h : deleteSlot f x = some g) : g.best = f.best := by
  unfold deleteSlot at h
  split at h
  · cases h; rfl
  · split at h
    · cases h; exact contract_best _ _ _
    · split at h
      · cases h; exact contract_best _ _ _
      · obtain ⟨r, -, rfl⟩ := Option.map_eq_some_iff.1 h
        exact (replaceNode_best _ x r).trans (deletePredecessor_best f r)

theorem deleteAt_onlyLinks (x : Nat) (s : State) : (deleteAt x s).Stays OnlyLinks s := by
  unfold deleteAt
  split
  · rename_i f hf; exact ⟨rfl, deleteSlot_best hf⟩
  · exact trivial

theorem mfProbe_keeps : CommandKeeps OnlyBest .mfProbe :=
  .of_primitive bestFrame _ _ (fun _ => rfl) fun s => probe_stays _ s

theorem mfDelete_keeps : CommandKeeps OnlyLinks .mfDelete :=
  .of_primitive linksFrame _ _ (fun _ => rfl) fun s => deleteAt_onlyLinks _ s

theorem finder_keeps {i : Instr} (h : i ∈ [.mfInit, .mfInsert, .mfProbe, .mfDelete]) : CommandKeeps OnlyFinder i := by
  simp only [List.mem_cons, List.not_mem_nil, or_false] at h
  rcases h with rfl | rfl | rfl | rfl
  · exact .of_ok _ _ (fun _ => rfl) fun _ => rfl
  · exact .of_primitive finderFrame _ _ (fun _ => rfl) fun s => walk_stays _ true s
  · exact .of_primitive finderFrame _ _ (fun _ => rfl) fun s => walk_stays _ false s
  · exact .of_primitive finderFrame _ _ (fun _ => rfl) fun s => deleteAt_stays _ s

/-! ## The window (R193 to R197) -/

/-- Some bytes have gone out: OUT_LEN and WIN_POS have moved on together, and every other byte of OBUF and of WIN stays. -/
structure PushesOutside (s t : State) : Prop where
  keeps : KeepsOutside s t
  pos : t.win.pos = s.win.pos + BitVec.ofNat 16 (t.wr.outLen.toNat - s.wr.outLen.toNat)
  window : ∀ j, (∀ n, s.wr.outLen.toNat + n < t.wr.outLen.toNat → (s.win.pos.toNat + n) % windowSize ≠ j) →
    Memory.read? t.win.bytes j = Memory.read? s.win.bytes j

/-- Nothing but the window, OUT_LEN and the bytes pushed, where the capacity of R8 keeps OUT_LEN from wrapping. -/
structure PushesOnly (s t : State) : Prop where
  only : OnlyWindow s t
  pushes : s.params.ok → PushesOutside s t

theorem PushesOutside.refl (s : State) : PushesOutside s s :=
  ⟨⟨Nat.le_refl _, fun _ _ => rfl⟩, by simp, fun _ _ => rfl⟩

theorem PushesOutside.trans {s t u : State} (h1 : PushesOutside s t) (h2 : PushesOutside t u) : PushesOutside s u := by
  obtain ⟨⟨hgrow1, hobuf1⟩, hpos1, hwin1⟩ := h1
  obtain ⟨⟨hgrow2, hobuf2⟩, hpos2, hwin2⟩ := h2
  refine ⟨⟨Nat.le_trans hgrow1 hgrow2, fun k hk => ?_⟩, ?_, fun j hj => ?_⟩
  · rw [hobuf2 k (by omega), hobuf1 k (by omega)]
  · rw [hpos2, hpos1, BitVec.add_assoc, ← BitVec.ofNat_add]
    congr 2; omega
  · rw [hwin2 j fun n hn => ?_, hwin1 j fun n hn => hj n (by omega)]
    rw [hpos1, windowPos_add]
    exact hj _ (by omega)

theorem pushesFrame : IsFrame PushesOnly where
  refl s := ⟨rfl, fun _ => .refl s⟩
  trans h1 h2 := ⟨windowFrame.trans h1.only h2.only, fun hp =>
    (h1.pushes hp).trans (h2.pushes (by rw [h1.only]; exact hp))⟩

/-- R193: one byte that fits. -/
theorem windowPush_pushesOnly (b : Byte) {s : State} (h : s.wr.outLen.toNat < s.params.obufSize) :
    PushesOnly s (windowPush b s) := by
  refine ⟨windowPush_only b s, fun hp => ?_⟩
  obtain ⟨-, -, -, hsize, -⟩ := hp
  obtain ⟨⟨-, hlen, hpos, -, -, hobuf, hwin⟩, -⟩ := windowPush_pushed b (s := s) (by omega)
  refine ⟨⟨by omega, fun k hk => hobuf k (by omega)⟩, ?_, fun j hj => hwin j fun n hn => hj n (by omega)⟩
  rw [hpos, hlen, Nat.add_sub_cancel_left]

theorem winPut_pushesOnly (b : Byte) (s : State) : (winPut b s).Stays PushesOnly s :=
  Res.Stays.require pushesFrame fun hfit => windowPush_pushesOnly b (outFits_one_iff.1 hfit)

/-- R194's loop, where all its bytes fit. -/
theorem copyLoop_pushesOnly (d : Nat) {n : Nat} {s : State} (h : s.wr.outLen.toNat + n ≤ s.params.obufSize) :
    (copyLoop d n s).Stays PushesOnly s := by
  induction n generalizing s with
  | zero => exact pushesFrame.refl s
  | succ n ih =>
    refine ((windowRead_stays _ s).of_eq pushesFrame).bind pushesFrame fun b t ht => ?_
    obtain rfl : s = t := (windowRead_stays _ s).ok ht
    have hlen : (windowPush b s).wr.outLen.toNat ≤ s.wr.outLen.toNat + 1 := outLen_outAppend_le b s
    exact (ih (by rw [windowPush_params]; omega)).after pushesFrame (windowPush_pushesOnly b (by omega))

theorem winCopy_pushesOnly (l d : Nat) (s : State) : (winCopy l d s).Stays PushesOnly s :=
  Res.Stays.require pushesFrame fun _ => Res.Stays.require pushesFrame fun _ =>
    Res.Stays.require pushesFrame fun hfit => copyLoop_pushesOnly d (of_decide_eq_true hfit)

theorem window_keeps {i : Instr} (h : i ∈ [.winPut, .winCopy]) : CommandKeeps PushesOnly i := by
  simp only [List.mem_cons, List.not_mem_nil, or_false] at h
  rcases h with rfl | rfl
  · exact .of_checked pushesFrame _ _ (fun _ => rfl) fun s => (winPut_pushesOnly _ s).andResults pushesFrame _
  · exact .of_primitive pushesFrame _ _ (fun _ => rfl) fun s => winCopy_pushesOnly _ _ s

theorem winReset_keeps : CommandKeeps (fun s t => t = resetWindow s) .winReset :=
  .of_ok _ _ (fun _ => rfl) fun _ => rfl

/-- Settles O27: each command by the relation its primitives keep; the bytes of OBUF and WIN by `PushesOnly`. -/
theorem finderAndWindowCommandsFrame : Obligations.FinderAndWindowCommandsFrame := by
  intro i s t hp h
  refine ⟨fun hi => ⟨?_, ?_, ?_⟩, fun hi => ?_, ?_⟩
  · obtain ⟨u, c, hu, rfl⟩ := (finder_keeps hi).next h
    rw [hu]
  · rintro rfl
    obtain ⟨u, c, hu, rfl⟩ := mfProbe_keeps.next h
    rw [hu]
  · rintro rfl
    obtain ⟨u, c, hu, rfl⟩ := mfDelete_keeps.next h
    exact hu.2
  · obtain ⟨u, c, hu, rfl⟩ := (window_keeps hi).next h
    obtain ⟨hkeeps, -, hwin⟩ := hu.pushes hp
    exact ⟨by rw [hu.only], hkeeps.outside, hwin⟩
  · rintro rfl
    obtain ⟨u, c, rfl, rfl⟩ := winReset_keeps.next h
    rfl

end Sys2Proof.Machine
end

section
/-! # WIN_PUT, WIN_COPY and WIN_READ on every operand (44_pipelines.md R193 to R198) -/

namespace Sys2Proof.Machine

/-! ## WIN_PUT and WIN_READ (R196, R198) -/

section
variable {s : State}

theorem byteOk_iff {v : Nat} : byteOk v = true ↔ v ≤ 255 := decide_eq_true_iff

theorem windowIndexOk_iff {j : Nat} : windowIndexOk j = true ↔ j ≤ 65535 :=
  decide_eq_true_iff.trans Nat.lt_succ_iff

theorem exec_winPut_in_range (h : s.a0 ≤ 255) :
    exec .winPut s = finish ((winPut (BitVec.ofNat 8 s.a0) s).bind fun _ t => .ok Results.zero t) :=
  congrArg finish (require_of (byteOk_iff.2 h) _ _ _)

theorem exec_winRead_in_range (h : s.a0 ≤ 65535) :
    exec .winRead s = finish ((windowRead s.a0 s).bind fun b t => .ok (Results.nat b.toNat 0 0) t) :=
  congrArg finish (require_of (windowIndexOk_iff.2 h) _ _ _)

/-- R198, R242: a slot nothing has written. -/
theorem windowRead_unwritten {j : Nat} (h : Memory.read? s.win.bytes j = none) :
    windowRead j s = .fault .unwrittenWindow := by
  rw [windowRead, h]

end

/-- Settles O51: the operand checks, then a push by `windowPush_pushed` or a read of the slot. -/
theorem windowPutAndRead : Obligations.WindowPutAndRead := by
  intro s hp
  obtain ⟨-, -, -, hsize, -⟩ := hp
  refine ⟨fun h => ?_, fun h hfull => ?_, fun h hfit => ?_, fun h => ?_, fun b h hb => ?_, fun h hnone => ?_⟩
  · exact finish_operandRange (mt byteOk_iff.1 (Nat.not_le.2 h)) s
  · rw [exec_winPut_in_range h, winPut_full hfull]; rfl
  · obtain ⟨hpush, hread⟩ := windowPush_pushed (BitVec.ofNat 8 s.a0) (s := s) (by omega)
    exact ⟨_, by rw [exec_winPut_in_range h, winPut_fits hfit]; rfl, hpush, hread⟩
  · exact finish_operandRange (mt windowIndexOk_iff.1 (Nat.not_le.2 h)) s
  · rw [exec_winRead_in_range h, windowRead_of hb]; rfl
  · rw [exec_winRead_in_range h, windowRead_unwritten hnone]; rfl

/-! ## WIN_COPY (R197) -/

theorem exec_winCopy (s : State) :
    exec .winCopy s = finish ((winCopy s.a0 s.a1 s).bind fun _ t => .ok Results.zero t) := rfl

/-- R194: a length or a distance out of range is refused before anything else. -/
theorem winCopy_operandRange {l d : Nat} (h : ¬ (3 ≤ l ∧ l ≤ 258 ∧ 1 ≤ d ∧ d ≤ 65536)) (s : State) :
    winCopy l d s = .err operandRange s := by
  refine require_of_not (fun hok => h ?_) _ _ _
  obtain ⟨hl, hd⟩ := Bool.and_eq_true_iff.1 hok
  obtain ⟨hl1, hl2⟩ := matchLenOk_iff.1 hl
  exact ⟨hl1, hl2, matchDistOk_iff.1 hd⟩

/-- Settles O52: the errors in the order of R194's checks, then the copy by `copyLoop_copied`. -/
theorem windowCopy : Obligations.WindowCopy := by
  intro s hp hw
  obtain ⟨-, -, -, hsize, -⟩ := hp
  have hfill : s.win.fill.toNat ≤ 65536 := hw.1
  rw [exec_winCopy]
  refine ⟨fun h => ?_, fun h1 h2 h3 h4 h => ?_, fun h1 h2 h3 hd h => ?_, fun h1 h2 h3 hd hfit => ?_⟩
  · rw [winCopy_operandRange h]; rfl
  · rw [winCopy_before_start ⟨h1, h2, h3, h4⟩ h]; rfl
  · rw [winCopy_full ⟨h1, h2, h3, by omega⟩ hd h]; rfl
  · obtain ⟨t, ht, hcopied, -⟩ := copyLoop_copied (n := s.a0) hw h3 hd (by unfold windowSize; omega) (by omega)
    exact ⟨t, by rw [winCopy_runs ⟨h1, h2, h3, by omega⟩ hd hfit, ht]; rfl, hcopied⟩

end Sys2Proof.Machine
end

section
/-! # The events COMPRESS generates (44_pipelines.md R185 to R188, R203)

While the events are generated, the tree holds positions before the current one only, and the candidate is a match that is
there (R161 to R165). So the events so far stand for the input up to the current position; and on a written input no walk
of the loop raises. -/

namespace Sys2Proof.Machine

/-! ## What a sequence of primitives leads to -/

/-- A primitive that ends well ends in `Q`, and where `W` holds it does end well. -/
def Res.Leads {α : Type} (W : Prop) (Q : α → State → Prop) : Res α → Prop
  | .ok a t => Q a t
  | .err _ _ => ¬ W
  | .fault _ => ¬ W

section
variable {α β : Type} {W : Prop} {Q : α → State → Prop} {r : Res α}

theorem Res.Leads.of (hok : ∀ a t, r = .ok a t → Q a t) (hends : W → ∃ a t, r = .ok a t) : r.Leads W Q := by
  cases r with
  | ok a t => exact hok a t rfl
  | err e t => exact fun hw => by obtain ⟨a, t, h⟩ := hends hw; cases h
  | fault f => exact fun hw => by obtain ⟨a, t, h⟩ := hends hw; cases h

theorem Res.Leads.ok (h : r.Leads W Q) {a : α} {t : State} (hr : r = .ok a t) : Q a t := by subst hr; exact h

theorem Res.Leads.ends (h : r.Leads W Q) (hw : W) : ∃ a t, r = .ok a t ∧ Q a t := by
  cases r with
  | ok a t => exact ⟨a, t, rfl, h⟩
  | err e t => exact absurd hw h
  | fault f => exact absurd hw h

theorem Res.Leads.bind {Q' : β → State → Prop} {k : α → State → Res β} (h : r.Leads W Q)
    (hk : ∀ a t, Q a t → (k a t).Leads W Q') : (r.bind k).Leads W Q' := by
  cases r with
  | ok a t => exact hk a t h
  | err e t => exact h
  | fault f => exact h

theorem Res.Leads.mono {W' : Prop} {Q' : α → State → Prop} (h : r.Leads W Q) (hw : W' → W)
    (hq : ∀ a t, Q a t → Q' a t) : r.Leads W' Q' := by
  cases r with
  | ok a t => exact hq a t h
  | err e t => exact fun h' => h (hw h')
  | fault f => exact fun h' => h (hw h')

end

/-! ## The frame of the search -/

/-- Nothing but the finder and the hidden state of the command (R186). -/
abbrev OnlySearch (s t : State) : Prop := t = { s with mf := t.mf, prog := t.prog }

theorem searchFrame : IsFrame OnlySearch := ⟨fun _ => rfl, fun h1 h2 => Eq.trans h2 (by rw [h1])⟩

theorem onlySearch_of_finder {s t : State} (h : OnlyFinder s t) : OnlySearch s t := by rw [h]

/-- IN_LEN is in range and every byte of the input is written (R21, R242). -/
def Written (s : State) : Prop :=
  s.inputOk = true ∧ ∀ i, i < s.ctl.inLen.toNat → (Memory.read? s.ibuf i).isSome = true

theorem OnlySearch.written {s t : State} (h : OnlySearch s t) (hw : Written s) : Written t := by rw [h]; exact hw

theorem OnlySearch.inLen {s t : State} (h : OnlySearch s t) : t.ctl.inLen = s.ctl.inLen := by rw [h]

theorem OnlySearch.ibuf {s t : State} (h : OnlySearch s t) : t.ibuf = s.ibuf := by rw [h]

/-! ## A walk over earlier positions -/

/-- R160: an earlier position of the tree is at most `p` back. -/
theorem slotDist_le_of_lt {p t : Nat} (h : t < p) : slotDist p t ≤ p := by
  unfold slotDist windowSize
  omega

/-- R160: a slot other than the position's own is less than a whole window back. -/
theorem slotDist_lt_windowSize {p t : Nat} (ht : t < windowSize) (hne : t ≠ slotOf p) : slotDist p t < windowSize := by
  unfold slotOf windowSize at *
  unfold slotDist windowSize
  omega

theorem walkFrom_dist_lt {p m n t bl bd : Nat} {s u : State} {r : WalkResult} (htree : TreeInv s.mf)
    (hfree : s.mf.inTree (slotOf p) = false) (ht : s.mf.inTree t = true) (hbd : bd < windowSize)
    (hr : walkFrom p m n t bl bd s = .ok r u) : r.dist < windowSize := by
  induction n generalizing t bl bd with
  | zero => cases hr
  | succ n ih =>
    have hd : slotDist p t < windowSize :=
      slotDist_lt_windowSize (treeInv_slot_lt htree ht) fun h => by rw [← h, ht] at hfree; cases hfree
    unfold walkFrom at hr
    dsimp only at hr
    obtain ⟨-, hr⟩ := require_eq_ok.1 hr
    obtain ⟨c, v, hc, hr⟩ := Res.bind_eq_ok.1 hr
    obtain rfl : s = v := (compareFrom_stays _ _ _ _ s).ok hc
    have hnew : (if bl ≤ effectiveLen c.1 (slotDist p t) then slotDist p t else bd) < windowSize := by
      split
      · exact hd
      · exact hbd
    generalize (if c.2 = true then Side.larger else Side.smaller) = side at hr
    split at hr
    · cases hr; exact hnew
    · split at hr
      · cases hr; exact hnew
      · rename_i hne
        exact ih (treeInv_child_inTree htree hne) hnew hr

/-- R160, R163: while the position's own slot is free, its candidate is less than a whole window back. -/
theorem walkRoot_dist_lt {p : Nat} {s u : State} {r : WalkResult} (htree : TreeInv s.mf)
    (hfree : s.mf.inTree (slotOf p) = false) (hr : walkRoot p s = .ok r u) : r.dist < windowSize := by
  unfold walkRoot at hr
  split at hr
  · cases hr; exact Nat.zero_lt_succ _
  · rename_i hla
    exact walkFrom_dist_lt htree hfree (rootChild_inTree htree hla) (Nat.zero_lt_succ _) hr

/-- R163: an insert puts one slot into the tree. -/
theorem inTree_of_linkIn {f : Finder} (htree : TreeInv f) {stop : WalkEnd} (hfits : stop.Fits f) {n i : Nat}
    (hn : n < windowSize) (hfree : f.inTree n = false) (hi : (linkIn f stop n).inTree i = true) :
    i = n ∨ f.inTree i = true := by
  by_contra hnot
  obtain ⟨hne, hout⟩ := not_or.1 hnot
  rw [Bool.not_eq_true, not_inTree_iff] at hout
  rw [inTree_iff] at hi
  cases stop with
  | leaf t side =>
    have hpar := (linkIn_linkedIn htree hfits hn hfree i).1
    rw [if_neg hne, hout] at hpar
    exact hi hpar
  | full t =>
    have hpar := (linkIn_linkedIn htree hfits hn hfree i).1
    have ht : t ≤ rootIndex := Nat.le_of_lt (treeInv_slot_lt htree hfits)
    rw [if_neg hne, hout, if_neg (Ne.symm (link_ne_nil ht))] at hpar
    exact hi (hpar.trans (ite_self nilLink))

section
variable {s : State} {p : Nat} (htree : TreeInv s.mf) (hslots : ∀ i, s.mf.inTree i = true → i < p)
include htree hslots

/-- R163: on a written input a walk whose tree holds earlier positions only ends well. -/
theorem exists_walkRoot (hw : Written s) : ∃ r, walkRoot p s = .ok r s := by
  by_cases hla : s.mf.la rootIndex = nilLink
  · exact ⟨_, if_pos hla⟩
  · obtain ⟨path, e, hd, hsome⟩ := exists_descent htree (p := p) hw.2 (rootChild_inTree htree hla) (rootChild_depth htree hla)
    obtain ⟨stop, rfl⟩ := Option.ne_none_iff_exists'.1 (hsome fun i hi => slotDist_le_of_lt (hslots i hi))
    exact ⟨_, walkRoot_of_descent htree hla hd⟩

variable (hp : p < s.ctl.inLen.toNat)
include hp

/-- R172: the probe of R186 changes MF_BEST alone. -/
theorem probe_leads : (walk p false s).Leads (Written s) fun _ t => OnlyBest s t := by
  refine .of (fun _ t h => (probe_stays p s).ok h) fun hw => ?_
  obtain ⟨r, hr⟩ := exists_walkRoot htree hslots hw
  exact ⟨_, _, walk_ok (mutate := false) (of_decide_eq_true hw.1) hp nofun hr⟩

end

/-- What the search knows once position `p` has been inserted with candidate `b` (R186, R187): the tree holds no later
position, and the candidate is real and less than a whole window back. -/
structure Searched (s : State) (p : Nat) (b : Best) : Prop where
  tree : TreeInv s.mf
  slots : ∀ i, s.mf.inTree i = true → i ≤ p
  cand : Candidate s p b.len.toNat b.dist.toNat
  far : b.dist.toNat < windowSize

/-- A candidate speaks of the input alone. -/
theorem Candidate.of_search {s t : State} {p len dist : Nat} (h : Candidate s p len dist) (ho : OnlySearch s t) :
    Candidate t p len dist := by
  rw [ho]; exact { h with }

/-- A probe and a change of the hidden state leave what the search knows. -/
theorem Searched.of_search {s t : State} {p : Nat} {b : Best} (h : Searched s p b) (ho : OnlySearch s t)
    (hmf : t.mf = { s.mf with best := t.mf.best }) : Searched t p b where
  tree := by rw [hmf]; exact treeInv_best h.tree _
  slots := by rw [hmf]; exact h.slots
  cand := h.cand.of_search ho
  far := h.far

/-- R186, R187: the insert of a position whose slot is free. -/
theorem insert_leads {s : State} {p : Nat} (htree : TreeInv s.mf) (hslots : ∀ i, s.mf.inTree i = true → i < p)
    (hp : p < s.ctl.inLen.toNat) (hfree : s.mf.inTree (slotOf p) = false) :
    (walk p true s).Leads (Written s) fun _ t => OnlyFinder s t ∧ Searched t p t.mf.best := by
  refine .of (fun _ t h => ?_) fun hw => ?_
  · obtain ⟨hin, -, hof, hcand⟩ := walk_candidate h
    have hrun := walk_runs (mutate := true) (of_decide_eq_true hin) hp fun _ => slotFree_iff.1 hfree
    rw [h] at hrun
    obtain ⟨r, u, hr, ht⟩ := Res.bind_eq_ok.1 hrun.symm
    obtain rfl : s = u := (walkRoot_stays p s).ok hr
    have hmf : t.mf = { linkIn s.mf r.stop (slotOf p) with best := t.mf.best } := by cases ht; rfl
    have hdist : t.mf.best.dist = BitVec.ofNat 17 r.dist := by cases ht; rfl
    have hfits := walkRoot_fits htree hr
    refine ⟨hof, (walk_treeInv htree).2.ok h, fun i hi => ?_, hcand.of_search (onlySearch_of_finder hof), ?_⟩
    · rw [hmf] at hi
      rcases inTree_of_linkIn htree hfits (slotOf_lt p) hfree hi with rfl | hold
      · exact Nat.mod_le p _
      · exact Nat.le_of_lt (hslots i hold)
    · rw [hdist, (results_of_candidate (walkRoot_candidate (Nat.le_of_lt hp) hr)).2]
      exact walkRoot_dist_lt htree hfree hr
  · obtain ⟨r, hr⟩ := exists_walkRoot htree hslots hw
    exact ⟨_, _, walk_ok (of_decide_eq_true hw.1) hp (fun _ => slotFree_iff.1 hfree) hr⟩

/-! ## The slide (R186, R187) -/

/-- The position is past the input, or it has been searched. -/
def Ready (s : State) (p : Nat) : Prop := p < s.ctl.inLen.toNat → Searched s p s.prog.cand

/-- R186, R187: the position that leaves the window is taken out of the tree first. -/
theorem evict_leads {s : State} {p : Nat} (htree : TreeInv s.mf) (hslots : ∀ i, s.mf.inTree i = true → i < p) :
    (if windowSize ≤ p then deleteAt (slotOf (p - windowSize)) s else .ok () s).Leads (Written s) fun _ t =>
      OnlyFinder s t ∧ TreeInv t.mf ∧ (∀ i, t.mf.inTree i = true → i < p) ∧ t.mf.inTree (slotOf p) = false := by
  split
  · rename_i hle
    have hslot : slotOf (p - windowSize) = slotOf p := (Nat.mod_eq_sub_mod hle).symm
    obtain ⟨t, ht, hof, htree', -, hin⟩ := deleteAt_treeInv htree (slotOf_lt p)
    rw [hslot, ht]
    exact ⟨hof, htree', fun i hi => hslots i (by rw [hin] at hi; exact (Bool.and_eq_true_iff.1 hi).1), by simp [hin]⟩
  · rename_i hlt
    refine ⟨rfl, htree, hslots, ?_⟩
    have hslot : slotOf p = p := Nat.mod_eq_of_lt (by omega)
    rw [hslot, ← Bool.not_eq_true]
    exact fun h => Nat.lt_irrefl p (hslots p h)

/-- The slide leaves the queue, and the position slid to is ready. -/
abbrev SlidTo (p : Nat) (s t : State) : Prop := OnlySearch s t ∧ t.prog.evq = s.prog.evq ∧ Ready t p

theorem slideTo_leads {s : State} {p : Nat} (h : Ready s p) :
    (slideTo (p + 1) s).Leads (Written s) fun _ t => SlidTo (p + 1) s t := by
  unfold slideTo
  split
  · rename_i hp
    have hs := h (by omega)
    refine (evict_leads hs.tree fun i hi => Nat.lt_succ_of_le (hs.slots i hi)).bind fun _ t ⟨hof, htree, hslots, hfree⟩ => ?_
    have ht := onlySearch_of_finder hof
    have hlen : p + 1 < t.ctl.inLen.toNat := by rw [ht.inLen]; exact hp
    refine ((insert_leads htree hslots hlen hfree).mono ht.written fun _ _ hu => hu).bind fun _ u ⟨hu, hsearched⟩ => ?_
    refine ⟨searchFrame.trans ht (searchFrame.trans (onlySearch_of_finder hu) rfl), ?_, fun _ => ?_⟩
    · rw [takeCandidate_evq, hu, hof]
    · exact hsearched.of_search rfl rfl
  · rename_i hp
    exact ⟨rfl, rfl, fun h => absurd h hp⟩

theorem slide_leads {s : State} {p : Nat} (k : Nat) (h : Ready s p) :
    (slide k (p + 1) s).Leads (Written s) fun _ t => SlidTo (p + k) s t := by
  induction k generalizing p s with
  | zero => exact ⟨rfl, rfl, h⟩
  | succ k ih =>
    refine (slideTo_leads h).bind fun _ t ⟨ht, hevq, hready⟩ => (ih hready).mono ht.written fun _ u ⟨hu, hevq', hready'⟩ => ?_
    exact ⟨searchFrame.trans ht hu, hevq'.trans hevq, by rw [← Nat.add_assoc, Nat.add_right_comm]; exact hready'⟩

/-! ## The events so far (R185) -/

/-- Every match of the queue is in range (R164, R203). -/
def Event.InRange : Event → Prop
  | .lit _ => True
  | .copy l d => 3 ≤ l.toNat ∧ l.toNat ≤ 256 ∧ 1 ≤ d.toNat ∧ d.toNat ≤ 65535 ∧ (l.toNat = 3 → d.toNat ≤ 4096)

/-- The event stands for the `k` bytes of the input from `cur` on (R185, R188). -/
def Event.StandsFor (s : State) (cur k : Nat) : Event → Prop
  | .lit b => k = 1 ∧ Memory.read? s.ibuf cur = some b ∧ cur < s.ctl.inLen.toNat
  | .copy l d => k = l.toNat ∧ 3 ≤ l.toNat ∧ Candidate s cur l.toNat d.toNat ∧ d.toNat < windowSize

/-- The queue stands for the first `cur` bytes of the input (R185, R203). -/
structure Encoded (s : State) (cur : Nat) : Prop where
  replays : ∃ out, replayEvents s.prog.evq [] = some out ∧ out.length = cur ∧ Memory.Holds s.ibuf out
  count : s.prog.evq.length ≤ cur
  inRange : ∀ e ∈ s.prog.evq, e.InRange

theorem replayEvents_append (es fs : List Event) (out : List Byte) :
    replayEvents (es ++ fs) out = (replayEvents es out).bind (replayEvents fs) := by
  induction es generalizing out with
  | nil => rfl
  | cons e es ih =>
    cases e with
    | lit b => exact ih _
    | copy l d =>
      simp only [List.cons_append, replayEvents]
      cases replayCopy l.toNat d.toNat out with
      | none => rfl
      | some mid => exact ih mid

theorem Memory.Holds.snoc {m : Memory} {out : List Byte} {b : Byte} (h : Memory.Holds m out)
    (hb : Memory.read? m out.length = some b) : Memory.Holds m (out ++ [b]) := by
  intro i hi
  by_cases hlt : i < out.length
  · rw [h i hlt, List.getElem?_append_left hlt]
  · rw [List.length_append, List.length_singleton] at hi
    obtain rfl : i = out.length := by omega
    simp [hb]

/-- R194: a copy of bytes that are there makes the memory's own bytes. -/
theorem Memory.Holds.copyBack {m : Memory} {out : List Byte} {d n : Nat} (h : Memory.Holds m out) (h1 : 1 ≤ d)
    (hd : d ≤ out.length) (hsame : SameBytes m out.length (out.length - d) n) : Memory.Holds m (copyBack d n out) := by
  induction n generalizing out with
  | zero => exact h
  | succ n ih =>
    have hlen : (out ++ [out.getD (out.length - d) 0]).length = out.length + 1 := by simp
    refine ih (h.snoc ?_) (by omega) fun j hj => ?_
    · have hfirst := (hsame 0 (Nat.succ_pos n)).2
      rw [Nat.add_zero, Nat.add_zero, h _ (by omega), List.getElem?_eq_getElem (by omega)] at hfirst
      rw [← hfirst, List.getD_eq_getElem?_getD, List.getElem?_eq_getElem (by omega), Option.getD_some]
    · have hnext := hsame (j + 1) (by omega)
      rwa [← Nat.add_assoc, ← Nat.add_assoc, Nat.add_right_comm, Nat.add_right_comm _ j,
        show out.length - d + 1 = out.length + 1 - d by omega, ← hlen] at hnext

theorem Event.StandsFor.inRange {s : State} {cur k : Nat} {e : Event} (h : e.StandsFor s cur k) : e.InRange := by
  cases e with
  | lit b => trivial
  | copy l d =>
    obtain ⟨-, hthree, hcand, hfar⟩ := h
    exact ⟨hthree, hcand.len_le, hcand.dist_pos (by omega), Nat.le_of_lt_succ hfar, hcand.near⟩

/-- R188: an event moves on by at least one position and stays inside the input. -/
theorem Event.StandsFor.moves {s : State} {cur k : Nat} {e : Event} (h : e.StandsFor s cur k) :
    1 ≤ k ∧ cur + k ≤ s.ctl.inLen.toNat := by
  cases e with
  | lit b =>
    obtain ⟨rfl, -, hlt⟩ := h
    exact ⟨Nat.le_refl 1, hlt⟩
  | copy l d =>
    obtain ⟨rfl, hthree, hcand, -⟩ := h
    exact ⟨by omega, hcand.inside⟩

/-- R185, R203: the event replayed after the bytes before it. -/
theorem Event.StandsFor.replays {s : State} {k : Nat} {e : Event} {out : List Byte} (h : e.StandsFor s out.length k)
    (hout : Memory.Holds s.ibuf out) :
    ∃ out', replayEvents [e] out = some out' ∧ out'.length = out.length + k ∧ Memory.Holds s.ibuf out' := by
  cases e with
  | lit b =>
    obtain ⟨rfl, hread, -⟩ := h
    exact ⟨out ++ [b], rfl, by simp, hout.snoc hread⟩
  | copy l d =>
    obtain ⟨rfl, hthree, hcand, hfar⟩ := h
    have hd : d.toNat ≤ min out.length windowSize := Nat.le_min.2 hcand.dist_le
    refine ⟨Machine.copyBack d.toNat l.toNat out, ?_, length_copyBack _ _ _,
      hout.copyBack (hcand.dist_pos (by omega)) hcand.dist_le.1 hcand.same⟩
    simp [replayEvents, replayCopy, hd]

/-- An event pushed takes the queue on by what it stands for. -/
theorem Encoded.push {s : State} {cur k : Nat} {e : Event} (h : Encoded s cur) (he : e.StandsFor s cur k) :
    Encoded (pushEvent e s) (cur + k) := by
  obtain ⟨⟨out, hrep, rfl, hholds⟩, hcount, hrange⟩ := h
  obtain ⟨out', hrep', hlen, hholds'⟩ := he.replays hholds
  have hk := he.moves.1
  refine ⟨⟨out', ?_, hlen, hholds'⟩, ?_, fun f hf => ?_⟩
  · rw [pushEvent_evq, replayEvents_append, hrep]; exact hrep'
  · rw [pushEvent_evq, List.length_append, List.length_singleton]; omega
  · rcases List.mem_append.1 hf with hf | hf
    · exact hrange f hf
    · rw [List.mem_singleton.1 hf]; exact he.inRange

theorem Encoded.of_search {s t : State} {cur : Nat} (h : Encoded s cur) (ho : OnlySearch s t)
    (hevq : t.prog.evq = s.prog.evq) : Encoded t cur where
  replays := by rw [hevq, ho.ibuf]; exact h.replays
  count := by rw [hevq]; exact h.count
  inRange := by rw [hevq]; exact h.inRange

/-! ## The loop (R186) -/

theorem lookAhead_leads {s : State} {cur : Nat} (hs : Searched s cur s.prog.cand) :
    (lookAhead cur s).Leads (Written s) fun _ t => OnlyBest s t := by
  unfold lookAhead
  split
  · rename_i hlt
    exact (probe_leads hs.tree (fun i hi => Nat.lt_succ_of_le (hs.slots i hi)) hlt).bind fun _ t ht => ht
  · exact bestFrame.refl s

theorem chooseEvent_leads {s : State} {cur look : Nat} (hs : Searched s cur s.prog.cand) (hcur : cur < s.ctl.inLen.toNat) :
    (chooseEvent cur look s).Leads (Written s) fun k t => ∃ e, t = pushEvent e s ∧ e.StandsFor s cur k := by
  unfold chooseEvent
  split
  · rename_i hcommit
    exact ⟨_, rfl, rfl, hcommit.2, hs.cand, hs.far⟩
  · cases hb : Memory.read? s.ibuf cur with
    | none => rw [inByte_unwritten hb]; exact fun hw => by simpa [hb] using hw.2 cur hcur
    | some b => rw [inByte_eq_ok.2 ⟨hb, rfl⟩]; exact ⟨_, rfl, rfl, hb, hcur⟩

theorem eventLoop_leads {n cur : Nat} {s : State} (hn : s.ctl.inLen.toNat ≤ cur + n) (hcur : cur ≤ s.ctl.inLen.toNat)
    (henc : Encoded s cur) (hready : Ready s cur) :
    (eventLoop n cur s).Leads (Written s) fun _ t => OnlySearch s t ∧ Encoded t s.ctl.inLen.toNat := by
  induction n generalizing cur s with
  | zero =>
    obtain rfl : cur = s.ctl.inLen.toNat := by omega
    exact ⟨rfl, henc⟩
  | succ n ih =>
    unfold eventLoop
    split
    · obtain rfl : cur = s.ctl.inLen.toNat := by omega
      exact ⟨rfl, henc⟩
    · rename_i hlt
      have hs := hready (by omega)
      refine (lookAhead_leads hs).bind fun look t ht => ?_
      have hst : OnlySearch s t := by rw [ht]
      have hprog : t.prog = s.prog := by rw [ht]
      have hsearched : Searched t cur t.prog.cand := by
        rw [hprog]; exact hs.of_search hst (by rw [ht])
      refine ((chooseEvent_leads hsearched (by rw [hst.inLen]; omega)).mono hst.written fun _ _ hu => hu).bind
        fun k u ⟨e, hu, he⟩ => ?_
      subst hu
      have hsu : OnlySearch s (pushEvent e t) := searchFrame.trans hst rfl
      have hmoves := he.moves
      rw [hst.inLen] at hmoves
      refine ((slide_leads k fun _ => hsearched.of_search (t := pushEvent e t) rfl rfl).mono hsu.written
        fun _ _ hv => hv).bind fun _ v ⟨hv, hevq, hvready⟩ => ?_
      have hsv : OnlySearch s v := searchFrame.trans hsu hv
      have hencv : Encoded v (cur + k) := ((henc.of_search hst (by rw [hprog])).push he).of_search hv hevq
      have hlen := hsv.inLen
      refine (ih (by rw [hlen]; omega) (by rw [hlen]; exact hmoves.2) hencv hvready).mono hsv.written
        fun _ w ⟨hw, hencw⟩ => ⟨searchFrame.trans hsv hw, hlen ▸ hencw⟩

/-- The search begins at an empty tree (R186). -/
theorem generateEvents_leads (s : State) :
    (generateEvents s).Leads (Written s) fun _ t => OnlySearch s t ∧ Encoded t s.ctl.inLen.toNat := by
  have hnil : ∀ u : State, u.prog.evq = [] → Encoded u 0 := fun u hu =>
    ⟨⟨[], by rw [hu]; rfl, rfl, fun i hi => absurd hi (Nat.not_lt_zero i)⟩, by rw [hu]; exact Nat.le_refl 0,
      fun e he => by rw [hu] at he; cases he⟩
  have hempty : ∀ i, Finder.reset.inTree i = false := fun i => rfl
  unfold generateEvents
  dsimp only
  split
  · rename_i h0
    exact ⟨rfl, (show s.ctl.inLen.toNat = 0 from h0) ▸ hnil _ rfl⟩
  · rename_i h0
    refine ((insert_leads treeInv_finderReset (fun i hi => by cases (hempty i).symm.trans hi) (Nat.pos_of_ne_zero h0)
      (hempty _)).mono (W' := Written s) (fun hw => hw) fun _ _ ht => ht).bind fun _ t ⟨hof, hsearched⟩ => ?_
    have hst : OnlySearch s (takeCandidate t) := by rw [hof]; rfl
    have hevq : (takeCandidate t).prog.evq = [] := by rw [takeCandidate_evq, hof]; rfl
    have hlen := hst.inLen
    refine (eventLoop_leads (by rw [Nat.zero_add]; exact Nat.le_refl _) (Nat.zero_le _) (hnil _ hevq) fun _ =>
      hsearched.of_search (t := takeCandidate t) rfl rfl).mono hst.written
      fun _ u ⟨hu, henc⟩ => ⟨searchFrame.trans hst hu, hlen ▸ henc⟩

/-- Settles O53: the events stand for the input by `generateEvents_leads`. -/
theorem eventsReplayInput : Obligations.EventsReplayInput := by
  intro s t h
  obtain ⟨ho, ⟨out, hrep, hlen, hholds⟩, hcount, hrange⟩ := (generateEvents_leads s).ok h
  exact ⟨out, hrep, hlen, ho.ibuf ▸ hholds, hcount, fun l d hmem => hrange _ hmem⟩

end Sys2Proof.Machine
end

section
/-! # Frame of the two pipelines (44_pipelines.md R190, R199, 20_memory.md R42)

The search touches neither the writer nor OBUF; every other part of a pipeline leaves the bytes of OBUF outside those it
appends. So what stands at or above the last OUT_LEN is what stood there before. -/

namespace Sys2Proof.Machine

variable {α : Type}

/-! ## The search touches the finder and the hidden state alone -/

theorem walk_onlySearch (p : Nat) (mutate : Bool) (s : State) : (walk p mutate s).Stays OnlySearch s :=
  (walk_stays p mutate s).mono fun _ => onlySearch_of_finder

theorem slideTo_onlySearch (p : Nat) (s : State) : (slideTo p s).Stays OnlySearch s := by
  have hevict : (if windowSize ≤ p then deleteAt (slotOf (p - windowSize)) s else .ok () s).Stays OnlySearch s := by
    split
    · exact (deleteAt_stays _ s).mono fun _ => onlySearch_of_finder
    · exact searchFrame.refl s
  unfold slideTo
  split
  · exact hevict.bind searchFrame fun _ t _ => (walk_onlySearch p true t).bind searchFrame fun _ _ _ => rfl
  · exact searchFrame.refl s

theorem slide_onlySearch (k p : Nat) (s : State) : (slide k p s).Stays OnlySearch s := by
  induction k generalizing p s with
  | zero => exact searchFrame.refl s
  | succ k ih => exact (slideTo_onlySearch p s).bind searchFrame fun _ t _ => ih (p + 1) t

theorem lookAhead_onlySearch (cur : Nat) (s : State) : (lookAhead cur s).Stays OnlySearch s := by
  unfold lookAhead
  split
  · exact (walk_onlySearch _ false s).bind searchFrame fun _ _ _ => rfl
  · exact searchFrame.refl s

theorem chooseEvent_onlySearch (cur look : Nat) (s : State) : (chooseEvent cur look s).Stays OnlySearch s := by
  unfold chooseEvent
  split
  · exact rfl
  · exact ((inByte_stays cur s).of_eq searchFrame).bind searchFrame fun _ _ _ => rfl

theorem eventLoop_onlySearch (n cur : Nat) (s : State) : (eventLoop n cur s).Stays OnlySearch s := by
  induction n generalizing cur s with
  | zero => exact searchFrame.refl s
  | succ n ih =>
    unfold eventLoop
    split
    · exact searchFrame.refl s
    · exact (lookAhead_onlySearch cur s).bind searchFrame fun look t _ =>
        (chooseEvent_onlySearch cur look t).bind searchFrame fun k u _ =>
          (slide_onlySearch k (cur + 1) u).bind searchFrame fun _ v _ => ih (cur + k) v

theorem generateEvents_onlySearch (s : State) : (generateEvents s).Stays OnlySearch s := by
  unfold generateEvents
  dsimp only
  split
  · exact rfl
  · exact ((walk_onlySearch 0 true _).bind searchFrame fun _ t _ => (eventLoop_onlySearch _ 0 _).after searchFrame rfl).after
      searchFrame rfl

/-! ## Parts that append -/

/-- The parameters stay, and so does every byte of OBUF outside the ones appended. -/
structure GrowsOutput (s t : State) : Prop where
  params : t.params = s.params
  keeps : s.params.ok → KeepsOutside s t

namespace GrowsOutput

variable {s t : State} {a : Alphabet}

theorem frame : IsFrame GrowsOutput where
  refl _ := ⟨rfl, fun _ => ⟨Nat.le_refl _, fun _ _ => rfl⟩⟩
  trans {s t u} h1 h2 := by
    refine ⟨h2.params.trans h1.params, fun hp => ?_⟩
    obtain ⟨hst, hs⟩ := h1.keeps hp
    obtain ⟨htu, ht⟩ := h2.keeps (by rw [h1.params]; exact hp)
    exact ⟨Nat.le_trans hst htu, fun k hk => by rw [ht k (by omega), hs k (by omega)]⟩

theorem of_same (hparams : t.params = s.params) (hwr : t.wr = s.wr) (hobuf : t.obuf = s.obuf) : GrowsOutput s t :=
  ⟨hparams, fun _ => ⟨by rw [hwr], fun _ _ => by rw [hobuf]⟩⟩

theorem of_search (h : OnlySearch s t) : GrowsOutput s t := by rw [h]; exact of_same rfl rfl rfl

theorem of_reader (h : OnlyReader s t) : GrowsOutput s t := by rw [h]; exact of_same rfl rfl rfl

theorem of_setTab (T : Tables a.size) (s : State) : GrowsOutput s (s.setTab a T) := by
  cases a <;> exact of_same rfl rfl rfl

theorem of_freq (h : OnlyFreq a s t) : GrowsOutput s t := by rw [h]; exact of_setTab _ s

theorem of_cl (h : OnlyCl a s t) : GrowsOutput s t := by rw [h]; exact of_setTab _ s

theorem of_code (h : OnlyCode a s t) : GrowsOutput s t := by rw [h]; exact of_setTab _ s

theorem of_codeTrie (h : OnlyCodeTrie a s t) : GrowsOutput s t := by rw [h]; exact of_setTab _ s

theorem of_readerCl (h : OnlyReaderCl a s t) : GrowsOutput s t := by
  rw [h]; exact frame.trans (of_setTab _ s) (of_reader rfl)

theorem of_appends (h : AppendsOnly s t) : GrowsOutput s t := ⟨by rw [h.only], h.keeps⟩

theorem of_pushes (h : PushesOnly s t) : GrowsOutput s t := ⟨by rw [h.only], fun hp => (h.pushes hp).keeps⟩

end GrowsOutput

/-! ## COMPRESS (R190) -/

theorem tally_grows (e : Event) (s : State) : (tally e s).Stays GrowsOutput s := by
  cases e with
  | lit b => exact .of_freq (bumpFreq_only .ll _ s)
  | copy l d =>
    simp only [tally]
    split
    · exact GrowsOutput.frame.refl s
    · rename_i k _
      refine Res.Stays.after GrowsOutput.frame (.of_freq (bumpFreq_only .ll (lenSymbol0 + k) s)) ?_
      split
      · exact GrowsOutput.frame.refl _
      · split
        · exact GrowsOutput.frame.refl _
        · exact .of_freq (bumpFreq_only .ds _ _)

theorem emit_appendsOnly (e : Event) (s : State) : (emit e s).Stays AppendsOnly s := by
  cases e with
  | lit b => exact writeFields_appendsOnly _ s
  | copy l d =>
    simp only [emit]
    split
    · exact appendsFrame.refl s
    · refine (writeFields_appendsOnly _ s).bind appendsFrame fun _ t _ => ?_
      split
      · exact writeBits_appendsOnly _ _ t
      · split
        · exact appendsFrame.refl t
        · exact writeFields_appendsOnly _ t

/-- R190: the first pass grows the output from a fresh writer. -/
theorem compressPass1_grows (s : State) : (compressPass1 s).Stays GrowsOutput (resetWriter s) := by
  have hclear : GrowsOutput (resetWriter s) (clearFreq .ds (clearFreq .ll (resetWriter s))) :=
    GrowsOutput.frame.trans (.of_freq (clearFreq_only .ll _)) (.of_freq (clearFreq_only .ds _))
  exact (((generateEvents_onlySearch _).mono fun _ => .of_search).after GrowsOutput.frame hclear).bind GrowsOutput.frame
    fun _ t _ => (forEvents_stays GrowsOutput.frame tally_grows _ t).bind GrowsOutput.frame
      fun _ u _ => .of_freq (bumpFreq_only .ll _ u)

theorem compressTables_grows (s : State) : (compressTables s).Stays GrowsOutput s := by
  have hbuild : ∀ a s, (hufBuild a s).Stays GrowsOutput s := fun a s => (hufBuild_stays a s).mono fun _ => .of_cl
  have hcanon : ∀ a s, (hufCanon a s).Stays GrowsOutput s := fun a s => (hufCanon_stays a s).mono fun _ => .of_code
  have hwrite : ∀ a s, (serialize a s).Stays GrowsOutput s := fun a s => (serialize_appendsOnly a s).mono fun _ => .of_appends
  exact (hbuild .ll s).bind GrowsOutput.frame fun _ t _ => (hbuild .ds t).bind GrowsOutput.frame fun _ u _ =>
    (hcanon .ll u).bind GrowsOutput.frame fun _ v _ => (hcanon .ds v).bind GrowsOutput.frame fun _ w _ =>
      (hwrite .ll w).bind GrowsOutput.frame fun _ x _ => hwrite .ds x

theorem compressPass2_grows (s : State) : (compressPass2 s).Stays GrowsOutput s := by
  refine Res.Stays.mono ?_ fun _ => .of_appends
  exact (forEvents_stays appendsFrame emit_appendsOnly _ s).bind appendsFrame fun _ t _ =>
    (encodeSymbol_appendsOnly .ll _ t).bind appendsFrame fun _ u _ =>
      (writeEof_appendsOnly u).bind appendsFrame fun _ v _ => appendsFrame.refl v

/-- No byte of OBUF at or above the OUT_LEN left has changed (R42). -/
abbrev KeepsAbove (s t : State) : Prop := ∀ k, t.wr.outLen.toNat ≤ k → Memory.read? t.obuf k = Memory.read? s.obuf k

theorem GrowsOutput.keepsAbove {s t u : State} (h : GrowsOutput u t) (hp : s.params.ok) (hparams : u.params = s.params)
    (hobuf : u.obuf = s.obuf) : KeepsAbove s t := fun k hk => by
  rw [(h.keeps (hparams ▸ hp)).outside k fun hin => Nat.not_lt.2 hk hin.2, hobuf]

/-- A relation to a state that the primitive's own first change has made. -/
theorem Res.Stays.startingAt {R S : State → State → Prop} {s u : State} {r : Res α} (h : r.Stays R u)
    (hrs : ∀ t, R u t → S s t) : r.Stays S s := by
  cases r with
  | fault f => exact trivial
  | ok a t => exact hrs t h
  | err e t => exact hrs t h

theorem compress_keepsAbove {s : State} (hp : s.params.ok) : (compress s).Stays KeepsAbove s := by
  unfold compress
  by_cases hin : s.inputOk = true
  · rw [require_of hin]
    refine Res.Stays.startingAt (R := GrowsOutput) (u := resetWriter s) ?_ fun _ h => h.keepsAbove hp rfl rfl
    exact (compressPass1_grows s).bind GrowsOutput.frame fun _ t _ =>
      (compressTables_grows t).bind GrowsOutput.frame fun _ u _ => compressPass2_grows u
  · rw [require_of_not hin]
    exact fun _ _ => rfl

/-- R190: what COMPRESS leaves besides: the reader, the window and the tries. -/
structure KeepsDecoder (s t : State) : Prop where
  rd : t.rd = s.rd
  win : t.win = s.win
  tries : KeepsTries s t

theorem compressFrame_keepsDecoder : CompressFrame KeepsDecoder where
  refl _ := ⟨rfl, rfl, rfl, rfl⟩
  trans h1 h2 := ⟨h2.rd.trans h1.rd, h2.win.trans h1.win, h2.tries.1.trans h1.tries.1, h2.tries.2.trans h1.tries.2⟩
  finder h := by rw [h]; exact ⟨rfl, rfl, rfl, rfl⟩
  prog _ _ := ⟨rfl, rfl, rfl, rfl⟩
  writer h := by rw [h]; exact ⟨rfl, rfl, rfl, rfl⟩
  freq {a} _ _ h := by rw [h]; cases a <;> exact ⟨rfl, rfl, rfl, rfl⟩
  cl {a} _ _ h := by rw [h]; cases a <;> exact ⟨rfl, rfl, rfl, rfl⟩
  code {a} _ _ h := by rw [h]; cases a <;> exact ⟨rfl, rfl, rfl, rfl⟩

/-! ## EXPAND (R199) -/

theorem applyEvent_grows (e : StreamEvent) (nl nm : Nat) (s : State) : (applyEvent e nl nm s).Stays GrowsOutput s := by
  have hput : ∀ b, (winPut b s).Stays GrowsOutput s := fun b => (winPut_pushesOnly b s).mono fun _ => .of_pushes
  have hcopy : ∀ l d, (winCopy l d s).Stays GrowsOutput s := fun l d => (winCopy_pushesOnly l d s).mono fun _ => .of_pushes
  cases e with
  | lit b => exact (hput b).bind GrowsOutput.frame fun _ t _ => GrowsOutput.frame.refl t
  | eos => exact GrowsOutput.frame.refl s
  | match3 d => exact (hcopy _ _).bind GrowsOutput.frame fun _ t _ => GrowsOutput.frame.refl t
  | matchSlot k e j x => exact (hcopy _ _).bind GrowsOutput.frame fun _ t _ => GrowsOutput.frame.refl t

theorem expandLoop_grows (n nl nm : Nat) (s : State) : (expandLoop n nl nm s).Stays GrowsOutput s := by
  induction n generalizing nl nm s with
  | zero => exact GrowsOutput.frame.refl s
  | succ n ih =>
    refine ((runParse_stays _ s).mono fun _ => .of_reader).bind GrowsOutput.frame fun e t _ =>
      (applyEvent_grows e nl nm t).bind GrowsOutput.frame fun r u _ => ?_
    cases r with
    | none => exact GrowsOutput.frame.refl u
    | some c => exact ih c.1 c.2 u

theorem expand_keepsAbove {s : State} (hp : s.params.ok) : (expand s).Stays KeepsAbove s := by
  have htable : ∀ a s, (deserialize a s).Stays GrowsOutput s := fun a s => (deserialize_stays a s).mono fun _ => .of_readerCl
  have htrie : ∀ a s, (hufTrie a s).Stays GrowsOutput s := fun a s => (hufTrie_stays a s).mono fun _ => .of_codeTrie
  by_cases hin : s.inputOk = true
  · rw [expand_eq hin]
    refine Res.Stays.startingAt (R := GrowsOutput) (u := expandReset s) ?_ fun _ h => h.keepsAbove hp rfl rfl
    exact (htable .ll _).bind GrowsOutput.frame fun _ t _ => (htable .ds t).bind GrowsOutput.frame fun _ u _ =>
      ((htrie .ll u).bind GrowsOutput.frame fun _ v _ => htrie .ds v).bind GrowsOutput.frame fun _ w _ =>
        expandLoop_grows _ 0 0 w
  · rw [expand, require_of_not hin]
    exact fun _ _ => rfl

/-- Settles O28: what a pipeline leaves by its frame, and OBUF by the bytes its parts append. -/
theorem pipelinesFrame : Obligations.PipelinesFrame := by
  intro s t hp
  have hcompress : exec .compress s = finish (compress s) := rfl
  have hexpand : exec .expand s = finish (expand s) := rfl
  rw [hcompress, hexpand]
  refine ⟨fun h => ?_, fun h => ?_⟩
  · obtain ⟨hrd, hwin, htries⟩ :=
      (compressFrame_keepsDecoder.compress s).finish (fun _ _ _ _ h => ⟨h.rd, h.win, h.tries⟩)
        (fun _ _ h => ⟨h.rd, h.win, h.tries⟩) h
    exact ⟨hrd, hwin, htries, (compress_keepsAbove hp).finish (fun _ _ _ _ h => h) (fun _ _ h => h) h⟩
  · obtain ⟨hmf, hfreqs⟩ := (expandFrame_keepsFinderAndFreqs.expand s).finish (fun _ _ _ _ h => h) (fun _ _ h => h) h
    exact ⟨hmf, hfreqs, (expand_keepsAbove hp).finish (fun _ _ _ _ h => h) (fun _ _ h => h) h⟩

end Sys2Proof.Machine
end

section
/-! # The stream event of an encoder event (44_pipelines.md R189, R191, 40_bitstream.md R73)

COMPRESS tallies and emits an event as the stream event it is read back as: the tally counts the symbols of the stream
event's fields, and the emission writes these fields. -/

namespace Sys2Proof.Machine

/-! ## Slots (R110 to R113) -/

theorem lenRows_width : ∀ r ∈ lenRows, r.hi < r.lo + 2 ^ r.nb := by decide

theorem distRows_width : ∀ r ∈ distRows, r.hi < r.lo + 2 ^ r.nb := by decide +kernel

/-- A value inside a table's rows has a slot, and its offset in the slot's row fits the row's extra bits. -/
theorem exists_slot {rows : List SlotRow} {lo hi v : Nat} (ht : tiles rows lo hi = true)
    (hwidth : ∀ r ∈ rows, r.hi < r.lo + 2 ^ r.nb) (hlo : lo ≤ v) (hhi : v ≤ hi) :
    ∃ k r, slotIn rows v = some k ∧ rows[k]? = some r ∧ r.lo ≤ v ∧ v - r.lo < 2 ^ r.nb := by
  obtain ⟨r, hr, h1, h2⟩ := exists_row ht hlo hhi
  obtain ⟨k, hk⟩ := List.mem_iff_getElem?.1 hr
  have hw := hwidth r hr
  exact ⟨k, r, slotIn_eq_of_row ht hk h1 h2, hk, h1, by omega⟩

/-- R112: the slot of a match length; slot 0 is length 3 alone (R110). -/
theorem exists_lenSlot {l : Nat} (h3 : 3 ≤ l) (h258 : l ≤ 258) :
    ∃ k, lenSlot l = some k ∧ k ≤ 23 ∧ loLen k ≤ l ∧ l - loLen k < 2 ^ nbLen k ∧ (k = 0 ↔ l = 3) := by
  obtain ⟨k, r, hslot, hk, hlo, hoff⟩ := exists_slot tiles_lenRows lenRows_width h3 h258
  have hrow : loLen k = r.lo ∧ nbLen k = r.nb := by simp [loLen, nbLen, rangeLen, hk]
  have hlt : k < 24 := (List.getElem?_eq_some_iff.1 hk).1
  refine ⟨k, hslot, by omega, by rw [hrow.1]; exact hlo, by rw [hrow.1, hrow.2]; exact hoff, fun h => ?_, fun h => ?_⟩
  · subst h
    obtain rfl : (⟨3, 3, 0⟩ : SlotRow) = r := Option.some.inj hk
    have hone : l - 3 < 1 := hoff
    omega
  · subst h
    exact Option.some.inj (hslot.symm.trans rfl)

/-- R113: the slot of a match distance. -/
theorem exists_distSlot {d : Nat} (h1 : 1 ≤ d) (hd : d ≤ 65536) :
    ∃ j, distSlot d = some j ∧ j < 32 ∧ loDist j ≤ d ∧ d - loDist j < 2 ^ nbDist j := by
  obtain ⟨j, r, hslot, hj, hlo, hoff⟩ := exists_slot tiles_distRows distRows_width h1 hd
  have hrow : loDist j = r.lo ∧ nbDist j = r.nb := by simp [loDist, nbDist, rangeDist, hj]
  have hlt : j < distRows.length := (List.getElem?_eq_some_iff.1 hj).1
  refine ⟨j, hslot, ?_, by rw [hrow.1]; exact hlo, by rw [hrow.1, hrow.2]; exact hoff⟩
  simpa [distRows] using hlt

/-! ## The symbols of fields (R73, R189) -/

/-- The symbol a field is the code of. -/
def Field.symbol? : Field → Option (Alphabet × Nat)
  | .bits _ _ => none
  | .code a sym => some (a, sym)

/-- The symbols a list of fields is coded with, in order. -/
def symbolsOf (fs : List Field) : List (Alphabet × Nat) := fs.filterMap Field.symbol?

theorem symbolsOf_append (fs gs : List Field) : symbolsOf (fs ++ gs) = symbolsOf fs ++ symbolsOf gs :=
  List.filterMap_append ..

theorem mem_symbolsOf {fs : List Field} {a : Alphabet} {sym : Nat} :
    (a, sym) ∈ symbolsOf fs ↔ Field.code a sym ∈ fs := by
  rw [symbolsOf, List.mem_filterMap]
  constructor
  · rintro ⟨f, hf, h⟩
    cases f <;> cases h
    exact hf
  · exact fun h => ⟨_, h, rfl⟩

theorem symbolsOf_optField (v n : Nat) : symbolsOf (optField v n) = [] := by
  unfold optField
  split <;> rfl

/-- A counter raised for each symbol of a list (R189). -/
def bumpAll (syms : List (Alphabet × Nat)) (s : State) : State := syms.foldl (fun s x => bumpFreq x.1 x.2 s) s

theorem bumpAll_append (xs ys : List (Alphabet × Nat)) (s : State) : bumpAll (xs ++ ys) s = bumpAll ys (bumpAll xs s) :=
  List.foldl_append ..

/-! ## The stream event -/

/-- R73, R191: the event of the stream an event of the encoder is written as. -/
def Event.toStream : Event → StreamEvent
  | .lit b => .lit b
  | .copy l d =>
    if l.toNat = thresh then .match3 (BitVec.ofNat 12 (d.toNat - 1))
    else
      let k := (lenSlot l.toNat).getD 0
      let j := (distSlot d.toNat).getD 0
      .matchSlot (BitVec.ofNat 5 k) (BitVec.ofNat 7 (l.toNat - loLen k)) (BitVec.ofNat 5 j)
        (BitVec.ofNat 14 (d.toNat - loDist j))

/-- The encoder's event and the event of the stream agree in all that COMPRESS and EXPAND make of them. -/
structure Event.WrittenAs (e : Event) (f : StreamEvent) : Prop where
  wellFormed : Sys2Proof.wellFormed f.toInstr = true
  emits : ∀ s, emit e s = writeFields f.fields s
  tallies : ∀ s, tally e s = .ok () (bumpAll (symbolsOf f.fields) s)
  replays : ∀ out, replay [f] out = replayEvents [e] out

theorem Res.bind_ok_unit (r : Res Unit) : (r.bind fun _ t => .ok () t) = r := by cases r <;> rfl

theorem writeFields_bits (v n : Nat) (s : State) : writeFields [.bits v n] s = writeBits v n s := Res.bind_ok_unit _

theorem writtenAs_lit (b : Byte) : Event.WrittenAs (.lit b) (.lit b) where
  wellFormed := rfl
  emits _ := rfl
  tallies _ := rfl
  replays _ := rfl

section
variable {l : BitVec 9} {d : BitVec 17}

/-- R75: a match of length 3 has its raw distance in 12 bits. -/
theorem writtenAs_match3 (hl : l.toNat = thresh) (h1 : 1 ≤ d.toNat) (hd : d.toNat ≤ 4096) :
    Event.WrittenAs (.copy l d) (.match3 (BitVec.ofNat 12 (d.toNat - 1))) := by
  have hslot : lenSlot l.toNat = some 0 := by rw [hl]; rfl
  have hraw : (BitVec.ofNat 12 (d.toNat - 1)).toNat = d.toNat - 1 := by rw [BitVec.toNat_ofNat]; omega
  have hwidth : optField (l.toNat - loLen 0) (nbLen 0) = [] := rfl
  refine ⟨rfl, fun s => ?_, fun s => ?_, fun out => ?_⟩
  · simp only [emit, hslot, hwidth, if_pos hl, StreamEvent.fields, hraw, ← writeFields_bits]
    exact (writeFields_append [.code .ll lenSymbol0] [.bits (d.toNat - 1) rawDistBits] s).symm
  · simp only [tally, hslot, if_pos hl]
    rfl
  · simp only [replay, replayEvents, hraw, hl, Nat.sub_add_cancel h1]

/-- R73: a longer match has its length's slot and its distance's slot, each with an extra value. -/
theorem writtenAs_matchSlot {k j : Nat} (hl : l.toNat ≠ thresh) (hk : lenSlot l.toNat = some k) (hk1 : 1 ≤ k) (hk2 : k ≤ 23)
    (hlo : loLen k ≤ l.toNat) (he : l.toNat - loLen k < 2 ^ nbLen k) (hj : distSlot d.toNat = some j) (hj2 : j < 32)
    (hdlo : loDist j ≤ d.toNat) (hx : d.toNat - loDist j < 2 ^ nbDist j) :
    Event.WrittenAs (.copy l d) (.matchSlot (BitVec.ofNat 5 k) (BitVec.ofNat 7 (l.toNat - loLen k)) (BitVec.ofNat 5 j)
      (BitVec.ofNat 14 (d.toNat - loDist j))) := by
  have hk' : (BitVec.ofNat 5 k).toNat = k := by rw [BitVec.toNat_ofNat]; omega
  have hj' : (BitVec.ofNat 5 j).toNat = j := by rw [BitVec.toNat_ofNat]; omega
  have he' : (BitVec.ofNat 7 (l.toNat - loLen k)).toNat = l.toNat - loLen k := by
    rw [BitVec.toNat_ofNat, Nat.mod_eq_of_lt (he.trans_le (Nat.pow_le_pow_right Nat.two_pos (nbLen_le k)))]
  have hx' : (BitVec.ofNat 14 (d.toNat - loDist j)).toNat = d.toNat - loDist j := by
    rw [BitVec.toNat_ofNat, Nat.mod_eq_of_lt (hx.trans_le (Nat.pow_le_pow_right Nat.two_pos (nbDist_le j)))]
  refine ⟨?_, fun s => ?_, fun s => ?_, fun out => ?_⟩
  · simp [StreamEvent.toInstr, wellFormed, hk', hj', he', hx', hk1, hk2, he, hx]
  · simp only [emit, hk, hj, if_neg hl, StreamEvent.fields, hk', hj', he', hx']
    exact (writeFields_append _ _ s).symm
  · simp only [tally, hk, hj, if_neg hl, StreamEvent.fields, hk', hj', he', hx']
    rw [← List.singleton_append, symbolsOf_append, symbolsOf_append, symbolsOf_optField,
      ← List.singleton_append (l := optField (d.toNat - loDist j) (nbDist j)), symbolsOf_append, symbolsOf_optField]
    rfl
  · simp only [replay, replayEvents, eventLen, eventDist, hk', hj', he', hx', Nat.add_sub_cancel' hlo,
      Nat.add_sub_cancel' hdlo]

end

/-- R185, R191: every event in range is written as its event of the stream. -/
theorem writtenAs_toStream {e : Event} (h : e.InRange) : e.WrittenAs e.toStream := by
  cases e with
  | lit b => exact writtenAs_lit b
  | copy l d =>
    obtain ⟨h3, h256, h1, hd, hnear⟩ := h
    by_cases hl : l.toNat = thresh
    · rw [Event.toStream, if_pos hl]
      exact writtenAs_match3 hl h1 (hnear hl)
    · obtain ⟨k, hk, hk2, hlo, he, hzero⟩ := exists_lenSlot h3 (by omega)
      obtain ⟨j, hj, hj2, hdlo, hx⟩ := exists_distSlot h1 (by omega)
      have hk1 : 1 ≤ k := Nat.pos_of_ne_zero (mt hzero.1 hl)
      simp only [Event.toStream, if_neg hl, hk, hj, Option.getD_some]
      exact writtenAs_matchSlot hl hk hk1 hk2 hlo he hj hj2 hdlo hx

/-! ## Lists of events -/

/-- The fields of the symbol stream of a list of events (R69, R190): the events' and the end of stream's. -/
def streamFields (evs : List Event) : List Field :=
  (evs.map Event.toStream).flatMap StreamEvent.fields ++ StreamEvent.eos.fields

section
variable {evs : List Event} (h : ∀ e ∈ evs, e.InRange)
include h

theorem forEvents_emit (s : State) :
    forEvents emit evs s = writeFields ((evs.map Event.toStream).flatMap StreamEvent.fields) s := by
  induction evs generalizing s with
  | nil => rfl
  | cons e es ih =>
    obtain ⟨he, hes⟩ := List.forall_mem_cons.1 h
    rw [List.map_cons, List.flatMap_cons, writeFields_append, ← (writtenAs_toStream he).emits]
    exact congrArg _ (funext fun _ => funext fun t => ih hes t)

theorem forEvents_tally (s : State) : forEvents tally evs s =
    .ok () (bumpAll (symbolsOf ((evs.map Event.toStream).flatMap StreamEvent.fields)) s) := by
  induction evs generalizing s with
  | nil => rfl
  | cons e es ih =>
    obtain ⟨he, hes⟩ := List.forall_mem_cons.1 h
    rw [List.map_cons, List.flatMap_cons, symbolsOf_append, bumpAll_append, ← ih hes]
    rw [forEvents, (writtenAs_toStream he).tallies, Res.bind_ok]

/-- R203: EXPAND makes of the stream's events what the encoder's stand for. -/
theorem replay_toStream (out : List Byte) : replay (evs.map Event.toStream) out = replayEvents evs out := by
  induction evs generalizing out with
  | nil => rfl
  | cons e es ih =>
    obtain ⟨he, hes⟩ := List.forall_mem_cons.1 h
    rw [List.map_cons, replay_cons, (writtenAs_toStream he).replays, show e :: es = [e] ++ es from rfl, replayEvents_append]
    exact congrArg _ (funext fun mid => ih hes mid)

theorem wellFormed_of_mem_toStream {f : StreamEvent} (hf : f ∈ evs.map Event.toStream) : wellFormed f.toInstr = true := by
  obtain ⟨e, he, rfl⟩ := List.mem_map.1 hf
  exact (writtenAs_toStream (h e he)).wellFormed

end

/-- R61, R73: the symbols a well-formed event is coded with are symbols of their alphabets, and there are at most two. -/
theorem symbols_of_wellFormed {e : StreamEvent} (h : wellFormed e.toInstr = true) :
    (∀ x ∈ symbolsOf e.fields, x.2 < x.1.size) ∧ (symbolsOf e.fields).length ≤ 2 := by
  cases e with
  | lit b =>
    have hb := b.isLt
    refine ⟨fun x hx => ?_, Nat.le_succ 1⟩
    obtain rfl : x = (.ll, b.toNat) := List.mem_singleton.1 hx
    show b.toNat < 281
    omega
  | eos => exact ⟨by decide, by decide⟩
  | match3 d =>
    have hsyms : symbolsOf (StreamEvent.match3 d).fields = [(.ll, lenSymbol0)] := rfl
    rw [hsyms]
    exact ⟨by decide, by decide⟩
  | matchSlot k e j x =>
    obtain ⟨-, hk, -, -⟩ := wellFormed_matchSlot h
    have hsyms : symbolsOf (StreamEvent.matchSlot k e j x).fields = [(.ll, lenSymbol0 + k.toNat), (.ds, j.toNat)] := by
      rw [StreamEvent.fields, ← List.singleton_append, symbolsOf_append, symbolsOf_append, symbolsOf_optField,
        ← List.singleton_append (l := optField x.toNat (nbDist j.toNat)), symbolsOf_append, symbolsOf_optField]
      rfl
    rw [hsyms]
    refine ⟨List.forall_mem_cons.2 ⟨?_, List.forall_mem_cons.2 ⟨j.isLt, nofun⟩⟩, Nat.le_refl 2⟩
    show 257 + k.toNat < 281
    omega

/-- R190: what COMPRESS tallies are symbols of their alphabets, at most two for each event and the end of stream. -/
theorem symbols_streamFields {evs : List Event} (h : ∀ e ∈ evs, e.InRange) :
    (∀ x ∈ symbolsOf (streamFields evs), x.2 < x.1.size) ∧ (symbolsOf (streamFields evs)).length ≤ 2 * evs.length + 1 := by
  induction evs with
  | nil => exact ⟨by decide, by decide⟩
  | cons e es ih =>
    obtain ⟨he, hes⟩ := List.forall_mem_cons.1 h
    obtain ⟨hmem, hlen⟩ := symbols_of_wellFormed (writtenAs_toStream he).wellFormed
    obtain ⟨hmem', hlen'⟩ := ih hes
    have hcons : symbolsOf (streamFields (e :: es)) = symbolsOf e.toStream.fields ++ symbolsOf (streamFields es) := by
      rw [streamFields, List.map_cons, List.flatMap_cons, List.append_assoc, symbolsOf_append]
      rfl
    rw [hcons, List.length_append, List.length_cons]
    exact ⟨fun x hx => (List.mem_append.1 hx).elim (hmem x) (hmem' x), by omega⟩

/-! ## The tally (R189) -/

theorem freqOf_bumpFreq_of_ne {a b : Alphabet} (hne : a ≠ b) (sym k : Nat) (s : State) :
    freqOf b k (bumpFreq a sym s) = freqOf b k s := by
  rw [freqOf, bumpFreq, State.tab_setTab_of_ne _ hne, freqOf]

/-- R132, R189: while no counter can wrap, each counts its symbol. -/
theorem toNat_freqOf_bumpAll {syms : List (Alphabet × Nat)} {s : State} {a : Alphabet} {sym : Nat}
    (hsyms : ∀ x ∈ syms, x.2 < x.1.size) (hlt : (freqOf a sym s).toNat + syms.length < 2 ^ 32) :
    (freqOf a sym (bumpAll syms s)).toNat = (freqOf a sym s).toNat + syms.count (a, sym) := by
  induction syms generalizing s with
  | nil => rfl
  | cons x xs ih =>
    obtain ⟨b, y⟩ := x
    obtain ⟨hy, hxs⟩ := List.forall_mem_cons.1 hsyms
    rw [List.length_cons] at hlt
    have hone : (freqOf a sym (bumpFreq b y s)).toNat = (freqOf a sym s).toNat + if (b, y) = (a, sym) then 1 else 0 := by
      by_cases hb : b = a
      · subst hb
        rw [freqOf_bumpFreq hy]
        by_cases hsym : sym = y
        · subst hsym
          have hwrap : (freqOf b sym s).toNat + 1 < 2 ^ 32 := by omega
          rw [if_pos rfl, if_pos rfl, BitVec.toNat_add]
          exact Nat.mod_eq_of_lt hwrap
        · rw [if_neg hsym, if_neg fun h => hsym (Prod.mk.inj h).2.symm]; rfl
      · rw [freqOf_bumpFreq_of_ne hb, if_neg fun h => hb (Prod.mk.inj h).1]; rfl
    have hrest := ih hxs (s := bumpFreq b y s) (by rw [hone]; split <;> omega)
    rw [List.count_cons]
    show (freqOf a sym (bumpAll xs (bumpFreq b y s))).toNat = _
    rw [hrest, hone]
    simp only [beq_iff_eq]
    omega

end Sys2Proof.Machine
end

section
/-! # The stream COMPRESS writes (44_pipelines.md R190, R191, 40_bitstream.md R69)

After the first pass COMPRESS either reports a code longer than 19 bits or writes one list of fields: both tables, the
events and the end of stream. Every field can be written, so the only other error is a full OBUF. -/

namespace Sys2Proof.Machine

/-! ## Sequences -/

section
variable {α β γ : Type}

theorem Res.bind_assoc (r : Res α) (k : α → State → Res β) (m : β → State → Res γ) :
    (r.bind k).bind m = r.bind fun a t => (k a t).bind m := by cases r <;> rfl

/-- What follows a primitive matters only in the states it can end well in. -/
theorem Res.bind_congr {r : Res α} {k m : α → State → Res β} (h : ∀ a t, r = .ok a t → k a t = m a t) :
    r.bind k = r.bind m := by
  cases r with
  | ok a t => exact h a t rfl
  | err e t => rfl
  | fault f => rfl

end

/-! ## The codes of both alphabets (R190) -/

section
variable {a : Alphabet} {s t : State}

theorem codeLens_congr (h : s.tab a = t.tab a) : codeLens a s = codeLens a t := by rw [codeLens, h, codeLens]

theorem codeOf_congr (h : s.tab a = t.tab a) (sym : Nat) : codeOf a sym s = codeOf a sym t := by rw [codeOf, h, codeOf]

theorem freqOf_congr (h : s.tab a = t.tab a) (sym : Nat) : freqOf a sym s = freqOf a sym t := by rw [freqOf, h, freqOf]

theorem freqs_congr (h : s.tab a = t.tab a) : freqs a s = freqs a t := by rw [freqs, h, freqs]

end

/-- The state with the code lengths HUF_BUILD gives (R137). -/
def withBuilt (a : Alphabet) (s : State) : State := withLens a (buildLengths (freqs a s)) s

section
variable {a : Alphabet} {s : State}

theorem hufBuild_of_gt (h : 19 < longestLength a s) : hufBuild a s = .err (.internal .codelenOverflow) s := by
  rw [hufBuild_eq, require_of_not fun hle => Nat.not_le.2 h (of_decide_eq_true hle)]

variable (h : longestLength a s ≤ 19)
include h

theorem hufBuild_of_le : ∃ r, hufBuild a s = .ok r (withBuilt a s) :=
  ⟨_, by rw [hufBuild_eq, require_of (decide_eq_true h)]; rfl⟩

theorem codeLens_withBuilt : codeLens a (withBuilt a s) = buildLengths (freqs a s) :=
  codeLens_eq (by rw [length_buildLengths, length_freqs]) fun sym _ => clOf_built h sym

theorem codeLens_withBuilt_le : ∀ l ∈ codeLens a (withBuilt a s), l ≤ maxCodeLenEnc := by
  rw [codeLens_withBuilt h]
  exact fun l hl => (le_foldl_max hl).trans h

theorem lengthsOk_withBuilt : LengthsOk a (withBuilt a s) := fun l hl =>
  (codeLens_withBuilt_le h l hl).trans (by decide)

/-- R139: HUF_CANON accepts the lengths HUF_BUILD gives. -/
theorem exists_canon_withBuilt : ∃ codes, canon (codeLens a (withBuilt a s)) = some codes := by
  obtain ⟨htwo, hone, hzero⟩ := kraft_built h
  refine exists_canon (lengthsOk_withBuilt h) ?_
  rcases Nat.lt_or_ge (codedCount a s) 2 with hlt | hge
  · rcases Nat.lt_or_ge (codedCount a s) 1 with hlt' | hge'
    · exact (hzero (by omega)).trans_le (Nat.zero_le _)
    · exact (hone (by omega)).trans_le (by decide)
  · exact (htwo hge).le

end

/-- The state with the code lengths and the codes of both alphabets (R190). -/
def withCodes (codes : Alphabet → List Nat) (s : State) : State :=
  setCodes .ds (codes .ds) (setCodes .ll (codes .ll) (withBuilt .ds (withBuilt .ll s)))

theorem tab_withCodes (codes : Alphabet → List Nat) (s : State) (a : Alphabet) :
    (withCodes codes s).tab a = (setCodes a (codes a) (withBuilt a s)).tab a := by cases a <;> rfl

/-- Nothing but the tables of the two alphabets. -/
abbrev OnlyTables (s t : State) : Prop := t = { s with ll := t.ll, ds := t.ds }

theorem tablesFrame : IsFrame OnlyTables := ⟨fun _ => rfl, fun h1 h2 => Eq.trans h2 (by rw [h1])⟩

theorem onlyTables_setTab {a : Alphabet} (T : Tables a.size) (s : State) : OnlyTables s (s.setTab a T) := by
  cases a <;> rfl

theorem onlyTables_withBuilt (a : Alphabet) (s : State) : OnlyTables s (withBuilt a s) := by
  unfold withBuilt withLens
  exact onlyTables_setTab _ s

theorem onlyTables_setCodes (a : Alphabet) (codes : List Nat) (s : State) : OnlyTables s (setCodes a codes s) := by
  unfold setCodes
  exact onlyTables_setTab _ s

theorem onlyTables_withCodes (codes : Alphabet → List Nat) (s : State) : OnlyTables s (withCodes codes s) := by
  have hbuilt : OnlyTables s (withBuilt .ds (withBuilt .ll s)) :=
    tablesFrame.trans (onlyTables_withBuilt .ll s) (onlyTables_withBuilt .ds _)
  exact tablesFrame.trans (tablesFrame.trans hbuilt (onlyTables_setCodes .ll _ _)) (onlyTables_setCodes .ds _ _)

theorem onlyTables_bumpAll (syms : List (Alphabet × Nat)) (s : State) : OnlyTables s (bumpAll syms s) := by
  induction syms generalizing s with
  | nil => rfl
  | cons x xs ih =>
    exact tablesFrame.trans (onlyTables_setTab _ s) (ih _)

theorem freqOf_withCodes (codes : Alphabet → List Nat) (s : State) (a : Alphabet) (sym : Nat) :
    freqOf a sym (withCodes codes s) = freqOf a sym s :=
  (freqOf_congr (tab_withCodes codes s a) sym).trans (by cases a <;> rfl)

/-- The tables hold, for both alphabets, the lengths of R134 for their frequencies and these canonical codes (R190). -/
structure Coded (codes : Alphabet → List Nat) (s : State) : Prop where
  lens : ∀ a, codeLens a s = buildLengths (freqs a s)
  lens_le : ∀ a, ∀ l ∈ codeLens a s, l ≤ maxCodeLenEnc
  canon : ∀ a, Machine.canon (codeLens a s) = some (codes a)
  code : ∀ a sym, codeOf a sym s = (codes a).getD sym 0

theorem coded_withCodes {codes : Alphabet → List Nat} {s : State} (h : ∀ a, longestLength a s ≤ 19)
    (hcanon : ∀ a, canon (codeLens a (withBuilt a s)) = some (codes a)) : Coded codes (withCodes codes s) := by
  have hlens : ∀ a, codeLens a (withCodes codes s) = codeLens a (withBuilt a s) := fun a =>
    (codeLens_congr (tab_withCodes codes s a)).trans (by cases a <;> rfl)
  have hfreqs : ∀ a, freqs a (withCodes codes s) = freqs a s := fun a =>
    (freqs_congr (tab_withCodes codes s a)).trans (by cases a <;> rfl)
  refine ⟨fun a => ?_, fun a => ?_, fun a => ?_, fun a sym => ?_⟩
  · rw [hlens, hfreqs, codeLens_withBuilt (h a)]
  · rw [hlens]; exact codeLens_withBuilt_le (h a)
  · rw [hlens]; exact hcanon a
  · rw [codeOf_congr (tab_withCodes codes s a), codeOf_setCodes (lengthsOk_withBuilt (h a)) (hcanon a)]

/-- R137, R190: the symbols with a code are those that occur. -/
theorem Coded.clOf_eq_zero_iff {codes : Alphabet → List Nat} {s : State} (h : Coded codes s) (a : Alphabet) (sym : Nat) :
    clOf a sym s = 0 ↔ freqOf a sym s = 0 := by
  rw [clOf_eq_getD, h.lens, getD_buildLengths_eq_zero_iff, getD_freqs_eq_zero_iff]

/-- R190: COMPRESS's tables are a code longer than 19 bits, or both codes and then both tables written. -/
theorem compressTables_cases (s : State) :
    ((∃ a, 19 < longestLength a s) ∧ ∃ t, compressTables s = .err (.internal .codelenOverflow) t) ∨
    ∃ codes u, OnlyTables s u ∧ (∀ a sym, freqOf a sym u = freqOf a sym s) ∧ Coded codes u ∧
      compressTables s = (serialize .ll u).bind fun _ t => serialize .ds t := by
  unfold compressTables
  by_cases hll : longestLength .ll s ≤ 19
  · obtain ⟨r, hr⟩ := hufBuild_of_le hll
    rw [hr, Res.bind_ok]
    have hsame : longestLength .ds (withBuilt .ll s) = longestLength .ds s := rfl
    by_cases hds : longestLength .ds s ≤ 19
    · obtain ⟨q, hq⟩ := hufBuild_of_le (hsame.trans_le hds)
      rw [hq, Res.bind_ok]
      have hle : ∀ a, longestLength a s ≤ 19 := fun a => by cases a <;> assumption
      choose codes hcodes using fun a => exists_canon_withBuilt (hle a)
      have hll' : canon (codeLens .ll (withBuilt .ds (withBuilt .ll s))) = some (codes .ll) := hcodes .ll
      have hds' : canon (codeLens .ds (setCodes .ll (codes .ll) (withBuilt .ds (withBuilt .ll s)))) = some (codes .ds) :=
        hcodes .ds
      refine .inr ⟨codes, withCodes codes s, onlyTables_withCodes codes s, freqOf_withCodes codes s,
        coded_withCodes hle hcodes, ?_⟩
      rw [hufCanon_of_canon hll', Res.bind_ok, hufCanon_of_canon hds', Res.bind_ok]
      rfl
    · rw [hufBuild_of_gt (by rw [hsame]; exact Nat.not_le.1 hds)]
      exact .inl ⟨⟨_, Nat.not_le.1 hds⟩, _, rfl⟩
  · rw [hufBuild_of_gt (Nat.not_le.1 hll)]
    exact .inl ⟨⟨_, Nat.not_le.1 hll⟩, _, rfl⟩

/-! ## One list of fields -/

/-- The fields of an alphabet's code-length table (R142). -/
def tableFields (a : Alphabet) (s : State) : List Field :=
  (tableEntries (2 ^ a.zb) (codeLens a s).length (codeLens a s)).flatMap (TableEntry.fields a)

theorem serialize_of_lens_le {a : Alphabet} {s : State} (h : ∀ l ∈ codeLens a s, l ≤ maxCodeLenEnc) :
    serialize a s = writeFields (tableFields a s) s := by
  have hall : (codeLens a s).all (· ≤ maxCodeLenEnc) = true := List.all_eq_true.2 fun l hl => decide_eq_true (h l hl)
  rw [serialize, require_of hall, tableFields]

theorem codeLens_onlyWriter {s t : State} (h : OnlyWriter s t) (a : Alphabet) : codeLens a t = codeLens a s :=
  codeLens_congr (by rw [h]; cases a <;> rfl)

/-- The fields of the whole stream: both tables, the events, the end of stream (R69, R190). -/
def compressedFields (evs : List Event) (s : State) : List Field :=
  tableFields .ll s ++ tableFields .ds s ++ streamFields evs

/-- Fields written and the last byte filled up (R190). -/
def writeOut (fs : List Field) (s : State) : Res Unit := (writeFields fs s).bind fun _ t => writeEof t

/-- COMPRESS's results (R190). -/
def compressResults (s : State) : Results := Results.nat (litCount s.prog.evq) (copyCount s.prog.evq) s.wr.outLen.toNat

theorem writeTables_eq {codes : Alphabet → List Nat} {s : State} (h : Coded codes s) :
    ((serialize .ll s).bind fun _ t => serialize .ds t) = writeFields (tableFields .ll s ++ tableFields .ds s) s := by
  rw [serialize_of_lens_le (h.lens_le .ll), writeFields_append]
  refine Res.bind_congr fun _ t ht => ?_
  have hlens := codeLens_onlyWriter ((writeFields_stays _ s).ok ht) .ds
  rw [serialize_of_lens_le (by rw [hlens]; exact h.lens_le .ds), tableFields, hlens, tableFields]

theorem compressPass2_eq {s : State} (h : ∀ e ∈ s.prog.evq, e.InRange) :
    compressPass2 s = (writeOut (streamFields s.prog.evq) s).bind fun _ t => .ok (compressResults t) t := by
  have heos : ∀ t, encodeSymbol .ll eosSymbol t = writeFields StreamEvent.eos.fields t := fun t =>
    (Res.bind_ok_unit _).symm
  rw [compressPass2, forEvents_emit h, writeOut, streamFields, writeFields_append, Res.bind_assoc, Res.bind_assoc]
  simp only [heos]
  rfl

/-- R190: with the codes assigned, the rest of COMPRESS is one list of fields written out. -/
theorem writeStream_eq {codes : Alphabet → List Nat} {s : State} (hcoded : Coded codes s)
    (h : ∀ e ∈ s.prog.evq, e.InRange) :
    (((serialize .ll s).bind fun _ t => serialize .ds t).bind fun _ t => compressPass2 t) =
      (writeOut (compressedFields s.prog.evq s) s).bind fun _ t => .ok (compressResults t) t := by
  rw [writeTables_eq hcoded, writeOut, compressedFields, writeFields_append (tableFields .ll s ++ tableFields .ds s),
    Res.bind_assoc, Res.bind_assoc]
  refine Res.bind_congr fun _ t ht => ?_
  have hprog : t.prog = s.prog := by rw [(writeFields_stays _ s).ok ht]
  rw [compressPass2_eq (by rw [hprog]; exact h), writeOut, hprog, Res.bind_assoc]

/-! ## The first pass (R189, R190) -/

/-- The state in which COMPRESS generates its events: a fresh writer and no frequencies (R190). -/
def freshEncoder (s : State) : State := clearFreq .ds (clearFreq .ll (resetWriter s))

theorem freqOf_freshEncoder (a : Alphabet) (sym : Nat) (s : State) : freqOf a sym (freshEncoder s) = 0 := by
  cases a
  · exact freqOf_clearFreq .ll sym _
  · exact freqOf_clearFreq .ds sym _

theorem compressPass1_eq {s g : State} (hgen : generateEvents (freshEncoder s) = .ok () g)
    (h : ∀ e ∈ g.prog.evq, e.InRange) :
    compressPass1 s = .ok () (bumpAll (symbolsOf (streamFields g.prog.evq)) g) := by
  have hrun : compressPass1 s = (generateEvents (freshEncoder s)).bind fun _ s =>
      (forEvents tally s.prog.evq s).bind fun _ s => .ok () (bumpFreq .ll eosSymbol s) := rfl
  rw [hrun, hgen, Res.bind_ok, forEvents_tally h, Res.bind_ok, streamFields, symbolsOf_append, bumpAll_append]
  rfl

/-- The tables count the symbols of these events and of the end of stream (R189, R190). -/
def Tallied (evs : List Event) (s : State) : Prop :=
  ∀ a sym, (freqOf a sym s).toNat = (symbolsOf (streamFields evs)).count (a, sym)

/-- The state COMPRESS writes its stream from, after the search has ended in `g` (R189, R190): the tables count and code
the symbols of the stream, and nothing else has changed. -/
structure ReadyToWrite (g : State) (codes : Alphabet → List Nat) (u : State) : Prop where
  only : OnlyTables g u
  coded : Coded codes u
  tallied : Tallied g.prog.evq u

theorem ReadyToWrite.evq {g u : State} {codes : Alphabet → List Nat} (h : ReadyToWrite g codes u) :
    u.prog.evq = g.prog.evq := by rw [h.only]

/-- R76, R190: every symbol of the stream has a code. -/
theorem ReadyToWrite.symbol_coded {g u : State} {codes : Alphabet → List Nat} (h : ReadyToWrite g codes u) {a : Alphabet}
    {sym : Nat} (hmem : Field.code a sym ∈ streamFields g.prog.evq) : clOf a sym u ≠ 0 := by
  rw [Ne, h.coded.clOf_eq_zero_iff, BitVec.toNat_eq, h.tallied]
  exact (List.count_pos_iff.2 (mem_symbolsOf.2 hmem)).ne'

/-- R73: no number of an event is wider than 14 bits. -/
theorem width_le_of_mem_fields {e : StreamEvent} {v n : Nat} (h : Field.bits v n ∈ e.fields) : n ≤ 32 := by
  have hopt : ∀ {w m : Nat}, m ≤ 14 → Field.bits v n ∈ optField w m → n ≤ 32 := by
    intro w m hm h
    unfold optField at h
    split at h
    · cases h
    · cases List.mem_singleton.1 h; omega
  cases e with
  | lit b => simp [StreamEvent.fields] at h
  | eos => simp [StreamEvent.fields] at h
  | match3 d =>
    obtain ⟨-, rfl⟩ : v = d.toNat ∧ n = rawDistBits := by simpa [StreamEvent.fields] using h
    decide
  | matchSlot k e j x =>
    simp only [StreamEvent.fields, List.mem_append, List.mem_cons, reduceCtorEq, false_or] at h
    rcases h with h | h
    · exact hopt ((nbLen_le _).trans (by decide)) h
    · exact hopt (nbDist_le _) h

/-- R190: every field of the stream can be written. -/
theorem ReadyToWrite.writable {g u : State} {codes : Alphabet → List Nat} (h : ReadyToWrite g codes u) :
    ∀ f ∈ compressedFields g.prog.evq u, Field.Writable u f := by
  intro f hf
  rw [compressedFields, List.mem_append, List.mem_append] at hf
  rcases hf with (hf | hf) | hf
  · exact writable_of_isNumber (isNumber_of_mem_fields f hf) u
  · exact writable_of_isNumber (isNumber_of_mem_fields f hf) u
  · cases f with
    | code a sym => exact h.symbol_coded hf
    | bits v n =>
      have hfields : ∃ e : StreamEvent, Field.bits v n ∈ e.fields := by
        rcases List.mem_append.1 hf with hf | hf
        · obtain ⟨e, -, he⟩ := List.mem_flatMap.1 hf
          exact ⟨e, he⟩
        · exact ⟨_, hf⟩
      obtain ⟨e, he⟩ := hfields
      exact width_le_of_mem_fields he

/-- R190: after its events COMPRESS reports a code longer than 19 bits, or writes its stream. -/
theorem compress_cases {s g : State} {n : Nat} (hin : s.inputOk = true) (hn : n < 2 ^ 30)
    (hgen : generateEvents (freshEncoder s) = .ok () g) (hfreq : ∀ a sym, freqOf a sym g = 0) (henc : Encoded g n) :
    ((∃ a w, Tallied g.prog.evq w ∧ 19 < longestLength a w) ∧
      ∃ t, compress s = .err (.internal .codelenOverflow) t) ∨
    ∃ codes u, ReadyToWrite g codes u ∧
      compress s = (writeOut (compressedFields g.prog.evq u) u).bind fun _ t => .ok (compressResults t) t := by
  obtain ⟨hsyms, hlen⟩ := symbols_streamFields henc.inRange
  have hcount := henc.count
  have hrun : compress s = (compressTables (bumpAll (symbolsOf (streamFields g.prog.evq)) g)).bind fun _ t =>
      compressPass2 t := by
    rw [compress, require_of hin, compressPass1_eq hgen henc.inRange, Res.bind_ok]
  have htallied : Tallied g.prog.evq (bumpAll (symbolsOf (streamFields g.prog.evq)) g) := fun a sym => by
    have hzero : (freqOf a sym g).toNat = 0 := by rw [hfreq]; rfl
    rw [toNat_freqOf_bumpAll hsyms (by omega), hzero, Nat.zero_add]
  rw [hrun]
  rcases compressTables_cases (bumpAll (symbolsOf (streamFields g.prog.evq)) g) with
    ⟨⟨a, hlong⟩, t, ht⟩ | ⟨codes, u, honly, hfreqs, hcoded, heq⟩
  · exact .inl ⟨⟨a, _, htallied, hlong⟩, t, by rw [ht, Res.bind_err]⟩
  · have hready : ReadyToWrite g codes u :=
      ⟨tablesFrame.trans (onlyTables_bumpAll _ g) honly, hcoded, fun a sym => by rw [hfreqs, htallied]⟩
    have hstream := writeStream_eq hcoded (by rw [hready.evq]; exact henc.inRange)
    rw [hready.evq] at hstream
    exact .inr ⟨codes, u, hready, by rw [heq, hstream]⟩

/-! ## Writing out (R92, R190) -/

/-- R90: fields that can be written and do not fit are OUTPUT_FULL. -/
theorem writeFields_outputFull {fs : List Field} {s : State} (hp : s.params.ok) (hw : ∀ f ∈ fs, Field.Writable s f)
    (h0 : s.BitsFit 0) (hfull : ¬ s.BitsFit (s.fieldBits fs).length) : ∃ t, writeFields fs s = .err .outputFull t := by
  induction fs generalizing s with
  | nil => exact absurd h0 hfull
  | cons f fs ih =>
    obtain ⟨hf, hfs⟩ := List.forall_mem_cons.1 hw
    by_cases hfit : s.BitsFit (s.fieldBits [f]).length
    · obtain ⟨t, ht, ho, ha, -⟩ := writeFields_appends hp (List.forall_mem_singleton.2 hf) hfit
      have hiff : ∀ n, t.BitsFit n ↔ s.BitsFit ((s.fieldBits [f]).length + n) := fun n => bitsFit_iff_of_appended ho ha
      have hwt : ∀ g ∈ fs, Field.Writable t g := fun g hg => by
        cases g with
        | bits v n => exact hfs _ hg
        | code a sym => exact fun h => hfs _ hg ((clOf_onlyWriter ho a sym).symm.trans h)
      obtain ⟨v, hv⟩ := ih (by rw [ho]; exact hp) hwt ((hiff 0).2 hfit) fun hrest => hfull (by
        rw [fieldBits_onlyWriter ho] at hrest
        rw [← List.singleton_append, fieldBits_append, List.length_append]
        exact (hiff _).1 hrest)
      exact ⟨v, by rw [← List.singleton_append, writeFields_append, ht, Res.bind_ok, hv]⟩
    · have hone : writeField f s = .err .outputFull s := by
        cases f with
        | bits v n => exact writeBits_full hf (by simpa [State.fieldBits, fieldsToBits, Field.toBits] using hfit)
        | code a sym =>
          exact encodeSymbol_full hf (by simpa [State.fieldBits, fieldsToBits, Field.toBits, codeTable] using hfit)
      exact ⟨s, by rw [writeFields, hone, Res.bind_err]⟩

/-- OBUF holds a whole stream: its bits from the first byte on, the last byte filled up with zeros (R92, R190). -/
structure StreamOut (t : State) (bits : List Bool) : Prop where
  outLen : t.wr.outLen.toNat = (bits.length + 7) / 8
  wacc : t.wr.wacc = 0
  wcnt : t.wr.wcnt = 0
  bitsW : t.wr.bitsW = BitVec.ofNat 32 bits.length
  bit : ∀ k, k < 8 * t.wr.outLen.toNat → Memory.bit? t.obuf k = some (bits.getD k false)

section
variable {s : State} {fs : List Field} (hp : s.params.ok) (h0 : s.wr = ⟨0, 0, 0, 0⟩)
include hp h0

/-- R92: bits appended to a fresh writer, and the padding. -/
theorem writeEof_streamOut {t : State} {bits : List Bool} (ho : OnlyWriter s t) (ha : Appended s t bits)
    (hacc : t.wr.wacc.toNat < 2 ^ t.wr.wcnt.toNat) (hroom : (bits.length + 7) / 8 ≤ s.params.obufSize) :
    ∃ v, writeEof t = .ok () v ∧ OnlyWriter t v ∧ StreamOut v bits := by
  obtain ⟨hpos, -, hbits, hcount, -⟩ := ha
  have hstart : s.writePos = 0 := by rw [State.writePos, h0]; rfl
  have hsize : t.params.obufSize = s.params.obufSize := by rw [ho]
  have hcnt := t.wr.wcnt.isLt
  rw [hstart, Nat.zero_add] at hpos
  simp only [hstart, Nat.zero_add] at hbits
  have hcountW : t.wr.bitsW = BitVec.ofNat 32 bits.length := by rw [hcount, h0]; exact BitVec.zero_add _
  have hsplit : t.writePos = 8 * t.wr.outLen.toNat + t.wr.wcnt.toNat := rfl
  have hin : ∀ k, k < bits.length → t.outBit k = some (bits.getD k false) := fun k hk => by
    rw [hbits k hk, List.getD_eq_getElem?_getD, List.getElem?_eq_getElem hk]; rfl
  by_cases hw : t.wr.wcnt = 0
  · have hw0 : t.wr.wcnt.toNat = 0 := by rw [hw]; rfl
    rw [hw0] at hacc hsplit
    refine ⟨t, writeEof_aligned hw, rfl, by omega, BitVec.eq_of_toNat_eq (Nat.lt_one_iff.1 hacc), hw, hcountW, fun k hk => ?_⟩
    rw [← hin k (by omega), State.outBit, if_pos hk]
  · have hpending : t.wr.wcnt.toNat ≠ 0 := fun h => hw (BitVec.eq_of_toNat_eq h)
    obtain ⟨v, hv, hov, hout, hvacc, hvcount⟩ := writeEof_out (by rw [ho]; exact hp) hw (by rw [hsize]; omega)
    have hlen := hout.outLen
    have hvpos := hout.writePos
    refine ⟨v, hv, hov, by omega, hvacc, hout.wcnt, hvcount.trans hcountW, fun k hk => ?_⟩
    have hvbit : v.outBit k = Memory.bit? v.obuf k := if_pos hk
    rw [← hvbit]
    by_cases hlt : k < bits.length
    · rw [hout.outBit_kept (by omega), hin k hlt]
    · rw [hout.outBit_padding ⟨by rw [hsize]; omega, hacc⟩ (by omega) (by omega),
        List.getD_eq_default _ _ (Nat.not_lt.1 hlt)]

variable (hw : ∀ f ∈ fs, Field.Writable s f)
include hw

/-- R90, R92: a list of fields that can be written is written out from a fresh writer, or OBUF is full. -/
theorem writeOut_cases :
    (∃ v, writeOut fs s = .ok () v ∧ OnlyWriter s v ∧ StreamOut v (s.fieldBits fs)) ∨
    ((∃ v, writeOut fs s = .err .outputFull v) ∧ s.params.obufSize < ((s.fieldBits fs).length + 7) / 8) := by
  have hfit : ∀ n, s.BitsFit n ↔ n / 8 ≤ s.params.obufSize := fun n => by
    rw [State.BitsFit, h0]; simp
  by_cases hbits : s.BitsFit (s.fieldBits fs).length
  · obtain ⟨t, ht, ho, ha, hacc⟩ := writeFields_appends hp hw hbits
    have hlen : t.writePos = (s.fieldBits fs).length := by rw [ha.1, State.writePos, h0]; simp
    have hsplit : t.writePos = 8 * t.wr.outLen.toNat + t.wr.wcnt.toNat := rfl
    have hcnt := t.wr.wcnt.isLt
    have hrun : writeOut fs s = writeEof t := by rw [writeOut, ht, Res.bind_ok]
    rw [hrun]
    have hle := (hfit _).1 hbits
    by_cases hroom : ((s.fieldBits fs).length + 7) / 8 ≤ s.params.obufSize
    · obtain ⟨v, hv, hov, hout⟩ := writeEof_streamOut hp h0 ho ha (hacc (by rw [h0]; decide)) hroom
      exact .inl ⟨v, hv, writerFrame.trans ho hov, hout⟩
    · have hpending : t.wr.wcnt ≠ 0 := fun h => by
        have h0' : t.wr.wcnt.toNat = 0 := by rw [h]; rfl
        omega
      exact .inr ⟨⟨t, writeEof_full hpending (by rw [show t.params = s.params by rw [ho]]; omega)⟩, Nat.not_le.1 hroom⟩
  · obtain ⟨t, ht⟩ := writeFields_outputFull hp hw ((hfit 0).2 (Nat.zero_le _)) hbits
    rw [hfit] at hbits
    exact .inr ⟨⟨t, by rw [writeOut, ht, Res.bind_err]⟩, by omega⟩

end

end Sys2Proof.Machine
end

section
/-! # What COMPRESS answers (44_pipelines.md R190, R203) -/

namespace Sys2Proof.Machine

theorem litCount_add_copyCount (evs : List Event) : litCount evs + copyCount evs = evs.length := by
  induction evs with
  | nil => rfl
  | cons e evs ih =>
    cases e with
    | lit b =>
      have hlit : litCount (.lit b :: evs) = litCount evs + 1 := rfl
      have hcopy : copyCount (.lit b :: evs) = copyCount evs := rfl
      rw [hlit, hcopy, List.length_cons]; omega
    | copy l d =>
      have hlit : litCount (.copy l d :: evs) = litCount evs := rfl
      have hcopy : copyCount (.copy l d :: evs) = copyCount evs + 1 := rfl
      rw [hlit, hcopy, List.length_cons]; omega

/-- COMPRESS ends well in `v`: it has written the stream of the events of `g`, from `u`, in which their symbols have codes
(R190). -/
structure CompressedTo (s g : State) (codes : Alphabet → List Nat) (u v : State) : Prop where
  ready : ReadyToWrite g codes u
  run : compress s = .ok (compressResults v) v
  only : OnlyWriter u v
  stream : StreamOut v (u.fieldBits (compressedFields g.prog.evq u))

theorem CompressedTo.evq {s g u v : State} {codes : Alphabet → List Nat} (h : CompressedTo s g codes u v) :
    v.prog.evq = g.prog.evq := by rw [h.only, h.ready.only]

section
variable {s g : State} (hp : s.params.ok) (hin : s.inputOk = true)
include hp hin

theorem inLen_lt : s.ctl.inLen.toNat < 2 ^ 30 := by
  have hle : s.ctl.inLen.toNat ≤ s.params.ibufSize := of_decide_eq_true hin
  obtain ⟨-, hmax, -⟩ := hp
  omega

/-- R190: with its events generated, COMPRESS writes their stream, or stops at a code longer than 19 bits or at the end of
OBUF. -/
theorem compress_outcomes (hgen : generateEvents (freshEncoder s) = .ok () g) (honly : OnlySearch (freshEncoder s) g)
    (henc : Encoded g s.ctl.inLen.toNat) :
    ((∃ a w, Tallied g.prog.evq w ∧ 19 < longestLength a w) ∧
      ∃ t, compress s = .err (.internal .codelenOverflow) t) ∨
    ∃ codes u, ReadyToWrite g codes u ∧ ((∃ v, CompressedTo s g codes u v) ∨
      ((∃ t, compress s = .err .outputFull t) ∧
        s.params.obufSize < ((u.fieldBits (compressedFields g.prog.evq u)).length + 7) / 8)) := by
  have hfreq : ∀ a sym, freqOf a sym g = 0 := fun a sym => by
    rw [← freqOf_freshEncoder a sym s]
    exact freqOf_congr (by rw [honly]; cases a <;> rfl) sym
  rcases compress_cases hin (inLen_lt hp hin) hgen hfreq henc with h | ⟨codes, u, hready, hrun⟩
  · exact .inl h
  · have hparams : u.params = s.params := by rw [hready.only, honly]; rfl
    have hwr : u.wr = ⟨0, 0, 0, 0⟩ := by rw [hready.only, honly]; rfl
    refine .inr ⟨codes, u, hready, ?_⟩
    rcases writeOut_cases (by rw [hparams]; exact hp) hwr hready.writable with ⟨v, hv, hov, hout⟩ | ⟨⟨v, hv⟩, hfull⟩
    · rw [hv] at hrun
      exact .inl ⟨v, hready, hrun, hov, hout⟩
    · rw [hv] at hrun
      exact .inr ⟨⟨v, hrun⟩, hparams ▸ hfull⟩

end

theorem compressResults_res {s : State} {n : Nat} (h : s.prog.evq.length ≤ n) (hn : n < 2 ^ 32) :
    (compressResults s).r0.toNat + (compressResults s).r1.toNat ≤ n ∧
      (compressResults s).r2.toNat = s.wr.outLen.toNat := by
  have hsum := litCount_add_copyCount s.prog.evq
  have hlen := s.wr.outLen.isLt
  simp only [compressResults, Results.nat, BitVec.toNat_ofNat]
  omega

theorem exec_compress (s : State) : exec .compress s = finish (compress s) := rfl

/-- Settles O54: on a written input the events are generated, and what follows them raises only these two errors. -/
theorem compressFailsOnly : Obligations.CompressFailsOnly := by
  intro s hp hin hwritten
  obtain ⟨⟨⟩, g, hgen, honly, henc⟩ := (generateEvents_leads (freshEncoder s)).ends ⟨hin, hwritten⟩
  rw [exec_compress]
  rcases compress_outcomes hp hin hgen honly henc with ⟨-, t, ht⟩ | ⟨codes, u, -, ⟨v, hv⟩ | ⟨⟨t, ht⟩, -⟩⟩
  · exact ⟨_, by rw [ht]; rfl, .inr (.inl ⟨rfl, rfl⟩)⟩
  · have hcount : v.prog.evq.length ≤ s.ctl.inLen.toNat := by rw [hv.evq]; exact henc.count
    obtain ⟨hres, hres2⟩ := compressResults_res hcount (inLen_lt hp hin |>.trans (by decide))
    rw [hv.run, finish_ok]
    exact ⟨_, rfl, .inl ⟨rfl, hres, hres2, hv.stream.wcnt⟩⟩
  · exact ⟨_, by rw [ht]; rfl, .inr (.inr rfl)⟩

end Sys2Proof.Machine
end

section
/-! # EXPAND undoes COMPRESS (44_pipelines.md R203) -/

namespace Sys2Proof.Machine

/-- R190: where COMPRESS ends well, it has generated events for the whole input and written their stream. -/
theorem exists_compressedTo {s v : State} {r : Results} (hp : s.params.ok) (h : compress s = .ok r v) :
    ∃ g codes u, Encoded g s.ctl.inLen.toNat ∧ OnlySearch (freshEncoder s) g ∧ CompressedTo s g codes u v ∧
      r = compressResults v := by
  obtain ⟨hin, hrest⟩ := require_eq_ok.1 h
  obtain ⟨⟨⟩, w, hpass, -⟩ := Res.bind_eq_ok.1 hrest
  obtain ⟨⟨⟩, g, hgen, -⟩ := Res.bind_eq_ok.1 hpass
  obtain ⟨honly, henc⟩ := (generateEvents_leads (freshEncoder s)).ok hgen
  refine ⟨g, ?_⟩
  rcases compress_outcomes hp hin hgen honly henc with ⟨-, t, ht⟩ | ⟨codes, u, -, ⟨v', hv⟩ | ⟨⟨t, ht⟩, -⟩⟩
  · cases ht.symm.trans h
  · cases hv.run.symm.trans h
    exact ⟨codes, u, henc, honly, hv, rfl⟩
  · cases ht.symm.trans h

/-! ## The stream as EXPAND reads it -/

section
variable {codes : Alphabet → List Nat} {u : State} (h : Coded codes u)
include h

/-- R142, R144: the entries of the two tables stand for the code lengths. -/
theorem Coded.entries (a : Alphabet) :
    (∀ e ∈ tableEntries (2 ^ a.zb) (codeLens a u).length (codeLens a u), entryOk a e = true) ∧
      entriesLens (tableEntries (2 ^ a.zb) (codeLens a u).length (codeLens a u)) = codeLens a u :=
  ⟨entryOk_of_mem_tableEntries (h.lens_le a),
    entriesLens_tableEntries (Nat.two_pow_pos a.zb) (Nat.le_refl _) (h.lens_le a)⟩

theorem Coded.codeTable_eq :
    codeTable u = fun a sym => ((codeLens a u).getD sym 0, (codes a).getD sym 0) :=
  funext fun a => funext fun sym => by rw [codeTable, clOf_eq_getD, h.code]

end

/-- The bits of a code-length table (R142). -/
theorem fieldBits_tableFields (a : Alphabet) (u : State) :
    u.fieldBits (tableFields a u) =
      entriesBits a (tableEntries (2 ^ a.zb) (codeLens a u).length (codeLens a u)) :=
  fieldsToBits_numbers isNumber_of_mem_fields _ _

/-- The bits of the whole stream: both tables, the events, the end of stream (R69, R190). -/
theorem fieldBits_compressedFields (evs : List Event) (u : State) :
    u.fieldBits (compressedFields evs u) =
      u.fieldBits (tableFields .ll u) ++ u.fieldBits (tableFields .ds u) ++
        u.fieldBits ((evs.map Event.toStream).flatMap StreamEvent.fields) ++ u.fieldBits StreamEvent.eos.fields := by
  rw [compressedFields, streamFields, fieldBits_append, fieldBits_append, fieldBits_append,
    ← List.append_assoc]

/-- A state whose input is the bytes of a written stream has its bits as input (R92, R94). -/
theorem StreamOut.inputHas {v u : State} {bits : List Bool} (h : StreamOut v bits) (hin : u.inputOk = true)
    (hlen : u.ctl.inLen.toNat = v.wr.outLen.toNat)
    (hbytes : ∀ i, i < u.ctl.inLen.toNat → Memory.read? u.ibuf i = Memory.read? v.obuf i) :
    (resetReader u).InputHas bits := by
  have hout := h.outLen
  have havail : (resetReader u).avail = 8 * u.ctl.inLen.toNat := rfl
  refine ⟨hin, by omega, fun j hj => ?_⟩
  have hpos : (resetReader u).readPos + j = j := Nat.zero_add j
  have hbyte : Memory.bit? u.ibuf j = Memory.bit? v.obuf j := by
    rw [Memory.bit?, hbytes (j / 8) (by omega), Memory.bit?]
  rw [hpos]
  calc Memory.bit? u.ibuf j = Memory.bit? v.obuf j := hbyte
    _ = some (bits.getD j false) := h.bit j (by omega)
    _ = bits[j]? := by rw [List.getD_eq_getElem _ _ hj, List.getElem?_eq_getElem hj]

/-- R199, R203: EXPAND of the stream of some events ends well, with the bytes the events stand for. -/
theorem expand_compressed {s g u v w : State} {codes : Alphabet → List Nat} {out : List Byte}
    (h : CompressedTo s g codes u v) (hrange : ∀ e ∈ g.prog.evq, e.InRange)
    (hrep : replayEvents g.prog.evq [] = some out) (hp : w.params.ok) (hroom : out.length ≤ w.params.obufSize)
    (hin : (resetReader w).InputHas (u.fieldBits (compressedFields g.prog.evq u))) :
    ∃ (t : State) (r0 r1 : Word), exec .expand w = .next (t.complete r0 r1 (BitVec.ofNat 32 out.length)) ∧ Memory.Holds t.obuf out ∧
      t.wr.outLen.toNat = out.length := by
  have hcoded := h.ready.coded
  have hsymbols : ∀ e : StreamEvent, (∀ f ∈ e.fields, f ∈ streamFields g.prog.evq) → eventCoded (codeTable u) e :=
    fun e hsub a sym hf => Nat.pos_of_ne_zero (h.ready.symbol_coded (hsub _ hf))
  rw [fieldBits_compressedFields, fieldBits_tableFields, fieldBits_tableFields] at hin
  obtain ⟨-, -, hstream⟩ := expandReplaysStream w
    (fun a => tableEntries (2 ^ a.zb) (codeLens a u).length (codeLens a u)) hp fun a => (hcoded.entries a).1
  obtain ⟨hok, -⟩ := hstream codes (g.prog.evq.map Event.toStream) out (codeTable u) _
    (fun a => by rw [(hcoded.entries a).2]; exact ⟨length_codeLens a u, hcoded.canon a⟩)
    (by rw [hcoded.codeTable_eq]; simp only [(hcoded.entries _).2])
    (fun e he => ⟨wellFormed_of_mem_toStream hrange he,
      hsymbols e fun f hf => List.mem_append_left _ (List.mem_flatMap.2 ⟨e, he, hf⟩)⟩)
    rfl ((replay_toStream hrange []).trans hrep) hroom
  obtain ⟨t, ht, hholds, hlen, -⟩ := hok (hsymbols _ fun f hf => List.mem_append_right _ hf) hin
  exact ⟨t, _, _, ht, hholds, hlen⟩

/-- Settles O57: the stream COMPRESS writes is one EXPAND replays, and its events stand for the input. -/
theorem compressExpandRoundTrip : Obligations.CompressExpandRoundTrip := by
  intro s t w hps hpw hexec hcause hlen hin hbytes hroom
  rcases finish_eq_next.1 ((exec_compress s).symm.trans hexec) with ⟨r, v, hv, rfl⟩ | ⟨e, v, -, rfl⟩
  · obtain ⟨g, codes, u, henc, honly, hto, rfl⟩ := exists_compressedTo hps hv
    obtain ⟨out, hrep, houtLen, hholds⟩ := henc.replays
    have hibuf : g.ibuf = s.ibuf := honly.ibuf
    have hwlen : w.ctl.inLen.toNat = v.wr.outLen.toNat := by
      have hlt := v.wr.outLen.isLt
      have hres : w.ctl.inLen = BitVec.ofNat 32 v.wr.outLen.toNat := hlen
      rw [hres, BitVec.toNat_ofNat]
      omega
    obtain ⟨x, r0, r1, hx, hxholds, hxlen⟩ := expand_compressed hto henc.inRange hrep hpw (by omega)
      (hto.stream.inputHas (inputOk_eq_true hin) hwlen hbytes)
    refine ⟨_, hx, rfl, by rw [← houtLen]; exact hxlen, ?_, fun i hi => ?_⟩
    · show BitVec.ofNat 32 out.length = s.ctl.inLen
      rw [houtLen, BitVec.ofNat_toNat, BitVec.setWidth_eq]
    · have hi' : i < out.length := houtLen ▸ hi
      exact (hxholds i hi').trans (hibuf ▸ hholds i hi').symm
  · exact absurd hcause e.cause_ne_zero

end Sys2Proof.Machine
end

section
/-! # COMPRESS of the empty input (44_pipelines.md R190)

The end of stream is the only symbol: it alone is counted, its code is one bit, and the stream is closed. -/

namespace Sys2Proof.Machine

/-! ## The tables of the empty input -/

/-- The end of stream once and nothing else: the frequencies of the empty input (R190), and its code lengths. -/
def eosOnly (a : Alphabet) : List Nat := (List.range a.size).map fun sym => if a = .ll ∧ sym = eosSymbol then 1 else 0

theorem getD_eosOnly (a : Alphabet) (sym : Nat) : (eosOnly a).getD sym 0 = if a = .ll ∧ sym = eosSymbol then 1 else 0 := by
  by_cases h : sym < a.size
  · simp [eosOnly, List.getD_eq_getElem?_getD, h]
  · have hne : ¬ (a = .ll ∧ sym = eosSymbol) := by
      rintro ⟨rfl, rfl⟩
      exact h (by decide)
    rw [if_neg hne, List.getD_eq_default _ _ (by simpa [eosOnly] using h)]

/-- R137: the only symbol gets length 1. -/
theorem buildLengths_eosOnly : ∀ a, buildLengths (eosOnly a) = eosOnly a
  | .ll => by decide +kernel
  | .ds => by decide +kernel

theorem longest_eosOnly : ∀ a, (eosOnly a).foldl max 0 ≤ 19
  | .ll => by decide +kernel
  | .ds => by decide +kernel

/-- R138: the first code is 0. -/
theorem canon_eosOnly : (canon (eosOnly .ll)).map (·.getD eosSymbol 0) = some 0 := by decide +kernel

theorem Tallied.toNat_freqOf {s : State} (h : Tallied [] s) (a : Alphabet) (sym : Nat) :
    (freqOf a sym s).toNat = if a = .ll ∧ sym = eosSymbol then 1 else 0 := by
  have hsyms : symbolsOf (streamFields []) = [(.ll, eosSymbol)] := rfl
  rw [h, hsyms, List.count_singleton]
  refine if_congr ?_ rfl rfl
  rw [beq_iff_eq, Prod.mk.injEq, eq_comm, eq_comm (a := eosSymbol)]

theorem Tallied.freqs_eq {s : State} (h : Tallied [] s) (a : Alphabet) : freqs a s = eosOnly a := by
  refine List.ext_getElem (by simp [length_freqs, eosOnly]) fun i h1 h2 => ?_
  rw [← List.getD_eq_getElem _ 0 h1, ← List.getD_eq_getElem _ 0 h2, getD_freqs, h.toNat_freqOf, getD_eosOnly]

theorem Tallied.buildLengths_freqs {s : State} (h : Tallied [] s) (a : Alphabet) :
    buildLengths (freqs a s) = eosOnly a := by rw [h.freqs_eq, buildLengths_eosOnly]

/-! ## The bytes of the empty input -/

/-- The stream of the empty input, its five bytes. -/
def emptyStream : List Byte := [0xF0, 0x1F, 0x70, 0x01, 0x1F]

/-- The bits of these bytes, without the padding. -/
def emptyBits : List Bool := (emptyStream.flatMap fun b => toBits b.toNat 8).take 38

/-- R142, R143: the tables of the empty input are the first 37 bits. -/
theorem emptyBits_eq :
    entriesBits .ll (tableEntries (2 ^ Alphabet.ll.zb) (eosOnly .ll).length (eosOnly .ll)) ++
      entriesBits .ds (tableEntries (2 ^ Alphabet.ds.zb) (eosOnly .ds).length (eosOnly .ds)) ++ [false] = emptyBits := by
  decide +kernel

theorem getD_emptyBits : ∀ k, k < 8 * emptyStream.length →
    emptyBits.getD k false = (emptyStream.getD (k / 8) 0).getLsbD (k % 8) := by decide

/-- R190: the stream of no events. -/
theorem fieldBits_compressedFields_nil {codes : Alphabet → List Nat} {u : State} (h : Coded codes u)
    (hlens : ∀ a, codeLens a u = eosOnly a) : u.fieldBits (compressedFields [] u) = emptyBits := by
  have hcode : (codes .ll).getD eosSymbol 0 = 0 := by
    have hmap := canon_eosOnly
    rw [← hlens, h.canon] at hmap
    exact Option.some.inj hmap
  have heos : codeTable u .ll eosSymbol = (1, 0) := by
    rw [h.codeTable_eq]
    dsimp only
    rw [hcode, hlens, getD_eosOnly, if_pos ⟨rfl, rfl⟩]
  have hbit : u.fieldBits StreamEvent.eos.fields = [false] := by
    have hfield : u.fieldBits StreamEvent.eos.fields = Field.toBits (codeTable u) (.code .ll eosSymbol) :=
      List.append_nil _
    rw [hfield, Field.toBits, heos]
    rfl
  rw [fieldBits_compressedFields, hbit, fieldBits_tableFields, fieldBits_tableFields, hlens, hlens, ← emptyBits_eq]
  exact congrArg (· ++ [false]) (List.append_nil _)

/-- A memory with the bits of some bytes holds the bytes. -/
theorem Memory.holds_of_bits {m : Memory} {bytes : List Byte}
    (h : ∀ k, k < 8 * bytes.length → Memory.bit? m k = some ((bytes.getD (k / 8) 0).getLsbD (k % 8))) :
    Memory.Holds m bytes := by
  intro i hi
  have hbit : ∀ j, j < 8 → (Memory.read? m i).map (·.getLsbD j) = some ((bytes.getD i 0).getLsbD j) := fun j hj => by
    have hk := h (8 * i + j) (by omega)
    rwa [Memory.bit?, show (8 * i + j) / 8 = i by omega, show (8 * i + j) % 8 = j by omega] at hk
  rw [List.getElem?_eq_getElem hi, ← List.getD_eq_getElem _ 0 hi]
  cases hread : Memory.read? m i with
  | none =>
    have h0 := hbit 0 (by decide)
    rw [hread] at h0
    cases h0
  | some b =>
    refine congrArg some (BitVec.eq_of_getLsbD_eq fun j hj => ?_)
    have hj' := hbit j hj
    rw [hread] at hj'
    exact Option.some.inj hj'

section
variable {v : State} (h : StreamOut v emptyBits)
include h

theorem StreamOut.wr_emptyStream : v.wr = ⟨5, 0, 0, 38⟩ := by
  obtain ⟨hout, hacc, hcnt, hbits, -⟩ := h
  have hlen : v.wr.outLen = 5 := BitVec.eq_of_toNat_eq hout
  have hcount : v.wr.bitsW = 38 := hbits
  rw [← hlen, ← hacc, ← hcnt, ← hcount]

theorem StreamOut.holds_emptyStream : Memory.Holds v.obuf emptyStream :=
  Memory.holds_of_bits fun k hk => by
    have hlen : v.wr.outLen.toNat = emptyStream.length := h.outLen
    rw [h.bit k (by omega), getD_emptyBits k hk]

end

/-! ## The obligation -/

/-- R186: of the empty input there is nothing to search. -/
theorem generateEvents_of_inLen_eq_zero {s : State} (h : s.ctl.inLen = 0) :
    ∃ t, generateEvents s = .ok () t ∧ t.mf = Finder.reset ∧ t.prog.evq = [] :=
  ⟨_, if_pos (by rw [initFinder, h]; rfl), rfl, rfl⟩

/-- R190: of the empty input, with room for five bytes, COMPRESS writes the stream of no events. -/
theorem exists_compressedTo_of_inLen_eq_zero {s : State} (hp : s.params.ok) (h : s.ctl.inLen = 0)
    (hroom : 5 ≤ s.params.obufSize) :
    ∃ g codes u v, g.mf = Finder.reset ∧ g.prog.evq = [] ∧ CompressedTo s g codes u v ∧
      ∀ a, codeLens a u = eosOnly a := by
  obtain ⟨g, hgen, hmf, hevq⟩ := generateEvents_of_inLen_eq_zero (s := freshEncoder s) h
  obtain ⟨honly, henc⟩ := (generateEvents_leads (freshEncoder s)).ok hgen
  have hin : s.inputOk = true := inputOk_eq_true (by rw [h]; exact Nat.zero_le _)
  rcases compress_outcomes hp hin hgen honly henc with ⟨⟨a, w, htallied, hlong⟩, -⟩ | ⟨codes, u, hready, hends⟩
  · rw [hevq] at htallied
    rw [longestLength, htallied.buildLengths_freqs] at hlong
    exact absurd (longest_eosOnly a) (Nat.not_le.2 hlong)
  · have htallied := hready.tallied
    rw [hevq] at htallied
    have hlens : ∀ a, codeLens a u = eosOnly a := fun a => by
      rw [hready.coded.lens, htallied.buildLengths_freqs]
    rcases hends with ⟨v, hv⟩ | ⟨-, hfull⟩
    · exact ⟨g, codes, u, v, hmf, hevq, hv, hlens⟩
    · rw [hevq, fieldBits_compressedFields_nil hready.coded hlens] at hfull
      exact absurd hfull (Nat.not_lt.2 hroom)

/-- Settles O55: the empty input's tables hold the end of stream alone, and their stream is closed. -/
theorem compressEmptyInput : Obligations.CompressEmptyInput := by
  intro s
  refine ⟨fun hlong => ?_, fun hp hempty hroom => ?_⟩
  · have hin : ¬ s.inputOk = true := by rw [inputOk_eq_false hlong]; decide
    have hexpand : exec .expand s = finish (expand s) := rfl
    rw [exec_compress, hexpand, compress, expand, require_of_not hin, require_of_not hin]
    exact ⟨rfl, rfl⟩
  · obtain ⟨g, codes, u, v, hmf, hevq, hv, hlens⟩ := exists_compressedTo_of_inLen_eq_zero hp hempty hroom
    have hstream := hv.stream
    rw [hevq, fieldBits_compressedFields_nil hv.ready.coded hlens] at hstream
    have htallied := hv.ready.tallied
    rw [hevq] at htallied
    have hwr := hstream.wr_emptyStream
    have htab : ∀ a, v.tab a = u.tab a := fun a => by rw [hv.only]; cases a <;> rfl
    have hdec := (compressFrame_keepsDecoder.compress s).ok hv.run
    have hres : compressResults v = ⟨0, 0, 5⟩ := by rw [compressResults, hv.evq, hevq, hwr]; rfl
    refine ⟨v, by rw [exec_compress, hv.run, finish_ok, hres], hstream.holds_emptyStream, hwr, fun k hk => ?_,
      fun a sym => ?_, fun a sym => ?_, ?_, hdec.rd, hdec.win, hdec.tries⟩
    · exact (compress_keepsAbove hp).ok hv.run k (by rw [hwr]; exact hk)
    · refine BitVec.eq_of_toNat_eq ?_
      rw [freqOf_congr (htab a), htallied.toNat_freqOf, apply_ite BitVec.toNat]
      rfl
    · rw [clOf_eq_getD, codeLens_congr (htab a), hlens, getD_eosOnly]
      rfl
    · rw [hv.only, hv.ready.only, hmf]

end Sys2Proof.Machine
end

section
/-! # Command start and the interrupt (60_exceptions.md R214, R221)

A write to CMD starts a command, the engine's turn runs the instruction CMD decodes to, and irq follows DONE and IE through
each of the updates that touch them. -/

namespace Sys2Proof.Machine

variable {s : State} {rest : List HostAct}

/-! ## The start (R214, R247) -/

theorem writeReg_cmd_idle (hb : s.ctl.busy = false) (w : Word) : writeReg 0x00C w s = s.start w := whenIdle_idle hb _

theorem writeReg_cmd_busy (hb : s.ctl.busy = true) (w : Word) : writeReg 0x00C w s = lostWrite s :=
  writeReg_lost (by decide) w hb

/-- Settles O14: the write reaches CMD, where it is `State.start` or lost. -/
theorem commandStart : Obligations.CommandStart := by
  intro s w rest hr h
  have hstep : step s = .next (writeReg 0x00C w (s.popAct rest)) := step_writeReg (by decide) (by decide) hr h
  refine ⟨fun hb => ?_, fun hb => ?_⟩
  · rw [hstep, writeReg_cmd_idle (s := s.popAct rest) hb]; rfl
  · rw [hstep, writeReg_cmd_busy (s := s.popAct rest) hb]; rfl

/-! ## The engine's turn (R214, R251) -/

/-- R251: at a `wait` the host leaves the step to the engine, as where its script is empty. -/
theorem step_wait (h : s.host.todo = .wait :: rest) : step s = engineTurn (s.popAct rest) := by
  simp [step, h]

theorem engineTurn_execute (hr : s.rstAsserted = false) (hb : s.ctl.busy = true) (hp : s.prog.pos = .idle) :
    engineTurn s = execute s := by
  simp [engineTurn, hr, hb, hp]

theorem execute_of_decodeWord {i : Instr} (h : decodeWord s.ctl.cmd = .ok i) : execute s = exec i s := by
  simp [execute, h]

/-- Settles O6: whoever leaves the step to the engine, its turn is Execute, which runs the decoded instruction. -/
theorem stepRunsDecodedCommand : Obligations.StepRunsDecodedCommand := by
  intro s i hr hb hp hdec
  refine ⟨fun h => ?_, fun rest h => ?_⟩
  · rw [step_execute hr hb hp h, execute_of_decodeWord hdec]
  · rw [step_wait h, engineTurn_execute (s := s.popAct rest) hr hb hp, execute_of_decodeWord (s := s.popAct rest) hdec]

/-! ## The interrupt (R221) -/

/-- R221, R16, R17: irq as the host can compute it from STATUS.DONE and CTRL.IE. -/
theorem State.irq_iff (s : State) : s.irq = true ↔ s.statusWord.getLsbD 1 = true ∧ s.ctrlWord.getLsbD 0 = true := by
  have hdone : s.statusWord.getLsbD 1 = s.ctl.done := by rw [s.statusWord_getLsbD]; simp
  have hie : s.ctrlWord.getLsbD 0 = s.ctl.ie := by rw [State.ctrlWord, flagBit_getLsbD _ (by decide)]; simp
  rw [hdone, hie, State.irq, Bool.and_eq_true]

/-- R215, R216, R221: every command ends with DONE = 1, and none writes IE. -/
theorem irq_of_exec {i : Instr} {t : State} (hi : IsCommand i) (h : exec i s = .next t) : t.irq = s.ctl.ie := by
  obtain ⟨-, hends⟩ := commandsEndDone i s hi
  obtain ⟨-, hdone, -, -⟩ := hends t h
  obtain ⟨-, hie, -⟩ := instructionsKeepHostSide i s t h
  rw [State.irq, hdone, hie, Bool.true_and]

@[simp] theorem State.start_irq (s : State) (w : Word) : (s.start w).irq = false := rfl

@[simp] theorem lostWrite_irq (s : State) : (lostWrite s).irq = s.irq := rfl

/-- R219: an acknowledgement lowers irq where it clears DONE. -/
theorem State.ackStatus_irq (s : State) (v : Word) : (s.ackStatus v).irq = (s.irq && !v.getLsbD 1) :=
  Bool.and_right_comm _ _ _

/-- R16: a CTRL write that does not reset gives irq the new IE. -/
theorem writeCtrl_irq {v : Word} (h : v.getLsbD 1 = false) (s : State) :
    (writeCtrl v s).irq = (s.ctl.done && v.getLsbD 0) := by
  rw [writeCtrl, if_neg (Bool.eq_false_iff.1 h)]; rfl

/-- Settles O20: irq's bits, and then each update that touches DONE or IE. -/
theorem interruptLevel : Obligations.InterruptLevel := fun s =>
  ⟨s.irq_iff, fun _ _ => irq_of_exec, s.start_irq, s.ackStatus_irq, fun _ hv => writeCtrl_irq hv s, lostWrite_irq s⟩

end Sys2Proof.Machine
end

section
/-! # Atomic commands that fail (60_exceptions.md R217)

A primitive fails clean where every check comes before its first write: the error leaves the state it was called in. What
follows the checks of such a primitive does not raise: bits that are there are taken, a copy that fits is made. -/

namespace Sys2Proof.Machine

variable {α β : Type}

/-! ## Where an error leaves the state -/

/-- An error of the result leaves a state of which `P` holds. -/
def Res.OnError (P : State → Prop) : Res α → Prop
  | .ok _ _ => True
  | .err _ t => P t
  | .fault _ => True

namespace Res.OnError

variable {P : State → Prop} {s : State}

theorem bind {r : Res α} {k : α → State → Res β} (h : r.OnError P) (hk : ∀ a t, r = .ok a t → (k a t).OnError P) :
    (r.bind k).OnError P := by
  cases r with
  | ok a t => exact hk a t rfl
  | err e t => exact h
  | fault f => exact trivial

/-- A primitive, and then results. -/
theorem results {r : Res α} (h : r.OnError P) (k : α → State → Results) :
    (r.bind fun a t => .ok (k a t) t).OnError P := h.bind fun _ _ _ => trivial

theorem require {c : Bool} {e : Err} {k : Unit → Res α} (hs : P s) (h : c = true → (k ()).OnError P) :
    (Sys2Proof.Machine.require c e s k).OnError P := by
  cases c with
  | false => exact hs
  | true => exact h rfl

/-- A relation to every state the primitive leaves holds of the one an error leaves. -/
theorem of_stays {R : State → State → Prop} {r : Res α} (h : r.Stays R s) : r.OnError (R s) := by
  cases r with
  | ok a t => exact trivial
  | err e t => exact h
  | fault f => exact trivial

end Res.OnError

/-! ## Primitives that do not raise -/

section
variable (P : State → Prop)

theorem inByte_onError (p : Nat) (s : State) : (inByte p s).OnError P := by
  unfold inByte
  split
  · exact trivial
  · exact trivial

theorem takeBits_onError (n : Nat) (s : State) : (takeBits n s).OnError P := by
  induction n generalizing s with
  | zero => exact trivial
  | succ n ih => exact (inByte_onError P _ s).bind fun _ t _ => (ih (nextBit t)).bind fun _ _ _ => trivial

theorem windowRead_onError (j : Nat) (s : State) : (windowRead j s).OnError P := by
  unfold windowRead
  split
  · exact trivial
  · exact trivial

theorem copyLoop_onError (d n : Nat) (s : State) : (copyLoop d n s).OnError P := by
  induction n generalizing s with
  | zero => exact trivial
  | succ n ih => exact (windowRead_onError P _ s).bind fun b t _ => ih (windowPush b t)

theorem deleteAt_onError (slot : Nat) (s : State) : (deleteAt slot s).OnError P := by
  unfold deleteAt
  split
  · exact trivial
  · exact trivial

end

/-! ## Primitives that check before they write -/

/-- R217: an error of the result leaves the state as it was. -/
abbrev Res.FailsClean (s : State) (r : Res α) : Prop := r.OnError (Eq s)

theorem readBits_failsClean (n : Nat) (s : State) : (readBits n s).FailsClean s :=
  .require rfl fun _ => .require rfl fun _ => .require rfl fun _ => (takeBits_onError _ n s).bind fun _ _ _ => trivial

theorem readByte_failsClean (s : State) : (readByte s).FailsClean s :=
  .require rfl fun _ => .require rfl fun _ => .require rfl fun _ => (inByte_onError _ _ s).bind fun _ _ _ => trivial

theorem writeBits_failsClean (v n : Nat) (s : State) : (writeBits v n s).FailsClean s :=
  .require rfl fun _ => .require rfl fun _ => trivial

theorem writeByte_failsClean (b : Nat) (s : State) : (writeByte b s).FailsClean s :=
  .require rfl fun _ => .require rfl fun _ => .require rfl fun _ => trivial

theorem writeEof_failsClean (s : State) : (writeEof s).FailsClean s := by
  unfold writeEof
  split
  · exact trivial
  · exact .require rfl fun _ => trivial

/-- R150: a code is written whole or not at all. -/
theorem encodeSymbol_failsClean (a : Alphabet) (sym : Nat) (s : State) : (encodeSymbol a sym s).FailsClean s :=
  .require rfl fun _ => writeBits_failsClean _ _ s

theorem hufBuild_failsClean (a : Alphabet) (s : State) : (hufBuild a s).FailsClean s := by
  unfold hufBuild
  exact .require rfl fun _ => trivial

theorem hufCanon_failsClean (a : Alphabet) (s : State) : (hufCanon a s).FailsClean s := by
  unfold hufCanon
  split
  · exact rfl
  · exact trivial

theorem hufTrie_failsClean (a : Alphabet) (s : State) : (hufTrie a s).FailsClean s := by
  unfold hufTrie
  split
  · exact rfl
  · exact trivial

/-- R163: the walk itself writes nothing, and the links and MF_BEST are written after it. -/
theorem walk_failsClean (p : Nat) (mutate : Bool) (s : State) : (walk p mutate s).FailsClean s :=
  .require rfl fun _ => .require rfl fun _ => .require rfl fun _ =>
    (Res.OnError.of_stays (walkRoot_stays p s)).bind fun _ _ _ => trivial

theorem winPut_failsClean (b : Byte) (s : State) : (winPut b s).FailsClean s := .require rfl fun _ => trivial

theorem winCopy_failsClean (l d : Nat) (s : State) : (winCopy l d s).FailsClean s :=
  .require rfl fun _ => .require rfl fun _ => .require rfl fun _ => copyLoop_onError _ d l s

/-! ## Commands -/

/-- The instruction is a command whose primitives fail clean, and then a command's end (R216, R217). -/
def CommandFailsClean (i : Instr) : Prop := ∀ s, ∃ r, exec i s = finish r ∧ r.FailsClean s

namespace CommandFailsClean

variable {i : Instr}

/-- A command that is one update. -/
theorem of_ok (f : State → State) (r : State → Results) (hi : ∀ s, exec i s = finish (.ok (r s) (f s))) :
    CommandFailsClean i := fun s => ⟨_, hi s, trivial⟩

/-- A command that is one primitive, whose value gives the results. -/
theorem of_primitive (r : State → Res α) (k : State → α → State → Results)
    (hi : ∀ s, exec i s = finish ((r s).bind fun a t => .ok (k s a t) t)) (hr : ∀ s, (r s).FailsClean s) :
    CommandFailsClean i := fun s => ⟨_, hi s, (hr s).results _⟩

/-- A command that checks its operands first (R64). -/
theorem of_checked (c : State → Bool) (r : State → Unit → Res Results)
    (hi : ∀ s, exec i s = finish (require (c s) operandRange s (r s))) (hr : ∀ s, (r s ()).FailsClean s) :
    CommandFailsClean i := fun s => ⟨_, hi s, .require rfl fun _ => hr s⟩

/-- A command none of whose primitives changes the state. -/
theorem of_keeps (h : CommandKeeps Eq i) : CommandFailsClean i := fun s =>
  let ⟨r, hi, hr⟩ := h s
  ⟨r, hi, .of_stays hr⟩

/-- R216: an error that leaves the state as it was is then taken, which writes the completion fields alone. -/
theorem next (h : CommandFailsClean i) {s t : State} (ht : exec i s = .next t) (hcause : t.ctl.cause ≠ 0) :
    ∃ e, t = s.fail e := by
  obtain ⟨r, hi, hclean⟩ := h s
  rcases finish_eq_next.1 (hi ▸ ht) with ⟨x, u, -, rfl⟩ | ⟨e, u, rfl, rfl⟩
  · exact absurd rfl hcause
  · obtain rfl : s = u := hclean
    exact ⟨e, rfl⟩

end CommandFailsClean

/-- R217: every command fails clean but the pipelines and the three whose part reads and writes stand after an error. -/
theorem command_failsClean {i : Instr} (hi : IsCommand i) (hcompress : i ≠ .compress) (hexpand : i ≠ .expand)
    (hcodec : ∀ a, i ≠ .hufSerialize a ∧ i ≠ .hufDeserialize a ∧ i ≠ .hufDecode a) : CommandFailsClean i := by
  cases i with
  | compress => exact absurd rfl hcompress
  | expand => exact absurd rfl hexpand
  | hufSerialize a => exact absurd rfl (hcodec a).1
  | hufDeserialize a => exact absurd rfl (hcodec a).2.1
  | hufDecode a => exact absurd rfl (hcodec a).2.2
  | bwReset => exact .of_ok _ _ fun _ => rfl
  | brReset => exact .of_ok _ _ fun _ => rfl
  | mfInit => exact .of_ok _ _ fun _ => rfl
  | freqClear a => exact .of_ok _ _ fun _ => rfl
  | winReset => exact .of_ok _ _ fun _ => rfl
  | bwWriteBits => exact .of_primitive _ _ (fun _ => rfl) fun s => writeBits_failsClean _ _ s
  | bwWriteByte => exact .of_primitive _ _ (fun _ => rfl) fun s => writeByte_failsClean _ s
  | bwWriteEof => exact .of_primitive _ _ (fun _ => rfl) writeEof_failsClean
  | brReadBits => exact .of_primitive _ _ (fun _ => rfl) fun s => readBits_failsClean _ s
  | brReadByte => exact .of_primitive _ _ (fun _ => rfl) readByte_failsClean
  | mfInsert => exact .of_primitive _ _ (fun _ => rfl) fun s => walk_failsClean _ true s
  | mfProbe => exact .of_primitive _ _ (fun _ => rfl) fun s => walk_failsClean _ false s
  | mfDelete => exact .of_primitive _ _ (fun _ => rfl) fun s => deleteAt_onError _ _ s
  | hufBuild a => exact .of_primitive _ _ (fun _ => rfl) (hufBuild_failsClean a)
  | hufCanon a => exact .of_primitive _ _ (fun _ => rfl) (hufCanon_failsClean a)
  | hufTrie a => exact .of_primitive _ _ (fun _ => rfl) (hufTrie_failsClean a)
  | winCopy => exact .of_primitive _ _ (fun _ => rfl) fun s => winCopy_failsClean _ _ s
  | freqInc a => exact .of_checked _ _ (fun _ => rfl) fun _ => .require rfl fun _ => trivial
  | hufEncode a => exact .of_checked _ _ (fun _ => rfl) fun s => (encodeSymbol_failsClean a _ s).results _
  | clWrite a => exact .of_checked _ _ (fun _ => rfl) fun _ => trivial
  | winPut => exact .of_checked _ _ (fun _ => rfl) fun s => (winPut_failsClean _ s).results _
  | lenSlot => exact .of_keeps (observation_keeps (by simp))
  | distSlot => exact .of_keeps (observation_keeps (by simp))
  | lenRange => exact .of_keeps (observation_keeps (by simp))
  | distRange => exact .of_keeps (observation_keeps (by simp))
  | mfLongest => exact .of_keeps (observation_keeps (by simp))
  | treeRead => exact .of_keeps (observation_keeps (by simp))
  | winRead => exact .of_keeps (observation_keeps (by simp))
  | freqRead a => exact .of_keeps (observation_keeps (by simp))
  | clRead a => exact .of_keeps (observation_keeps (by simp))
  | cleShort l => exact absurd hi (not_isCommand_of_stream rfl)
  | cleExt1 x => exact absurd hi (not_isCommand_of_stream rfl)
  | cleExt2 y => exact absurd hi (not_isCommand_of_stream rfl)
  | cleZrunLl c => exact absurd hi (not_isCommand_of_stream rfl)
  | cleZrunD c => exact absurd hi (not_isCommand_of_stream rfl)
  | lit b => exact absurd hi (not_isCommand_of_stream rfl)
  | eos => exact absurd hi (not_isCommand_of_stream rfl)
  | match3 d => exact absurd hi (not_isCommand_of_stream rfl)
  | matchSlot k e j x => exact absurd hi (not_isCommand_of_stream rfl)

/-- Settles O23: the primitives of an atomic command fail clean, and the error is then taken. -/
theorem atomicCommandsFailClean : Obligations.AtomicCommandsFailClean := by
  intro i s t hi hcompress hexpand hcodec h hcause
  obtain ⟨e, rfl⟩ := (command_failsClean hi hcompress hexpand hcodec).next h hcause
  rfl

end Sys2Proof.Machine
end

section
/-! # Soft and hardware reset (70_reset_and_hazards.md R240, R241)

Both resets are `State.blockReset` of the state after the script's act. While the reset input is asserted no access reaches
the bus and the engine's turn is empty. -/

namespace Sys2Proof.Machine

variable {s : State} {rest : List HostAct}

/-- R240: a reset of the block leaves the rest of the script in place. -/
theorem State.popAct_blockReset (s : State) (rest : List HostAct) :
    (s.popAct rest).blockReset = State.resetWith s.params { s.host with todo := rest } := rfl

/-! ## The soft reset (R241) -/

/-- Settles O10: the write reaches CTRL whatever BUSY is, and its SRST bit decides alone. -/
theorem softResetRestoresReset : Obligations.SoftResetRestoresReset := by
  intro s v rest hr hv h
  rw [step_writeReg (by decide) (by decide) hr h, writeReg_srst hv, State.popAct_blockReset]

/-! ## The hardware reset (R240) -/

theorem step_assertReset (h : s.host.todo = .assertReset :: rest) :
    step s = .next { (s.popAct rest).blockReset with rstAsserted := true } := by
  simp [step, h, hostAct]

section
variable (hr : s.rstAsserted = true)
include hr

theorem step_releaseReset (h : s.host.todo = .releaseReset :: rest) : step s = .next (s.popAct rest).blockReset := by
  simp [step, h, hostAct, hr]

theorem step_read_resetAsserted {addr : Nat} {w : Width} (h : s.host.todo = .read addr w :: rest) :
    step s = .refused .resetAsserted := by
  simp [step, h, hostAct, hr]

theorem step_write_resetAsserted {addr : Nat} {w : Width} {v : Word} (h : s.host.todo = .write addr w v :: rest) :
    step s = .refused .resetAsserted := by
  simp [step, h, hostAct, hr]

/-- R240: a command in progress makes no step either. -/
theorem engineTurn_resetAsserted : engineTurn s = .next s := by
  simp [engineTurn, hr]

end

/-- Settles O11: an act of the platform resets the block, an access is refused, and a `wait` is an empty turn. -/
theorem hardwareReset : Obligations.HardwareReset := by
  intro s rest
  refine ⟨fun h => ?_, fun hr => ⟨fun _ _ => step_read_resetAsserted hr, fun _ _ _ => step_write_resetAsserted hr,
    fun h => ?_, fun h => ?_⟩⟩
  · rw [step_assertReset h, State.popAct_blockReset]
  · rw [step_wait h, engineTurn_resetAsserted (s := s.popAct rest) hr]
  · rw [step_releaseReset hr h, State.popAct_blockReset]

end Sys2Proof.Machine
end
